-- ==== Sys2Proof/Word.lean ====
section
/-!
DEFINITION. The words of the NCE: bytes and the unsigned widths u16, u32, u64 of 30_encoding R93.
Every value is unsigned (00_scope R6).
-/

namespace Sys2Proof

/-- One byte; also one GF(2^q) element in its byte lane (10_state R40, 44_gf R200). -/
abbrev Byte := BitVec 8
abbrev U16 := BitVec 16
abbrev U32 := BitVec 32
abbrev U64 := BitVec 64

end Sys2Proof
end

