-- ==== Sys2Proof/Config.lean ====
section
/-!
DEFINITION. The parameters of the spec (00_scope R5) and the free values it leaves open. The parameters are
the record `Params`, which the state carries so that every statement holds for all of them (log 3).
-/

namespace Sys2Proof

/-- A transport 4-tuple, the argument of FLOWKEY_FN (41_hash R150). -/
structure FourTuple where
  src : U32
  dst : U32
  sport : U16
  dport : U16
deriving DecidableEq, Repr

/-- The parameters of 00_scope R5. TIME_BITS, the width of NOW, is 64 in the type of every time, as the
formats of 10_state R23 and 40_control R134 have it; TIME_UNIT has no effect on the model (log 3). -/
structure Params where
  /-- Q_MAX: largest field order. -/
  qMax : Nat
  /-- POLY[1], POLY[2], … (44_gf R200). -/
  polys : List Nat
  /-- K_MAX: largest fragment size. -/
  kMax : Nat
  /-- FLOWKEY_FN as a table of the 4-tuples where it differs from the default of 41_hash R150; every
  total function has such a table (log 1). -/
  flowKeys : List (FourTuple × U16)
  /-- POOL_FLOWS_MAX: largest number of non-empty pool buckets. -/
  poolFlowsMax : Nat
  /-- OQ_MAX: largest number of batches in the output queue. -/
  oqMax : Nat
  /-- FLOWS_MAX: largest number of flow records. -/
  flowsMax : Nat
  /-- TXBUF_MAX: largest number of packets in one txBuffer. -/
  txbufMax : Nat
  /-- PAYLOAD_MAX: largest payload length in bytes. -/
  payloadMax : Nat
  /-- CMD_MAX: largest accepted OLEN. -/
  cmdMax : Nat
deriving DecidableEq, Repr

namespace Config

/-- The spec's default table POLY[1..8] (44_gf R200, log 2). -/
def defaultPolys : List Nat := [0x3, 0x7, 0xB, 0x13, 0x25, 0x43, 0x89, 0x11D]

/-- The values that 00_scope R5 gives its parameters, and for the OPEN ones the values that
95_test_vectors section 0 gives its vectors (DESIGN CHOICE, log 3). -/
def vectorParams : Params :=
  { qMax := 8, polys := defaultPolys, kMax := 255, flowKeys := [], poolFlowsMax := 16, oqMax := 16,
    flowsMax := 16, txbufMax := 512, payloadMax := 1500, cmdMax := 1048576 }

/-- The raw symbols of free vector number `serial`, element `i`: a DRAW answer that no host supplied
(44_gf R209, log 4), or a row of the inverse of a matrix that has none (log 9). Free. -/
opaque freeSymbol (serial i : Nat) : Byte

end Config

end Sys2Proof
end

