-- ==== Sys2Proof/Syntax.lean ====
section
/-!
DEFINITION. The commands of NCE-CMD v1 (30_encoding R94, R101): one constructor of `Instr` for each row of
spec/opcode_table.json, with its operands as typed values.
-/

namespace Sys2Proof

/-- `desc`, an inter-flow descriptor (30_encoding R93, 42_headers R160). -/
structure Desc where
  dst : U32
  seq : U32
  fh : U16
  len : U16
deriving DecidableEq, Repr

/-- `ackd`, an ACK descriptor (30_encoding R93). -/
structure Ackd where
  dst : U32
  tcp : List Byte
deriving DecidableEq, Repr

/-- The operands of a command: values of its layout, or the operand bytes where they do not parse as
that layout (30_encoding R92 step 6, which comes after the phase check; log 12). -/
inductive Args (α : Type) where
  | ok (a : α)
  | bad (bytes : List Byte)
deriving DecidableEq, Repr

structure CfgWriteArgs where
  reg : Byte
  value : U32
deriving DecidableEq, Repr

structure HashArgs where
  src : U32
  dst : U32
  sport : U16
  dport : U16
deriving DecidableEq, Repr

/-- The counts n and a of the layout are the lengths of the two lists. -/
structure HdrBuildInterArgs where
  proto : Byte
  ptype : Byte
  descs : List Desc
  acks : List Ackd
deriving DecidableEq, Repr

/-- The count k of the layout is the length of `coeff`. -/
structure HdrBuildIntraArgs where
  q : Byte
  frag : U16
  txtype : Byte
  sport : U16
  dport : U16
  coeff : List Byte
deriving DecidableEq, Repr

structure XorDecArgs where
  coded : List Byte
  natives : List (List Byte)
deriving DecidableEq, Repr

structure GfMulArgs where
  a : Byte
  b : Byte
deriving DecidableEq, Repr

/-- `elems` is row-major and holds r·c elements. -/
structure MatRankArgs where
  r : Byte
  c : Byte
  elems : List Byte
deriving DecidableEq, Repr

/-- `elems` is row-major and holds n·n elements. -/
structure MatInvArgs where
  n : Byte
  elems : List Byte
deriving DecidableEq, Repr

structure PoolInsertArgs where
  src : U32
  dst : U32
  sport : U16
  dport : U16
  proto : Byte
  seq : U32
  payload : List Byte
deriving DecidableEq, Repr

structure OqPopArgs where
  ptype : Byte
  acks : List Ackd
deriving DecidableEq, Repr

structure TxPushArgs where
  flow : U16
  sport : U16
  dport : U16
  payload : List Byte
deriving DecidableEq, Repr

structure RxPacketArgs where
  flow : U16
  pkt : List Byte
deriving DecidableEq, Repr

structure ChangeFragmentArgs where
  flow : U16
  nfrag : U16
deriving DecidableEq, Repr

structure FlowRowArgs where
  flow : U16
  i : Byte
deriving DecidableEq, Repr

/-- One command. `native` and `fwd` are FLG bit 0 of the two commands that define it (30_encoding
R101). -/
inductive Instr where
  | nop (o : Args Unit)
  | regRead (o : Args Byte)
  | cfgWrite (o : Args CfgWriteArgs)
  | start (o : Args Unit)
  | timeAdvance (o : Args U64)
  | hash (o : Args HashArgs)
  | hdrBuildInter (o : Args HdrBuildInterArgs)
  | hdrParseInter (o : Args (List Byte))
  | hdrBuildIntra (o : Args HdrBuildIntraArgs)
  | hdrParseIntra (o : Args (List Byte))
  | xorEnc (o : Args (List (List Byte)))
  | xorDec (o : Args XorDecArgs)
  | gfMul (o : Args GfMulArgs)
  | gfInv (o : Args Byte)
  | matRank (o : Args MatRankArgs)
  | matInv (o : Args MatInvArgs)
  | vecGen (o : Args Byte)
  | poolInsert (native : Bool) (o : Args PoolInsertArgs)
  | oqPopFrame (o : Args OqPopArgs)
  | poolStat (o : Args U16)
  | txPush (o : Args TxPushArgs)
  | encode (o : Args U16)
  | rxPacket (fwd : Bool) (o : Args RxPacketArgs)
  | decode (o : Args U16)
  | recode (o : Args U16)
  | changeFragment (o : Args ChangeFragmentArgs)
  | flowStat (o : Args U16)
  | flowRow (o : Args FlowRowArgs)
deriving DecidableEq, Repr

end Sys2Proof
end

