-- ==== Sys2Proof/Decode.lean ====
section
/-!
DEFINITION. The command format: byte order (20_memory R71), operand elements (30_encoding R93), operand layouts
(R94), the command header and opcode map (R90, R91, R101, R102), the fetch of one command from the byte
stream, and the encoder written from the same tables.
-/

namespace Sys2Proof

/-! ## Big-endian integers -/

/-- The big-endian unsigned value of a byte string (20_memory R71). -/
def beNat (bs : List Byte) : Nat := bs.foldl (fun n b => n * 256 + b.toNat) 0

/-- The `n` big-endian bytes of `v` (20_memory R71). -/
def putBE : Nat → Nat → List Byte
  | 0, _ => []
  | n + 1, v => BitVec.ofNat 8 (v / 256 ^ n) :: putBE n v

def put16 (v : U16) : List Byte := putBE 2 v.toNat
def put32 (v : U32) : List Byte := putBE 4 v.toNat
def put64 (v : U64) : List Byte := putBE 8 v.toNat

/-! ## Operand elements -/

/-- Takes one element from the front of a byte string: the element and the bytes after it. -/
abbrev Parser (α : Type) := List Byte → Option (α × List Byte)

/-- An element of `n` big-endian bytes. -/
def getBE (n : Nat) : Parser Nat := fun bs =>
  if bs.length < n then none else some (beNat (bs.take n), bs.drop n)

def getNone : Parser Unit := fun bs => some ((), bs)

def getU8 : Parser Byte
  | [] => none
  | b :: bs => some (b, bs)

def getU16 : Parser U16 := fun bs => (getBE 2 bs).map fun (v, r) => (BitVec.ofNat 16 v, r)
def getU32 : Parser U32 := fun bs => (getBE 4 bs).map fun (v, r) => (BitVec.ofNat 32 v, r)
def getU64 : Parser U64 := fun bs => (getBE 8 bs).map fun (v, r) => (BitVec.ofNat 64 v, r)

/-- The next `n` bytes as they are. -/
def getBytes (n : Nat) : Parser (List Byte) := fun bs =>
  if bs.length < n then none else some (bs.take n, bs.drop n)

/-- `blob`: a u32 length and that many bytes. -/
def getBlob : Parser (List Byte) := fun bs => do
  let (len, r) ← getBE 4 bs
  getBytes len r

def getDesc : Parser Desc := fun bs => do
  let (dst, bs) ← getU32 bs
  let (seq, bs) ← getU32 bs
  let (fh, bs) ← getU16 bs
  let (len, bs) ← getU16 bs
  return ({ dst, seq, fh, len }, bs)

def getAckd : Parser Ackd := fun bs => do
  let (dst, bs) ← getU32 bs
  let (tcp, bs) ← getBlob bs
  return ({ dst, tcp }, bs)

/-- `N×e`: n elements in a row. -/
def getMany {α : Type} (p : Parser α) : Nat → Parser (List α)
  | 0, bs => some ([], bs)
  | n + 1, bs => do
    let (x, bs) ← p bs
    let (xs, bs) ← getMany p n bs
    return (x :: xs, bs)

def putBlob (b : List Byte) : List Byte := putBE 4 b.length ++ b
def putDesc (d : Desc) : List Byte := put32 d.dst ++ put32 d.seq ++ put16 d.fh ++ put16 d.len
def putAckd (a : Ackd) : List Byte := put32 a.dst ++ putBlob a.tcp
/-- A count byte. -/
def putCount (n : Nat) : List Byte := [BitVec.ofNat 8 n]

/-! ## Operand layouts (30_encoding R94) -/

def getCfgWrite : Parser CfgWriteArgs := fun bs => do
  let (reg, bs) ← getU8 bs
  let (value, bs) ← getU32 bs
  return ({ reg, value }, bs)

def getHash : Parser HashArgs := fun bs => do
  let (src, bs) ← getU32 bs
  let (dst, bs) ← getU32 bs
  let (sport, bs) ← getU16 bs
  let (dport, bs) ← getU16 bs
  return ({ src, dst, sport, dport }, bs)

def getHdrBuildInter : Parser HdrBuildInterArgs := fun bs => do
  let (proto, bs) ← getU8 bs
  let (ptype, bs) ← getU8 bs
  let (n, bs) ← getU8 bs
  let (a, bs) ← getU8 bs
  let (descs, bs) ← getMany getDesc n.toNat bs
  let (acks, bs) ← getMany getAckd a.toNat bs
  return ({ proto, ptype, descs, acks }, bs)

def getHdrBuildIntra : Parser HdrBuildIntraArgs := fun bs => do
  let (k, bs) ← getU8 bs
  let (q, bs) ← getU8 bs
  let (frag, bs) ← getU16 bs
  let (txtype, bs) ← getU8 bs
  let (sport, bs) ← getU16 bs
  let (dport, bs) ← getU16 bs
  let (coeff, bs) ← getBytes k.toNat bs
  return ({ q, frag, txtype, sport, dport, coeff }, bs)

def getXorEnc : Parser (List (List Byte)) := fun bs => do
  let (n, bs) ← getU8 bs
  getMany getBlob n.toNat bs

def getXorDec : Parser XorDecArgs := fun bs => do
  let (coded, bs) ← getBlob bs
  let (m, bs) ← getU8 bs
  let (natives, bs) ← getMany getBlob m.toNat bs
  return ({ coded, natives }, bs)

def getGfMul : Parser GfMulArgs := fun bs => do
  let (a, bs) ← getU8 bs
  let (b, bs) ← getU8 bs
  return ({ a, b }, bs)

def getMatRank : Parser MatRankArgs := fun bs => do
  let (r, bs) ← getU8 bs
  let (c, bs) ← getU8 bs
  let (elems, bs) ← getBytes (r.toNat * c.toNat) bs
  return ({ r, c, elems }, bs)

def getMatInv : Parser MatInvArgs := fun bs => do
  let (n, bs) ← getU8 bs
  let (elems, bs) ← getBytes (n.toNat * n.toNat) bs
  return ({ n, elems }, bs)

def getPoolInsert : Parser PoolInsertArgs := fun bs => do
  let (src, bs) ← getU32 bs
  let (dst, bs) ← getU32 bs
  let (sport, bs) ← getU16 bs
  let (dport, bs) ← getU16 bs
  let (proto, bs) ← getU8 bs
  let (seq, bs) ← getU32 bs
  let (payload, bs) ← getBlob bs
  return ({ src, dst, sport, dport, proto, seq, payload }, bs)

def getOqPop : Parser OqPopArgs := fun bs => do
  let (ptype, bs) ← getU8 bs
  let (a, bs) ← getU8 bs
  let (acks, bs) ← getMany getAckd a.toNat bs
  return ({ ptype, acks }, bs)

def getTxPush : Parser TxPushArgs := fun bs => do
  let (flow, bs) ← getU16 bs
  let (sport, bs) ← getU16 bs
  let (dport, bs) ← getU16 bs
  let (payload, bs) ← getBlob bs
  return ({ flow, sport, dport, payload }, bs)

def getRxPacket : Parser RxPacketArgs := fun bs => do
  let (flow, bs) ← getU16 bs
  let (pkt, bs) ← getBlob bs
  return ({ flow, pkt }, bs)

def getChangeFragment : Parser ChangeFragmentArgs := fun bs => do
  let (flow, bs) ← getU16 bs
  let (nfrag, bs) ← getU16 bs
  return ({ flow, nfrag }, bs)

def getFlowRow : Parser FlowRowArgs := fun bs => do
  let (flow, bs) ← getU16 bs
  let (i, bs) ← getU8 bs
  return ({ flow, i }, bs)

/-- A layout parses when it consumes exactly the operand bytes (30_encoding R93). -/
def parseArgs {α : Type} (p : Parser α) (bs : List Byte) : Args α :=
  match p bs with
  | some (a, []) => .ok a
  | _ => .bad bs

def putCfgWrite (o : CfgWriteArgs) : List Byte := o.reg :: put32 o.value

def putHash (o : HashArgs) : List Byte :=
  put32 o.src ++ put32 o.dst ++ put16 o.sport ++ put16 o.dport

def putHdrBuildInter (o : HdrBuildInterArgs) : List Byte :=
  [o.proto, o.ptype] ++ putCount o.descs.length ++ putCount o.acks.length ++
    o.descs.flatMap putDesc ++ o.acks.flatMap putAckd

def putHdrBuildIntra (o : HdrBuildIntraArgs) : List Byte :=
  putCount o.coeff.length ++ [o.q] ++ put16 o.frag ++ [o.txtype] ++ put16 o.sport ++
    put16 o.dport ++ o.coeff

def putXorEnc (ps : List (List Byte)) : List Byte := putCount ps.length ++ ps.flatMap putBlob

def putXorDec (o : XorDecArgs) : List Byte :=
  putBlob o.coded ++ putCount o.natives.length ++ o.natives.flatMap putBlob

def putPoolInsert (o : PoolInsertArgs) : List Byte :=
  put32 o.src ++ put32 o.dst ++ put16 o.sport ++ put16 o.dport ++ [o.proto] ++ put32 o.seq ++
    putBlob o.payload

def putOqPop (o : OqPopArgs) : List Byte :=
  [o.ptype] ++ putCount o.acks.length ++ o.acks.flatMap putAckd

def putTxPush (o : TxPushArgs) : List Byte :=
  put16 o.flow ++ put16 o.sport ++ put16 o.dport ++ putBlob o.payload

/-- The operand bytes of a command's operands. -/
def Args.put {α : Type} (f : α → List Byte) : Args α → List Byte
  | .ok a => f a
  | .bad bs => bs

/-! ## Opcode map (30_encoding R101) -/

/-- FLG bit 0 is defined for POOL_INSERT and RX_PACKET only. -/
def flagBitZeroDefined (opc : Byte) : Bool := opc == 0x50#8 || opc == 0x62#8

/-- The command of opcode `opc` with FLG bit 0 `flag` and operand bytes `ops`; none for an OPC that is
not in the opcode map. -/
def instrOf (opc : Byte) (flag : Bool) (ops : List Byte) : Option Instr :=
  match opc.toNat with
  | 0x00 => some (.nop (parseArgs getNone ops))
  | 0x01 => some (.regRead (parseArgs getU8 ops))
  | 0x02 => some (.cfgWrite (parseArgs getCfgWrite ops))
  | 0x03 => some (.start (parseArgs getNone ops))
  | 0x04 => some (.timeAdvance (parseArgs getU64 ops))
  | 0x10 => some (.hash (parseArgs getHash ops))
  | 0x20 => some (.hdrBuildInter (parseArgs getHdrBuildInter ops))
  | 0x21 => some (.hdrParseInter (parseArgs getBlob ops))
  | 0x22 => some (.hdrBuildIntra (parseArgs getHdrBuildIntra ops))
  | 0x23 => some (.hdrParseIntra (parseArgs getBlob ops))
  | 0x30 => some (.xorEnc (parseArgs getXorEnc ops))
  | 0x31 => some (.xorDec (parseArgs getXorDec ops))
  | 0x40 => some (.gfMul (parseArgs getGfMul ops))
  | 0x41 => some (.gfInv (parseArgs getU8 ops))
  | 0x42 => some (.matRank (parseArgs getMatRank ops))
  | 0x43 => some (.matInv (parseArgs getMatInv ops))
  | 0x44 => some (.vecGen (parseArgs getU8 ops))
  | 0x50 => some (.poolInsert flag (parseArgs getPoolInsert ops))
  | 0x51 => some (.oqPopFrame (parseArgs getOqPop ops))
  | 0x52 => some (.poolStat (parseArgs getU16 ops))
  | 0x60 => some (.txPush (parseArgs getTxPush ops))
  | 0x61 => some (.encode (parseArgs getU16 ops))
  | 0x62 => some (.rxPacket flag (parseArgs getRxPacket ops))
  | 0x63 => some (.decode (parseArgs getU16 ops))
  | 0x64 => some (.recode (parseArgs getU16 ops))
  | 0x65 => some (.changeFragment (parseArgs getChangeFragment ops))
  | 0x66 => some (.flowStat (parseArgs getU16 ops))
  | 0x67 => some (.flowRow (parseArgs getFlowRow ops))
  | _ => none

/-- Why a command is no instruction: both answer E_OPCODE (30_encoding R92 steps 2 and 3). -/
inductive DecodeError where
  /-- OPC is not in the opcode map (R92 step 2, R102). -/
  | unknownOpcode
  /-- RSV ≠ 0, or an undefined FLG bit is set (R92 step 3, R102). -/
  | reservedBits
deriving DecidableEq, Repr

/-- A whole command taken from the front of the stream: its instruction, or its OPC and the reason it
is none. -/
inductive Decoded where
  | instr (i : Instr)
  | illegal (opc : Byte) (why : DecodeError)
deriving DecidableEq, Repr

/-- Header checks in the order of 30_encoding R92: the opcode, then RSV and FLG. -/
def decodeCommand (opc flg rsvHi rsvLo : Byte) (ops : List Byte) : Decoded :=
  match instrOf opc (flg.getLsbD 0) ops with
  | none => .illegal opc .unknownOpcode
  | some i =>
    if rsvHi ≠ 0 ∨ rsvLo ≠ 0 ∨ ¬ (flg = 0 ∨ flg = 1 ∧ flagBitZeroDefined opc = true) then
      .illegal opc .reservedBits
    else .instr i

/-- Takes the next command from the command stream (30_encoding R90, R91): exactly 8 + OLEN bytes. None
while they have not all arrived. -/
def fetchCommand : List Byte → Option (Decoded × List Byte)
  | opc :: flg :: rsvHi :: rsvLo :: l3 :: l2 :: l1 :: l0 :: rest => do
    let (ops, rest) ← getBytes (beNat [l3, l2, l1, l0]) rest
    return (decodeCommand opc flg rsvHi rsvLo ops, rest)
  | _ => none

/-! ## Encoder -/

/-- OPC of a command (30_encoding R101). -/
def Instr.opcode : Instr → Byte
  | .nop _ => 0x00#8
  | .regRead _ => 0x01#8
  | .cfgWrite _ => 0x02#8
  | .start _ => 0x03#8
  | .timeAdvance _ => 0x04#8
  | .hash _ => 0x10#8
  | .hdrBuildInter _ => 0x20#8
  | .hdrParseInter _ => 0x21#8
  | .hdrBuildIntra _ => 0x22#8
  | .hdrParseIntra _ => 0x23#8
  | .xorEnc _ => 0x30#8
  | .xorDec _ => 0x31#8
  | .gfMul _ => 0x40#8
  | .gfInv _ => 0x41#8
  | .matRank _ => 0x42#8
  | .matInv _ => 0x43#8
  | .vecGen _ => 0x44#8
  | .poolInsert _ _ => 0x50#8
  | .oqPopFrame _ => 0x51#8
  | .poolStat _ => 0x52#8
  | .txPush _ => 0x60#8
  | .encode _ => 0x61#8
  | .rxPacket _ _ => 0x62#8
  | .decode _ => 0x63#8
  | .recode _ => 0x64#8
  | .changeFragment _ => 0x65#8
  | .flowStat _ => 0x66#8
  | .flowRow _ => 0x67#8

/-- FLG of a command. -/
def Instr.flagByte : Instr → Byte
  | .poolInsert native _ => if native then 1 else 0
  | .rxPacket fwd _ => if fwd then 1 else 0
  | _ => 0

/-- The operand bytes of a command (30_encoding R94). -/
def Instr.operandBytes : Instr → List Byte
  | .nop o => o.put fun _ => []
  | .regRead o => o.put fun r => [r]
  | .cfgWrite o => o.put putCfgWrite
  | .start o => o.put fun _ => []
  | .timeAdvance o => o.put put64
  | .hash o => o.put putHash
  | .hdrBuildInter o => o.put putHdrBuildInter
  | .hdrParseInter o => o.put putBlob
  | .hdrBuildIntra o => o.put putHdrBuildIntra
  | .hdrParseIntra o => o.put putBlob
  | .xorEnc o => o.put putXorEnc
  | .xorDec o => o.put putXorDec
  | .gfMul o => o.put fun x => [x.a, x.b]
  | .gfInv o => o.put fun a => [a]
  | .matRank o => o.put fun x => [x.r, x.c] ++ x.elems
  | .matInv o => o.put fun x => [x.n] ++ x.elems
  | .vecGen o => o.put fun n => [n]
  | .poolInsert _ o => o.put putPoolInsert
  | .oqPopFrame o => o.put putOqPop
  | .poolStat o => o.put put16
  | .txPush o => o.put putTxPush
  | .encode o => o.put put16
  | .rxPacket _ o => o.put fun x => put16 x.flow ++ putBlob x.pkt
  | .decode o => o.put put16
  | .recode o => o.put put16
  | .changeFragment o => o.put fun x => put16 x.flow ++ put16 x.nfrag
  | .flowStat o => o.put put16
  | .flowRow o => o.put fun x => put16 x.flow ++ [x.i]

/-- OLEN of a command (30_encoding R91). -/
def Instr.olen (i : Instr) : Nat := i.operandBytes.length

/-- The bytes of a command: header, then operands (30_encoding R90, R91). -/
def encode (i : Instr) : List Byte :=
  [i.opcode, i.flagByte, 0, 0] ++ putBE 4 i.olen ++ i.operandBytes

/-! ## Commands given as the opcode table numbers their bits -/

/-- The command whose bits are `w` (spec/opcode_table.json): bits 31..0 are W0, bits 63..32 are W1
(OLEN), and operand byte j is bits 64+8j+7..64+8j. Bits from `nbits` on are 0. -/
def tableBytes (nbits w : Nat) : List Byte :=
  let v := w % 2 ^ nbits
  let olen := v / 2 ^ 32 % 2 ^ 32
  putBE 4 (v % 2 ^ 32) ++ putBE 4 olen ++
    (List.range olen).map fun j => BitVec.ofNat 8 (v / 2 ^ (64 + 8 * j))

/-- The instruction the decoder reads from the command whose bits are `w`. -/
def decodeTableWord (nbits w : Nat) : Option Instr :=
  match fetchCommand (tableBytes nbits w) with
  | some (.instr i, _) => some i
  | _ => none

end Sys2Proof
end

