-- ==== Sys2Proof/Machine/Field.lean ====
section
/-!
DEFINITION. The GF(2^q) engine's arithmetic (44_gf R200 to R208): field, vectors, rank, inverse and the combination of
payloads. `F` is the field, `q` its order as a number.
-/

namespace Sys2Proof.Machine

/-! ## The field -/

/-- POLY[q] for 1 ≤ q ≤ 8 (44_gf R200), 0 elsewhere (10_state R25). -/
def poly (p : Params) (q : Nat) : Nat := if 1 ≤ q ∧ q ≤ 8 then p.polys.getD (q - 1) 0 else 0

/-- The field of the arithmetic: its order q and the polynomial POLY[q] (44_gf R200, log 2). -/
structure Gf where
  q : Nat
  poly : Nat
deriving DecidableEq, Repr

/-- `gadd` (44_gf R201). -/
def gadd (a b : Byte) : Byte := a ^^^ b

/-- The loop of `gmul` for j = n-1 down to 0, from `r` (44_gf R202). -/
def gmulLoop (F : Gf) (a b : Nat) : Nat → Nat → Nat
  | 0, r => r
  | j + 1, r =>
    let r := r * 2
    let r := if r.testBit F.q then r ^^^ F.poly else r
    let r := if b.testBit j then r ^^^ a else r
    gmulLoop F a b j r

/-- `gmul` (44_gf R202). -/
def gmul (F : Gf) (a b : Byte) : Byte := BitVec.ofNat 8 (gmulLoop F a.toNat b.toNat F.q 0)

/-- a raised to the power n. -/
def gpow (F : Gf) (a : Byte) : Nat → Byte
  | 0 => 1
  | n + 1 => gmul F (gpow F a n) a

/-- `ginv`: a raised to the power 2^q − 2 (44_gf R203). No rule asks for `ginv(0)` (log 15). -/
def ginv (F : Gf) (a : Byte) : Byte := gpow F a (2 ^ F.q - 2)

/-- A GF(2^q) element: a byte below 2^q (30_encoding R95). -/
def isElem (q : Nat) (a : Byte) : Bool := a.toNat < 2 ^ q

/-! ## Vectors and matrices (44_gf R204) -/

/-- s·v. -/
def scale (F : Gf) (s : Byte) (v : List Byte) : List Byte := v.map (gmul F s)

/-- Element-wise sum of two vectors of one length. -/
def vadd (v w : List Byte) : List Byte := List.zipWith gadd v w

/-- The zero vector of length n. -/
def zeroVec (n : Nat) : List Byte := List.replicate n 0

/-- LC(u, A) for rows of length n; an empty sum is the zero vector. -/
def linComb (F : Gf) (n : Nat) (u : List Byte) (rows : List (List Byte)) : List Byte :=
  (List.zipWith (scale F) u rows).foldl vadd (zeroVec n)

/-- A·B for a matrix B whose rows have length n. -/
def matMul (F : Gf) (n : Nat) (a b : List (List Byte)) : List (List Byte) := a.map fun r => linComb F n r b

/-- Row i of I_n. -/
def unitVec (n i : Nat) : List Byte := (List.range n).map fun j => if j = i then 1 else 0

/-- I_n. -/
def identity (n : Nat) : List (List Byte) := (List.range n).map (unitVec n)

/-- Splits row-major elements into r rows of length c. -/
def toRows (c : Nat) : Nat → List Byte → List (List Byte)
  | 0, _ => []
  | r + 1, es => es.take c :: toRows c r (es.drop c)

/-- The first row with a non-zero entry in column `col`, and the other rows in order. -/
def findPivot (col : Nat) : List (List Byte) → Option (List Byte × List (List Byte))
  | [] => none
  | v :: vs =>
    if v.getD col 0 ≠ 0 then some (v, vs)
    else (findPivot col vs).map fun (p, others) => (p, v :: others)

/-- Clears column `col` of row `v` with the row `p`, whose entry in that column has the inverse `s`. -/
def clearColumn (F : Gf) (col : Nat) (p : List Byte) (s : Byte) (v : List Byte) : List Byte :=
  vadd v (scale F (gmul F (v.getD col 0) s) p)

/-- Forward elimination over the columns `cols` in turn: how many pivots it finds (44_gf R205). The
rows above the current one are dropped, since no later step reads them. -/
def rankCols (F : Gf) : List Nat → List (List Byte) → Nat
  | [], _ => 0
  | col :: cols, rows =>
    match findPivot col rows with
    | none => rankCols F cols rows
    | some (p, others) =>
      1 + rankCols F cols (others.map (clearColumn F col p (ginv F (p.getD col 0))))

/-- RANK of rows of length c (44_gf R205). -/
def matRank (F : Gf) (c : Nat) (rows : List (List Byte)) : Nat := rankCols F (List.range c) rows

/-- INDEP(R, v) for vectors of length n (44_gf R206). -/
def indep (F : Gf) (n : Nat) (rows : List (List Byte)) (v : List Byte) : Bool :=
  matRank F n (rows ++ [v]) == rows.length + 1

/-- Gauss-Jordan on augmented rows (44_gf R207): `done` are the rows already in place, `rest` the rows
below them. None when a column has no pivot. -/
def gaussJordan (F : Gf) : List Nat → List (List Byte) → List (List Byte) →
    Option (List (List Byte))
  | [], done, _ => some done
  | col :: cols, done, rest =>
    match findPivot col rest with
    | none => none
    | some (p, others) =>
      let row := scale F (ginv F (p.getD col 0)) p
      let clear := clearColumn F col row 1
      gaussJordan F cols (done.map clear ++ [row]) (others.map clear)

/-- INV(A) of an n×n matrix (44_gf R207): the right half of the reduced [A | I_n]. None when A is not
invertible. -/
def matInv (F : Gf) (n : Nat) (rows : List (List Byte)) : Option (List (List Byte)) :=
  (gaussJordan F (List.range n) [] (List.zipWith (· ++ ·) rows (identity n))).map
    fun rs => rs.map (List.drop n)

/-! ## Payloads -/

/-- The length of the longest member; 0 for no member (00_scope R6). -/
def maxLength (ps : List (List Byte)) : Nat := ps.foldl (fun n p => max n p.length) 0

/-- LCP(u, p) (44_gf R208): one symbol a byte, zero-padded to the longest payload. -/
def lcp (F : Gf) (u : List Byte) (ps : List (List Byte)) : List Byte :=
  (List.range (maxLength ps)).map fun s =>
    (List.zipWith (fun c p => gmul F c (p.getD s 0)) u ps).foldl gadd 0

/-- XORALL(ps) (43_xor R190). -/
def xorAll (ps : List (List Byte)) : List Byte :=
  (List.range (maxLength ps)).map fun i => (ps.map fun p => p.getD i 0).foldl (· ^^^ ·) 0

end Sys2Proof.Machine
end

