-- ==== Sys2Proof/Machine/State.lean ====
section
/-!
DEFINITION. The state of the NCE as plain data (10_state), the codes and events its rules name, and the state after
reset (70_reset R360).
-/

namespace Sys2Proof.Machine

/-- PHASE (10_state R27). -/
inductive Phase where
  | config
  | run
deriving DecidableEq, Repr

/-- Status codes (60_exceptions R330). -/
inductive Status where
  | ok
  | iNotFired
  | iDependent
  | iBehind
  | iStale
  | iEmpty
  | eOpcode
  | eOperand
  | ePhase
  | eConfig
  | eFaulted
  | eTime
  | eMalformed
  | eFieldQ
  | eKMismatch
  | eNoFlow
  | eRank
  | eZero
  | eSingular
deriving DecidableEq, Repr

/-- The registers of the register map (10_state R21). -/
inductive Reg where
  | id
  | status
  | nowLo
  | nowHi
  | oqDepth
  | poolBuckets
  | flows
  | mbs
  | btoInter
  | mcp
  | q
  | kcfg
  | mode
  | btoIntra
  | encCap
  | recCap
  | cfAdvance
  | poly
deriving DecidableEq, Repr

/-- An armed timer (10_state R32, R44): a 65-bit deadline and the TSEQ value of its arming. -/
structure Timer where
  deadline : BitVec 65
  seq : Nat
deriving DecidableEq, Repr

/-- Item (10_state R30). -/
structure Item where
  payload : List Byte
  src : U32
  dst : U32
  sport : U16
  dport : U16
  proto : Byte
  fk : U16
  seq : U32
  native : Bool
  ts : U64
deriving DecidableEq, Repr

/-- Bucket (10_state R31, R32): a non-empty FIFO, oldest item first, with its one armed timer PT. -/
structure Bucket where
  head : Item
  rest : List Item
  timer : Timer
deriving DecidableEq, Repr

/-- Batch (10_state R34): a non-empty list of items, first item first, and the least `ts` among them. -/
structure Batch where
  first : Item
  others : List Item
  oldest : U64
deriving DecidableEq, Repr

/-- Flow record, the source's MapParameters (10_state R40 to R45). `mat` lists the rows of the
coefficient matrix from row 0; an entry that is not listed is 0 (log 14). -/
structure FlowRec where
  k : Byte
  rank : Byte
  frag : U16
  txCounter : U32
  fwd : Bool
  mat : List (List Byte)
  tx : List (List Byte)
  rx : List (List Byte)
  sport : U16
  dport : U16
  ft : Option Timer
deriving DecidableEq, Repr

/-- A finite map from a 16-bit key, in strictly rising key order (10_state R31, R40). -/
abbrev Table (α : Type) := List (U16 × α)

/-- Emitted records (30_encoding R98). -/
inductive Record where
  | send
  | rlncTx (flow : U16) (frame : List Byte)
  | rlncDeliver (flow frag : U16) (j : Byte) (payload : List Byte)
  | rlncAck (flow : U16) (frame : List Byte)
deriving DecidableEq, Repr

/-- One thing sent to the outside, as its bytes: a record on the output port (30_encoding R98) or a
response to the host (R97). -/
inductive Output where
  | record (bytes : List Byte)
  | response (bytes : List Byte)
deriving DecidableEq, Repr

/-- The reasons to stop. There is none: no rule makes the engine stop answering (60_exceptions R342;
the sticky fault of R337 is a state in which it goes on), and the model stops nowhere (log 16). -/
inductive Fault where
deriving DecidableEq, Repr

/-- The reasons to refuse. -/
inductive Refusal where
  /-- `exec` raises it for an instruction that has no meaning yet; no arm does. Safe: the run stops. -/
  | notModelled (mnemonic : String)
deriving DecidableEq, Repr

/-- The whole state (10_state). The fields after `flows` are the ports and inputs (30_encoding R90,
R97, R98; 70_reset R360; 00_scope R5) and the model's own (log 3, log 4). -/
structure State where
  phase : Phase
  faulted : Bool
  fcode : Byte
  now : U64
  tseq : Nat
  mbs : U16
  btoInter : U32
  mcp : Byte
  q : BitVec 4
  kcfg : Byte
  mode : BitVec 1
  btoIntra : U32
  encCap : U32
  recCap : U32
  cfAdvance : BitVec 1
  pool : Table Bucket
  oq : List Batch
  flows : Table FlowRec
  /-- Command port: the bytes not yet consumed (30_encoding R90, log 5). -/
  cmdIn : List Byte
  /-- What the two out ports have sent since reset, oldest first (20_memory R76; responses too: log 6). -/
  outputs : List Output
  /-- The reset input signal (70_reset R360, log 7). -/
  resetPin : Bool
  /-- DRAW answers waiting to be taken (10_state R47, log 4). -/
  draws : List (List Byte)
  /-- Serial number of the next free value (log 4, log 9). -/
  freeCount : Nat
  /-- The parameters of 00_scope R5 (log 3); no step writes them. -/
  params : Params
deriving DecidableEq, Repr

/-- The state after reset (70_reset R360). -/
def State.reset : State :=
  { phase := .config
    faulted := false
    fcode := 0
    now := 0
    tseq := 0
    mbs := 0
    btoInter := 0
    mcp := 0
    q := 0
    kcfg := 0
    mode := 0
    btoIntra := 0
    encCap := 5
    recCap := 1
    cfAdvance := 0
    pool := []
    oq := []
    flows := []
    cmdIn := []
    outputs := []
    resetPin := false
    draws := []
    freeCount := 0
    params := Config.vectorParams }

end Sys2Proof.Machine
end

