-- ==== Sys2Proof/Machine/Ops.lean ====
section
/-!
DEFINITION. The named operations over the state: tables, ports, responses and records (30_encoding R97, R98), the
capacity fault (60_exceptions R337), timers (40_control R136), draws (44_gf R209) and reset (70_reset R360).
-/

namespace Sys2Proof.Machine

/-! ## Tables -/

/-- The entry of a key. -/
def Table.find {α : Type} (key : U16) : Table α → Option α
  | [] => none
  | (k, a) :: t => if k = key then some a else Table.find key t

/-- Sets the entry of a key, keeping the keys strictly rising. -/
def Table.put {α : Type} (key : U16) (a : α) : Table α → Table α
  | [] => [(key, a)]
  | (k, b) :: t =>
    if key < k then (key, a) :: (k, b) :: t
    else if k = key then (key, a) :: t
    else (k, b) :: Table.put key a t

/-- Removes the entry of a key. -/
def Table.erase {α : Type} (key : U16) : Table α → Table α
  | [] => []
  | (k, b) :: t => if k = key then t else (k, b) :: Table.erase key t

/-- The canonical form: keys strictly rising. -/
def Table.wf {α : Type} : Table α → Bool
  | [] => true
  | (k, _) :: t => t.all (fun e => decide (k < e.1)) && Table.wf t

/-! ## Responses and records -/

/-- The STATUS byte of a response (60_exceptions R330). -/
def Status.code : Status → Byte
  | .ok => 0x00#8
  | .iNotFired => 0x01#8
  | .iDependent => 0x02#8
  | .iBehind => 0x03#8
  | .iStale => 0x04#8
  | .iEmpty => 0x05#8
  | .eOpcode => 0x10#8
  | .eOperand => 0x11#8
  | .ePhase => 0x12#8
  | .eConfig => 0x13#8
  | .eFaulted => 0x14#8
  | .eTime => 0x15#8
  | .eMalformed => 0x20#8
  | .eFieldQ => 0x21#8
  | .eKMismatch => 0x22#8
  | .eNoFlow => 0x23#8
  | .eRank => 0x24#8
  | .eZero => 0x30#8
  | .eSingular => 0x31#8

/-- The bytes of a response (30_encoding R97). -/
def responseBytes (st : Status) (result : List Byte) : List Byte :=
  [st.code, 0, 0, 0] ++ putBE 4 result.length ++ result

/-- The TYPE byte of a record (30_encoding R98). -/
def Record.type : Record → Byte
  | .send => 0x01#8
  | .rlncTx _ _ => 0x02#8
  | .rlncDeliver _ _ _ _ => 0x03#8
  | .rlncAck _ _ => 0x04#8

/-- The body of a record (30_encoding R98). -/
def Record.body : Record → List Byte
  | .send => []
  | .rlncTx flow frame => put16 flow ++ putBlob frame
  | .rlncDeliver flow frag j payload => put16 flow ++ put16 frag ++ [j] ++ putBlob payload
  | .rlncAck flow frame => put16 flow ++ putBlob frame

/-- The bytes of a record (30_encoding R98). -/
def Record.bytes (r : Record) : List Byte :=
  [r.type, 0, 0, 0] ++ putBE 4 r.body.length ++ r.body

/-- `emit(rec)` (00_scope R7). -/
def State.emit (s : State) (r : Record) : State :=
  { s with outputs := s.outputs ++ [.record r.bytes] }

/-- Sends the response of a command (30_encoding R97). RLEN = 0 whenever the status is not OK. -/
def State.respond (s : State) (st : Status) (result : List Byte) : State :=
  { s with
    outputs := s.outputs ++ [.response (responseBytes st (if st = .ok then result else []))] }

/-! ## How a command's own rule ends -/

/-- A rule's end: a status with its result bytes (empty unless OK), or the capacity fault; `State` is
the state its steps left. -/
inductive Ending where
  | done (st : Status) (result : List Byte) (s : State)
  | capacity (s : State)
deriving DecidableEq, Repr

/-- A procedure's end: it goes on from a state, or it raised the capacity fault. -/
inductive Proc where
  | goOn (s : State)
  | capacity (s : State)
deriving DecidableEq, Repr

/-- The next procedure, unless a fault ended the command. -/
def Proc.andThen (p : Proc) (f : State → Proc) : Proc :=
  match p with
  | .goOn s => f s
  | .capacity s => .capacity s

/-- Ends a command with OK and `result`, unless a fault ended it. -/
def Proc.respondOk (p : Proc) (result : List Byte) : Ending :=
  match p with
  | .goOn s => .done .ok result s
  | .capacity s => .capacity s

/-- F_CAPACITY (60_exceptions R338). -/
def fCapacity : Byte := 0x01#8

/-- Enters the sticky fault state (60_exceptions R337). -/
def State.enterFault (s : State) (code : Byte) : State := { s with faulted := true, fcode := code }

/-- The state after a command (60_exceptions R335, R337): the response of its one status; after the
capacity fault, FAULT and FCODE set and E_FAULTED. -/
def Ending.finish : Ending → State
  | .done st result s => s.respond st result
  | .capacity s => (s.enterFault fCapacity).respond .eFaulted []

/-! ## Timers -/

/-- The timer a new arming makes (40_control R136). -/
def State.armed (s : State) (deadline : BitVec 65) : Timer := { deadline, seq := s.tseq }

/-- TSEQ after an arming (40_control R136). -/
def State.countArm (s : State) : State := { s with tseq := s.tseq + 1 }

/-- `ts + timeout`, without overflow (00_scope R8, 70_reset R368). -/
def deadlineAfter (ts : U64) (timeout : U32) : BitVec 65 := ts.setWidth 65 + timeout.setWidth 65

/-! ## Draws -/

/-- What the DRAW oracle may answer to `draw_nz(n)` over GF(2^q) (44_gf R209). -/
def legalDraw (q n : Nat) (v : List Byte) : Bool :=
  v.length == n && v.all (isElem q) && v.any (· != 0)

/-- Free vector number `serial` of n elements over GF(2^q): free symbols cut to q bits. -/
def freeVector (q n serial : Nat) : List Byte :=
  (List.range n).map fun i => BitVec.ofNat 8 ((Config.freeSymbol serial i).toNat % 2 ^ q)

/-- A free legal answer (log 4): a free vector; when it is all zero, the first unit vector. Every legal
answer is possible. -/
def freeDraw (q n serial : Nat) : List Byte :=
  let v := freeVector q n serial
  if v.any (· != 0) then v else unitVec n 0

/-- The answer of the next draw: the waiting one if it is legal, else a free one (log 4). -/
def State.nextDraw (s : State) (q n : Nat) : List Byte :=
  match s.draws with
  | d :: _ => if legalDraw q n d then d else freeDraw q n s.freeCount
  | [] => freeDraw q n s.freeCount

/-- The state after a draw: nothing but the oracle's side moves (10_state R47). -/
def State.afterDraw (s : State) : State :=
  { s with draws := s.draws.tail, freeCount := s.freeCount + 1 }

/-! ## Tables of the state -/

/-- FLOW[flow] <- f. -/
def State.putFlow (s : State) (flow : U16) (f : FlowRec) : State :=
  { s with flows := Table.put flow f s.flows }

/-- POOL[fk] <- b. -/
def State.putBucket (s : State) (fk : U16) (b : Bucket) : State :=
  { s with pool := Table.put fk b s.pool }

/-! ## Reset -/

/-- What asserting the reset signal does (70_reset R360): every piece of state takes its reset value.
The parameters and the oracle's side are no state of the engine (10_state R47, log 7). DESIGN CHOICE
(log 6, log 7): R360 empties the output port; that the responses already sent and the waiting command bytes
are dropped with it is the model's. -/
def State.applyReset (s : State) : State :=
  { State.reset with draws := s.draws, freeCount := s.freeCount, params := s.params }

end Sys2Proof.Machine
end

