-- ==== Sys2Proof/Machine/Flags.lean ====
section
/-!
DEFINITION. The register map (10_state R21, R24, R25), the STATUS fields (R22) and the writes CFG_WRITE may make
(40_control R132).
-/

namespace Sys2Proof.Machine

/-- The register of a register number; none for an unassigned number (10_state R21). -/
def regOfNumber (n : Byte) : Option Reg :=
  match n.toNat with
  | 0x00 => some .id
  | 0x01 => some .status
  | 0x02 => some .nowLo
  | 0x03 => some .nowHi
  | 0x04 => some .oqDepth
  | 0x05 => some .poolBuckets
  | 0x06 => some .flows
  | 0x10 => some .mbs
  | 0x11 => some .btoInter
  | 0x12 => some .mcp
  | 0x20 => some .q
  | 0x21 => some .kcfg
  | 0x22 => some .mode
  | 0x23 => some .btoIntra
  | 0x24 => some .encCap
  | 0x25 => some .recCap
  | 0x26 => some .cfAdvance
  | 0x27 => some .poly
  | _ => none

/-- STATUS.OQNE: the output queue holds at least one batch (10_state R22). -/
def State.oqne (s : State) : Bool := !s.oq.isEmpty

/-- STATUS (10_state R22): RUN, FAULT and OQNE in bits 0, 1 and 2, FCODE in bits 15:8 while FAULT = 1. -/
def State.statusWord (s : State) : U32 :=
  (if s.phase = .run then 1#32 else 0#32) |||
    (if s.faulted then 2#32 ||| (s.fcode.setWidth 32 <<< 8) else 0#32) |||
    (if s.oqne then 4#32 else 0#32)

/-- The value of a register (10_state R21, R25). -/
def State.readReg (s : State) : Reg → U32
  | .id => 0x4E434501#32
  | .status => s.statusWord
  | .nowLo => s.now.setWidth 32
  | .nowHi => (s.now >>> 32).setWidth 32
  | .oqDepth => BitVec.ofNat 32 s.oq.length
  | .poolBuckets => BitVec.ofNat 32 s.pool.length
  | .flows => BitVec.ofNat 32 s.flows.length
  | .mbs => s.mbs.setWidth 32
  | .btoInter => s.btoInter
  | .mcp => s.mcp.setWidth 32
  | .q => s.q.setWidth 32
  | .kcfg => s.kcfg.setWidth 32
  | .mode => s.mode.setWidth 32
  | .btoIntra => s.btoIntra
  | .encCap => s.encCap
  | .recCap => s.recCap
  | .cfAdvance => s.cfAdvance.setWidth 32
  | .poly => BitVec.ofNat 32 (poly s.params s.q.toNat)

/-- The register is RW in CONFIG (10_state R21). -/
def Reg.writable : Reg → Bool
  | .id | .status | .nowLo | .nowHi | .oqDepth | .poolBuckets | .flows | .poly => false
  | .mbs | .btoInter | .mcp | .q | .kcfg | .mode | .btoIntra | .encCap | .recCap | .cfAdvance => true

/-- The legal range of a writable register (10_state R24, 40_control R132). -/
def Reg.inRange (p : Params) : Reg → Nat → Bool
  | .mbs, v => v ≤ 65535
  | .btoInter, _ => true
  | .mcp, v => 1 ≤ v && v ≤ 255
  | .q, v => 1 ≤ v && v ≤ p.qMax
  | .kcfg, v => 1 ≤ v && v ≤ p.kMax
  | .mode, v => v ≤ 1
  | .btoIntra, _ => true
  | .encCap, v => v < 2 ^ 31
  | .recCap, v => v < 2 ^ 31
  | .cfAdvance, v => v ≤ 1
  | _, _ => false

/-- REG[reg] <- value; a read-only register is never written (40_control R132). -/
def State.writeReg (s : State) (r : Reg) (v : U32) : State :=
  match r with
  | .mbs => { s with mbs := v.setWidth 16 }
  | .btoInter => { s with btoInter := v }
  | .mcp => { s with mcp := v.setWidth 8 }
  | .q => { s with q := v.setWidth 4 }
  | .kcfg => { s with kcfg := v.setWidth 8 }
  | .mode => { s with mode := v.setWidth 1 }
  | .btoIntra => { s with btoIntra := v }
  | .encCap => { s with encCap := v }
  | .recCap => { s with recCap := v }
  | .cfAdvance => { s with cfAdvance := v.setWidth 1 }
  | .id | .status | .nowLo | .nowHi | .oqDepth | .poolBuckets | .flows | .poly => s

end Sys2Proof.Machine
end

