-- ==== Sys2Proof/Machine/Headers.lean ====
section
/-!
DEFINITION. The two wire headers (42_headers R160 to R162, R170, R171) and the flow-key hash (41_hash R150), as
functions on byte strings.
-/

namespace Sys2Proof.Machine

/-! ## Inter-flow header -/

/-- A valid ACK header (42_headers R161): at least 20 bytes, as many as its data-offset field says. -/
def validAckHeader (tcp : List Byte) : Bool :=
  20 ≤ tcp.length && tcp.length == 4 * ((tcp.getD 12 0).toNat / 16)

/-- INTER_HDR(proto, ptype, descs, acks) (42_headers R163). -/
def interHdr (proto ptype : Byte) (descs : List Desc) (acks : List Ackd) : List Byte :=
  [proto, ptype] ++ putCount descs.length ++ putCount acks.length ++ descs.flatMap putDesc ++
    acks.flatMap fun a => put32 a.dst ++ a.tcp

/-- One ACK descriptor of a packet (42_headers R162): its length comes from byte 12 of the ACK header. -/
def getWireAck : Parser Ackd := fun bs =>
  if bs.length < 24 then none
  else
    let len := 4 * ((bs.getD 16 0).toNat / 16)
    if len < 20 ∨ bs.length < 4 + len then none
    else do
      let (dst, bs) ← getU32 bs
      let (tcp, bs) ← getBytes len bs
      return ({ dst, tcp }, bs)

/-- What INTER_PARSE returns. -/
structure InterHeader where
  proto : Byte
  ptype : Byte
  descs : List Desc
  acks : List Ackd
  hlen : Nat
deriving DecidableEq, Repr

/-- INTER_PARSE(pkt) (42_headers R162); none is MALFORMED. -/
def interParse (pkt : List Byte) : Option InterHeader := do
  let (proto, bs) ← getU8 pkt
  let (ptype, bs) ← getU8 bs
  let (n, bs) ← getU8 bs
  let (a, bs) ← getU8 bs
  let (descs, bs) ← getMany getDesc n.toNat bs
  let (acks, bs) ← getMany getWireAck a.toNat bs
  return { proto, ptype, descs, acks, hlen := pkt.length - bs.length }

/-! ## Intra-flow header -/

/-- The low n bits of a byte, least significant first. -/
def lowBits (n : Nat) (b : Byte) : List Bool := (List.range n).map fun j => b.getLsbD j

/-- The number whose bits are these, least significant first. -/
def bitsValue : List Bool → Nat
  | [] => 0
  | b :: bs => b.toNat + 2 * bitsValue bs

/-- `m` values of `n` bits each, taken from the front of a bit stream; past its end the stream is 0. -/
def chunkBits (n : Nat) : Nat → List Bool → List Byte
  | 0, _ => []
  | m + 1, s => BitVec.ofNat 8 (bitsValue (s.take n)) :: chunkBits n m (s.drop n)

/-- ceil(k·q/8). -/
def packedLength (k q : Nat) : Nat := (k * q + 7) / 8

/-- PACK(c, q) (42_headers R170): coefficient bits in one LSB-first stream, eight to a byte. -/
def pack (q : Nat) (c : List Byte) : List Byte :=
  chunkBits 8 (packedLength c.length q) (c.flatMap (lowBits q))

/-- UNPACK(B, k, q) (42_headers R170). -/
def unpack (q k : Nat) (b : List Byte) : List Byte := chunkBits q k (b.flatMap (lowBits 8))

/-- INTRA_HDR(k, q, frag, txtype, sport, dport, coeff) (42_headers R171, R172). -/
def intraHdr (k q : Byte) (frag : U16) (txtype : Byte) (sport dport : U16) (coeff : List Byte) :
    List Byte :=
  [k, q] ++ put16 frag ++ [txtype] ++ put16 sport ++ put16 dport ++ pack q.toNat coeff

/-- What INTRA_PARSE returns. -/
structure IntraHeader where
  k : Byte
  q : Byte
  frag : U16
  txtype : Byte
  sport : U16
  dport : U16
  coeff : List Byte
  hlen : Nat
deriving DecidableEq, Repr

/-- INTRA_PARSE(pkt) (42_headers R171) with the parameter Q_MAX; none is MALFORMED. -/
def intraParse (qMax : Nat) (pkt : List Byte) : Option IntraHeader := do
  let (k, bs) ← getU8 pkt
  let (q, bs) ← getU8 bs
  let (frag, bs) ← getU16 bs
  let (txtype, bs) ← getU8 bs
  let (sport, bs) ← getU16 bs
  let (dport, bs) ← getU16 bs
  if q.toNat < 1 ∨ qMax < q.toNat then none
  else if 2 < txtype.toNat then none
  else
    let c := packedLength k.toNat q.toNat
    let (field, _) ← getBytes c bs
    return { k, q, frag, txtype, sport, dport, coeff := unpack q.toNat k.toNat field, hlen := 9 + c }

/-! ## Flow-key hash -/

/-- One bit of the CRC (41_hash R150). -/
def crcBit (crc : Nat) : Nat :=
  if crc.testBit 15 then (crc * 2) % 2 ^ 16 ^^^ 0x1021 else (crc * 2) % 2 ^ 16

/-- One byte of the CRC. -/
def crcByte (crc : Nat) (b : Byte) : Nat := Nat.repeat crcBit 8 (crc ^^^ (b.toNat * 2 ^ 8))

/-- CRC-16/CCITT-FALSE (41_hash R150). -/
def crc16 (bs : List Byte) : Nat := bs.foldl crcByte 0xFFFF

/-- FLOWKEY_FN (41_hash R150): the key that the parameter gives the 4-tuple, else the spec's default, the
CRC of its bytes (log 1). -/
def flowKey (p : Params) (src dst : U32) (sport dport : U16) : U16 :=
  match p.flowKeys.find? fun e => decide (e.1 = { src, dst, sport, dport }) with
  | some e => e.2
  | none => BitVec.ofNat 16 (crc16 (put32 src ++ put32 dst ++ put16 sport ++ put16 dport))

end Sys2Proof.Machine
end

