-- ==== Sys2Proof/Machine/Operands.lean ====
section
/-!
DEFINITION. The checks between decoding and a command's own rule (30_encoding R92 steps 1, 4, 5 and 6) and the operand
checks that rules share.
-/

namespace Sys2Proof.Machine

/-- The phase requirement of a command (30_encoding R101 column "phase"). -/
inductive PhaseNeed where
  | any
  | config
  | run
deriving DecidableEq, Repr

/-- The phase meets the requirement. -/
def PhaseNeed.allows : PhaseNeed → Phase → Bool
  | .any, _ => true
  | .config, p => p == .config
  | .run, p => p == .run

/-- OPC of REG_READ, the one command that runs while FAULT = 1 (30_encoding R92 step 1). -/
def regReadOpcode : Byte := 0x01#8

/-- Steps 1, 4 and 5 of 30_encoding R92 for a decoded command: the status that turns it away, if any. -/
def State.turnedAway (s : State) (opc : Byte) (olen : Nat) (need : PhaseNeed) : Option Status :=
  if s.faulted ∧ opc ≠ regReadOpcode then some .eFaulted
  else if s.params.cmdMax < olen then some .eOperand
  else if need.allows s.phase = false then some .ePhase
  else none

/-- Runs a decoded command: the checks of 30_encoding R92 in order, then its own rule `body`. -/
def command {α : Type} (i : Instr) (need : PhaseNeed) (o : Args α) (body : α → State → Ending)
    (s : State) : Host.Outcome State Fault Refusal :=
  .next <|
    match s.turnedAway i.opcode i.olen need with
    | some st => s.respond st []
    | none =>
      match o with
      | .bad _ => s.respond .eOperand []
      | .ok a => (body a s).finish

/-- The answer to a command that is no instruction (30_encoding R92 steps 1 to 3). -/
def State.rejectIllegal (s : State) (opc : Byte) : State :=
  if s.faulted ∧ opc ≠ regReadOpcode then s.respond .eFaulted [] else s.respond .eOpcode []

/-- `raise Status(S)` before any state change (00_scope R7). -/
def raise (st : Status) (s : State) : Ending := .done st [] s

/-- The register Q as a number. -/
def State.qn (s : State) : Nat := s.q.toNat

/-- The field of the register Q: GF(2^Q) modulo POLY[Q] (44_gf R200). -/
def State.gf (s : State) : Gf := { q := s.qn, poly := poly s.params s.qn }

/-- All elements are below 2^Q (30_encoding R95). -/
def State.elems (s : State) (v : List Byte) : Bool := v.all (isElem s.qn)

/-- The payload check of 46_rlnc: not too long, and every byte a symbol below 2^Q. -/
def State.payloadOk (s : State) (p : List Byte) : Bool :=
  decide (p.length ≤ s.params.payloadMax) && s.elems p

/-- Every ACK descriptor operand holds a valid ACK header (42_headers R161, R163). -/
def acksValid (acks : List Ackd) : Bool := acks.all fun a => validAckHeader a.tcp

end Sys2Proof.Machine
end

