-- ==== Sys2Proof/Machine/Codec.lean ====
section
/-!
DEFINITION. The commands that compute on their operands alone: HASH (41_hash), the header commands (42_headers), the XOR
codec (43_xor) and the GF(2^q) commands (44_gf).
-/

namespace Sys2Proof.Machine

/-- HASH's own rule (41_hash R151). -/
def hashBody (a : HashArgs) (s : State) : Ending :=
  .done .ok (put16 (flowKey s.params a.src a.dst a.sport a.dport)) s

/-- HASH (41_hash R151). -/
def execHash (o : Args HashArgs) (s : State) : Host.Outcome State Fault Refusal :=
  command (.hash o) .run o hashBody s

/-- HDR_BUILD_INTER's own rule (42_headers R163). -/
def hdrBuildInterBody (a : HdrBuildInterArgs) (s : State) : Ending :=
  if acksValid a.acks = false then raise .eOperand s
  else .done .ok (putBlob (interHdr a.proto a.ptype a.descs a.acks)) s

/-- HDR_BUILD_INTER (42_headers R163). -/
def execHdrBuildInter (o : Args HdrBuildInterArgs) (s : State) : Host.Outcome State Fault Refusal :=
  command (.hdrBuildInter o) .run o hdrBuildInterBody s

/-- The result of HDR_PARSE_INTER (42_headers R164, 30_encoding R96). -/
def InterHeader.result (h : InterHeader) : List Byte :=
  putBE 4 h.hlen ++ [h.proto, h.ptype] ++ putCount h.descs.length ++ putCount h.acks.length ++
    h.descs.flatMap putDesc ++ h.acks.flatMap putAckd

/-- HDR_PARSE_INTER's own rule (42_headers R164). -/
def hdrParseInterBody (pkt : List Byte) (s : State) : Ending :=
  match interParse pkt with
  | none => raise .eMalformed s
  | some h => .done .ok h.result s

/-- HDR_PARSE_INTER (42_headers R164). -/
def execHdrParseInter (o : Args (List Byte)) (s : State) : Host.Outcome State Fault Refusal :=
  command (.hdrParseInter o) .run o hdrParseInterBody s

/-- HDR_BUILD_INTRA's own rule (42_headers R172): it uses the operand q, not the register. -/
def hdrBuildIntraBody (a : HdrBuildIntraArgs) (s : State) : Ending :=
  if a.q.toNat < 1 ∨ s.params.qMax < a.q.toNat then raise .eOperand s
  else if 2 < a.txtype.toNat then raise .eOperand s
  else if a.coeff.all (isElem a.q.toNat) = false then raise .eOperand s
  else
    .done .ok (putBlob (intraHdr (BitVec.ofNat 8 a.coeff.length) a.q a.frag a.txtype a.sport
      a.dport a.coeff)) s

/-- HDR_BUILD_INTRA (42_headers R172). -/
def execHdrBuildIntra (o : Args HdrBuildIntraArgs) (s : State) : Host.Outcome State Fault Refusal :=
  command (.hdrBuildIntra o) .run o hdrBuildIntraBody s

/-- The result of HDR_PARSE_INTRA (42_headers R173, 30_encoding R96). -/
def IntraHeader.result (h : IntraHeader) : List Byte :=
  putBE 4 h.hlen ++ [h.k, h.q] ++ put16 h.frag ++ [h.txtype] ++ put16 h.sport ++ put16 h.dport ++
    h.coeff

/-- HDR_PARSE_INTRA's own rule (42_headers R173). -/
def hdrParseIntraBody (pkt : List Byte) (s : State) : Ending :=
  match intraParse s.params.qMax pkt with
  | none => raise .eMalformed s
  | some h => .done .ok h.result s

/-- HDR_PARSE_INTRA (42_headers R173). -/
def execHdrParseIntra (o : Args (List Byte)) (s : State) : Host.Outcome State Fault Refusal :=
  command (.hdrParseIntra o) .run o hdrParseIntraBody s

/-- XOR_ENC's own rule (43_xor R191). -/
def xorEncBody (ps : List (List Byte)) (s : State) : Ending :=
  if ps.length = 0 then raise .eOperand s
  else if ps.any (fun p => decide (s.params.payloadMax < p.length)) then raise .eOperand s
  else .done .ok (putBlob (xorAll ps)) s

/-- XOR_ENC (43_xor R191). -/
def execXorEnc (o : Args (List (List Byte))) (s : State) : Host.Outcome State Fault Refusal :=
  command (.xorEnc o) .run o xorEncBody s

/-- XOR_DEC's own rule (43_xor R192). -/
def xorDecBody (a : XorDecArgs) (s : State) : Ending :=
  if (a.coded :: a.natives).any (fun p => decide (s.params.payloadMax < p.length)) then
    raise .eOperand s
  else .done .ok (putBlob (xorAll (a.coded :: a.natives))) s

/-- XOR_DEC (43_xor R192). -/
def execXorDec (o : Args XorDecArgs) (s : State) : Host.Outcome State Fault Refusal :=
  command (.xorDec o) .run o xorDecBody s

/-- GF_MUL's own rule (44_gf R210). -/
def gfMulBody (x : GfMulArgs) (s : State) : Ending :=
  if s.elems [x.a, x.b] = false then raise .eOperand s
  else .done .ok [gmul s.gf x.a x.b] s

/-- GF_MUL (44_gf R210). -/
def execGfMul (o : Args GfMulArgs) (s : State) : Host.Outcome State Fault Refusal :=
  command (.gfMul o) .run o gfMulBody s

/-- GF_INV's own rule (44_gf R211). -/
def gfInvBody (a : Byte) (s : State) : Ending :=
  if s.elems [a] = false then raise .eOperand s
  else if a = 0 then raise .eZero s
  else .done .ok [ginv s.gf a] s

/-- GF_INV (44_gf R211). -/
def execGfInv (o : Args Byte) (s : State) : Host.Outcome State Fault Refusal :=
  command (.gfInv o) .run o gfInvBody s

/-- MAT_RANK's own rule (44_gf R212). -/
def matRankBody (x : MatRankArgs) (s : State) : Ending :=
  if s.elems x.elems = false then raise .eOperand s
  else
    .done .ok
      [BitVec.ofNat 8 (matRank s.gf x.c.toNat (toRows x.c.toNat x.r.toNat x.elems))] s

/-- MAT_RANK (44_gf R212). -/
def execMatRank (o : Args MatRankArgs) (s : State) : Host.Outcome State Fault Refusal :=
  command (.matRank o) .run o matRankBody s

/-- MAT_INV's own rule (44_gf R213). A matrix of rank n is invertible (44_gf R207), so the last arm's
`none` is never met. -/
def matInvBody (x : MatInvArgs) (s : State) : Ending :=
  let rows := toRows x.n.toNat x.n.toNat x.elems
  if x.n = 0 then raise .eOperand s
  else if s.elems x.elems = false then raise .eOperand s
  else if matRank s.gf x.n.toNat rows < x.n.toNat then raise .eSingular s
  else
    match matInv s.gf x.n.toNat rows with
    | none => raise .eSingular s
    | some b => .done .ok b.flatten s

/-- MAT_INV (44_gf R213). -/
def execMatInv (o : Args MatInvArgs) (s : State) : Host.Outcome State Fault Refusal :=
  command (.matInv o) .run o matInvBody s

/-- VEC_GEN's own rule (44_gf R214). -/
def vecGenBody (n : Byte) (s : State) : Ending :=
  if n = 0 then raise .eOperand s
  else .done .ok (s.nextDraw s.qn n.toNat) s.afterDraw

/-- VEC_GEN (44_gf R214). -/
def execVecGen (o : Args Byte) (s : State) : Host.Outcome State Fault Refusal :=
  command (.vecGen o) .run o vecGenBody s

end Sys2Proof.Machine
end

