-- ==== Sys2Proof/Machine/FlowOps.lean ====
section
/-!
DEFINITION. The procedures on the per-flow RLNC state (46_rlnc R272, R274, R276, R277, R281 to R284, R286, R291, R293,
R294, R296). `f` is the record FLOW[flow]; a procedure that changes it writes it back with `putFlow`.
-/

namespace Sys2Proof.Machine

/-- Row i of M in its first n columns; what M does not list is 0 (10_state R41, log 14). -/
def FlowRec.row (f : FlowRec) (n i : Nat) : List Byte :=
  let r := f.mat.getD i []
  (List.range n).map fun j => r.getD j 0

/-- Rows 0..m-1 of M in their first n columns. -/
def FlowRec.rows (f : FlowRec) (n m : Nat) : List (List Byte) := (List.range m).map (f.row n)

/-- M[i] <- v. -/
def setRow (m : List (List Byte)) (i : Nat) (v : List Byte) : List (List Byte) :=
  (List.range (max m.length (i + 1))).map fun j => if j = i then v else m.getD j []

/-- A new record (46_rlnc R271, R281): the rest is 0, empty or none. -/
def newFlow (k : Byte) (frag : U16) (fwd : Bool) (sport dport : U16) : FlowRec :=
  { k, rank := 0, frag, txCounter := 0, fwd, mat := [], tx := [], rx := [], sport, dport, ft := none }

/-- RESET_MATRIX(f) (46_rlnc R277). -/
def FlowRec.resetMatrix (f : FlowRec) : FlowRec := { f with mat := [], rank := 0, rx := [] }

/-- ACK_FRAME(f, txtype) (46_rlnc R276). -/
def State.ackFrame (s : State) (f : FlowRec) (txtype : Byte) : List Byte :=
  intraHdr 0 (s.q.setWidth 8) f.frag txtype f.dport f.sport []

/-- ENC_OK(f) (46_rlnc R272). -/
def State.encOk (s : State) (f : FlowRec) : Bool :=
  decide (f.k.toNat ≤ f.tx.length) && !f.fwd && decide (f.txCounter ≤ s.encCap)

/-- ENCODE_CORE(flow) on the record `f` (46_rlnc R274); none is NOTFIRED. -/
def State.encodeCore (s : State) (flow : U16) (f : FlowRec) : Option State :=
  if s.encOk f then
    let v := s.nextDraw s.qn f.k.toNat
    let payload := lcp s.gf v (f.tx.take f.k.toNat)
    let frame := intraHdr f.k (s.q.setWidth 8) f.frag 0 f.sport f.dport v ++ payload
    some ((s.afterDraw.emit (.rlncTx flow frame)).putFlow flow
      { f with txCounter := f.txCounter + 1 })
  else none

/-- ENCODE_CORE where its caller does not look at the answer: the record `f` is kept either way. -/
def State.encodeOrKeep (s : State) (flow : U16) (f : FlowRec) : State :=
  (s.encodeCore flow f).getD (s.putFlow flow f)

/-- INV(M) of a decode (46_rlnc R286); none where no rule states a result: rank ≠ k, or M not
invertible in its k active columns (log 9). -/
def State.decodeMatrix (s : State) (f : FlowRec) : Option (List (List Byte)) :=
  if f.rank = f.k then matInv s.gf f.k.toNat (f.rows f.k.toNat f.k.toNat) else none

/-- The payloads of a decode, j = 0..k-1 (46_rlnc R286): row j of INV(M) applied to rx; where no rule
states INV(M), its rows are free vectors (log 9). -/
def State.decodedPayloads (s : State) (f : FlowRec) : List (List Byte) :=
  match s.decodeMatrix f with
  | some b => b.map fun u => lcp s.gf u f.rx
  | none => (List.range f.k.toNat).map fun j =>
      lcp s.gf (freeVector s.qn f.rx.length (s.freeCount + j)) f.rx

/-- The serial numbers of the free vectors of a decode are not used again (log 9). -/
def State.afterDecode (s : State) (f : FlowRec) : State :=
  match s.decodeMatrix f with
  | some _ => s
  | none => { s with freeCount := s.freeCount + f.k.toNat }

/-- Emits RLNC_DELIVER for the payloads from index j on. -/
def State.deliver (s : State) (flow frag : U16) : Nat → List (List Byte) → State
  | _, [] => s
  | j, p :: ps => (s.emit (.rlncDeliver flow frag (BitVec.ofNat 8 j) p)).deliver flow frag (j + 1) ps

/-- DECODE_CORE(flow) on the record `f` (46_rlnc R286). -/
def State.decodeCore (s : State) (flow : U16) (f : FlowRec) : State :=
  let s1 := (s.afterDecode f).deliver flow f.frag 0 (s.decodedPayloads f)
  let f1 : FlowRec := { f with frag := f.frag + 1 }
  (s1.emit (.rlncAck flow (s1.ackFrame f1 1))).putFlow flow { f1.resetMatrix with txCounter := 0 }

/-- RECODE_COMBINE(flow) on the record `f` (46_rlnc R291); M is read in its k active columns (log 10). -/
def State.recodeCombine (s : State) (flow : U16) (f : FlowRec) : State :=
  let u := s.nextDraw s.qn f.rank.toNat
  let w := linComb s.gf f.k.toNat u (f.rows f.k.toNat f.rank.toNat)
  let payload := lcp s.gf u f.rx
  let frame := intraHdr f.k (s.q.setWidth 8) f.frag 0 f.sport f.dport w ++ payload
  s.afterDraw.emit (.rlncTx flow frame)

/-- Arms the flow timer FT at NOW + BTO_INTRA (40_control R136). -/
def State.armFlow (s : State) (f : FlowRec) : FlowRec :=
  { f with ft := some (s.armed (deadlineAfter s.now s.btoIntra)) }

/-- CHANGE_FRAGMENT_CORE at a source (46_rlnc R293); none is STALE. -/
def State.changeFragmentSource (s : State) (flow : U16) (f : FlowRec) (nfrag : U16) :
    Option State :=
  if nfrag ≤ f.frag then none
  else
    let t := min f.k.toNat f.tx.length
    let f1 : FlowRec := { f.resetMatrix with tx := f.tx.drop t, txCounter := 0, k := s.kcfg }
    if f1.k.toNat ≤ f1.tx.length then some (s.encodeOrKeep flow { f1 with frag := nfrag })
    else
      let f2 : FlowRec := if s.cfAdvance = 0 then { f1 with frag := nfrag } else f1
      some ((s.putFlow flow (s.armFlow f2)).countArm)

/-- CHANGE_FRAGMENT_CORE at a forwarder (46_rlnc R294). -/
def State.changeFragmentForwarder (s : State) (flow : U16) (f : FlowRec) (nfrag : U16) : State :=
  s.putFlow flow { f.resetMatrix with tx := [], frag := nfrag, txCounter := 0 }

/-- CHANGE_FRAGMENT_CORE(flow, nfrag) (46_rlnc R293, R294); none is STALE. -/
def State.changeFragmentCore (s : State) (flow : U16) (f : FlowRec) (nfrag : U16) : Option State :=
  if f.fwd then some (s.changeFragmentForwarder flow f nfrag)
  else s.changeFragmentSource flow f nfrag

/-- CHANGE_FRAGMENT_CORE as a command's last step (46_rlnc R280, R292). -/
def State.changeFragmentEnding (s : State) (flow : U16) (nfrag : U16) : Ending :=
  match Table.find flow s.flows with
  | none => raise .eNoFlow s
  | some f =>
    match s.changeFragmentCore flow f nfrag with
    | none => raise .iStale s
    | some s' => .done .ok [] s'

/-- f.k <- n for an n below f.k (46_rlnc R296): the entries of M that are now outside its k × k part are 0
(10_state R41, log 10). -/
def FlowRec.shrink (f : FlowRec) (n : Nat) : FlowRec :=
  { f with k := BitVec.ofNat 8 n, mat := (f.mat.take n).map (List.take n) }

/-- FLOW_EXPIRE(flow), ReduceBuffer (46_rlnc R296), on the record `f` whose FT has fired. -/
def State.flowExpireRec (s : State) (flow : U16) (f : FlowRec) : State :=
  let f : FlowRec := { f with ft := none }
  let n := f.tx.length
  if 0 < n ∧ n < f.k.toNat then s.encodeOrKeep flow (f.shrink n)
  else s.putFlow flow f

/-- FLOW_EXPIRE(flow) (46_rlnc R296). -/
def State.flowExpire (s : State) (flow : U16) : State :=
  match Table.find flow s.flows with
  | none => s
  | some f => s.flowExpireRec flow f

/-- INSERT(v, payload) and what follows it in RX_PACKET (46_rlnc R280, R283): the independence test over
the k active columns (log 10), the insertion, and the decode at full rank. `f` is the record as the
steps before left it. -/
def State.insertRow (s : State) (flow : U16) (f : FlowRec) (v payload : List Byte) : Ending :=
  if f.rank = f.k ∨ indep s.gf f.k.toNat (f.rows f.k.toNat f.rank.toNat) v = false then
    .done .iDependent [] (s.putFlow flow f)
  else
    let f1 : FlowRec := { f with
      mat := setRow f.mat f.rank.toNat v, rx := f.rx ++ [payload], rank := f.rank + 1 }
    if f1.rank = f1.k then .done .ok [] (s.decodeCore flow f1)
    else .done .ok [] (s.putFlow flow f1)

/-- AHEAD (46_rlnc R284): the record before the insertion. -/
def FlowRec.ahead (f : FlowRec) (r : IntraHeader) : FlowRec :=
  { f.resetMatrix with frag := r.frag, k := r.k, txCounter := 0 }

/-- The rest of RX_PACKET for a data packet of a flow whose record is `f` (46_rlnc R280, R282). -/
def State.receiveData (s : State) (flow : U16) (f : FlowRec) (r : IntraHeader)
    (payload : List Byte) : Ending :=
  if r.frag < f.frag then .done .iBehind [] (s.emit (.rlncAck flow (s.ackFrame f 2)))
  else if f.frag < r.frag then s.insertRow flow (f.ahead r) r.coeff payload
  else if f.rank = 0 then s.insertRow flow { f with k := r.k } r.coeff payload
  else if r.k ≠ f.k then raise .eKMismatch s
  else s.insertRow flow f r.coeff payload

end Sys2Proof.Machine
end

