-- ==== Sys2Proof/Machine/PoolOps.lean ====
section
/-!
DEFINITION. The procedures of the inter-flow packet pool and the output queue (45_pool R232 to R235, R238, R240, R241).
-/

namespace Sys2Proof.Machine

/-- ITEM (45_pool R232). -/
def State.itemOf (s : State) (native : Bool) (a : PoolInsertArgs) : Item :=
  { payload := a.payload, src := a.src, dst := a.dst, sport := a.sport, dport := a.dport,
    proto := a.proto, seq := a.seq, native, fk := flowKey s.params a.src a.dst a.sport a.dport, ts := s.now }

/-- ARM_POOL(g) (45_pool R233): binds PT[g] to the head of bucket g. -/
def State.armPool (s : State) (g : U16) : State :=
  match Table.find g s.pool with
  | none => s
  | some b =>
    (s.putBucket g { b with timer := s.armed (deadlineAfter b.head.ts s.btoInter) }).countArm

/-- TAKE_HEAD(g) (45_pool R234): the head and the state without it; none for a key not in POOL. -/
def State.takeHead (s : State) (g : U16) : Option (Item × State) :=
  match Table.find g s.pool with
  | none => none
  | some b =>
    match b.rest with
    | [] => some (b.head, { s with pool := Table.erase g s.pool })
    | h :: r => some (b.head, (s.putBucket g { b with head := h, rest := r }).armPool g)

/-- The least `ts` of a batch's items (10_state R34). -/
def oldestTs (first : Item) (others : List Item) : U64 :=
  others.foldl (fun m it => if it.ts < m then it.ts else m) first.ts

/-- PUSH_BATCH(items) (45_pool R238). -/
def State.pushBatch (s : State) (first : Item) (others : List Item) : Proc :=
  if s.oq.length = s.params.oqMax then .capacity s
  else
    .goOn (State.emit
      { s with oq := s.oq ++ [{ first, others, oldest := oldestTs first others }] } .send)

/-- The walk of SEARCH over the other buckets (45_pool R235): `n` items are in the batch already. -/
def State.gather (s : State) (n : Nat) : List U16 → List Item × State
  | [] => ([], s)
  | g :: gs =>
    if n = s.mcp.toNat then ([], s)
    else
      match s.takeHead g with
      | none => s.gather n gs
      | some (it, s') =>
        let (its, s'') := s'.gather (n + 1) gs
        (it :: its, s'')

/-- The keys of POOL other than fk, rising (45_pool R235). -/
def State.otherKeys (s : State) (fk : U16) : List U16 := (s.pool.map Prod.fst).filter (· != fk)

/-- SEARCH(fk) (45_pool R235). -/
def State.search (s : State) (fk : U16) : Proc :=
  if s.pool.length ≤ 1 then .goOn s
  else
    match s.takeHead fk with
    | none => .goOn s
    | some (it, s1) =>
      let (its, s2) := s1.gather 1 (s.otherKeys fk)
      s2.pushBatch it its

/-- POOL_EXPIRE(fk) (45_pool R240). -/
def State.poolExpire (s : State) (fk : U16) : Proc :=
  match s.takeHead fk with
  | none => .goOn s
  | some (it, s') => s'.pushBatch it []

/-- The items of a batch, first item first. -/
def Batch.items (b : Batch) : List Item := b.first :: b.others

/-- The descriptor of an item (45_pool R241). -/
def Item.desc (it : Item) : Desc :=
  { dst := it.dst, seq := it.seq, fh := it.fk, len := BitVec.ofNat 16 it.payload.length }

/-- FRAME(b, ptype, acks) (45_pool R241). -/
def Batch.frame (b : Batch) (ptype : Byte) (acks : List Ackd) : List Byte :=
  interHdr b.first.proto ptype (b.items.map Item.desc) acks ++ xorAll (b.items.map Item.payload)

/-- The step of POOL_INSERT that puts item `it` into its bucket when MBS ≠ 0 (45_pool R236), before the
search. -/
def State.insertItem (s : State) (it : Item) : Proc :=
  match Table.find it.fk s.pool with
  | none =>
    if s.pool.length = s.params.poolFlowsMax then .capacity s
    else .goOn ((s.putBucket it.fk { head := it, rest := [], timer := s.armed 0 }).armPool it.fk)
  | some b =>
    if b.rest.length + 1 < s.mbs.toNat then
      .goOn (s.putBucket it.fk { b with rest := b.rest ++ [it] })
    else
      let b' : Bucket :=
        match b.rest with
        | [] => { b with head := it, rest := [] }
        | h :: r => { b with head := h, rest := r ++ [it] }
      ((s.putBucket it.fk b').pushBatch b.head []).andThen fun s' => .goOn (s'.armPool it.fk)

end Sys2Proof.Machine
end

