-- ==== Sys2Proof/Machine/Timers.lean ====
section
/-!
DEFINITION. The timer loop of TIME_ADVANCE (40_control R134).
-/

namespace Sys2Proof.Machine

/-- Whose timer it is. -/
inductive Owner where
  | pool (fk : U16)
  | flow (flow : U16)
deriving DecidableEq, Repr

/-- Every armed timer: the pool timers, then the flow timers (40_control R134). -/
def State.armedTimers (s : State) : List (Timer × Owner) :=
  s.pool.map (fun e => (e.2.timer, .pool e.1)) ++
    s.flows.filterMap fun e => e.2.ft.map fun t => (t, .flow e.1)

/-- (deadline, seq) order (10_state R35). -/
def Timer.before (a b : Timer) : Bool :=
  decide (a.deadline < b.deadline) || (decide (a.deadline = b.deadline) && decide (a.seq < b.seq))

/-- The least timer of a list. -/
def leastTimer : List (Timer × Owner) → Option (Timer × Owner)
  | [] => none
  | e :: es =>
    match leastTimer es with
    | none => some e
    | some m => if m.1.before e.1 then some m else some e

/-- The next timer to fire on the way to time t (40_control R134). -/
def State.nextDue (s : State) (t : U64) : Option (Timer × Owner) :=
  leastTimer (s.armedTimers.filter fun e => decide (e.1.deadline ≤ t.setWidth 65))

/-- Fires one timer: NOW takes its deadline, then its handler runs (40_control R134). -/
def State.fire (s : State) (e : Timer × Owner) : Proc :=
  let s1 := { s with now := e.1.deadline.setWidth 64 }
  match e.2 with
  | .pool fk => s1.poolExpire fk
  | .flow flow => .goOn (s1.flowExpire flow)

/-- The loop of TIME_ADVANCE, for at most `n` firings (log 11). -/
def State.fireDue : Nat → U64 → State → Proc
  | 0, _, s => .goOn s
  | n + 1, t, s =>
    match s.nextDue t with
    | none => .goOn s
    | some e => (s.fire e).andThen (State.fireDue n t)

/-- How many firings there can be: each takes an item from the pool or disarms a flow timer, and no
firing adds an item or arms a flow timer (40_control R134, log 11). -/
def State.timerWork (s : State) : Nat :=
  (s.pool.map fun e => e.2.rest.length + 1).sum +
    (s.flows.filter fun e => e.2.ft.isSome).length

end Sys2Proof.Machine
end

