-- ==== Sys2Proof/Machine/Control.lean ====
section
/-!
DEFINITION. The control commands (40_control): NOP, REG_READ, CFG_WRITE, START, TIME_ADVANCE.
-/

namespace Sys2Proof.Machine

/-- NOP (40_control R130). -/
def execNop (o : Args Unit) (s : State) : Host.Outcome State Fault Refusal :=
  command (.nop o) .any o (fun _ s => .done .ok [] s) s

/-- REG_READ's own rule (40_control R131). -/
def regReadBody (reg : Byte) (s : State) : Ending :=
  match regOfNumber reg with
  | none => raise .eOperand s
  | some r => .done .ok (put32 (s.readReg r)) s

/-- REG_READ (40_control R131). -/
def execRegRead (o : Args Byte) (s : State) : Host.Outcome State Fault Refusal :=
  command (.regRead o) .any o regReadBody s

/-- CFG_WRITE's own rule (40_control R132). -/
def cfgWriteBody (a : CfgWriteArgs) (s : State) : Ending :=
  match regOfNumber a.reg with
  | none => raise .eOperand s
  | some r =>
    if r.writable = false then raise .eConfig s
    else if r.inRange s.params a.value.toNat = false then raise .eConfig s
    else .done .ok [] (s.writeReg r a.value)

/-- CFG_WRITE (40_control R132). -/
def execCfgWrite (o : Args CfgWriteArgs) (s : State) : Host.Outcome State Fault Refusal :=
  command (.cfgWrite o) .config o cfgWriteBody s

/-- START's own rule (40_control R133). -/
def startBody (_ : Unit) (s : State) : Ending :=
  if s.mcp = 0 ∨ s.q = 0 ∨ s.kcfg = 0 then raise .eConfig s
  else .done .ok [] { s with phase := .run }

/-- START (40_control R133). -/
def execStart (o : Args Unit) (s : State) : Host.Outcome State Fault Refusal :=
  command (.start o) .config o startBody s

/-- TIME_ADVANCE's own rule (40_control R134). -/
def timeAdvanceBody (t : U64) (s : State) : Ending :=
  if t < s.now then raise .eTime s
  else
    ((State.fireDue s.timerWork t s).andThen fun s' => .goOn { s' with now := t }).respondOk []

/-- TIME_ADVANCE (40_control R134). -/
def execTimeAdvance (o : Args U64) (s : State) : Host.Outcome State Fault Refusal :=
  command (.timeAdvance o) .run o timeAdvanceBody s

end Sys2Proof.Machine
end

