-- ==== Sys2Proof/Machine/Pool.lean ====
section
/-!
DEFINITION. The pool and output queue commands (45_pool): POOL_INSERT, OQ_POP_FRAME, POOL_STAT.
-/

namespace Sys2Proof.Machine

/-- POOL_INSERT's own rule (45_pool R236). -/
def poolInsertBody (native : Bool) (a : PoolInsertArgs) (s : State) : Ending :=
  if s.params.payloadMax < a.payload.length then raise .eOperand s
  else
    let it := s.itemOf native a
    if s.mbs = 0 then (s.pushBatch it []).respondOk []
    else ((s.insertItem it).andThen fun s' => s'.search it.fk).respondOk []

/-- POOL_INSERT (45_pool R236). -/
def execPoolInsert (native : Bool) (o : Args PoolInsertArgs) (s : State) :
    Host.Outcome State Fault Refusal :=
  command (.poolInsert native o) .run o (poolInsertBody native) s

/-- OQ_POP_FRAME's own rule (45_pool R245). -/
def oqPopFrameBody (a : OqPopArgs) (s : State) : Ending :=
  if acksValid a.acks = false then raise .eOperand s
  else
    match s.oq with
    | [] => raise .iEmpty s
    | b :: oq => .done .ok (put64 b.oldest ++ putBlob (b.frame a.ptype a.acks)) { s with oq }

/-- OQ_POP_FRAME (45_pool R245). -/
def execOqPopFrame (o : Args OqPopArgs) (s : State) : Host.Outcome State Fault Refusal :=
  command (.oqPopFrame o) .run o oqPopFrameBody s

/-- POOL_STAT's own rule (45_pool R246). -/
def poolStatBody (fk : U16) (s : State) : Ending :=
  match Table.find fk s.pool with
  | some b =>
    .done .ok (putBE 2 (b.rest.length + 1) ++ [1] ++ put64 (b.timer.deadline.setWidth 64)) s
  | none => .done .ok (putBE 2 0 ++ [0] ++ put64 0) s

/-- POOL_STAT (45_pool R246). -/
def execPoolStat (o : Args U16) (s : State) : Host.Outcome State Fault Refusal :=
  command (.poolStat o) .run o poolStatBody s

end Sys2Proof.Machine
end

