-- ==== Sys2Proof/Machine/Rlnc.lean ====
section
/-!
DEFINITION. The commands on the per-flow RLNC state (46_rlnc): TX_PUSH, ENCODE, RX_PACKET, DECODE, RECODE,
CHANGE_FRAGMENT, FLOW_STAT, FLOW_ROW.
-/

namespace Sys2Proof.Machine

/-- The end of TX_PUSH on the record `f` (46_rlnc R271). -/
def State.pushTx (s : State) (flow : U16) (f : FlowRec) (payload : List Byte) : Ending :=
  if f.tx.length = s.params.txbufMax then .capacity (s.putFlow flow f)
  else
    let f1 : FlowRec := { f with tx := f.tx ++ [payload] }
    if f.tx = [] ∧ f.ft = none then .done .ok [] ((s.putFlow flow (s.armFlow f1)).countArm)
    else .done .ok [] (s.putFlow flow f1)

/-- TX_PUSH's own rule (46_rlnc R271). -/
def txPushBody (a : TxPushArgs) (s : State) : Ending :=
  if s.payloadOk a.payload = false then raise .eOperand s
  else
    match Table.find a.flow s.flows with
    | some f => s.pushTx a.flow f a.payload
    | none =>
      if s.flows.length = s.params.flowsMax then .capacity s
      else s.pushTx a.flow (newFlow s.kcfg 0 false a.sport a.dport) a.payload

/-- TX_PUSH (46_rlnc R271). -/
def execTxPush (o : Args TxPushArgs) (s : State) : Host.Outcome State Fault Refusal :=
  command (.txPush o) .run o txPushBody s

/-- ENCODE's own rule (46_rlnc R273). -/
def encodeBody (flow : U16) (s : State) : Ending :=
  match Table.find flow s.flows with
  | none => raise .eNoFlow s
  | some f =>
    match s.encodeCore flow f with
    | none => raise .iNotFired s
    | some s' => .done .ok [] s'

/-- ENCODE (46_rlnc R273). -/
def execEncode (o : Args U16) (s : State) : Host.Outcome State Fault Refusal :=
  command (.encode o) .run o encodeBody s

/-- RX_PACKET's own rule for a data packet whose header is `r` (46_rlnc R280, R281). -/
def rxDataBody (fwd : Bool) (flow : U16) (r : IntraHeader) (payload : List Byte) (s : State) :
    Ending :=
  if r.q.toNat ≠ s.qn then raise .eFieldQ s
  else if r.k = 0 ∨ s.params.kMax < r.k.toNat then raise .eMalformed s
  else if s.payloadOk payload = false then raise .eOperand s
  else
    match Table.find flow s.flows with
    | some f => s.receiveData flow f r payload
    | none =>
      if s.flows.length = s.params.flowsMax then .capacity s
      else s.receiveData flow (newFlow r.k r.frag fwd r.sport r.dport) r payload

/-- RX_PACKET's own rule (46_rlnc R280). -/
def rxPacketBody (fwd : Bool) (a : RxPacketArgs) (s : State) : Ending :=
  match intraParse s.params.qMax a.pkt with
  | none => raise .eMalformed s
  | some r =>
    if r.txtype ≠ 0 then s.changeFragmentEnding a.flow r.frag
    else rxDataBody fwd a.flow r (a.pkt.drop r.hlen) s

/-- RX_PACKET (46_rlnc R280). -/
def execRxPacket (fwd : Bool) (o : Args RxPacketArgs) (s : State) :
    Host.Outcome State Fault Refusal :=
  command (.rxPacket fwd o) .run o (rxPacketBody fwd) s

/-- DECODE's own rule (46_rlnc R285). -/
def decodeBody (flow : U16) (s : State) : Ending :=
  match Table.find flow s.flows with
  | none => raise .eNoFlow s
  | some f => if f.rank < f.k then raise .eRank s else .done .ok [] (s.decodeCore flow f)

/-- DECODE (46_rlnc R285). -/
def execDecode (o : Args U16) (s : State) : Host.Outcome State Fault Refusal :=
  command (.decode o) .run o decodeBody s

/-- The guard of RECODE (46_rlnc R290). -/
def State.recodeOk (s : State) (f : FlowRec) : Bool :=
  f.fwd && s.mode == 1 && decide (2 ≤ f.rank.toNat) && decide (f.txCounter ≤ s.recCap)

/-- RECODE's own rule (46_rlnc R290). -/
def recodeBody (flow : U16) (s : State) : Ending :=
  match Table.find flow s.flows with
  | none => raise .eNoFlow s
  | some f =>
    if s.recodeOk f then
      .done .ok [] ((s.recodeCombine flow f).putFlow flow { f with txCounter := f.txCounter + 1 })
    else raise .iNotFired s

/-- RECODE (46_rlnc R290). -/
def execRecode (o : Args U16) (s : State) : Host.Outcome State Fault Refusal :=
  command (.recode o) .run o recodeBody s

/-- CHANGE_FRAGMENT's own rule (46_rlnc R292). -/
def changeFragmentBody (a : ChangeFragmentArgs) (s : State) : Ending :=
  s.changeFragmentEnding a.flow a.nfrag

/-- CHANGE_FRAGMENT (46_rlnc R292). -/
def execChangeFragment (o : Args ChangeFragmentArgs) (s : State) :
    Host.Outcome State Fault Refusal :=
  command (.changeFragment o) .run o changeFragmentBody s

/-- The result of FLOW_STAT (46_rlnc R297). -/
def FlowRec.stat (f : FlowRec) : List Byte :=
  [f.k, f.rank] ++ put16 f.frag ++ put32 f.txCounter ++ [if f.fwd then 1 else 0] ++
    putBE 4 f.tx.length ++ putBE 4 f.rx.length ++
    (match f.ft with
      | some t => [1] ++ put64 (t.deadline.setWidth 64)
      | none => [0] ++ put64 0) ++
    put16 f.sport ++ put16 f.dport

/-- FLOW_STAT's own rule (46_rlnc R297). -/
def flowStatBody (flow : U16) (s : State) : Ending :=
  match Table.find flow s.flows with
  | none => raise .eNoFlow s
  | some f => .done .ok f.stat s

/-- FLOW_STAT (46_rlnc R297). -/
def execFlowStat (o : Args U16) (s : State) : Host.Outcome State Fault Refusal :=
  command (.flowStat o) .run o flowStatBody s

/-- FLOW_ROW's own rule (46_rlnc R298). -/
def flowRowBody (a : FlowRowArgs) (s : State) : Ending :=
  match Table.find a.flow s.flows with
  | none => raise .eNoFlow s
  | some f =>
    if f.k ≤ a.i then raise .eOperand s else .done .ok (f.row f.k.toNat a.i.toNat) s

/-- FLOW_ROW (46_rlnc R298). -/
def execFlowRow (o : Args FlowRowArgs) (s : State) : Host.Outcome State Fault Refusal :=
  command (.flowRow o) .run o flowRowBody s

end Sys2Proof.Machine
end

