-- ==== Sys2Proof/Machine/Dispatch.lean ====
section
/-!
DEFINITION. One arm for each command of spec/opcode_table.json.
-/

namespace Sys2Proof.Machine

def exec (i : Instr) (s : State) : Host.Outcome State Fault Refusal :=
  match i with
  | .nop o => Sys2Proof.Machine.execNop o s
  | .regRead o => Sys2Proof.Machine.execRegRead o s
  | .cfgWrite o => Sys2Proof.Machine.execCfgWrite o s
  | .start o => Sys2Proof.Machine.execStart o s
  | .timeAdvance o => Sys2Proof.Machine.execTimeAdvance o s
  | .hash o => Sys2Proof.Machine.execHash o s
  | .hdrBuildInter o => Sys2Proof.Machine.execHdrBuildInter o s
  | .hdrParseInter o => Sys2Proof.Machine.execHdrParseInter o s
  | .hdrBuildIntra o => Sys2Proof.Machine.execHdrBuildIntra o s
  | .hdrParseIntra o => Sys2Proof.Machine.execHdrParseIntra o s
  | .xorEnc o => Sys2Proof.Machine.execXorEnc o s
  | .xorDec o => Sys2Proof.Machine.execXorDec o s
  | .gfMul o => Sys2Proof.Machine.execGfMul o s
  | .gfInv o => Sys2Proof.Machine.execGfInv o s
  | .matRank o => Sys2Proof.Machine.execMatRank o s
  | .matInv o => Sys2Proof.Machine.execMatInv o s
  | .vecGen o => Sys2Proof.Machine.execVecGen o s
  | .poolInsert native o => Sys2Proof.Machine.execPoolInsert native o s
  | .oqPopFrame o => Sys2Proof.Machine.execOqPopFrame o s
  | .poolStat o => Sys2Proof.Machine.execPoolStat o s
  | .txPush o => Sys2Proof.Machine.execTxPush o s
  | .encode o => Sys2Proof.Machine.execEncode o s
  | .rxPacket fwd o => Sys2Proof.Machine.execRxPacket fwd o s
  | .decode o => Sys2Proof.Machine.execDecode o s
  | .recode o => Sys2Proof.Machine.execRecode o s
  | .changeFragment o => Sys2Proof.Machine.execChangeFragment o s
  | .flowStat o => Sys2Proof.Machine.execFlowStat o s
  | .flowRow o => Sys2Proof.Machine.execFlowRow o s

end Sys2Proof.Machine
end

