-- ==== Sys2Proof/Machine/Step.lean ====
section
/-!
DEFINITION. One step: the reset signal, or one command taken from the command port (00_scope R2, 30_encoding R90).
-/

namespace Sys2Proof.Machine

/-- One step. Reset lands between commands (70_reset R360). A command is consumed whole and runs (20_memory
R74); with no whole command waiting the engine is idle and keeps its state (60_exceptions R347). -/
def step (s : State) : Host.Outcome State Fault Refusal :=
  if s.resetPin then .next s.applyReset
  else
    match fetchCommand s.cmdIn with
    | none => .next s
    | some (.illegal opc _, rest) => .next (State.rejectIllegal { s with cmdIn := rest } opc)
    | some (.instr i, rest) => exec i { s with cmdIn := rest }

/-- `s` with the command of bits `w` next on the command port (log 5). -/
def State.withFetchWord (s : State) (nbits w : Nat) : State :=
  { s with cmdIn := tableBytes nbits w ++ s.cmdIn }

end Sys2Proof.Machine
end

