-- ==== Sys2Proof/WellFormed.lean ====
section
/-!
DEFINITION. Which terms of `Instr` are commands of the stream: every count fits its byte, every list has the length its
counts give, every blob and the operands as a whole fit a 32-bit length (30_encoding R91, R93, R94), and
operand bytes kept as bytes are ones that do not parse as the layout.
-/

namespace Sys2Proof

/-- A list whose length is a count byte. -/
def countFits {α : Type} (xs : List α) : Bool := xs.length < 256

/-- A blob's length is a u32. -/
def blobFits (b : List Byte) : Bool := b.length < 2 ^ 32

/-- Well-formed operands: the values satisfy `good`, or the bytes do not parse. -/
def Args.wf {α : Type} (good : α → Bool) (p : Parser α) : Args α → Bool
  | .ok a => good a
  | .bad bs => match parseArgs p bs with
    | .ok _ => false
    | .bad _ => true

def HdrBuildInterArgs.wf (o : HdrBuildInterArgs) : Bool :=
  countFits o.descs && countFits o.acks && o.acks.all fun a => blobFits a.tcp

def XorDecArgs.wf (o : XorDecArgs) : Bool :=
  blobFits o.coded && countFits o.natives && o.natives.all blobFits

def OqPopArgs.wf (o : OqPopArgs) : Bool := countFits o.acks && o.acks.all fun a => blobFits a.tcp

/-- The operands of a command are well-formed. -/
def Instr.operandsWf : Instr → Bool
  | .nop o => o.wf (fun _ => true) getNone
  | .regRead o => o.wf (fun _ => true) getU8
  | .cfgWrite o => o.wf (fun _ => true) getCfgWrite
  | .start o => o.wf (fun _ => true) getNone
  | .timeAdvance o => o.wf (fun _ => true) getU64
  | .hash o => o.wf (fun _ => true) getHash
  | .hdrBuildInter o => o.wf HdrBuildInterArgs.wf getHdrBuildInter
  | .hdrParseInter o => o.wf blobFits getBlob
  | .hdrBuildIntra o => o.wf (fun x => countFits x.coeff) getHdrBuildIntra
  | .hdrParseIntra o => o.wf blobFits getBlob
  | .xorEnc o => o.wf (fun ps => countFits ps && ps.all blobFits) getXorEnc
  | .xorDec o => o.wf XorDecArgs.wf getXorDec
  | .gfMul o => o.wf (fun _ => true) getGfMul
  | .gfInv o => o.wf (fun _ => true) getU8
  | .matRank o => o.wf (fun x => x.elems.length == x.r.toNat * x.c.toNat) getMatRank
  | .matInv o => o.wf (fun x => x.elems.length == x.n.toNat * x.n.toNat) getMatInv
  | .vecGen o => o.wf (fun _ => true) getU8
  | .poolInsert _ o => o.wf (fun x => blobFits x.payload) getPoolInsert
  | .oqPopFrame o => o.wf OqPopArgs.wf getOqPop
  | .poolStat o => o.wf (fun _ => true) getU16
  | .txPush o => o.wf (fun x => blobFits x.payload) getTxPush
  | .encode o => o.wf (fun _ => true) getU16
  | .rxPacket _ o => o.wf (fun x => blobFits x.pkt) getRxPacket
  | .decode o => o.wf (fun _ => true) getU16
  | .recode o => o.wf (fun _ => true) getU16
  | .changeFragment o => o.wf (fun _ => true) getChangeFragment
  | .flowStat o => o.wf (fun _ => true) getU16
  | .flowRow o => o.wf (fun _ => true) getFlowRow

/-- A well-formed command: its operands are, and OLEN is a u32. -/
def Instr.wf (i : Instr) : Bool := i.operandsWf && decide (i.olen < 2 ^ 32)

end Sys2Proof
end

