-- ==== Sys2Proof/Safety.lean ====
section
/-!
DEFINITION. The terms the claims use: when a command is accepted, the classes of statuses, and the invariants of the
state tables (10_state R24, R28, R31, R32, R34, R35, R40 to R42, R48).
-/

namespace Sys2Proof

open Machine

/-! ## Parameters -/

/-- The ranges of the parameters: what 00_scope R5 says of the OPEN ones, values that fit the 1-byte fields
q and k (R5) with coefficients in byte lanes, and a polynomial of degree q for each q (44_gf R200). -/
def Params.legal (p : Params) : Bool :=
  1 ≤ p.qMax && p.qMax ≤ 8 && 1 ≤ p.kMax && p.kMax ≤ 255 &&
    (List.range 8).all (fun i =>
      decide (2 ^ (i + 1) ≤ poly p (i + 1)) && decide (poly p (i + 1) < 2 ^ (i + 2))) &&
    2 ≤ p.poolFlowsMax && 1 ≤ p.oqMax && 1 ≤ p.flowsMax && p.kMax ≤ p.txbufMax &&
    1 ≤ p.payloadMax && p.payloadMax ≤ 65535 && p.payloadMax + 20000 ≤ p.cmdMax

end Sys2Proof

namespace Sys2Proof.Machine

/-! ## Acceptance -/

/-- The column "phase" of the opcode map (30_encoding R101). -/
def phaseNeed : Instr → PhaseNeed
  | .nop _ | .regRead _ => .any
  | .cfgWrite _ | .start _ => .config
  | .timeAdvance _ | .hash _ | .hdrBuildInter _ | .hdrParseInter _ | .hdrBuildIntra _
  | .hdrParseIntra _ | .xorEnc _ | .xorDec _ | .gfMul _ | .gfInv _ | .matRank _ | .matInv _
  | .vecGen _ | .poolInsert _ _ | .oqPopFrame _ | .poolStat _ | .txPush _ | .encode _
  | .rxPacket _ _ | .decode _ | .recode _ | .changeFragment _ | .flowStat _ | .flowRow _ => .run

/-- The operands are bytes that do not parse. -/
def Args.isBad {α : Type} : Args α → Bool
  | .ok _ => false
  | .bad _ => true

/-- The command's operands do not parse as its layout (30_encoding R92 step 6). -/
def malformed : Instr → Bool
  | .nop o => Args.isBad o
  | .regRead o => Args.isBad o
  | .cfgWrite o => Args.isBad o
  | .start o => Args.isBad o
  | .timeAdvance o => Args.isBad o
  | .hash o => Args.isBad o
  | .hdrBuildInter o => Args.isBad o
  | .hdrParseInter o => Args.isBad o
  | .hdrBuildIntra o => Args.isBad o
  | .hdrParseIntra o => Args.isBad o
  | .xorEnc o => Args.isBad o
  | .xorDec o => Args.isBad o
  | .gfMul o => Args.isBad o
  | .gfInv o => Args.isBad o
  | .matRank o => Args.isBad o
  | .matInv o => Args.isBad o
  | .vecGen o => Args.isBad o
  | .poolInsert _ o => Args.isBad o
  | .oqPopFrame o => Args.isBad o
  | .poolStat o => Args.isBad o
  | .txPush o => Args.isBad o
  | .encode o => Args.isBad o
  | .rxPacket _ o => Args.isBad o
  | .decode o => Args.isBad o
  | .recode o => Args.isBad o
  | .changeFragment o => Args.isBad o
  | .flowStat o => Args.isBad o
  | .flowRow o => Args.isBad o

/-- The engine is in RUN, not faulted, and takes commands as long as `i` (30_encoding R92 steps 1, 4, 5). -/
structure State.Running (s : State) (i : Instr) : Prop where
  healthy : s.faulted = false
  inRun : s.phase = .run
  fits : i.olen ≤ s.params.cmdMax

/-- The same in CONFIG. -/
structure State.Configuring (s : State) (i : Instr) : Prop where
  healthy : s.faulted = false
  inConfig : s.phase = .config
  fits : i.olen ≤ s.params.cmdMax

/-! ## Statuses -/

/-- Class E of 60_exceptions R330. -/
def Status.isError : Status → Bool
  | .ok | .iNotFired | .iDependent | .iBehind | .iStale | .iEmpty => false
  | .eOpcode | .eOperand | .ePhase | .eConfig | .eFaulted | .eTime | .eMalformed | .eFieldQ
  | .eKMismatch | .eNoFlow | .eRank | .eZero | .eSingular => true

/-- Class I of 60_exceptions R330. -/
def Status.isInfo : Status → Bool
  | .iNotFired | .iDependent | .iBehind | .iStale | .iEmpty => true
  | .ok | .eOpcode | .eOperand | .ePhase | .eConfig | .eFaulted | .eTime | .eMalformed | .eFieldQ
  | .eKMismatch | .eNoFlow | .eRank | .eZero | .eSingular => false

/-- The last thing sent is a response with this status. -/
def State.Answered (s : State) (st : Status) : Prop :=
  ∃ result, s.outputs.getLast? = some (.response (responseBytes st result))

/-! ## Invariants -/

/-- The registers keep their legal ranges (10_state R24, R28, 40_control R133), and in CONFIG nothing has
happened yet. -/
structure State.ConfigInv (s : State) : Prop where
  q_le : s.q.toNat ≤ s.params.qMax
  kcfg_le : s.kcfg.toNat ≤ s.params.kMax
  encCap_lt : s.encCap.toNat < 2 ^ 31
  recCap_lt : s.recCap.toNat < 2 ^ 31
  configured : s.phase = .run → s.mcp ≠ 0 ∧ s.q ≠ 0 ∧ s.kcfg ≠ 0
  fcode_eq : s.fcode = if s.faulted then fCapacity else 0
  fresh : s.phase = .config →
    s.pool = [] ∧ s.oq = [] ∧ s.flows = [] ∧ s.now = 0 ∧ s.tseq = 0 ∧ s.faulted = false

/-- The items of a bucket, oldest first. -/
def Bucket.items (b : Bucket) : List Item := b.head :: b.rest

/-- The pool and the output queue keep their bounds (10_state R31, R34). -/
structure State.PoolInv (s : State) : Prop where
  keys : Table.wf s.pool = true
  size : ∀ e ∈ s.pool, e.2.items.length ≤ s.mbs.toNat
  owner : ∀ e ∈ s.pool, ∀ it ∈ e.2.items, it.fk = e.1
  buckets : s.pool.length ≤ s.params.poolFlowsMax
  queue : s.oq.length ≤ s.params.oqMax
  batch : ∀ b ∈ s.oq, b.items.length ≤ max s.mcp.toNat 1
  oldest : ∀ b ∈ s.oq, b.oldest ∈ b.items.map Item.ts ∧ ∀ it ∈ b.items, b.oldest ≤ it.ts
  configured : s.phase = .run → s.mcp ≠ 0
  fresh : s.phase = .config → s.pool = [] ∧ s.oq = []

/-- What 10_state R32, R35 and R48 say of the timers between commands. -/
structure State.Clocks (s : State) : Prop where
  bound : ∀ e ∈ s.pool, e.2.timer.deadline = deadlineAfter e.2.head.ts s.btoInter
  ordered : ∀ e ∈ s.pool, e.2.items.Pairwise fun a b => a.ts ≤ b.ts
  recorded : ∀ e ∈ s.pool, ∀ it ∈ e.2.items, it.ts ≤ s.now
  notPast : ∀ e ∈ s.armedTimers, s.now.setWidth 65 ≤ e.1.deadline
  numbered : ∀ e ∈ s.armedTimers, e.1.seq < s.tseq
  distinct : (s.armedTimers.map fun e => e.1.seq).Nodup

/-- The timers are right in every state that has not faulted (60_exceptions R337: after a fault the state
is partial). -/
structure State.TimeInv (s : State) : Prop where
  poolKeys : Table.wf s.pool = true
  flowKeys : Table.wf s.flows = true
  clocks : s.faulted = false → s.Clocks
  fresh : s.phase = .config → s.pool = [] ∧ s.flows = []

/-- A flow record keeps the legal values of 10_state R40, R42, R43, and, while its txBuffer is empty,
10_state R46 and the independence of R41 (log 9 says why not otherwise). M lists rows of k
entries, those below both rank and k, so that every entry outside them and outside the k × k part is zero
(R41, log 14). -/
structure State.FlowOk (s : State) (f : FlowRec) : Prop where
  k_pos : f.k ≠ 0
  k_le : f.k.toNat ≤ s.params.kMax
  counter : f.txCounter.toNat ≤ max s.encCap.toNat s.recCap.toNat + 1
  txSize : f.tx.length ≤ s.params.txbufMax
  rxSize : f.rx.length = f.rank.toNat
  matSize : f.mat.length = min f.rank.toNat f.k.toNat
  matWidth : ∀ r ∈ f.mat, r.length = f.k.toNat
  txElems : ∀ p ∈ f.tx, s.elems p = true
  rxElems : ∀ p ∈ f.rx, s.elems p = true
  matElems : ∀ r ∈ f.mat, s.elems r = true
  collecting : f.tx = [] → f.rank < f.k
  independent : f.tx = [] →
    matRank s.gf f.k.toNat (f.rows f.k.toNat f.rank.toNat) = f.rank.toNat

/-- The flow table keeps its form and bounds (10_state R40 to R43). -/
structure State.FlowInv (s : State) : Prop where
  keys : Table.wf s.flows = true
  records : s.flows.length ≤ s.params.flowsMax
  flow : ∀ e ∈ s.flows, s.FlowOk e.2
  caps : s.encCap.toNat < 2 ^ 31 ∧ s.recCap.toNat < 2 ^ 31
  configured : s.phase = .run → s.kcfg ≠ 0
  kcfg_le : s.kcfg.toNat ≤ s.params.kMax
  fresh : s.phase = .config → s.flows = []

/-! ## Field terms -/

/-- The carry-less product of a and the low n bits of b. -/
def clMul (a b : Nat) : Nat → Nat
  | 0 => 0
  | n + 1 => clMul a b n ^^^ (if b.testBit n then a * 2 ^ n else 0)

/-- The remainder of x modulo the polynomial of F, clearing the bits q+n-1 down to q. -/
def polyMod (F : Gf) (x : Nat) : Nat → Nat
  | 0 => x
  | n + 1 => polyMod F (if x.testBit (F.q + n) then x ^^^ (F.poly * 2 ^ n) else x) n

/-- The polynomial of F has degree q, for a field order of the spec (44_gf R200). -/
def Gf.degreeOk (F : Gf) : Prop := 1 ≤ F.q ∧ F.q ≤ 8 ∧ 2 ^ F.q ≤ F.poly ∧ F.poly < 2 ^ (F.q + 1)

/-- The field of order q of the spec's default table (44_gf R200, log 2). -/
def defaultGf (q : Nat) : Gf := { q, poly := poly Config.vectorParams q }

/-- F is a field: what 44_gf R201 to R203 say of its sum, product and inverse. A table of irreducible
polynomials gives fields (log 2). -/
structure Gf.Lawful (F : Gf) : Prop where
  order : 1 ≤ F.q ∧ F.q ≤ 8
  mul_closed : ∀ a b, isElem F.q a = true → isElem F.q b = true → isElem F.q (gmul F a b) = true
  mul_comm : ∀ a b, isElem F.q a = true → isElem F.q b = true → gmul F a b = gmul F b a
  mul_assoc : ∀ a b c, isElem F.q a = true → isElem F.q b = true → isElem F.q c = true →
    gmul F (gmul F a b) c = gmul F a (gmul F b c)
  mul_add : ∀ a b c, isElem F.q a = true → isElem F.q b = true → isElem F.q c = true →
    gmul F a (gadd b c) = gadd (gmul F a b) (gmul F a c)
  mul_one : ∀ a, isElem F.q a = true → gmul F a 1 = a
  inverse : ∀ a, isElem F.q a = true → a ≠ 0 →
    isElem F.q (ginv F a) = true ∧ gmul F a (ginv F a) = 1

/-- An n×c matrix of GF(2^q) elements as a list of rows. -/
def isMatrix (q r c : Nat) (a : List (List Byte)) : Prop :=
  a.length = r ∧ ∀ v ∈ a, v.length = c ∧ v.all (isElem q) = true

/-- The rows (of length c) are linearly independent (44_gf R205). -/
def Independent (F : Gf) (c : Nat) (rows : List (List Byte)) : Prop :=
  ∀ u : List Byte, u.length = rows.length → u.all (isElem F.q) = true →
    linComb F c u rows = zeroVec c → u = zeroVec rows.length

/-! ## Encodings and registers in numbers -/

/-- The opcodes of the opcode map (30_encoding R101). -/
def opcodeMap : List Byte :=
  [0x00#8, 0x01#8, 0x02#8, 0x03#8, 0x04#8, 0x10#8, 0x20#8, 0x21#8, 0x22#8, 0x23#8, 0x30#8, 0x31#8,
    0x40#8, 0x41#8, 0x42#8, 0x43#8, 0x44#8, 0x50#8, 0x51#8, 0x52#8, 0x60#8, 0x61#8, 0x62#8, 0x63#8,
    0x64#8, 0x65#8, 0x66#8, 0x67#8]

/-- The values of the register map as numbers (10_state R21, R22, R25); none for an unassigned number. -/
def specRegister (s : State) (n : Nat) : Option Nat :=
  match n with
  | 0x00 => some 0x4E434501
  | 0x01 => some ((if s.phase = .run then 1 else 0) + (if s.faulted then 2 + 256 * s.fcode.toNat else 0)
      + (if s.oq = [] then 0 else 4))
  | 0x02 => some (s.now.toNat % 2 ^ 32)
  | 0x03 => some (s.now.toNat / 2 ^ 32)
  | 0x04 => some s.oq.length
  | 0x05 => some s.pool.length
  | 0x06 => some s.flows.length
  | 0x10 => some s.mbs.toNat
  | 0x11 => some s.btoInter.toNat
  | 0x12 => some s.mcp.toNat
  | 0x20 => some s.q.toNat
  | 0x21 => some s.kcfg.toNat
  | 0x22 => some s.mode.toNat
  | 0x23 => some s.btoIntra.toNat
  | 0x24 => some s.encCap.toNat
  | 0x25 => some s.recCap.toNat
  | 0x26 => some s.cfAdvance.toNat
  | 0x27 => some (poly s.params s.q.toNat)
  | _ => none

/-- The legal range of each RW register (40_control R132); none for a register that is not RW. -/
def specRange (p : Params) (n : Nat) : Option (Nat × Nat) :=
  match n with
  | 0x10 => some (0, 65535)
  | 0x11 => some (0, 2 ^ 32 - 1)
  | 0x12 => some (1, 255)
  | 0x20 => some (1, p.qMax)
  | 0x21 => some (1, p.kMax)
  | 0x22 => some (0, 1)
  | 0x23 => some (0, 2 ^ 32 - 1)
  | 0x24 => some (0, 2 ^ 31 - 1)
  | 0x25 => some (0, 2 ^ 31 - 1)
  | 0x26 => some (0, 1)
  | _ => none

/-- The commands 20_memory R75 lists as having no side effect on the state. -/
def hasNoSideEffect : Instr → Bool
  | .regRead _ | .hash _ | .hdrBuildInter _ | .hdrParseInter _ | .hdrBuildIntra _ | .hdrParseIntra _
  | .xorEnc _ | .xorDec _ | .gfMul _ | .gfInv _ | .matRank _ | .matInv _ | .poolStat _ | .flowStat _
  | .flowRow _ => true
  | .nop _ | .cfgWrite _ | .start _ | .timeAdvance _ | .vecGen _ | .poolInsert _ _ | .oqPopFrame _
  | .txPush _ | .encode _ | .rxPacket _ _ | .decode _ | .recode _ | .changeFragment _ => false

/-- The flow whose record a command may write (46_rlnc). -/
def writesFlow : Instr → Option U16
  | .txPush (.ok a) => some a.flow
  | .encode (.ok g) => some g
  | .rxPacket _ (.ok a) => some a.flow
  | .decode (.ok g) => some g
  | .recode (.ok g) => some g
  | .changeFragment (.ok a) => some a.flow
  | _ => none

/-- `f` is the record that RX_PACKET prepares for a data packet before the insertion (46_rlnc R280, R281,
R284): a new record, the record after AHEAD, the current one with the packet's k at rank 0, or the current
one as it is. -/
inductive State.RxTarget (s : State) (fwd : Bool) (flow : U16) (r : IntraHeader) : FlowRec → Prop where
  | created (unknown : Table.find flow s.flows = none)
      (room : s.flows.length ≠ s.params.flowsMax) :
      State.RxTarget s fwd flow r (newFlow r.k r.frag fwd r.sport r.dport)
  | ahead (f : FlowRec) (known : Table.find flow s.flows = some f) (later : f.frag < r.frag) :
      State.RxTarget s fwd flow r
        { f with frag := r.frag, k := r.k, rank := 0, mat := [], rx := [], txCounter := 0 }
  | first (f : FlowRec) (known : Table.find flow s.flows = some f) (same : r.frag = f.frag)
      (empty : f.rank = 0) :
      State.RxTarget s fwd flow r { f with k := r.k }
  | next (f : FlowRec) (known : Table.find flow s.flows = some f) (same : r.frag = f.frag)
      (some_rows : f.rank ≠ 0) (agrees : r.k = f.k) : State.RxTarget s fwd flow r f

/-- What is left of the buckets of `t` when their heads are taken one after the other (45_pool R233, R234): a
bucket of one item is gone, another one keeps its other items, with its timer armed for the new head. The
armings are numbered from `n`. -/
def State.beheaded (s : State) (n : Nat) : Table Bucket → Table Bucket
  | [] => []
  | (g, b) :: t =>
    match b.rest with
    | [] => s.beheaded n t
    | x :: xs =>
      (g, { head := x
            rest := xs
            timer := { deadline := BitVec.ofNat 65 (x.ts.toNat + s.btoInter.toNat), seq := n } }) ::
        s.beheaded (n + 1) t

/-- The state after the heads of the buckets `chosen` were taken in turn, `rest` being the other buckets. -/
def State.withoutHeads (s : State) (chosen rest : Table Bucket) : State :=
  let left := s.beheaded s.tseq chosen
  { s with
    tseq := s.tseq + left.length
    pool := left.foldr (fun e t => Table.put e.1 e.2 t) rest }

/-- The state when SEARCH(fk) comes to push its batch (45_pool R235), where bucket fk is `own` and `others` are
the other buckets in rising key order: the head of `own` and those of the first MCP − 1 others are taken. -/
def State.searchTaken (s : State) (fk : U16) (own : Bucket) (others : Table Bucket) : State :=
  s.withoutHeads ((fk, own) :: others.take (s.mcp.toNat - 1)) (others.drop (s.mcp.toNat - 1))

/-- The state after SEARCH(fk): one batch of the heads taken and one SEND. -/
def State.searched (s : State) (fk : U16) (own : Bucket) (others : Table Bucket) : State :=
  let heads := (others.take (s.mcp.toNat - 1)).map fun e => e.2.head
  State.emit
    { s.searchTaken fk own others with
      oq := s.oq ++ [{ first := own.head, others := heads, oldest := oldestTs own.head heads }] }
    .send

/-- The state in the fault state with F_CAPACITY, and its response (60_exceptions R337, R338). -/
def State.capacityFault (s : State) : State :=
  State.respond { s with faulted := true, fcode := 0x01#8 } .eFaulted []

/-- The items in the pool. -/
def State.poolItems (s : State) : Nat := (s.pool.map fun e => e.2.items.length).sum

end Sys2Proof.Machine
end

