-- ==== Sys2Proof/Certificates/Slice0/Obligations.lean ====
section
/-!
DEFINITION. The statements about the NCE, one `def Obligations.<Name> : Prop` each.
-/

open Sys2Proof Sys2Proof.Machine

/-! ## Encoding -/

/-- 30_encoding R90 to R94: a well-formed command, encoded and followed by any bytes, is fetched as itself,
and the bytes after it are left. Operand bytes that do not parse are part of the command (the model's
form, log 12). -/
def Obligations.DecodeOfEncode : Prop :=
  ∀ (i : Instr) (rest : List Byte), i.wf = true →
    fetchCommand (encode i ++ rest) = some (.instr i, rest)

/-- 30_encoding R90 to R94: what is fetched as a command is well-formed, and the bytes consumed are its
encoding: the decoder drops no bit. -/
def Obligations.EncodeOfDecode : Prop :=
  ∀ (bs : List Byte) (i : Instr) (rest : List Byte), fetchCommand bs = some (.instr i, rest) →
    i.wf = true ∧ bs = encode i ++ rest

/-- 30_encoding R90: a step consumes exactly the 8 + OLEN bytes of a command, whether it runs the command or
rejects it, and only the first 8 bytes tell the length. That it leaves the state as it is while they have
not all arrived is the model's choice (log 5). -/
def Obligations.StreamStaysFramed : Prop :=
  (∀ s : State, s.resetPin = false → s.cmdIn.length < 8 → step s = .next s) ∧
  ∀ (s : State) (header body : List Byte), s.resetPin = false → header.length = 8 →
    s.cmdIn = header ++ body →
    (body.length < beNat (header.drop 4) → step s = .next s) ∧
    (beNat (header.drop 4) ≤ body.length →
      ∃ t, step s = .next t ∧ t.cmdIn = body.drop (beNat (header.drop 4)))

/-- 30_encoding R92 steps 2 and 3, R102: an opcode outside the map, a set RSV bit or an undefined FLG bit
answers E_OPCODE and changes nothing but the port; every other header is a command of its opcode. -/
def Obligations.IllegalCommandsAnswerEOpcode : Prop :=
  ∀ (s : State) (opc flg r1 r0 : Byte) (ops rest : List Byte), s.resetPin = false →
    s.faulted = false → ops.length < 2 ^ 32 →
    s.cmdIn = [opc, flg, r1, r0] ++ putBE 4 ops.length ++ ops ++ rest →
    (if opc ∉ opcodeMap ∨ r1 ≠ 0 ∨ r0 ≠ 0 ∨
        ¬ (flg = 0 ∨ flg = 1 ∧ (opc = 0x50#8 ∨ opc = 0x62#8)) then
      step s = .next (State.respond { s with cmdIn := rest } .eOpcode [])
    else
      ∃ i : Instr, i.opcode = opc ∧ i.flagByte = flg ∧ i.operandBytes = ops ∧
        step s = exec i { s with cmdIn := rest })

/-- 30_encoding R94, R101: words written out from the layouts decode to their commands. -/
def Obligations.WrittenWordsDecode : Prop :=
  decodeTableWord 32 0x03000000 = some (.start (.ok ())) ∧
  fetchCommand [0x02, 0, 0, 0, 0, 0, 0, 5, 0x20, 0, 0, 0, 1] =
    some (.instr (.cfgWrite (.ok { reg := 0x20, value := 1 })), []) ∧
  fetchCommand [0x40, 0, 0, 0, 0, 0, 0, 2, 0x02, 0x80] =
    some (.instr (.gfMul (.ok { a := 0x02, b := 0x80 })), []) ∧
  fetchCommand [0x62, 0x01, 0, 0, 0, 0, 0, 7, 0x00, 0x03, 0, 0, 0, 1, 0xAA] =
    some (.instr (.rxPacket true (.ok { flow := 3, pkt := [0xAA] })), []) ∧
  fetchCommand [0x51, 0, 0, 0, 0, 0, 0, 2, 9, 0] =
    some (.instr (.oqPopFrame (.ok { ptype := 9, acks := [] })), [])

/-! ## Steps and the order of checks -/

/-- 00_scope R2, 20_memory R74: with the reset signal down, a step whose next command is `i` is `exec i` on
the state without the command's bytes. -/
def Obligations.StepRunsDecodedCommand : Prop :=
  ∀ (s : State) (i : Instr) (rest : List Byte), s.resetPin = false →
    fetchCommand s.cmdIn = some (.instr i, rest) → step s = exec i { s with cmdIn := rest }

/-- 70_reset R360: in every state, the reset signal (the field `resetPin`, log 7) gives every piece of state
its reset value, no record is pending, and the read-only registers read accordingly. -/
def Obligations.ResetSignalResetsState : Prop :=
  ∀ s : State, s.resetPin = true → ∃ t, step s = .next t ∧
    t.phase = .config ∧ t.faulted = false ∧ t.fcode = 0 ∧ t.now = 0 ∧ t.tseq = 0 ∧
    t.mbs = 0 ∧ t.btoInter = 0 ∧ t.mcp = 0 ∧ t.q = 0 ∧ t.kcfg = 0 ∧ t.mode = 0 ∧ t.btoIntra = 0 ∧
    t.encCap = 5 ∧ t.recCap = 1 ∧ t.cfAdvance = 0 ∧ t.pool = [] ∧ t.oq = [] ∧ t.flows = [] ∧
    (∀ bytes, Output.record bytes ∉ t.outputs) ∧ t.readReg .id = 0x4E434501#32 ∧ t.readReg .status = 0 ∧
    t.readReg .nowLo = 0 ∧ t.readReg .nowHi = 0 ∧ t.readReg .oqDepth = 0 ∧
    t.readReg .poolBuckets = 0 ∧ t.readReg .flows = 0 ∧ t.readReg .poly = 0

/-- 30_encoding R92 steps 1, 4, 5 and 6 for a decoded command: the first check that applies gives the
status, and nothing else happens. -/
def Obligations.ChecksComeInOrder : Prop :=
  ∀ (i : Instr) (s : State),
    (s.faulted = true → i.opcode ≠ 0x01#8 → exec i s = .next (s.respond .eFaulted [])) ∧
    (s.faulted = false ∨ i.opcode = 0x01#8 →
      (s.params.cmdMax < i.olen → exec i s = .next (s.respond .eOperand [])) ∧
      (i.olen ≤ s.params.cmdMax →
        ((phaseNeed i).allows s.phase = false → exec i s = .next (s.respond .ePhase [])) ∧
        ((phaseNeed i).allows s.phase = true → malformed i = true →
          exec i s = .next (s.respond .eOperand []))))

/-- 30_encoding R97, 20_memory R70, R76: every command ends in a next state that has sent some records and
then exactly one response, with no result bytes unless the status is OK; what was sent before stays, and
the parameters and the ports' input side are as they were. -/
def Obligations.EveryCommandAnswersOnce : Prop :=
  ∀ (i : Instr) (s : State), ∃ (t : State) (recs : List Record) (st : Status) (result : List Byte),
    exec i s = .next t ∧
    t.outputs = s.outputs ++ recs.map (fun r => Output.record r.bytes) ++
      [.response (responseBytes st result)] ∧
    (st ≠ .ok → result = []) ∧ t.cmdIn = s.cmdIn ∧ t.params = s.params ∧ t.resetPin = s.resetPin

/-- 60_exceptions R335, R336: a class E status of a command that did not itself fault the engine, and
I_NOTFIRED, I_STALE and I_EMPTY, leave the whole state as it was but for the response; I_BEHIND adds only
its resync ACK; no class I status draws. -/
def Obligations.StatusWithoutEffect : Prop :=
  ∀ (i : Instr) (s t : State) (st : Status), exec i s = .next t → t.Answered st →
    ((st.isError = true ∧ (st = .eFaulted → s.faulted = true)) ∨ st = .iNotFired ∨ st = .iStale ∨
      st = .iEmpty → t = s.respond st []) ∧
    (st = .iBehind → ∃ flow frame, t = (s.emit (.rlncAck flow frame)).respond .iBehind []) ∧
    (st.isInfo = true → t.draws = s.draws ∧ t.freeCount = s.freeCount)

/-- 20_memory R75: the commands it lists change nothing but the out port, and repeating one gives the same
response; VEC_GEN moves only the oracle's side besides (the fields of log 4). -/
def Obligations.InspectionHasNoSideEffect : Prop :=
  ∀ (i : Instr) (s t : State), exec i s = .next t →
    (hasNoSideEffect i = true → t = { s with outputs := t.outputs } ∧
      ∀ u, exec i t = .next u → u.outputs.getLast? = t.outputs.getLast?) ∧
    (∀ o, i = .vecGen o →
      t = { s with outputs := t.outputs, draws := t.draws, freeCount := t.freeCount })

/-! ## The fault state -/

/-- 10_state R28, 60_exceptions R337: FAULT and FCODE reset to 0; without the reset signal no step clears or
changes them; and while FAULT = 1 every command but REG_READ, legal or not, answers E_FAULTED and changes
nothing. -/
def Obligations.FaultStateIsSticky : Prop :=
  (State.reset.faulted = false ∧ State.reset.fcode = 0) ∧
  ∀ s : State, s.faulted = true → s.resetPin = false →
    (∀ t, step s = .next t → t.faulted = true ∧ t.fcode = s.fcode) ∧
    (∀ (opc : Byte) (tail : List Byte) (d : Decoded) (rest : List Byte), opc ≠ 0x01#8 →
      s.cmdIn = opc :: tail → fetchCommand s.cmdIn = some (d, rest) →
      step s = .next (State.respond { s with cmdIn := rest } .eFaulted []))

/-- 60_exceptions R337, R338: within the parameter ranges, a command that faults the engine sets FCODE to
F_CAPACITY, answers E_FAULTED, and met one of the four bounds in the place R338 names. -/
def Obligations.FaultOnlyFromCapacity : Prop :=
  ∀ (i : Instr) (s t : State), s.params.legal = true → s.faulted = false → exec i s = .next t →
    t.faulted = true →
    t.fcode = 0x01#8 ∧ t.Answered .eFaulted ∧
    ((∃ native a, i = .poolInsert native (.ok a) ∧
        ((Table.find (flowKey s.params a.src a.dst a.sport a.dport) s.pool = none ∧ s.mbs ≠ 0 ∧
            s.pool.length = s.params.poolFlowsMax) ∨ t.oq.length = s.params.oqMax)) ∨
      (∃ o, i = .timeAdvance o ∧ t.oq.length = s.params.oqMax) ∨
      (∃ a, i = .txPush (.ok a) ∧
        ((Table.find a.flow s.flows = none ∧ s.flows.length = s.params.flowsMax) ∨
          ∃ f, Table.find a.flow s.flows = some f ∧ f.tx.length = s.params.txbufMax)) ∨
      (∃ fwd a, i = .rxPacket fwd (.ok a) ∧ Table.find a.flow s.flows = none ∧
        s.flows.length = s.params.flowsMax))

/-! ## Control commands -/

/-- 40_control R130: NOP answers OK in both phases and changes nothing; otherwise only the decode checks
answer; its bytes are eight zeros, and so is its response. -/
def Obligations.NopDoesNothing : Prop :=
  (∀ s : State, s.faulted = false → exec (.nop (.ok ())) s = .next (s.respond .ok [])) ∧
  (∀ (s : State) (o : Args Unit), s.faulted = true →
    exec (.nop o) s = .next (s.respond .eFaulted [])) ∧
  (∀ (s : State) (bs : List Byte), s.faulted = false →
    exec (.nop (.bad bs)) s = .next (s.respond .eOperand [])) ∧
  encode (.nop (.ok ())) = [0, 0, 0, 0, 0, 0, 0, 0] ∧
  responseBytes .ok [] = [0, 0, 0, 0, 0, 0, 0, 0] ∧
  ∀ (flg r1 r0 : Byte) (ops : List Byte), (flg, r1, r0) ≠ (0, 0, 0) →
    decodeCommand 0 flg r1 r0 ops = .illegal 0 .reservedBits

/-- 40_control R131, 10_state R21, R22, R25: REG_READ answers the register's value in both phases and while
faulted, and E_OPERAND for an unassigned number. -/
def Obligations.RegReadAnswersRegister : Prop :=
  ∀ (s : State) (reg : Byte), 1 ≤ s.params.cmdMax →
    exec (.regRead (.ok reg)) s =
      .next (match specRegister s reg.toNat with
        | some v => s.respond .ok (putBE 4 v)
        | none => s.respond .eOperand [])

/-- 40_control R132, 10_state R24: CFG_WRITE in CONFIG rejects an unassigned number, a read-only register
and a value out of range; otherwise the register reads the value afterwards and every other register
(POLY aside when Q is written) and every table is as before. -/
def Obligations.CfgWriteSetsOneRegister : Prop :=
  ∀ (s : State) (a : CfgWriteArgs), s.Configuring (.cfgWrite (.ok a)) → s.params.legal = true →
    (specRegister s a.reg.toNat = none →
      exec (.cfgWrite (.ok a)) s = .next (s.respond .eOperand [])) ∧
    (specRegister s a.reg.toNat ≠ none → specRange s.params a.reg.toNat = none →
      exec (.cfgWrite (.ok a)) s = .next (s.respond .eConfig [])) ∧
    (∀ lo hi, specRange s.params a.reg.toNat = some (lo, hi) → ¬ (lo ≤ a.value.toNat ∧ a.value.toNat ≤ hi) →
      exec (.cfgWrite (.ok a)) s = .next (s.respond .eConfig [])) ∧
    (∀ lo hi, specRange s.params a.reg.toNat = some (lo, hi) → lo ≤ a.value.toNat → a.value.toNat ≤ hi →
      ∃ t, exec (.cfgWrite (.ok a)) s = .next (t.respond .ok []) ∧
        specRegister t a.reg.toNat = some a.value.toNat ∧
        (∀ n, n ≠ a.reg.toNat → (n = 0x27 → a.reg.toNat ≠ 0x20) →
          specRegister t n = specRegister s n) ∧
        t.pool = s.pool ∧ t.oq = s.oq ∧ t.flows = s.flows ∧ t.tseq = s.tseq ∧ t.phase = s.phase ∧
        t.faulted = s.faulted ∧ t.fcode = s.fcode ∧ t.cmdIn = s.cmdIn ∧ t.outputs = s.outputs ∧
        t.resetPin = s.resetPin ∧ t.draws = s.draws ∧ t.freeCount = s.freeCount ∧
        t.params = s.params)

/-- 40_control R133: START leaves CONFIG unless MCP, Q or KCFG is 0; in RUN it answers E_PHASE; it changes
nothing but the phase, which STATUS.RUN shows. -/
def Obligations.StartEntersRun : Prop :=
  (∀ s : State, s.Configuring (.start (.ok ())) →
    (s.mcp = 0 ∨ s.q = 0 ∨ s.kcfg = 0 →
      exec (.start (.ok ())) s = .next (s.respond .eConfig [])) ∧
    (s.mcp ≠ 0 → s.q ≠ 0 → s.kcfg ≠ 0 →
      exec (.start (.ok ())) s = .next (State.respond { s with phase := .run } .ok []) ∧
      (State.readReg { s with phase := .run } .status).getLsbD 0 = true)) ∧
  ∀ s : State, s.Running (.start (.ok ())) →
    exec (.start (.ok ())) s = .next (s.respond .ePhase [])

/-- 10_state R27: reset puts the phase in CONFIG; START, and only START, moves it to RUN; nothing but reset
moves it back; STATUS.RUN shows it. -/
def Obligations.PhaseMovesByStartAndReset : Prop :=
  State.reset.phase = .config ∧
  (∀ s t : State, step s = .next t → s.resetPin = false → s.phase = .run → t.phase = .run) ∧
  (∀ s t : State, step s = .next t → s.phase = .config → t.phase = .run →
    ∃ rest, fetchCommand s.cmdIn = some (.instr (.start (.ok ())), rest)) ∧
  (∀ s : State, s.Configuring (.start (.ok ())) → s.mcp ≠ 0 → s.q ≠ 0 → s.kcfg ≠ 0 →
    ∃ t, exec (.start (.ok ())) s = .next t ∧ t.phase = .run) ∧
  (∀ s : State, s.resetPin = true → ∃ t, step s = .next t ∧ t.phase = .config) ∧
  ∀ s : State, (s.readReg .status).getLsbD 0 = decide (s.phase = .run)

/-- 70_reset R364: in RUN, CFG_WRITE and START answer E_PHASE, no step without the reset signal changes a
configuration register, and a reset discards the pool, the output queue and every flow record. -/
def Obligations.ConfigurationFrozenInRun : Prop :=
  (∀ (s : State) (o : Args CfgWriteArgs), s.Running (.cfgWrite o) →
    exec (.cfgWrite o) s = .next (s.respond .ePhase [])) ∧
  (∀ (s : State) (o : Args Unit), s.Running (.start o) →
    exec (.start o) s = .next (s.respond .ePhase [])) ∧
  (∀ s t : State, s.phase = .run → s.resetPin = false → step s = .next t →
    t.mbs = s.mbs ∧ t.btoInter = s.btoInter ∧ t.mcp = s.mcp ∧ t.q = s.q ∧ t.kcfg = s.kcfg ∧
    t.mode = s.mode ∧ t.btoIntra = s.btoIntra ∧ t.encCap = s.encCap ∧ t.recCap = s.recCap ∧
    t.cfAdvance = s.cfAdvance) ∧
  ∀ s : State, s.resetPin = true →
    ∃ t, step s = .next t ∧ t.pool = [] ∧ t.oq = [] ∧ t.flows = []

/-- 10_state R24, R28, 40_control R133: every step keeps the registers in their ranges, a running engine
configured, FCODE in step with FAULT, and an engine in CONFIG empty. -/
def Obligations.StepKeepsConfigInv : Prop :=
  ∀ s t : State, s.ConfigInv → step s = .next t → t.ConfigInv

/-! ## Time -/

/-- 10_state R23: from a state whose timers are right, no step without the reset signal moves NOW back, and
only TIME_ADVANCE moves it. -/
def Obligations.NowMovesOnlyForward : Prop :=
  ∀ s t : State, s.TimeInv → s.resetPin = false → step s = .next t →
    s.now ≤ t.now ∧
    (t.now ≠ s.now → ∃ o rest, fetchCommand s.cmdIn = some (.instr (.timeAdvance o), rest))

/-- 10_state R31, R32, R35, R48: every step keeps the timers right: each bucket's timer is bound to its head,
items are in time order, no armed timer lies in the past, and arm numbers are distinct (TSEQ has no wrap:
the model's reading, log 8). -/
def Obligations.StepKeepsTimeInv : Prop :=
  ∀ s t : State, s.TimeInv → step s = .next t → t.TimeInv

/-- 40_control R134: TIME_ADVANCE to a time before NOW answers E_TIME. Otherwise it ends either faulted by a
full output queue, or with NOW = t and no timer due; the latter always when the queue has room for every
item of the pool. -/
def Obligations.TimeAdvanceLeavesNothingDue : Prop :=
  ∀ (s : State) (t : U64), s.Running (.timeAdvance (.ok t)) → Table.wf s.pool = true →
    Table.wf s.flows = true →
    (t < s.now → exec (.timeAdvance (.ok t)) s = .next (s.respond .eTime [])) ∧
    (s.now ≤ t → ∃ u, exec (.timeAdvance (.ok t)) s = .next u ∧
      ((u.faulted = true ∧ u.Answered .eFaulted ∧ u.oq.length = s.params.oqMax) ∨
        (u.faulted = false ∧ u.Answered .ok ∧ u.now = t ∧
          ∀ e ∈ u.armedTimers, t.setWidth 65 < e.1.deadline)) ∧
      (s.oq.length + s.poolItems ≤ s.params.oqMax →
        u.faulted = false ∧ u.Answered .ok ∧ u.now = t ∧
          ∀ e ∈ u.armedTimers, t.setWidth 65 < e.1.deadline))

/-- 40_control R134, 10_state R35, 45_pool R240: the timer that fires next is an armed one due by t, with the
least (deadline, seq), and none fires only when none is due. TIME_ADVANCE fires that one first, with NOW at
its deadline, and goes on from the state this leaves; with none due it only sets NOW. A pool timer takes its
bucket's head as a batch of one: a bucket that keeps items has its timer armed again for the new head,
another one is gone, and with the output queue full the engine faults. A flow timer is disarmed, and the
pool, the queue and every other flow stay as they were. -/
def Obligations.TimersFireInOrder : Prop :=
  ∀ (s : State) (t : U64),
    (∀ e, s.nextDue t = some e → e ∈ s.armedTimers ∧ e.1.deadline ≤ t.setWidth 65 ∧
      ∀ e' ∈ s.armedTimers, e'.1.deadline ≤ t.setWidth 65 →
        e.1.deadline < e'.1.deadline ∨
          (e.1.deadline = e'.1.deadline ∧ e.1.seq ≤ e'.1.seq)) ∧
    (s.nextDue t = none ↔ ∀ e ∈ s.armedTimers, ¬ e.1.deadline ≤ t.setWidth 65) ∧
    (s.Running (.timeAdvance (.ok t)) → Table.wf s.pool = true → Table.wf s.flows = true →
      s.now ≤ t →
      (s.nextDue t = none →
        exec (.timeAdvance (.ok t)) s = .next (State.respond { s with now := t } .ok [])) ∧
      ∀ (tm : Timer) (who : Owner), s.nextDue t = some (tm, who) →
        (∃ now : U64, now.setWidth 65 = tm.deadline ∧
          (∀ fk, who = .pool fk → ∃ b, Table.find fk s.pool = some b ∧
            (s.oq.length ≠ s.params.oqMax → ∃ s',
              s' = State.emit
                { State.withoutHeads { s with now } [(fk, b)] (Table.erase fk s.pool) with
                  oq := s.oq ++ [{ first := b.head, others := [], oldest := b.head.ts }] } .send ∧
              s.fire (tm, who) = .goOn s' ∧
              exec (.timeAdvance (.ok t)) s = exec (.timeAdvance (.ok t)) s') ∧
            (s.oq.length = s.params.oqMax →
              exec (.timeAdvance (.ok t)) s = .next (State.capacityFault
                (State.withoutHeads { s with now } [(fk, b)] (Table.erase fk s.pool))))) ∧
          (∀ g, who = .flow g → ∃ s' f,
            s.fire (tm, who) = .goOn s' ∧
            exec (.timeAdvance (.ok t)) s = exec (.timeAdvance (.ok t)) s' ∧
            s' = { s with
              now, flows := s'.flows, draws := s'.draws, freeCount := s'.freeCount,
              outputs := s'.outputs } ∧
            Table.find g s'.flows = some f ∧ f.ft = none ∧
            ∀ g', g' ≠ g → Table.find g' s'.flows = Table.find g' s.flows)))

/-- 45_pool R247: an item inserted alone at time T with timeout D is not in the output queue after a
TIME_ADVANCE to a time before T + D, and is there, as a batch of its own, after one to T + D or later. -/
def Obligations.EvictionTimeLaw : Prop :=
  ∀ (s : State) (native : Bool) (a : PoolInsertArgs) (t : U64),
    s.Running (.poolInsert native (.ok a)) → s.Running (.timeAdvance (.ok t)) → s.pool = [] →
    Table.wf s.flows = true → s.mbs ≠ 0 → s.params.poolFlowsMax ≠ 0 →
    s.oq.length ≠ s.params.oqMax → a.payload.length ≤ s.params.payloadMax → s.now ≤ t →
    ∃ s1 s2, exec (.poolInsert native (.ok a)) s = .next s1 ∧
      exec (.timeAdvance (.ok t)) s1 = .next s2 ∧ s1.oq = s.oq ∧ s2.now = t ∧
      (t.toNat < s.now.toNat + s.btoInter.toNat → s2.oq = s.oq ∧ s2.pool = s1.pool) ∧
      (s.now.toNat + s.btoInter.toNat ≤ t.toNat →
        s2.oq = s.oq ++ [{ first := s.itemOf native a, others := [], oldest := s.now }] ∧
        s2.pool = [])

/-- 46_rlnc R296 inside 40_control R134, 10_state R41: when a flow timer fires, in any state, fewer than k
waiting packets become the effective k and are encoded if the guard allows, and the entries of M outside the
new k × k part are 0; otherwise the record only loses its timer. The last clauses say the same of a
TIME_ADVANCE at which that timer alone is armed. The oracle's side (draws, freeCount) is the model's form,
log 4; when the entries become 0 is its reading, log 10. -/
def Obligations.FlowTimerFlushesShortBatch : Prop :=
  (∀ (s : State) (g : U16) (f : FlowRec) (tm : Timer), Table.find g s.flows = some f →
    f.ft = some tm →
    (0 < f.tx.length → f.tx.length < f.k.toNat → f.fwd = false → f.txCounter ≤ s.encCap →
      1 ≤ s.qn → s.qn ≤ 8 →
      ∃ v, legalDraw s.qn f.tx.length v = true ∧
        s.fire (tm, .flow g) = .goOn
          { s with
            now := tm.deadline.setWidth 64
            draws := s.draws.tail
            freeCount := s.freeCount + 1
            flows := Table.put g { f with
              k := BitVec.ofNat 8 f.tx.length
              mat := (f.mat.take f.tx.length).map (List.take f.tx.length)
              ft := none
              txCounter := f.txCounter + 1 } s.flows
            outputs := s.outputs ++ [.record (Record.bytes (.rlncTx g
              (intraHdr (BitVec.ofNat 8 f.tx.length) (s.q.setWidth 8) f.frag 0 f.sport f.dport v ++
                lcp s.gf v f.tx)))] }) ∧
    (0 < f.tx.length → f.tx.length < f.k.toNat → (f.fwd = true ∨ s.encCap < f.txCounter) →
      s.fire (tm, .flow g) = .goOn
        { s with
          now := tm.deadline.setWidth 64
          flows := Table.put g { f with
            k := BitVec.ofNat 8 f.tx.length
            mat := (f.mat.take f.tx.length).map (List.take f.tx.length)
            ft := none } s.flows }) ∧
    ((f.tx.length = 0 ∨ f.k.toNat ≤ f.tx.length) →
      s.fire (tm, .flow g) = .goOn
        { s with
          now := tm.deadline.setWidth 64
          flows := Table.put g { f with ft := none } s.flows })) ∧
  ∀ (s : State) (t : U64) (g : U16) (f : FlowRec) (tm : Timer),
    s.Running (.timeAdvance (.ok t)) → s.now ≤ t → s.pool = [] → s.flows = [(g, f)] →
    f.ft = some tm → tm.deadline ≤ t.setWidth 65 → 1 ≤ s.qn → s.qn ≤ 8 →
    (0 < f.tx.length → f.tx.length < f.k.toNat → f.fwd = false → f.txCounter ≤ s.encCap →
      ∃ v, legalDraw s.qn f.tx.length v = true ∧
        exec (.timeAdvance (.ok t)) s = .next (State.respond
          { s with
            now := t
            draws := s.draws.tail
            freeCount := s.freeCount + 1
            flows := [(g, { f with
              k := BitVec.ofNat 8 f.tx.length
              mat := (f.mat.take f.tx.length).map (List.take f.tx.length)
              ft := none
              txCounter := f.txCounter + 1 })]
            outputs := s.outputs ++ [.record (Record.bytes (.rlncTx g
              (intraHdr (BitVec.ofNat 8 f.tx.length) (s.q.setWidth 8) f.frag 0 f.sport f.dport v ++
                lcp s.gf v f.tx)))] } .ok [])) ∧
    (0 < f.tx.length → f.tx.length < f.k.toNat → (f.fwd = true ∨ s.encCap < f.txCounter) →
      exec (.timeAdvance (.ok t)) s = .next (State.respond
        { s with
          now := t
          flows := [(g, { f with
            k := BitVec.ofNat 8 f.tx.length
            mat := (f.mat.take f.tx.length).map (List.take f.tx.length)
            ft := none })] } .ok [])) ∧
    ((f.tx.length = 0 ∨ f.k.toNat ≤ f.tx.length) →
      exec (.timeAdvance (.ok t)) s = .next (State.respond
        { s with now := t, flows := [(g, { f with ft := none })] } .ok []))

/-! ## The pool and the output queue -/

/-- 45_pool R231, R232, 60_exceptions R338: with MBS = 0 the item of the operands goes straight to the output
queue as a batch of one with one SEND, and the pool is not touched; with the queue full the engine faults
instead. FLG bit 0 is the item's native flag. -/
def Obligations.PoolOffBypasses : Prop :=
  ∀ (s : State) (native : Bool) (a : PoolInsertArgs), s.Running (.poolInsert native (.ok a)) →
    s.mbs = 0 → a.payload.length ≤ s.params.payloadMax →
    (Instr.poolInsert native (.ok a)).flagByte = (if native then 1 else 0) ∧
    (s.oq.length ≠ s.params.oqMax →
      exec (.poolInsert native (.ok a)) s = .next (State.respond (State.emit
        { s with oq := s.oq ++
            [{ first :=
                { payload := a.payload, src := a.src, dst := a.dst, sport := a.sport
                  dport := a.dport, proto := a.proto, seq := a.seq, native
                  fk := flowKey s.params a.src a.dst a.sport a.dport, ts := s.now }
               others := []
               oldest := s.now }] } .send) .ok [])) ∧
    (s.oq.length = s.params.oqMax →
      exec (.poolInsert native (.ok a)) s =
        .next (State.respond { s with faulted := true, fcode := 0x01#8 } .eFaulted []))

/-- 45_pool R236 with at most the item's own bucket in the pool: an empty pool gets the bucket with its timer
armed at NOW + BTO_INTER; a bucket below MBS gets the item at its end and keeps its timer; a full bucket
sends its oldest item, and its timer is armed again for the new head. In any pool (60_exceptions R338) a new
key beyond POOL_FLOWS_MAX, and a full bucket with OQ_MAX batches queued, fault the engine. A payload over
PAYLOAD_MAX answers E_OPERAND. -/
def Obligations.InsertIntoOneBucket : Prop :=
  ∀ (s : State) (native : Bool) (a : PoolInsertArgs), s.Running (.poolInsert native (.ok a)) →
    (s.params.payloadMax < a.payload.length →
      exec (.poolInsert native (.ok a)) s = .next (s.respond .eOperand [])) ∧
    (a.payload.length ≤ s.params.payloadMax → s.mbs ≠ 0 →
      (s.pool = [] → s.params.poolFlowsMax ≠ 0 →
        exec (.poolInsert native (.ok a)) s = .next (State.respond
          { s with
            tseq := s.tseq + 1
            pool := [(flowKey s.params a.src a.dst a.sport a.dport,
              { head := s.itemOf native a
                rest := []
                timer :=
                  { deadline := BitVec.ofNat 65 (s.now.toNat + s.btoInter.toNat)
                    seq := s.tseq } })] } .ok [])) ∧
      (∀ b : Bucket, s.pool = [(flowKey s.params a.src a.dst a.sport a.dport, b)] →
        b.items.length < s.mbs.toNat →
        exec (.poolInsert native (.ok a)) s = .next (State.respond
          { s with
            pool := [(flowKey s.params a.src a.dst a.sport a.dport,
              { b with rest := b.rest ++ [s.itemOf native a] })] } .ok [])) ∧
      (∀ (b : Bucket) (x : Item) (xs : List Item),
        s.pool = [(flowKey s.params a.src a.dst a.sport a.dport, b)] → s.mbs.toNat ≤ b.items.length →
        b.rest ++ [s.itemOf native a] = x :: xs → s.oq.length ≠ s.params.oqMax →
        exec (.poolInsert native (.ok a)) s = .next (State.respond (State.emit
          { s with
            tseq := s.tseq + 1
            oq := s.oq ++ [{ first := b.head, others := [], oldest := b.head.ts }]
            pool := [(flowKey s.params a.src a.dst a.sport a.dport,
              { head := x
                rest := xs
                timer :=
                  { deadline := BitVec.ofNat 65 (x.ts.toNat + s.btoInter.toNat)
                    seq := s.tseq } })] } .send) .ok [])) ∧
      (Table.find (flowKey s.params a.src a.dst a.sport a.dport) s.pool = none →
        s.pool.length = s.params.poolFlowsMax →
        exec (.poolInsert native (.ok a)) s = .next s.capacityFault) ∧
      (∀ (b : Bucket) (x : Item) (xs : List Item),
        Table.find (flowKey s.params a.src a.dst a.sport a.dport) s.pool = some b →
        s.mbs.toNat ≤ b.items.length → b.rest ++ [s.itemOf native a] = x :: xs →
        s.oq.length = s.params.oqMax →
        exec (.poolInsert native (.ok a)) s = .next (State.capacityFault
          { s with
            pool := Table.put (flowKey s.params a.src a.dst a.sport a.dport)
              { b with head := x, rest := xs } s.pool })))

/-- 45_pool R233 to R236: an item of a second flow is coded with the one waiting item of the first, its own
first, when MCP allows two; with MCP = 1 it goes alone and the other bucket stays. In general, with other
buckets in the pool, the head of the item's own bucket (new, with room, or full and evicted before) is coded
with the heads of the other buckets in rising key order, one of each, up to MCP; a bucket that keeps items
is armed again for its new head, in that order, and one that keeps none is gone. With the output queue full
when the batch is pushed the engine faults (60_exceptions R338), the heads being taken. -/
def Obligations.SearchCodesTwoFlows : Prop :=
  (∀ (s : State) (native : Bool) (a : PoolInsertArgs) (g : U16) (x : Item) (tm : Timer),
    s.Running (.poolInsert native (.ok a)) → a.payload.length ≤ s.params.payloadMax → s.mbs ≠ 0 →
    s.pool = [(g, { head := x, rest := [], timer := tm })] →
    flowKey s.params a.src a.dst a.sport a.dport ≠ g → s.params.poolFlowsMax ≠ 1 →
    s.oq.length ≠ s.params.oqMax →
    (2 ≤ s.mcp.toNat →
      exec (.poolInsert native (.ok a)) s = .next (State.respond (State.emit
        { s with
          tseq := s.tseq + 1
          pool := []
          oq := s.oq ++
            [{ first := s.itemOf native a
               others := [x]
               oldest := if x.ts < s.now then x.ts else s.now }] } .send) .ok [])) ∧
    (s.mcp = 1 →
      exec (.poolInsert native (.ok a)) s = .next (State.respond (State.emit
        { s with
          tseq := s.tseq + 1
          oq := s.oq ++
            [{ first := s.itemOf native a, others := [], oldest := s.now }] } .send) .ok []))) ∧
  ∀ (s : State) (native : Bool) (a : PoolInsertArgs), s.Running (.poolInsert native (.ok a)) →
    a.payload.length ≤ s.params.payloadMax → s.mbs ≠ 0 → s.mcp ≠ 0 → Table.wf s.pool = true →
    ∀ fk, fk = flowKey s.params a.src a.dst a.sport a.dport →
    (∀ (u : State) (own : Bucket), Table.find fk s.pool = none → s.pool ≠ [] →
      s.pool.length ≠ s.params.poolFlowsMax → u = { s with tseq := s.tseq + 1 } →
      own.items = [s.itemOf native a] →
      (s.oq.length < s.params.oqMax →
        exec (.poolInsert native (.ok a)) s =
          .next (State.respond (u.searched fk own s.pool) .ok [])) ∧
      (s.oq.length = s.params.oqMax →
        exec (.poolInsert native (.ok a)) s =
          .next (u.searchTaken fk own s.pool).capacityFault)) ∧
    (∀ b own : Bucket, Table.find fk s.pool = some b → 2 ≤ s.pool.length →
      b.items.length < s.mbs.toNat → own.items = b.items ++ [s.itemOf native a] →
      (s.oq.length < s.params.oqMax →
        exec (.poolInsert native (.ok a)) s =
          .next (State.respond (s.searched fk own (Table.erase fk s.pool)) .ok [])) ∧
      (s.oq.length = s.params.oqMax →
        exec (.poolInsert native (.ok a)) s =
          .next (s.searchTaken fk own (Table.erase fk s.pool)).capacityFault)) ∧
    (∀ (b own : Bucket) (u : State), Table.find fk s.pool = some b → 2 ≤ s.pool.length →
      s.mbs.toNat ≤ b.items.length → b.items ++ [s.itemOf native a] = b.head :: own.items →
      u = State.emit
        { s with
          tseq := s.tseq + 1
          oq := s.oq ++ [{ first := b.head, others := [], oldest := b.head.ts }] } .send →
      (s.oq.length + 2 ≤ s.params.oqMax →
        exec (.poolInsert native (.ok a)) s =
          .next (State.respond (u.searched fk own (Table.erase fk s.pool)) .ok [])) ∧
      (s.oq.length + 1 = s.params.oqMax →
        exec (.poolInsert native (.ok a)) s =
          .next (u.searchTaken fk own (Table.erase fk s.pool)).capacityFault))

/-- 10_state R31, R34: every step keeps the pool and the output queue within their bounds: keys rising,
buckets within MBS and of their own key, at most POOL_FLOWS_MAX of them, at most OQ_MAX batches, each
within MCP and with its least timestamp. -/
def Obligations.StepKeepsPoolInv : Prop :=
  ∀ s t : State, s.PoolInv → step s = .next t → t.PoolInv

/-- 45_pool R241, R245: OQ_POP_FRAME answers the front batch's oldest timestamp and its frame (header with a
descriptor for each item, the host's ACK descriptors, then the XOR of the payloads) and removes the
batch; an invalid ACK header answers E_OPERAND, an empty queue I_EMPTY. Headers are big-endian (log 13). -/
def Obligations.OqPopFrameSendsFront : Prop :=
  ∀ (s : State) (a : OqPopArgs), s.Running (.oqPopFrame (.ok a)) →
    ((∃ x ∈ a.acks, validAckHeader x.tcp = false) →
      exec (.oqPopFrame (.ok a)) s = .next (s.respond .eOperand [])) ∧
    ((∀ x ∈ a.acks, validAckHeader x.tcp = true) →
      (s.oq = [] → exec (.oqPopFrame (.ok a)) s = .next (s.respond .iEmpty [])) ∧
      (∀ (b : Batch) (r : List Batch), s.oq = b :: r →
        exec (.oqPopFrame (.ok a)) s = .next (State.respond { s with oq := r } .ok
          (put64 b.oldest ++ putBlob
            ([b.first.proto, a.ptype] ++ putCount b.items.length ++ putCount a.acks.length ++
              b.items.flatMap (fun it => put32 it.dst ++ put32 it.seq ++ put16 it.fk ++
                putBE 2 it.payload.length) ++
              a.acks.flatMap (fun x => put32 x.dst ++ x.tcp) ++
              xorAll (b.items.map Item.payload))))))

/-- 45_pool R246, 46_rlnc R297, R298: what POOL_STAT, FLOW_STAT and FLOW_ROW answer. A row is read in its k
active columns (the model's reading, log 10). -/
def Obligations.InspectionAnswers : Prop :=
  (∀ (s : State) (fk : U16), s.Running (.poolStat (.ok fk)) →
    exec (.poolStat (.ok fk)) s = .next (s.respond .ok
      (match Table.find fk s.pool with
        | some b => putBE 2 b.items.length ++ [1] ++ putBE 8 (b.timer.deadline.toNat % 2 ^ 64)
        | none => [0, 0, 0, 0, 0, 0, 0, 0, 0, 0, 0]))) ∧
  (∀ (s : State) (g : U16), s.Running (.flowStat (.ok g)) →
    exec (.flowStat (.ok g)) s = .next (match Table.find g s.flows with
      | none => s.respond .eNoFlow []
      | some f => s.respond .ok ([f.k, f.rank] ++ put16 f.frag ++ put32 f.txCounter ++
          [if f.fwd then 1 else 0] ++ putBE 4 f.tx.length ++ putBE 4 f.rx.length ++
          [if f.ft.isSome then 1 else 0] ++
          putBE 8 ((f.ft.elim 0 fun x => x.deadline.toNat) % 2 ^ 64) ++
          put16 f.sport ++ put16 f.dport))) ∧
  (∀ (s : State) (a : FlowRowArgs), s.Running (.flowRow (.ok a)) →
    exec (.flowRow (.ok a)) s = .next (match Table.find a.flow s.flows with
      | none => s.respond .eNoFlow []
      | some f =>
        if f.k.toNat ≤ a.i.toNat then s.respond .eOperand []
        else s.respond .ok ((List.range f.k.toNat).map fun j =>
          (f.mat.getD a.i.toNat []).getD j 0)))

/-- What each state-changing command of RUN may touch (45_pool R236, R245, 46_rlnc, 40_control R134): a
command on one flow leaves every other flow's record as it was. -/
def Obligations.CommandsTouchOnlyTheirState : Prop :=
  ∀ (i : Instr) (s t : State), exec i s = .next t →
    (∀ native o, i = .poolInsert native o →
      t = { s with
        pool := t.pool, oq := t.oq, tseq := t.tseq, faulted := t.faulted, fcode := t.fcode,
        outputs := t.outputs }) ∧
    (∀ o, i = .oqPopFrame o → t = { s with oq := t.oq, outputs := t.outputs }) ∧
    (∀ g, writesFlow i = some g →
      t = { s with
        flows := t.flows, tseq := t.tseq, draws := t.draws, freeCount := t.freeCount,
        faulted := t.faulted, fcode := t.fcode, outputs := t.outputs } ∧
      ∀ g', g' ≠ g → Table.find g' t.flows = Table.find g' s.flows) ∧
    (∀ o, i = .timeAdvance o →
      t = { s with
        now := t.now, pool := t.pool, oq := t.oq, flows := t.flows, tseq := t.tseq,
        draws := t.draws, freeCount := t.freeCount, faulted := t.faulted, fcode := t.fcode,
        outputs := t.outputs })

/-! ## The field and the matrix engine -/

/-- 44_gf R202: `gmul` is the carry-less product reduced modulo the field polynomial, for every polynomial of
degree q (POLY is a parameter, log 2). -/
def Obligations.GmulIsReducedProduct : Prop :=
  ∀ (F : Gf) (a b : Byte), F.degreeOk → isElem F.q a = true → isElem F.q b = true →
    (gmul F a b).toNat = polyMod F (clMul a.toNat b.toNat F.q) (F.q - 1)

/-- 44_gf R201, R202: the elements are closed under product and sum, and the product is commutative,
associative, distributes over the sum, has identity 1 and gives 0 with 0, for every polynomial of degree q
(POLY is a parameter, log 2). -/
def Obligations.FieldLaws : Prop :=
  ∀ (F : Gf) (a b c : Byte), F.degreeOk → isElem F.q a = true → isElem F.q b = true →
    isElem F.q c = true →
    isElem F.q (gmul F a b) = true ∧ isElem F.q (gadd a b) = true ∧
    gmul F a b = gmul F b a ∧ gmul F (gmul F a b) c = gmul F a (gmul F b c) ∧
    gmul F a (gadd b c) = gadd (gmul F a b) (gmul F a c) ∧
    gmul F a 1 = a ∧ gmul F a 0 = 0 ∧ gadd a a = 0 ∧ gadd a 0 = a

/-- 44_gf R200, R203: the spec's default table gives a field for every order q (the value at reset of the
parameter POLY, log 2), and in a field a non-zero element has exactly one inverse, `ginv`, its power
2^q − 2. -/
def Obligations.InverseLaw : Prop :=
  (∀ q, 1 ≤ q → q ≤ 8 → (defaultGf q).degreeOk ∧ (defaultGf q).Lawful) ∧
  ∀ (F : Gf) (a : Byte), F.Lawful → isElem F.q a = true → a ≠ 0 →
    isElem F.q (ginv F a) = true ∧ gmul F a (ginv F a) = 1 ∧
    (∀ b, isElem F.q b = true → gmul F a b = 1 → b = ginv F a) ∧
    ginv F a = gpow F a (2 ^ F.q - 2)

/-- 44_gf R205, R206: RANK is at most either dimension, and is the largest number of linearly independent
rows: that many are, and no more. INDEP answers, for independent rows, whether the vector is no combination
of them. -/
def Obligations.RankIsIndependence : Prop :=
  ∀ (F : Gf) (c : Nat) (rows : List (List Byte)), F.Lawful → isMatrix F.q rows.length c rows →
    matRank F c rows ≤ min rows.length c ∧
    (∃ sub, sub.Sublist rows ∧ Independent F c sub ∧ sub.length = matRank F c rows) ∧
    (∀ sub, sub.Sublist rows → Independent F c sub → sub.length ≤ matRank F c rows) ∧
    (matRank F c rows = rows.length ↔ Independent F c rows) ∧
    ∀ v : List Byte, v.length = c → v.all (isElem F.q) = true → Independent F c rows →
      (indep F c rows v = true ↔
        ∀ u : List Byte, u.length = rows.length → u.all (isElem F.q) = true →
          linComb F c u rows ≠ v)

/-- 44_gf R207: a matrix of full rank has the inverse that `matInv` finds, on both sides, and only that one;
a matrix of lower rank has none, and `matInv` finds none. -/
def Obligations.InverseMatrixLaw : Prop :=
  ∀ (F : Gf) (n : Nat) (a : List (List Byte)), F.Lawful → 1 ≤ n → isMatrix F.q n n a →
    (matRank F n a = n → ∃ b, matInv F n a = some b ∧ isMatrix F.q n n b ∧
      matMul F n b a = identity n ∧ matMul F n a b = identity n ∧
      ∀ b', isMatrix F.q n n b' → matMul F n b' a = identity n → b' = b) ∧
    (matRank F n a < n → matInv F n a = none ∧
      ∀ b, isMatrix F.q n n b → matMul F n b a ≠ identity n)

/-- 44_gf R210 to R213: what GF_MUL, GF_INV, MAT_RANK and MAT_INV answer, MAT_INV of a matrix of full rank
over a field. -/
def Obligations.GfCommandsAnswer : Prop :=
  (∀ (s : State) (x : GfMulArgs), s.Running (.gfMul (.ok x)) →
    exec (.gfMul (.ok x)) s = .next
      (if x.a.toNat < 2 ^ s.qn ∧ x.b.toNat < 2 ^ s.qn then s.respond .ok [gmul s.gf x.a x.b]
        else s.respond .eOperand [])) ∧
  (∀ (s : State) (a : Byte), s.Running (.gfInv (.ok a)) →
    exec (.gfInv (.ok a)) s = .next
      (if 2 ^ s.qn ≤ a.toNat then s.respond .eOperand []
        else if a = 0 then s.respond .eZero [] else s.respond .ok [ginv s.gf a])) ∧
  (∀ (s : State) (x : MatRankArgs), s.Running (.matRank (.ok x)) →
    exec (.matRank (.ok x)) s = .next
      (if x.elems.all (isElem s.qn) = true then
        s.respond .ok
          [BitVec.ofNat 8 (matRank s.gf x.c.toNat (toRows x.c.toNat x.r.toNat x.elems))]
        else s.respond .eOperand [])) ∧
  (∀ (s : State) (x : MatInvArgs), s.Running (.matInv (.ok x)) →
    x.elems.length = x.n.toNat * x.n.toNat →
    (x.n = 0 ∨ x.elems.all (isElem s.qn) = false →
      exec (.matInv (.ok x)) s = .next (s.respond .eOperand [])) ∧
    (x.n ≠ 0 → x.elems.all (isElem s.qn) = true →
      (matRank s.gf x.n.toNat (toRows x.n.toNat x.n.toNat x.elems) < x.n.toNat →
        exec (.matInv (.ok x)) s = .next (s.respond .eSingular [])) ∧
      (matRank s.gf x.n.toNat (toRows x.n.toNat x.n.toNat x.elems) = x.n.toNat → s.gf.Lawful →
        ∃ b, isMatrix s.qn x.n.toNat x.n.toNat b ∧
          matMul s.gf x.n.toNat b (toRows x.n.toNat x.n.toNat x.elems) = identity x.n.toNat ∧
          exec (.matInv (.ok x)) s = .next (s.respond .ok b.flatten))))

/-- 44_gf R209, R214: VEC_GEN answers a vector of n elements below 2^Q that is not all zero, and changes
nothing but the oracle's side; a legal answer that waits is the one taken (the model's choice, log 4);
n = 0 answers E_OPERAND. -/
def Obligations.VecGenAnswersNonZero : Prop :=
  ∀ (s : State) (n : Byte), s.Running (.vecGen (.ok n)) →
    (n = 0 → exec (.vecGen (.ok n)) s = .next (s.respond .eOperand [])) ∧
    (n ≠ 0 → 1 ≤ s.qn → s.qn ≤ 8 → ∃ v : List Byte,
      v.length = n.toNat ∧ (∀ e ∈ v, e.toNat < 2 ^ s.qn) ∧ (∃ e ∈ v, e ≠ 0) ∧
      (∀ d ds, s.draws = d :: ds → legalDraw s.qn n.toNat d = true → v = d) ∧
      exec (.vecGen (.ok n)) s = .next (State.respond
        { s with draws := s.draws.tail, freeCount := s.freeCount + 1 } .ok v))

/-- 46_rlnc R287, the decode law: if the received payloads are the combinations of the originals by the rows
of an invertible matrix, the rows of its inverse give back the originals, in order. -/
def Obligations.DecodeRecoversOriginals : Prop :=
  ∀ (F : Gf) (n len : Nat) (m t b : List (List Byte)), F.Lawful → 1 ≤ n → isMatrix F.q n n m →
    isMatrix F.q n len t → matInv F n m = some b →
    b.map (fun u => lcp F u (m.map fun v => lcp F v t)) = t

/-- 46_rlnc R291: combining received packets combines their vectors: the recoded payload is the combination
of the originals by the recoded vector, which is not zero when the stored rows are independent. -/
def Obligations.RecodeIsValidCombination : Prop :=
  ∀ (F : Gf) (k len : Nat) (u : List Byte) (rows t : List (List Byte)), F.Lawful →
    1 ≤ u.length → isMatrix F.q u.length k rows → isMatrix F.q k len t →
    u.all (isElem F.q) = true →
    lcp F u (rows.map fun v => lcp F v t) = lcp F (linComb F k u rows) t ∧
    (matRank F k rows = u.length → u.any (· != 0) = true → linComb F k u rows ≠ zeroVec k)

/-! ## The XOR codec -/

/-- 43_xor R190: XORALL is as long as its longest member, each byte is the XOR of the members' bytes with
zeros past their ends, and pairwise accumulation in any order gives the same. -/
def Obligations.XorAllIsPairwise : Prop :=
  (∀ ps : List (List Byte), ps ≠ [] →
    (∀ p ∈ ps, p.length ≤ (xorAll ps).length) ∧ ∃ p ∈ ps, p.length = (xorAll ps).length) ∧
  (∀ (ps : List (List Byte)) (i : Nat),
    (xorAll ps).getD i 0 = ps.foldl (fun x p => x ^^^ p.getD i 0) 0) ∧
  (∀ (a b : List Byte) (ps : List (List Byte)),
    xorAll (a :: b :: ps) = xorAll (xorAll [a, b] :: ps)) ∧
  (∀ ps ps' : List (List Byte), ps.Perm ps' → xorAll ps = xorAll ps') ∧
  ∀ a : List Byte, xorAll [a] = a

/-- 43_xor R193: for members of one length each decodes the other; a longer known member recovers the
shorter one padded with zeros. -/
def Obligations.XorInvolution : Prop :=
  (∀ a b : List Byte, a.length = b.length →
    xorAll [xorAll [a, b], a] = b ∧ xorAll [xorAll [a, b], b] = a) ∧
  ∀ a b : List Byte, a.length < b.length →
    xorAll [xorAll [a, b], b] = a ++ List.replicate (b.length - a.length) 0

/-- 43_xor R191, R192: what XOR_ENC and XOR_DEC answer. -/
def Obligations.XorCommandsAnswer : Prop :=
  (∀ (s : State) (ps : List (List Byte)), s.Running (.xorEnc (.ok ps)) →
    exec (.xorEnc (.ok ps)) s = .next
      (if ps = [] ∨ ∃ p ∈ ps, s.params.payloadMax < p.length then s.respond .eOperand []
        else s.respond .ok (putBE 4 (xorAll ps).length ++ xorAll ps))) ∧
  ∀ (s : State) (x : XorDecArgs), s.Running (.xorDec (.ok x)) →
    exec (.xorDec (.ok x)) s = .next
      (if s.params.payloadMax < x.coded.length ∨
          ∃ p ∈ x.natives, s.params.payloadMax < p.length then s.respond .eOperand []
        else s.respond .ok
          (putBE 4 (xorAll (x.coded :: x.natives)).length ++ xorAll (x.coded :: x.natives)))

/-! ## Headers and the hash -/

/-- 42_headers R160 to R164: parsing a built inter-flow header, with any payload behind it, gives its fields
back, and hlen is the header's length 4 + 12·n + Σ (4 + L). What parses is such a header: every other packet
is MALFORMED, one under 4 bytes among them. -/
def Obligations.InterHeaderRoundTrip : Prop :=
  (∀ (proto ptype : Byte) (descs : List Desc) (acks : List Ackd) (payload : List Byte),
    descs.length < 256 → acks.length < 256 → (∀ a ∈ acks, validAckHeader a.tcp = true) →
    interParse (interHdr proto ptype descs acks ++ payload) =
      some
        { proto, ptype, descs, acks
          hlen := 4 + 12 * descs.length + (acks.map fun a => 4 + a.tcp.length).sum }) ∧
  (∀ (pkt : List Byte) (h : InterHeader), interParse pkt = some h →
    h.descs.length < 256 ∧ h.acks.length < 256 ∧
    (∀ a ∈ h.acks, 20 ≤ a.tcp.length ∧ a.tcp.length = 4 * ((a.tcp.getD 12 0).toNat / 16)) ∧
    h.hlen = 4 + 12 * h.descs.length + (h.acks.map fun a => 4 + a.tcp.length).sum ∧
    pkt = interHdr h.proto h.ptype h.descs h.acks ++ pkt.drop h.hlen) ∧
  ∀ pkt : List Byte, pkt.length < 4 → interParse pkt = none

/-- 42_headers R170 to R173: parsing a built intra-flow header, with any payload behind it, gives its fields
back, and hlen is 9 + ceil(k·q/8). A packet parses when its q is 1..Q_MAX, its txtype at most 2 and its
coefficient field there in full, whatever the field's unused bits are; every other packet is MALFORMED. What
parses is a built header up to those bits. -/
def Obligations.IntraHeaderRoundTrip : Prop :=
  (∀ (qMax : Nat) (q : Byte) (frag : U16) (txtype : Byte) (sport dport : U16)
    (coeff payload : List Byte), 1 ≤ q.toNat → q.toNat ≤ qMax → q.toNat ≤ 8 → txtype.toNat ≤ 2 →
    coeff.length < 256 → coeff.all (isElem q.toNat) = true →
    intraParse qMax
      (intraHdr (BitVec.ofNat 8 coeff.length) q frag txtype sport dport coeff ++ payload) =
      some
        { k := BitVec.ofNat 8 coeff.length, q, frag, txtype, sport, dport, coeff
          hlen := 9 + (coeff.length * q.toNat + 7) / 8 }) ∧
  (∀ (qMax : Nat) (k q : Byte) (frag : U16) (txtype : Byte) (sport dport : U16)
    (field payload : List Byte), 1 ≤ q.toNat → q.toNat ≤ qMax → txtype.toNat ≤ 2 →
    field.length = (k.toNat * q.toNat + 7) / 8 →
    intraParse qMax
      ([k, q] ++ put16 frag ++ [txtype] ++ put16 sport ++ put16 dport ++ field ++ payload) =
      some
        { k, q, frag, txtype, sport, dport, coeff := unpack q.toNat k.toNat field
          hlen := 9 + (k.toNat * q.toNat + 7) / 8 }) ∧
  (∀ (qMax : Nat) (pkt : List Byte) (h : IntraHeader), intraParse qMax pkt = some h →
    1 ≤ h.q.toNat ∧ h.q.toNat ≤ qMax ∧ h.txtype.toNat ≤ 2 ∧ h.coeff.length = h.k.toNat ∧
    h.hlen = 9 + (h.k.toNat * h.q.toNat + 7) / 8 ∧ h.hlen ≤ pkt.length ∧
    pkt.take 9 =
      [h.k, h.q] ++ put16 h.frag ++ [h.txtype] ++ put16 h.sport ++ put16 h.dport ∧
    (h.q.toNat ≤ 8 → ∀ n, n < h.k.toNat * h.q.toNat →
      ((pack h.q.toNat h.coeff).getD (n / 8) 0).getLsbD (n % 8) =
        (pkt.getD (9 + n / 8) 0).getLsbD (n % 8))) ∧
  ∀ (qMax : Nat) (pkt : List Byte), pkt.length < 9 → intraParse qMax pkt = none

/-- 42_headers R170: bit j of coefficient i is stream bit i·q + j, stream bit s is bit s mod 8 of byte
s div 8, the field has ceil(k·q/8) bytes, its unused bits are 0 when built and ignored when parsed. -/
def Obligations.PackedBitLayout : Prop :=
  (∀ (q : Nat) (c : List Byte), 1 ≤ q → q ≤ 8 →
    (pack q c).length = (c.length * q + 7) / 8 ∧
    (∀ i j, i < c.length → j < q →
      ((pack q c).getD ((i * q + j) / 8) 0).getLsbD ((i * q + j) % 8) =
        (c.getD i 0).getLsbD j) ∧
    (∀ n, c.length * q ≤ n → n < 8 * ((c.length * q + 7) / 8) →
      ((pack q c).getD (n / 8) 0).getLsbD (n % 8) = false)) ∧
  ∀ (q k : Nat) (b : List Byte), 1 ≤ q → q ≤ 8 →
    (unpack q k b).length = k ∧
    (∀ i j, i < k → j < q → ((unpack q k b).getD i 0).getLsbD j =
      (b.getD ((i * q + j) / 8) 0).getLsbD ((i * q + j) % 8)) ∧
    (∀ i j, q ≤ j → ((unpack q k b).getD i 0).getLsbD j = false)

/-- 42_headers R163, R164, R172, R173: what the four header commands answer; InterHeaderRoundTrip and
IntraHeaderRoundTrip say which packets parse and as what. Headers are big-endian (the value the spec takes,
log 13). -/
def Obligations.HeaderCommandsAnswer : Prop :=
  (∀ (s : State) (a : HdrBuildInterArgs), s.Running (.hdrBuildInter (.ok a)) →
    exec (.hdrBuildInter (.ok a)) s = .next
      (if ∃ x ∈ a.acks, validAckHeader x.tcp = false then s.respond .eOperand []
        else s.respond .ok (putBlob ([a.proto, a.ptype] ++ putCount a.descs.length ++
          putCount a.acks.length ++
          a.descs.flatMap (fun d => put32 d.dst ++ put32 d.seq ++ put16 d.fh ++ put16 d.len) ++
          a.acks.flatMap fun x => put32 x.dst ++ x.tcp)))) ∧
  (∀ (s : State) (pkt : List Byte), s.Running (.hdrParseInter (.ok pkt)) →
    exec (.hdrParseInter (.ok pkt)) s = .next (match interParse pkt with
      | none => s.respond .eMalformed []
      | some h => s.respond .ok (putBE 4 h.hlen ++ [h.proto, h.ptype] ++ putCount h.descs.length ++
          putCount h.acks.length ++ h.descs.flatMap putDesc ++ h.acks.flatMap putAckd))) ∧
  (∀ (s : State) (a : HdrBuildIntraArgs), s.Running (.hdrBuildIntra (.ok a)) →
    exec (.hdrBuildIntra (.ok a)) s = .next
      (if 1 ≤ a.q.toNat ∧ a.q.toNat ≤ s.params.qMax ∧ a.txtype.toNat ≤ 2 ∧
          a.coeff.all (isElem a.q.toNat) = true then
        s.respond .ok (putBlob (putCount a.coeff.length ++ [a.q] ++ put16 a.frag ++ [a.txtype] ++
          put16 a.sport ++ put16 a.dport ++ pack a.q.toNat a.coeff))
        else s.respond .eOperand [])) ∧
  ∀ (s : State) (pkt : List Byte), s.Running (.hdrParseIntra (.ok pkt)) →
    exec (.hdrParseIntra (.ok pkt)) s = .next (match intraParse s.params.qMax pkt with
      | none => s.respond .eMalformed []
      | some h => s.respond .ok (putBE 4 h.hlen ++ [h.k, h.q] ++ put16 h.frag ++ [h.txtype] ++
          put16 h.sport ++ put16 h.dport ++ h.coeff))

/-- 41_hash R150 to R152: HASH answers the key of the tuple in the order given: the one the parameter
FLOWKEY_FN names for it, else the default function's, the CRC of its bytes (log 1). The CRC has its standard
check value. -/
def Obligations.HashAnswersCrc : Prop :=
  (∀ (s : State) (a : HashArgs), s.Running (.hash (.ok a)) →
    (∀ e ∈ s.params.flowKeys,
      e.1 ≠ { src := a.src, dst := a.dst, sport := a.sport, dport := a.dport }) →
    exec (.hash (.ok a)) s = .next (s.respond .ok
      (putBE 2 (crc16 (put32 a.src ++ put32 a.dst ++ put16 a.sport ++ put16 a.dport))))) ∧
  (∀ (s : State) (a : HashArgs) (key : U16) (before after : List (FourTuple × U16)),
    s.Running (.hash (.ok a)) →
    s.params.flowKeys = before ++
      ({ src := a.src, dst := a.dst, sport := a.sport, dport := a.dport }, key) :: after →
    (∀ e ∈ before, e.1 ≠ { src := a.src, dst := a.dst, sport := a.sport, dport := a.dport }) →
    exec (.hash (.ok a)) s = .next (s.respond .ok (put16 key))) ∧
  crc16 [0x31, 0x32, 0x33, 0x34, 0x35, 0x36, 0x37, 0x38, 0x39] = 0x29B1

/-! ## Flow records -/

/-- 46_rlnc R271: TX_PUSH refuses a payload that is too long or not of symbols; it creates an unknown flow
with k = KCFG and arms its timer at NOW + BTO_INTRA; on a known flow it appends, and arms only when the
txBuffer was empty and no timer was armed; a bound that is met faults the engine. -/
def Obligations.TxPushQueuesPayload : Prop :=
  ∀ (s : State) (a : TxPushArgs), s.Running (.txPush (.ok a)) →
    (¬ (a.payload.length ≤ s.params.payloadMax ∧ ∀ b ∈ a.payload, b.toNat < 2 ^ s.qn) →
      exec (.txPush (.ok a)) s = .next (s.respond .eOperand [])) ∧
    (a.payload.length ≤ s.params.payloadMax → (∀ b ∈ a.payload, b.toNat < 2 ^ s.qn) →
      (Table.find a.flow s.flows = none → s.flows.length = s.params.flowsMax →
        exec (.txPush (.ok a)) s =
          .next (State.respond { s with faulted := true, fcode := 0x01#8 } .eFaulted [])) ∧
      (Table.find a.flow s.flows = none → s.flows.length ≠ s.params.flowsMax →
        s.params.txbufMax ≠ 0 →
        exec (.txPush (.ok a)) s = .next (State.respond
          { s with
            tseq := s.tseq + 1
            flows := Table.put a.flow
              { k := s.kcfg, rank := 0, frag := 0, txCounter := 0, fwd := false, mat := []
                tx := [a.payload], rx := [], sport := a.sport, dport := a.dport
                ft := some
                  { deadline := BitVec.ofNat 65 (s.now.toNat + s.btoIntra.toNat)
                    seq := s.tseq } } s.flows } .ok [])) ∧
      (∀ f, Table.find a.flow s.flows = some f → f.tx.length ≠ s.params.txbufMax →
        (f.tx ≠ [] ∨ f.ft ≠ none →
          exec (.txPush (.ok a)) s = .next (State.respond
            { s with
              flows := Table.put a.flow { f with tx := f.tx ++ [a.payload] } s.flows } .ok [])) ∧
        (f.tx = [] → f.ft = none →
          exec (.txPush (.ok a)) s = .next (State.respond
            { s with
              tseq := s.tseq + 1
              flows := Table.put a.flow { f with
                tx := [a.payload]
                ft := some
                  { deadline := BitVec.ofNat 65 (s.now.toNat + s.btoIntra.toNat)
                    seq := s.tseq } } s.flows } .ok []))) ∧
      (∀ f, Table.find a.flow s.flows = some f → f.tx.length = s.params.txbufMax →
        Table.wf s.flows = true →
        exec (.txPush (.ok a)) s =
          .next (State.respond { s with faulted := true, fcode := 0x01#8 } .eFaulted [])))

/-- 46_rlnc R272 to R274: ENCODE answers E_NOFLOW for an unknown flow and I_NOTFIRED when the guard fails;
otherwise it draws a legal vector v of length k, emits the header with v and the combination of the first
k packets by v, and counts it. The oracle's side (draws, freeCount) is the model's form, log 4. -/
def Obligations.EncodeEmitsCombination : Prop :=
  ∀ (s : State) (g : U16), s.Running (.encode (.ok g)) →
    (Table.find g s.flows = none →
      exec (.encode (.ok g)) s = .next (s.respond .eNoFlow [])) ∧
    (∀ f, Table.find g s.flows = some f →
      (f.tx.length < f.k.toNat ∨ f.fwd = true ∨ s.encCap < f.txCounter →
        exec (.encode (.ok g)) s = .next (s.respond .iNotFired [])) ∧
      (f.k.toNat ≤ f.tx.length → f.fwd = false → f.txCounter ≤ s.encCap → f.k ≠ 0 → 1 ≤ s.qn →
        s.qn ≤ 8 →
        ∃ v, legalDraw s.qn f.k.toNat v = true ∧
          exec (.encode (.ok g)) s = .next (State.respond
            { s with
              draws := s.draws.tail
              freeCount := s.freeCount + 1
              flows := Table.put g { f with txCounter := f.txCounter + 1 } s.flows
              outputs := s.outputs ++ [.record (Record.bytes (.rlncTx g
                (intraHdr f.k (s.q.setWidth 8) f.frag 0 f.sport f.dport v ++
                  lcp s.gf v (f.tx.take f.k.toNat))))] } .ok [])))

/-- 46_rlnc R280 to R283, 60_exceptions R338: the packets RX_PACKET turns away, check by check: a header
that does not parse (E_MALFORMED); of a data packet, another q (E_FIELDQ), k = 0 or above K_MAX
(E_MALFORMED), a payload too long or not of symbols (E_OPERAND); for an unknown flow with the flow table
full, the capacity fault; an earlier fragment, answered by a resync ACK with the flow's fragment number and
swapped ports (I_BEHIND); another k while rank > 0 (E_KMISMATCH); a dependent vector (I_DEPENDENT). None of
them changes a record. Stored rows are read in the k columns in force (the model's reading, log 10). -/
def Obligations.RxTurnsPacketsAway : Prop :=
  ∀ (s : State) (fwd : Bool) (a : RxPacketArgs), s.Running (.rxPacket fwd (.ok a)) →
    (intraParse s.params.qMax a.pkt = none →
      exec (.rxPacket fwd (.ok a)) s = .next (s.respond .eMalformed [])) ∧
    ∀ r : IntraHeader, intraParse s.params.qMax a.pkt = some r → r.txtype = 0 →
      (r.q.toNat ≠ s.qn → exec (.rxPacket fwd (.ok a)) s = .next (s.respond .eFieldQ [])) ∧
      (r.q.toNat = s.qn → r.k = 0 ∨ s.params.kMax < r.k.toNat →
        exec (.rxPacket fwd (.ok a)) s = .next (s.respond .eMalformed [])) ∧
      (r.q.toNat = s.qn → r.k ≠ 0 → r.k.toNat ≤ s.params.kMax →
        ¬ ((a.pkt.drop r.hlen).length ≤ s.params.payloadMax ∧
          ∀ b ∈ a.pkt.drop r.hlen, b.toNat < 2 ^ s.qn) →
        exec (.rxPacket fwd (.ok a)) s = .next (s.respond .eOperand [])) ∧
      (r.q.toNat = s.qn → r.k ≠ 0 → r.k.toNat ≤ s.params.kMax →
        (a.pkt.drop r.hlen).length ≤ s.params.payloadMax →
        (∀ b ∈ a.pkt.drop r.hlen, b.toNat < 2 ^ s.qn) →
        (Table.find a.flow s.flows = none → s.flows.length = s.params.flowsMax →
          exec (.rxPacket fwd (.ok a)) s =
            .next (State.respond { s with faulted := true, fcode := 0x01#8 } .eFaulted [])) ∧
        ∀ f, Table.find a.flow s.flows = some f →
          (r.frag < f.frag →
            exec (.rxPacket fwd (.ok a)) s = .next (State.respond
              { s with outputs := s.outputs ++ [.record (Record.bytes (.rlncAck a.flow
                  (intraHdr 0 (s.q.setWidth 8) f.frag 2 f.dport f.sport [])))] } .iBehind [])) ∧
          (r.frag = f.frag → f.rank ≠ 0 → r.k ≠ f.k →
            exec (.rxPacket fwd (.ok a)) s = .next (s.respond .eKMismatch [])) ∧
          (r.frag = f.frag → f.rank ≠ 0 → r.k = f.k → Table.wf s.flows = true →
            indep s.gf f.k.toNat (f.rows f.k.toNat f.rank.toNat) r.coeff = false →
            exec (.rxPacket fwd (.ok a)) s = .next (s.respond .iDependent [])))

/-- 46_rlnc R280, R281, R283, R284, R286: a data packet goes to the record that RX_PACKET prepares for it
(a new one, the one after AHEAD, or the current one, which takes the packet's k at rank 0). There a
dependent vector is dropped; an independent one becomes the next row; and when it completes the rank,
row j of the inverse applied to the received payloads is delivered for j = 0..k-1, the normal ACK with the
next fragment number and swapped ports is sent, and the record is reset. Rows are read in the k active
columns and M is a list of rows (the model's form, log 10, log 14). -/
def Obligations.RxInsertsRow : Prop :=
  ∀ (s : State) (fwd : Bool) (a : RxPacketArgs) (r : IntraHeader) (f : FlowRec),
    s.Running (.rxPacket fwd (.ok a)) → intraParse s.params.qMax a.pkt = some r → r.txtype = 0 →
    r.q.toNat = s.qn → r.k ≠ 0 → r.k.toNat ≤ s.params.kMax → s.payloadOk (a.pkt.drop r.hlen) = true →
    s.RxTarget fwd a.flow r f → f.mat.length = f.rank.toNat → f.rank < f.k →
    (indep s.gf f.k.toNat (f.rows f.k.toNat f.rank.toNat) r.coeff = false →
      exec (.rxPacket fwd (.ok a)) s = .next (State.respond
        { s with flows := Table.put a.flow f s.flows } .iDependent [])) ∧
    (indep s.gf f.k.toNat (f.rows f.k.toNat f.rank.toNat) r.coeff = true →
      (f.rank + 1 ≠ f.k →
        exec (.rxPacket fwd (.ok a)) s = .next (State.respond
          { s with
            flows := Table.put a.flow { f with
              rank := f.rank + 1
              mat := f.mat ++ [r.coeff]
              rx := f.rx ++ [a.pkt.drop r.hlen] } s.flows } .ok [])) ∧
      (f.rank + 1 = f.k → ∀ b,
        matInv s.gf f.k.toNat (f.rows f.k.toNat f.rank.toNat ++ [r.coeff]) = some b →
        exec (.rxPacket fwd (.ok a)) s = .next (State.respond
          { s with
            flows := Table.put a.flow { f with
              frag := f.frag + 1
              rank := 0
              mat := []
              rx := []
              txCounter := 0 } s.flows
            outputs := s.outputs ++
              b.mapIdx (fun j u => Output.record (Record.bytes (.rlncDeliver a.flow f.frag
                (BitVec.ofNat 8 j) (lcp s.gf u (f.rx ++ [a.pkt.drop r.hlen]))))) ++
              [.record (Record.bytes (.rlncAck a.flow
                (intraHdr 0 (s.q.setWidth 8) (f.frag + 1) 1 f.dport f.sport [])))] } .ok [])))

/-- 46_rlnc R285, R286: DECODE answers E_NOFLOW, or E_RANK below rank k. At rank k with an invertible matrix
it delivers row j of the inverse applied to the received payloads for j = 0..k-1, then sends the normal
ACK with the next fragment number and swapped ports, and resets the record. Where no rule states the
inverse (rank above k, or a singular matrix), k records are still delivered (the model's choice,
log 9). -/
def Obligations.DecodeDeliversFragment : Prop :=
  ∀ (s : State) (g : U16), s.Running (.decode (.ok g)) →
    (Table.find g s.flows = none →
      exec (.decode (.ok g)) s = .next (s.respond .eNoFlow [])) ∧
    (∀ f, Table.find g s.flows = some f →
      (f.rank < f.k → exec (.decode (.ok g)) s = .next (s.respond .eRank [])) ∧
      (f.k ≤ f.rank → ∃ (ps : List (List Byte)) (n : Nat), ps.length = f.k.toNat ∧
        (∀ b, f.rank = f.k → matInv s.gf f.k.toNat (f.rows f.k.toNat f.k.toNat) = some b →
          ps = b.map (fun u => lcp s.gf u f.rx) ∧ n = s.freeCount) ∧
        exec (.decode (.ok g)) s = .next (State.respond
          { s with
            freeCount := n
            flows := Table.put g { f with
              frag := f.frag + 1
              rank := 0
              mat := []
              rx := []
              txCounter := 0 } s.flows
            outputs := s.outputs ++
              ps.mapIdx (fun j p => Output.record (Record.bytes
                (.rlncDeliver g f.frag (BitVec.ofNat 8 j) p))) ++
              [.record (Record.bytes (.rlncAck g
                (intraHdr 0 (s.q.setWidth 8) (f.frag + 1) 1 f.dport f.sport [])))] } .ok [])))

/-- 46_rlnc R290, R291: RECODE answers E_NOFLOW, or I_NOTFIRED unless the flow is a forwarder in RLNC mode
with rank ≥ 2 and budget left; otherwise it draws a legal vector u of length rank, emits the stored rows
and payloads combined by u, and counts it. The oracle's side and the reading of rows in k columns are the
model's (log 4, log 10). -/
def Obligations.RecodeEmitsRecombination : Prop :=
  ∀ (s : State) (g : U16), s.Running (.recode (.ok g)) →
    (Table.find g s.flows = none →
      exec (.recode (.ok g)) s = .next (s.respond .eNoFlow [])) ∧
    (∀ f, Table.find g s.flows = some f →
      (f.fwd = false ∨ s.mode = 0 ∨ f.rank.toNat < 2 ∨ s.recCap < f.txCounter →
        exec (.recode (.ok g)) s = .next (s.respond .iNotFired [])) ∧
      (f.fwd = true → s.mode = 1 → 2 ≤ f.rank.toNat → f.txCounter ≤ s.recCap → 1 ≤ s.qn →
        s.qn ≤ 8 →
        ∃ u, legalDraw s.qn f.rank.toNat u = true ∧
          exec (.recode (.ok g)) s = .next (State.respond
            { s with
              draws := s.draws.tail
              freeCount := s.freeCount + 1
              flows := Table.put g { f with txCounter := f.txCounter + 1 } s.flows
              outputs := s.outputs ++ [.record (Record.bytes (.rlncTx g
                (intraHdr f.k (s.q.setWidth 8) f.frag 0 f.sport f.dport
                  (linComb s.gf f.k.toNat u (f.rows f.k.toNat f.rank.toNat)) ++
                  lcp s.gf u f.rx)))] } .ok [])))

/-- 46_rlnc R292 to R294, R280: CHANGE_FRAGMENT answers E_NOFLOW or, at a source, I_STALE for a number not
above its own. At a source it trims min(k, waiting) packets, resets and returns k to KCFG, then either
takes the number and encodes at once, or arms the timer and takes the number only when CF_ADVANCE = 0. At
a forwarder it clears and takes the number. A received ACK does exactly the same. The oracle's side is
the model's form, log 4. -/
def Obligations.ChangeFragmentResyncs : Prop :=
  ∀ (s : State) (a : ChangeFragmentArgs), s.Running (.changeFragment (.ok a)) →
    (Table.find a.flow s.flows = none →
      exec (.changeFragment (.ok a)) s = .next (s.respond .eNoFlow [])) ∧
    (∀ f, Table.find a.flow s.flows = some f →
      (f.fwd = true →
        exec (.changeFragment (.ok a)) s = .next (State.respond
          { s with
            flows := Table.put a.flow { f with
              frag := a.nfrag
              rank := 0
              mat := []
              rx := []
              tx := []
              txCounter := 0 } s.flows } .ok [])) ∧
      (f.fwd = false → a.nfrag ≤ f.frag →
        exec (.changeFragment (.ok a)) s = .next (s.respond .iStale [])) ∧
      (f.fwd = false → f.frag < a.nfrag →
        s.kcfg.toNat ≤ (f.tx.drop (min f.k.toNat f.tx.length)).length → s.kcfg ≠ 0 →
        1 ≤ s.qn → s.qn ≤ 8 →
        ∃ v, legalDraw s.qn s.kcfg.toNat v = true ∧
          exec (.changeFragment (.ok a)) s = .next (State.respond
            { s with
              draws := s.draws.tail
              freeCount := s.freeCount + 1
              flows := Table.put a.flow { f with
                k := s.kcfg
                frag := a.nfrag
                rank := 0
                mat := []
                rx := []
                txCounter := 1
                tx := f.tx.drop (min f.k.toNat f.tx.length) } s.flows
              outputs := s.outputs ++ [.record (Record.bytes (.rlncTx a.flow
                (intraHdr s.kcfg (s.q.setWidth 8) a.nfrag 0 f.sport f.dport v ++
                  lcp s.gf v ((f.tx.drop (min f.k.toNat f.tx.length)).take
                    s.kcfg.toNat))))] } .ok [])) ∧
      (f.fwd = false → f.frag < a.nfrag →
        (f.tx.drop (min f.k.toNat f.tx.length)).length < s.kcfg.toNat →
        exec (.changeFragment (.ok a)) s = .next (State.respond
          { s with
            tseq := s.tseq + 1
            flows := Table.put a.flow { f with
              k := s.kcfg
              rank := 0
              mat := []
              rx := []
              txCounter := 0
              frag := if s.cfAdvance = 0 then a.nfrag else f.frag
              tx := f.tx.drop (min f.k.toNat f.tx.length)
              ft := some
                { deadline := BitVec.ofNat 65 (s.now.toNat + s.btoIntra.toNat)
                  seq := s.tseq } } s.flows } .ok []))) ∧
    (∀ (fwd : Bool) (pkt : List Byte) (r : IntraHeader),
      s.Running (.rxPacket fwd (.ok { flow := a.flow, pkt })) → intraParse s.params.qMax pkt = some r →
      r.txtype ≠ 0 → r.frag = a.nfrag →
      exec (.rxPacket fwd (.ok { flow := a.flow, pkt })) s = exec (.changeFragment (.ok a)) s)

/-- 10_state R40 to R43, R46: every step keeps the flow table: keys rising, at most FLOWS_MAX records, each
with k in 1..K_MAX, its counter within the caps, its buffers within bounds and of symbols, as many payloads
as its rank, M zero outside its first rank rows and outside its k × k part, and, while its txBuffer is empty, rank < k with independent rows (log 9 says why only then). -/
def Obligations.StepKeepsFlowInv : Prop :=
  ∀ s t : State, s.FlowInv → step s = .next t → t.FlowInv

/-- 10_state R46 claims that between commands every flow has rank < k. The claim is not kept by a step:
FLOW_EXPIRE can lower k to or below rank (log 9). Expected to fail. -/
def Obligations.RankStaysBelowK : Prop :=
  ∀ s t : State, (∀ e ∈ s.flows, e.2.rank < e.2.k) → step s = .next t →
    ∀ e ∈ t.flows, e.2.rank < e.2.k

/-- The invariants hold right after reset (70_reset R360). -/
def Obligations.InvariantsHoldAtReset : Prop :=
  State.reset.ConfigInv ∧ State.reset.PoolInv ∧ State.reset.TimeInv ∧ State.reset.FlowInv
end

