-- ==== Sys2Proof/Laws/Bytes.lean ====
section
/-!
SUPPORT. Byte order and operand elements: each element reads back what its writer wrote, and reads only what its
writer writes.
-/

namespace Sys2Proof

/-! ## Big-endian numbers -/

@[simp] theorem length_putBE (n v : Nat) : (putBE n v).length = n := by
  induction n with
  | zero => rfl
  | succ n ih => simp [putBE, ih]

theorem beNat_append (xs ys : List Byte) :
    beNat (xs ++ ys) = beNat xs * 256 ^ ys.length + beNat ys := by
  have key : ∀ (ys : List Byte) (n : Nat),
      ys.foldl (fun n b => n * 256 + b.toNat) n = n * 256 ^ ys.length + beNat ys := by
    intro ys
    induction ys with
    | nil => intro n; simp [beNat]
    | cons y ys ih =>
      intro n
      have h0 : beNat (y :: ys) = y.toNat * 256 ^ ys.length + beNat ys := by
        simpa [beNat] using ih y.toNat
      simp only [List.foldl_cons, ih, List.length_cons, h0]
      ring
  simp only [beNat, List.foldl_append]
  exact key ys _

theorem beNat_cons (b : Byte) (bs : List Byte) :
    beNat (b :: bs) = b.toNat * 256 ^ bs.length + beNat bs := by
  simpa [beNat] using beNat_append [b] bs

theorem beNat_lt (bs : List Byte) : beNat bs < 256 ^ bs.length := by
  induction bs with
  | nil => simp [beNat]
  | cons b bs ih =>
    have hb : b.toNat < 256 := b.isLt
    rw [beNat_cons, List.length_cons, pow_succ]
    nlinarith [Nat.mul_le_mul_right (256 ^ bs.length) (Nat.le_of_lt_succ hb)]

theorem beNat_putBE (n v : Nat) : beNat (putBE n v) = v % 256 ^ n := by
  induction n with
  | zero => simp [putBE, beNat, Nat.mod_one]
  | succ n ih =>
    rw [putBE, beNat_cons, ih, length_putBE, BitVec.toNat_ofNat, show (2 : Nat) ^ 8 = 256 from rfl,
      pow_succ (256 : Nat) n, Nat.mod_mul, Nat.mul_comm, Nat.add_comm]

theorem putBE_mod (n m v : Nat) (h : n ≤ m) : putBE n (v % 256 ^ m) = putBE n v := by
  induction n with
  | zero => rfl
  | succ n ih =>
    simp only [putBE, ih (by omega)]
    congr 1
    apply BitVec.eq_of_toNat_eq
    obtain ⟨d, rfl⟩ : ∃ d, m = n + 1 + d := ⟨m - (n + 1), by omega⟩
    have h2 : (256 : Nat) ^ (n + 1 + d) = 256 ^ n * (256 * 256 ^ d) := by ring
    simp only [BitVec.toNat_ofNat, h2, Nat.mod_mul_right_div_self]
    norm_num [Nat.mod_mul_right_mod]

theorem putBE_beNat (bs : List Byte) : putBE bs.length (beNat bs) = bs := by
  induction bs with
  | nil => rfl
  | cons b bs ih =>
    have hlt := beNat_lt bs
    have hb : b.toNat < 256 := b.isLt
    simp only [List.length_cons, putBE, beNat_cons]
    congr 1
    · apply BitVec.eq_of_toNat_eq
      rw [BitVec.toNat_ofNat, mul_comm, Nat.mul_add_div (by positivity),
        Nat.div_eq_of_lt hlt, Nat.add_zero]
      exact Nat.mod_eq_of_lt hb
    · rw [← putBE_mod bs.length bs.length _ le_rfl, mul_comm, Nat.mul_add_mod,
        Nat.mod_eq_of_lt hlt, ih]

/-! ## Elements -/

theorem getBytes_append (xs r : List Byte) : getBytes xs.length (xs ++ r) = some (xs, r) := by
  simp [getBytes]

theorem getBytes_eq {n : Nat} {bs x r : List Byte} (h : getBytes n bs = some (x, r)) :
    bs = x ++ r ∧ x.length = n := by
  unfold getBytes at h
  split at h
  · cases h
  · simp only [Option.some.injEq, Prod.mk.injEq] at h
    obtain ⟨rfl, rfl⟩ := h
    exact ⟨(List.take_append_drop n bs).symm, by simp; omega⟩

theorem getBE_append (n v : Nat) (r : List Byte) :
    getBE n (putBE n v ++ r) = some (v % 256 ^ n, r) := by
  simp [getBE, beNat_putBE]

theorem getBE_eq {n v : Nat} {bs r : List Byte} (h : getBE n bs = some (v, r)) :
    bs = putBE n v ++ r ∧ v < 256 ^ n := by
  unfold getBE at h
  split at h
  · cases h
  · rename_i hn
    simp only [Option.some.injEq, Prod.mk.injEq] at h
    obtain ⟨rfl, rfl⟩ := h
    have hl : (bs.take n).length = n := by simp; omega
    refine ⟨?_, by simpa [hl] using beNat_lt (bs.take n)⟩
    conv_lhs => rw [← List.take_append_drop n bs]
    congr 1
    conv_lhs => rw [← putBE_beNat (bs.take n), hl]

@[simp] theorem getU16_put16 (v : U16) (r : List Byte) : getU16 (put16 v ++ r) = some (v, r) := by
  simp [getU16, put16, getBE_append, Nat.mod_eq_of_lt v.isLt]

@[simp] theorem getU32_put32 (v : U32) (r : List Byte) : getU32 (put32 v ++ r) = some (v, r) := by
  simp [getU32, put32, getBE_append, Nat.mod_eq_of_lt v.isLt]

@[simp] theorem getU64_put64 (v : U64) (r : List Byte) : getU64 (put64 v ++ r) = some (v, r) := by
  simp [getU64, put64, getBE_append, Nat.mod_eq_of_lt v.isLt]

theorem getU16_eq {v : U16} {bs r : List Byte} (h : getU16 bs = some (v, r)) :
    bs = put16 v ++ r := by
  simp only [getU16, Option.map_eq_some_iff] at h
  obtain ⟨⟨n, r'⟩, h1, h2⟩ := h
  obtain ⟨hb, hn⟩ := getBE_eq h1
  simp only [Prod.mk.injEq] at h2
  obtain ⟨rfl, rfl⟩ := h2
  rw [hb, put16, BitVec.toNat_ofNat, Nat.mod_eq_of_lt (by simpa using hn)]

theorem getU32_eq {v : U32} {bs r : List Byte} (h : getU32 bs = some (v, r)) :
    bs = put32 v ++ r := by
  simp only [getU32, Option.map_eq_some_iff] at h
  obtain ⟨⟨n, r'⟩, h1, h2⟩ := h
  obtain ⟨hb, hn⟩ := getBE_eq h1
  simp only [Prod.mk.injEq] at h2
  obtain ⟨rfl, rfl⟩ := h2
  rw [hb, put32, BitVec.toNat_ofNat, Nat.mod_eq_of_lt (by simpa using hn)]

theorem getU64_eq {v : U64} {bs r : List Byte} (h : getU64 bs = some (v, r)) :
    bs = put64 v ++ r := by
  simp only [getU64, Option.map_eq_some_iff] at h
  obtain ⟨⟨n, r'⟩, h1, h2⟩ := h
  obtain ⟨hb, hn⟩ := getBE_eq h1
  simp only [Prod.mk.injEq] at h2
  obtain ⟨rfl, rfl⟩ := h2
  rw [hb, put64, BitVec.toNat_ofNat, Nat.mod_eq_of_lt (by simpa using hn)]

@[simp] theorem getU8_cons (b : Byte) (r : List Byte) : getU8 (b :: r) = some (b, r) := rfl

theorem getU8_eq {b : Byte} {bs r : List Byte} (h : getU8 bs = some (b, r)) : bs = b :: r := by
  cases bs with
  | nil => cases h
  | cons x xs => cases h; rfl

theorem getBlob_putBlob {b : List Byte} (h : b.length < 2 ^ 32) (r : List Byte) :
    getBlob (putBlob b ++ r) = some (b, r) := by
  have h' : b.length % 256 ^ 4 = b.length := Nat.mod_eq_of_lt (by norm_num at h ⊢; omega)
  simp only [getBlob, putBlob, List.append_assoc, getBE_append, h', Option.bind_eq_bind,
    Option.bind_some, getBytes_append]

theorem getBlob_eq {b bs r : List Byte} (h : getBlob bs = some (b, r)) :
    bs = putBlob b ++ r ∧ b.length < 2 ^ 32 := by
  simp only [getBlob, Option.bind_eq_bind, Option.bind_eq_some_iff, Prod.exists] at h
  obtain ⟨n, r', h1, h2⟩ := h
  obtain ⟨hb, hn⟩ := getBE_eq h1
  obtain ⟨hr, rfl⟩ := getBytes_eq h2
  exact ⟨by rw [hb, hr, putBlob, List.append_assoc], by norm_num at hn ⊢; omega⟩

/-- A list element reads back, once its members do. -/
theorem getMany_flatMap {α : Type} {p : Parser α} {put : α → List Byte} {xs : List α}
    (h : ∀ x ∈ xs, ∀ r, p (put x ++ r) = some (x, r)) (r : List Byte) :
    getMany p xs.length (xs.flatMap put ++ r) = some (xs, r) := by
  induction xs with
  | nil => rfl
  | cons x xs ih =>
    simp [getMany, h x (by simp), ih fun y hy => h y (by simp [hy])]

/-- A list element reads only what its members' writers write. -/
theorem getMany_eq {α : Type} {p : Parser α} {put : α → List Byte} {good : α → Prop}
    (h : ∀ bs x r, p bs = some (x, r) → bs = put x ++ r ∧ good x) {n : Nat} {bs r : List Byte}
    {xs : List α} (hm : getMany p n bs = some (xs, r)) :
    bs = xs.flatMap put ++ r ∧ xs.length = n ∧ ∀ x ∈ xs, good x := by
  induction n generalizing bs xs r with
  | zero => cases hm; simp
  | succ n ih =>
    simp only [getMany, Option.bind_eq_bind, Option.bind_eq_some_iff, Prod.exists] at hm
    obtain ⟨x, r1, h1, ys, r2, h2, h3⟩ := hm
    simp only [pure, Option.some.injEq, Prod.mk.injEq] at h3
    obtain ⟨rfl, rfl⟩ := h3
    obtain ⟨hb, hg⟩ := h _ _ _ h1
    obtain ⟨hr, hl, hgs⟩ := ih h2
    refine ⟨by simp [hb, hr], by simp [hl], fun y hy => ?_⟩
    rcases List.mem_cons.1 hy with rfl | hy
    · exact hg
    · exact hgs y hy

@[simp] theorem getDesc_putDesc (d : Desc) (r : List Byte) :
    getDesc (putDesc d ++ r) = some (d, r) := by
  simp [getDesc, putDesc, List.append_assoc]

theorem getDesc_eq {d : Desc} {bs r : List Byte} (h : getDesc bs = some (d, r)) :
    bs = putDesc d ++ r := by
  simp only [getDesc, Option.bind_eq_bind, Option.bind_eq_some_iff, Prod.exists] at h
  obtain ⟨a, r1, h1, b, r2, h2, c, r3, h3, e, r4, h4, h5⟩ := h
  simp only [pure, Option.some.injEq, Prod.mk.injEq] at h5
  obtain ⟨rfl, rfl⟩ := h5
  rw [getU32_eq h1, getU32_eq h2, getU16_eq h3, getU16_eq h4]
  simp [putDesc]

theorem getAckd_putAckd {a : Ackd} (h : a.tcp.length < 2 ^ 32) (r : List Byte) :
    getAckd (putAckd a ++ r) = some (a, r) := by
  simp [getAckd, putAckd, List.append_assoc, getBlob_putBlob h]

theorem getAckd_eq {a : Ackd} {bs r : List Byte} (h : getAckd bs = some (a, r)) :
    bs = putAckd a ++ r ∧ a.tcp.length < 2 ^ 32 := by
  simp only [getAckd, Option.bind_eq_bind, Option.bind_eq_some_iff, Prod.exists] at h
  obtain ⟨x, r1, h1, y, r2, h2, h3⟩ := h
  simp only [pure, Option.some.injEq, Prod.mk.injEq] at h3
  obtain ⟨rfl, rfl⟩ := h3
  obtain ⟨hb, hl⟩ := getBlob_eq h2
  exact ⟨by rw [getU32_eq h1, hb]; simp [putAckd], hl⟩

/-- What `parseArgs` answers with values, the layout read from the whole of the bytes. -/
theorem parseArgs_eq_ok {α : Type} {p : Parser α} {bs : List Byte} {a : α} :
    parseArgs p bs = .ok a ↔ p bs = some (a, []) := by
  unfold parseArgs
  split
  · rename_i b h
    rw [h]
    simp
  · rename_i h
    constructor
    · intro h'; cases h'
    · intro h'; exact absurd h' (h a)

/-- What `parseArgs` keeps as bytes is the bytes it was given. -/
theorem parseArgs_eq_bad {α : Type} {p : Parser α} {bs bs' : List Byte}
    (h : parseArgs p bs = .bad bs') : bs' = bs := by
  unfold parseArgs at h
  split at h
  · cases h
  · cases h; rfl

end Sys2Proof
end

