-- ==== Sys2Proof/Laws/State.lean ====
section
/-!
SUPPORT. One lemma for each field and each named update of the state.
-/

namespace Sys2Proof.Machine

variable (s : State)

/-! ## emit -/

@[simp] theorem State.emit_phase (r : Record) : (s.emit r).phase = s.phase := rfl
@[simp] theorem State.emit_faulted (r : Record) : (s.emit r).faulted = s.faulted := rfl
@[simp] theorem State.emit_fcode (r : Record) : (s.emit r).fcode = s.fcode := rfl
@[simp] theorem State.emit_now (r : Record) : (s.emit r).now = s.now := rfl
@[simp] theorem State.emit_tseq (r : Record) : (s.emit r).tseq = s.tseq := rfl
@[simp] theorem State.emit_mbs (r : Record) : (s.emit r).mbs = s.mbs := rfl
@[simp] theorem State.emit_btoInter (r : Record) : (s.emit r).btoInter = s.btoInter := rfl
@[simp] theorem State.emit_mcp (r : Record) : (s.emit r).mcp = s.mcp := rfl
@[simp] theorem State.emit_q (r : Record) : (s.emit r).q = s.q := rfl
@[simp] theorem State.emit_kcfg (r : Record) : (s.emit r).kcfg = s.kcfg := rfl
@[simp] theorem State.emit_mode (r : Record) : (s.emit r).mode = s.mode := rfl
@[simp] theorem State.emit_btoIntra (r : Record) : (s.emit r).btoIntra = s.btoIntra := rfl
@[simp] theorem State.emit_encCap (r : Record) : (s.emit r).encCap = s.encCap := rfl
@[simp] theorem State.emit_recCap (r : Record) : (s.emit r).recCap = s.recCap := rfl
@[simp] theorem State.emit_cfAdvance (r : Record) : (s.emit r).cfAdvance = s.cfAdvance := rfl
@[simp] theorem State.emit_pool (r : Record) : (s.emit r).pool = s.pool := rfl
@[simp] theorem State.emit_oq (r : Record) : (s.emit r).oq = s.oq := rfl
@[simp] theorem State.emit_flows (r : Record) : (s.emit r).flows = s.flows := rfl
@[simp] theorem State.emit_cmdIn (r : Record) : (s.emit r).cmdIn = s.cmdIn := rfl
@[simp] theorem State.emit_outputs (r : Record) : (s.emit r).outputs = s.outputs ++ [.record r.bytes] := rfl
@[simp] theorem State.emit_resetPin (r : Record) : (s.emit r).resetPin = s.resetPin := rfl
@[simp] theorem State.emit_draws (r : Record) : (s.emit r).draws = s.draws := rfl
@[simp] theorem State.emit_freeCount (r : Record) : (s.emit r).freeCount = s.freeCount := rfl
@[simp] theorem State.emit_params (r : Record) : (s.emit r).params = s.params := rfl

/-! ## respond -/

@[simp] theorem State.respond_phase (st : Status) (b : List Byte) : (s.respond st b).phase = s.phase := rfl
@[simp] theorem State.respond_faulted (st : Status) (b : List Byte) : (s.respond st b).faulted = s.faulted := rfl
@[simp] theorem State.respond_fcode (st : Status) (b : List Byte) : (s.respond st b).fcode = s.fcode := rfl
@[simp] theorem State.respond_now (st : Status) (b : List Byte) : (s.respond st b).now = s.now := rfl
@[simp] theorem State.respond_tseq (st : Status) (b : List Byte) : (s.respond st b).tseq = s.tseq := rfl
@[simp] theorem State.respond_mbs (st : Status) (b : List Byte) : (s.respond st b).mbs = s.mbs := rfl
@[simp] theorem State.respond_btoInter (st : Status) (b : List Byte) : (s.respond st b).btoInter = s.btoInter := rfl
@[simp] theorem State.respond_mcp (st : Status) (b : List Byte) : (s.respond st b).mcp = s.mcp := rfl
@[simp] theorem State.respond_q (st : Status) (b : List Byte) : (s.respond st b).q = s.q := rfl
@[simp] theorem State.respond_kcfg (st : Status) (b : List Byte) : (s.respond st b).kcfg = s.kcfg := rfl
@[simp] theorem State.respond_mode (st : Status) (b : List Byte) : (s.respond st b).mode = s.mode := rfl
@[simp] theorem State.respond_btoIntra (st : Status) (b : List Byte) : (s.respond st b).btoIntra = s.btoIntra := rfl
@[simp] theorem State.respond_encCap (st : Status) (b : List Byte) : (s.respond st b).encCap = s.encCap := rfl
@[simp] theorem State.respond_recCap (st : Status) (b : List Byte) : (s.respond st b).recCap = s.recCap := rfl
@[simp] theorem State.respond_cfAdvance (st : Status) (b : List Byte) : (s.respond st b).cfAdvance = s.cfAdvance := rfl
@[simp] theorem State.respond_pool (st : Status) (b : List Byte) : (s.respond st b).pool = s.pool := rfl
@[simp] theorem State.respond_oq (st : Status) (b : List Byte) : (s.respond st b).oq = s.oq := rfl
@[simp] theorem State.respond_flows (st : Status) (b : List Byte) : (s.respond st b).flows = s.flows := rfl
@[simp] theorem State.respond_cmdIn (st : Status) (b : List Byte) : (s.respond st b).cmdIn = s.cmdIn := rfl
@[simp] theorem State.respond_outputs (st : Status) (b : List Byte) : (s.respond st b).outputs = s.outputs ++ [.response (responseBytes st (if st = .ok then b else []))] := rfl
@[simp] theorem State.respond_resetPin (st : Status) (b : List Byte) : (s.respond st b).resetPin = s.resetPin := rfl
@[simp] theorem State.respond_draws (st : Status) (b : List Byte) : (s.respond st b).draws = s.draws := rfl
@[simp] theorem State.respond_freeCount (st : Status) (b : List Byte) : (s.respond st b).freeCount = s.freeCount := rfl
@[simp] theorem State.respond_params (st : Status) (b : List Byte) : (s.respond st b).params = s.params := rfl

/-! ## enterFault -/

@[simp] theorem State.enterFault_phase (c : Byte) : (s.enterFault c).phase = s.phase := rfl
@[simp] theorem State.enterFault_faulted (c : Byte) : (s.enterFault c).faulted = true := rfl
@[simp] theorem State.enterFault_fcode (c : Byte) : (s.enterFault c).fcode = c := rfl
@[simp] theorem State.enterFault_now (c : Byte) : (s.enterFault c).now = s.now := rfl
@[simp] theorem State.enterFault_tseq (c : Byte) : (s.enterFault c).tseq = s.tseq := rfl
@[simp] theorem State.enterFault_mbs (c : Byte) : (s.enterFault c).mbs = s.mbs := rfl
@[simp] theorem State.enterFault_btoInter (c : Byte) : (s.enterFault c).btoInter = s.btoInter := rfl
@[simp] theorem State.enterFault_mcp (c : Byte) : (s.enterFault c).mcp = s.mcp := rfl
@[simp] theorem State.enterFault_q (c : Byte) : (s.enterFault c).q = s.q := rfl
@[simp] theorem State.enterFault_kcfg (c : Byte) : (s.enterFault c).kcfg = s.kcfg := rfl
@[simp] theorem State.enterFault_mode (c : Byte) : (s.enterFault c).mode = s.mode := rfl
@[simp] theorem State.enterFault_btoIntra (c : Byte) : (s.enterFault c).btoIntra = s.btoIntra := rfl
@[simp] theorem State.enterFault_encCap (c : Byte) : (s.enterFault c).encCap = s.encCap := rfl
@[simp] theorem State.enterFault_recCap (c : Byte) : (s.enterFault c).recCap = s.recCap := rfl
@[simp] theorem State.enterFault_cfAdvance (c : Byte) : (s.enterFault c).cfAdvance = s.cfAdvance := rfl
@[simp] theorem State.enterFault_pool (c : Byte) : (s.enterFault c).pool = s.pool := rfl
@[simp] theorem State.enterFault_oq (c : Byte) : (s.enterFault c).oq = s.oq := rfl
@[simp] theorem State.enterFault_flows (c : Byte) : (s.enterFault c).flows = s.flows := rfl
@[simp] theorem State.enterFault_cmdIn (c : Byte) : (s.enterFault c).cmdIn = s.cmdIn := rfl
@[simp] theorem State.enterFault_outputs (c : Byte) : (s.enterFault c).outputs = s.outputs := rfl
@[simp] theorem State.enterFault_resetPin (c : Byte) : (s.enterFault c).resetPin = s.resetPin := rfl
@[simp] theorem State.enterFault_draws (c : Byte) : (s.enterFault c).draws = s.draws := rfl
@[simp] theorem State.enterFault_freeCount (c : Byte) : (s.enterFault c).freeCount = s.freeCount := rfl
@[simp] theorem State.enterFault_params (c : Byte) : (s.enterFault c).params = s.params := rfl

/-! ## countArm -/

@[simp] theorem State.countArm_phase : s.countArm.phase = s.phase := rfl
@[simp] theorem State.countArm_faulted : s.countArm.faulted = s.faulted := rfl
@[simp] theorem State.countArm_fcode : s.countArm.fcode = s.fcode := rfl
@[simp] theorem State.countArm_now : s.countArm.now = s.now := rfl
@[simp] theorem State.countArm_tseq : s.countArm.tseq = s.tseq + 1 := rfl
@[simp] theorem State.countArm_mbs : s.countArm.mbs = s.mbs := rfl
@[simp] theorem State.countArm_btoInter : s.countArm.btoInter = s.btoInter := rfl
@[simp] theorem State.countArm_mcp : s.countArm.mcp = s.mcp := rfl
@[simp] theorem State.countArm_q : s.countArm.q = s.q := rfl
@[simp] theorem State.countArm_kcfg : s.countArm.kcfg = s.kcfg := rfl
@[simp] theorem State.countArm_mode : s.countArm.mode = s.mode := rfl
@[simp] theorem State.countArm_btoIntra : s.countArm.btoIntra = s.btoIntra := rfl
@[simp] theorem State.countArm_encCap : s.countArm.encCap = s.encCap := rfl
@[simp] theorem State.countArm_recCap : s.countArm.recCap = s.recCap := rfl
@[simp] theorem State.countArm_cfAdvance : s.countArm.cfAdvance = s.cfAdvance := rfl
@[simp] theorem State.countArm_pool : s.countArm.pool = s.pool := rfl
@[simp] theorem State.countArm_oq : s.countArm.oq = s.oq := rfl
@[simp] theorem State.countArm_flows : s.countArm.flows = s.flows := rfl
@[simp] theorem State.countArm_cmdIn : s.countArm.cmdIn = s.cmdIn := rfl
@[simp] theorem State.countArm_outputs : s.countArm.outputs = s.outputs := rfl
@[simp] theorem State.countArm_resetPin : s.countArm.resetPin = s.resetPin := rfl
@[simp] theorem State.countArm_draws : s.countArm.draws = s.draws := rfl
@[simp] theorem State.countArm_freeCount : s.countArm.freeCount = s.freeCount := rfl
@[simp] theorem State.countArm_params : s.countArm.params = s.params := rfl

/-! ## afterDraw -/

@[simp] theorem State.afterDraw_phase : s.afterDraw.phase = s.phase := rfl
@[simp] theorem State.afterDraw_faulted : s.afterDraw.faulted = s.faulted := rfl
@[simp] theorem State.afterDraw_fcode : s.afterDraw.fcode = s.fcode := rfl
@[simp] theorem State.afterDraw_now : s.afterDraw.now = s.now := rfl
@[simp] theorem State.afterDraw_tseq : s.afterDraw.tseq = s.tseq := rfl
@[simp] theorem State.afterDraw_mbs : s.afterDraw.mbs = s.mbs := rfl
@[simp] theorem State.afterDraw_btoInter : s.afterDraw.btoInter = s.btoInter := rfl
@[simp] theorem State.afterDraw_mcp : s.afterDraw.mcp = s.mcp := rfl
@[simp] theorem State.afterDraw_q : s.afterDraw.q = s.q := rfl
@[simp] theorem State.afterDraw_kcfg : s.afterDraw.kcfg = s.kcfg := rfl
@[simp] theorem State.afterDraw_mode : s.afterDraw.mode = s.mode := rfl
@[simp] theorem State.afterDraw_btoIntra : s.afterDraw.btoIntra = s.btoIntra := rfl
@[simp] theorem State.afterDraw_encCap : s.afterDraw.encCap = s.encCap := rfl
@[simp] theorem State.afterDraw_recCap : s.afterDraw.recCap = s.recCap := rfl
@[simp] theorem State.afterDraw_cfAdvance : s.afterDraw.cfAdvance = s.cfAdvance := rfl
@[simp] theorem State.afterDraw_pool : s.afterDraw.pool = s.pool := rfl
@[simp] theorem State.afterDraw_oq : s.afterDraw.oq = s.oq := rfl
@[simp] theorem State.afterDraw_flows : s.afterDraw.flows = s.flows := rfl
@[simp] theorem State.afterDraw_cmdIn : s.afterDraw.cmdIn = s.cmdIn := rfl
@[simp] theorem State.afterDraw_outputs : s.afterDraw.outputs = s.outputs := rfl
@[simp] theorem State.afterDraw_resetPin : s.afterDraw.resetPin = s.resetPin := rfl
@[simp] theorem State.afterDraw_draws : s.afterDraw.draws = s.draws.tail := rfl
@[simp] theorem State.afterDraw_freeCount : s.afterDraw.freeCount = s.freeCount + 1 := rfl
@[simp] theorem State.afterDraw_params : s.afterDraw.params = s.params := rfl

/-! ## putFlow -/

@[simp] theorem State.putFlow_phase (g : U16) (f : FlowRec) : (s.putFlow g f).phase = s.phase := rfl
@[simp] theorem State.putFlow_faulted (g : U16) (f : FlowRec) : (s.putFlow g f).faulted = s.faulted := rfl
@[simp] theorem State.putFlow_fcode (g : U16) (f : FlowRec) : (s.putFlow g f).fcode = s.fcode := rfl
@[simp] theorem State.putFlow_now (g : U16) (f : FlowRec) : (s.putFlow g f).now = s.now := rfl
@[simp] theorem State.putFlow_tseq (g : U16) (f : FlowRec) : (s.putFlow g f).tseq = s.tseq := rfl
@[simp] theorem State.putFlow_mbs (g : U16) (f : FlowRec) : (s.putFlow g f).mbs = s.mbs := rfl
@[simp] theorem State.putFlow_btoInter (g : U16) (f : FlowRec) : (s.putFlow g f).btoInter = s.btoInter := rfl
@[simp] theorem State.putFlow_mcp (g : U16) (f : FlowRec) : (s.putFlow g f).mcp = s.mcp := rfl
@[simp] theorem State.putFlow_q (g : U16) (f : FlowRec) : (s.putFlow g f).q = s.q := rfl
@[simp] theorem State.putFlow_kcfg (g : U16) (f : FlowRec) : (s.putFlow g f).kcfg = s.kcfg := rfl
@[simp] theorem State.putFlow_mode (g : U16) (f : FlowRec) : (s.putFlow g f).mode = s.mode := rfl
@[simp] theorem State.putFlow_btoIntra (g : U16) (f : FlowRec) : (s.putFlow g f).btoIntra = s.btoIntra := rfl
@[simp] theorem State.putFlow_encCap (g : U16) (f : FlowRec) : (s.putFlow g f).encCap = s.encCap := rfl
@[simp] theorem State.putFlow_recCap (g : U16) (f : FlowRec) : (s.putFlow g f).recCap = s.recCap := rfl
@[simp] theorem State.putFlow_cfAdvance (g : U16) (f : FlowRec) : (s.putFlow g f).cfAdvance = s.cfAdvance := rfl
@[simp] theorem State.putFlow_pool (g : U16) (f : FlowRec) : (s.putFlow g f).pool = s.pool := rfl
@[simp] theorem State.putFlow_oq (g : U16) (f : FlowRec) : (s.putFlow g f).oq = s.oq := rfl
@[simp] theorem State.putFlow_flows (g : U16) (f : FlowRec) : (s.putFlow g f).flows = Table.put g f s.flows := rfl
@[simp] theorem State.putFlow_cmdIn (g : U16) (f : FlowRec) : (s.putFlow g f).cmdIn = s.cmdIn := rfl
@[simp] theorem State.putFlow_outputs (g : U16) (f : FlowRec) : (s.putFlow g f).outputs = s.outputs := rfl
@[simp] theorem State.putFlow_resetPin (g : U16) (f : FlowRec) : (s.putFlow g f).resetPin = s.resetPin := rfl
@[simp] theorem State.putFlow_draws (g : U16) (f : FlowRec) : (s.putFlow g f).draws = s.draws := rfl
@[simp] theorem State.putFlow_freeCount (g : U16) (f : FlowRec) : (s.putFlow g f).freeCount = s.freeCount := rfl
@[simp] theorem State.putFlow_params (g : U16) (f : FlowRec) : (s.putFlow g f).params = s.params := rfl

/-! ## putBucket -/

@[simp] theorem State.putBucket_phase (g : U16) (b : Bucket) : (s.putBucket g b).phase = s.phase := rfl
@[simp] theorem State.putBucket_faulted (g : U16) (b : Bucket) : (s.putBucket g b).faulted = s.faulted := rfl
@[simp] theorem State.putBucket_fcode (g : U16) (b : Bucket) : (s.putBucket g b).fcode = s.fcode := rfl
@[simp] theorem State.putBucket_now (g : U16) (b : Bucket) : (s.putBucket g b).now = s.now := rfl
@[simp] theorem State.putBucket_tseq (g : U16) (b : Bucket) : (s.putBucket g b).tseq = s.tseq := rfl
@[simp] theorem State.putBucket_mbs (g : U16) (b : Bucket) : (s.putBucket g b).mbs = s.mbs := rfl
@[simp] theorem State.putBucket_btoInter (g : U16) (b : Bucket) : (s.putBucket g b).btoInter = s.btoInter := rfl
@[simp] theorem State.putBucket_mcp (g : U16) (b : Bucket) : (s.putBucket g b).mcp = s.mcp := rfl
@[simp] theorem State.putBucket_q (g : U16) (b : Bucket) : (s.putBucket g b).q = s.q := rfl
@[simp] theorem State.putBucket_kcfg (g : U16) (b : Bucket) : (s.putBucket g b).kcfg = s.kcfg := rfl
@[simp] theorem State.putBucket_mode (g : U16) (b : Bucket) : (s.putBucket g b).mode = s.mode := rfl
@[simp] theorem State.putBucket_btoIntra (g : U16) (b : Bucket) : (s.putBucket g b).btoIntra = s.btoIntra := rfl
@[simp] theorem State.putBucket_encCap (g : U16) (b : Bucket) : (s.putBucket g b).encCap = s.encCap := rfl
@[simp] theorem State.putBucket_recCap (g : U16) (b : Bucket) : (s.putBucket g b).recCap = s.recCap := rfl
@[simp] theorem State.putBucket_cfAdvance (g : U16) (b : Bucket) : (s.putBucket g b).cfAdvance = s.cfAdvance := rfl
@[simp] theorem State.putBucket_pool (g : U16) (b : Bucket) : (s.putBucket g b).pool = Table.put g b s.pool := rfl
@[simp] theorem State.putBucket_oq (g : U16) (b : Bucket) : (s.putBucket g b).oq = s.oq := rfl
@[simp] theorem State.putBucket_flows (g : U16) (b : Bucket) : (s.putBucket g b).flows = s.flows := rfl
@[simp] theorem State.putBucket_cmdIn (g : U16) (b : Bucket) : (s.putBucket g b).cmdIn = s.cmdIn := rfl
@[simp] theorem State.putBucket_outputs (g : U16) (b : Bucket) : (s.putBucket g b).outputs = s.outputs := rfl
@[simp] theorem State.putBucket_resetPin (g : U16) (b : Bucket) : (s.putBucket g b).resetPin = s.resetPin := rfl
@[simp] theorem State.putBucket_draws (g : U16) (b : Bucket) : (s.putBucket g b).draws = s.draws := rfl
@[simp] theorem State.putBucket_freeCount (g : U16) (b : Bucket) : (s.putBucket g b).freeCount = s.freeCount := rfl
@[simp] theorem State.putBucket_params (g : U16) (b : Bucket) : (s.putBucket g b).params = s.params := rfl

end Sys2Proof.Machine
end

