-- ==== Sys2Proof/Laws/Command.lean ====
section
/-!
SUPPORT. The shape every command has: its checks, then its own rule. One equation covers all arms of `exec`.
-/

namespace Sys2Proof.Machine

/-- Operands that do not parse answer E_OPERAND; others go to the rule. -/
def Args.ending {α : Type} (o : Args α) (body : α → State → Ending) (s : State) : Ending :=
  match o with
  | .bad _ => raise .eOperand s
  | .ok a => body a s

@[simp] theorem Args.ending_ok {α : Type} (a : α) (body : α → State → Ending) (s : State) :
    Args.ending (.ok a) body s = body a s := rfl

@[simp] theorem Args.ending_bad {α : Type} (bs : List Byte) (body : α → State → Ending) (s : State) :
    Args.ending (.bad bs) body s = raise .eOperand s := rfl

/-- The rule of each command, after the checks of 30_encoding R92 steps 1 to 5. -/
def rule : Instr → State → Ending
  | .nop o => Args.ending o fun _ s => .done .ok [] s
  | .regRead o => Args.ending o regReadBody
  | .cfgWrite o => Args.ending o cfgWriteBody
  | .start o => Args.ending o startBody
  | .timeAdvance o => Args.ending o timeAdvanceBody
  | .hash o => Args.ending o hashBody
  | .hdrBuildInter o => Args.ending o hdrBuildInterBody
  | .hdrParseInter o => Args.ending o hdrParseInterBody
  | .hdrBuildIntra o => Args.ending o hdrBuildIntraBody
  | .hdrParseIntra o => Args.ending o hdrParseIntraBody
  | .xorEnc o => Args.ending o xorEncBody
  | .xorDec o => Args.ending o xorDecBody
  | .gfMul o => Args.ending o gfMulBody
  | .gfInv o => Args.ending o gfInvBody
  | .matRank o => Args.ending o matRankBody
  | .matInv o => Args.ending o matInvBody
  | .vecGen o => Args.ending o vecGenBody
  | .poolInsert native o => Args.ending o (poolInsertBody native)
  | .oqPopFrame o => Args.ending o oqPopFrameBody
  | .poolStat o => Args.ending o poolStatBody
  | .txPush o => Args.ending o txPushBody
  | .encode o => Args.ending o encodeBody
  | .rxPacket fwd o => Args.ending o (rxPacketBody fwd)
  | .decode o => Args.ending o decodeBody
  | .recode o => Args.ending o recodeBody
  | .changeFragment o => Args.ending o changeFragmentBody
  | .flowStat o => Args.ending o flowStatBody
  | .flowRow o => Args.ending o flowRowBody

/-- `command` is the checks, then the rule. -/
theorem command_eq {α : Type} (i : Instr) (need : PhaseNeed) (o : Args α)
    (body : α → State → Ending) (s : State) :
    command i need o body s = .next (match s.turnedAway i.opcode i.olen need with
      | some st => s.respond st []
      | none => (Args.ending o body s).finish) := by
  unfold command
  cases s.turnedAway i.opcode i.olen need with
  | some st => rfl
  | none => cases o <;> rfl

/-- Every command is its checks, then its rule. -/
theorem exec_eq (i : Instr) (s : State) :
    exec i s = .next (match s.turnedAway i.opcode i.olen (phaseNeed i) with
      | some st => s.respond st []
      | none => (rule i s).finish) := by
  cases i <;> exact command_eq _ _ _ _ _

/-- A status that turns a command away is one of three errors. -/
theorem turnedAway_cases {s : State} {opc : Byte} {n : Nat} {need : PhaseNeed} {st : Status}
    (h : s.turnedAway opc n need = some st) :
    (st = .eFaulted ∧ s.faulted = true) ∨ st = .eOperand ∨ st = .ePhase := by
  unfold State.turnedAway at h
  split at h
  · rename_i hf
    cases h
    exact .inl ⟨rfl, hf.1⟩
  · split at h
    · cases h; simp
    · split at h
      · cases h; simp
      · cases h

/-- A command that is not turned away meets the checks. -/
theorem turnedAway_none {s : State} {opc : Byte} {n : Nat} {need : PhaseNeed} :
    s.turnedAway opc n need = none ↔
      (s.faulted = false ∨ opc = regReadOpcode) ∧ n ≤ s.params.cmdMax ∧
        need.allows s.phase = true := by
  unfold State.turnedAway
  split
  · rename_i h
    simp [h.1, h.2]
  · rename_i h
    have h' : s.faulted = false ∨ opc = regReadOpcode := by
      cases hf : s.faulted
      · exact .inl rfl
      · exact .inr (by simpa [hf] using h)
    split
    · rename_i h2
      constructor
      · intro h3; cases h3
      · rintro ⟨-, h3, -⟩; omega
    · split
      · rename_i h3
        simp [h3]
      · rename_i h2 h3
        exact iff_of_true rfl ⟨h', by omega, by simpa using h3⟩

/-- Only REG_READ, with its opcode, runs while FAULT = 1. -/
theorem opcode_eq_regRead {i : Instr} (h : i.opcode = regReadOpcode) : ∃ o, i = .regRead o := by
  cases i <;> first | exact ⟨_, rfl⟩ | (revert h; simp [Instr.opcode, regReadOpcode])

/-- What a command can do: it is turned away and only answers, or its rule ends it. -/
theorem exec_cases {i : Instr} {s t : State} (h : exec i s = .next t) :
    (∃ st, s.turnedAway i.opcode i.olen (phaseNeed i) = some st ∧ t = s.respond st []) ∨
      (s.turnedAway i.opcode i.olen (phaseNeed i) = none ∧ t = (rule i s).finish) := by
  rw [exec_eq] at h
  cases hw : s.turnedAway i.opcode i.olen (phaseNeed i) with
  | some st => rw [hw] at h; cases h; exact .inl ⟨st, rfl, rfl⟩
  | none => rw [hw] at h; cases h; exact .inr ⟨rfl, rfl⟩

/-- An accepted RUN command runs its rule. -/
theorem State.Running.exec_eq {s : State} {i : Instr} (h : s.Running i)
    (hc : (phaseNeed i).allows .run = true) : exec i s = .next (rule i s).finish := by
  rw [Machine.exec_eq, turnedAway_none.2 ⟨.inl h.healthy, h.fits, by rw [h.inRun]; exact hc⟩]

/-- An accepted CONFIG command runs its rule. -/
theorem State.Configuring.exec_eq {s : State} {i : Instr} (h : s.Configuring i)
    (hc : (phaseNeed i).allows .config = true) : exec i s = .next (rule i s).finish := by
  rw [Machine.exec_eq, turnedAway_none.2 ⟨.inl h.healthy, h.fits, by rw [h.inConfig]; exact hc⟩]

@[simp] theorem Ending.finish_done (st : Status) (b : List Byte) (s : State) :
    (Ending.done st b s).finish = s.respond st b := rfl

@[simp] theorem Ending.finish_capacity (s : State) :
    (Ending.capacity s).finish = (s.enterFault fCapacity).respond .eFaulted [] := rfl

@[simp] theorem raise_eq (st : Status) (s : State) : raise st s = .done st [] s := rfl

@[simp] theorem Proc.andThen_goOn (s : State) (f : State → Proc) :
    (Proc.goOn s).andThen f = f s := rfl

@[simp] theorem Proc.andThen_capacity (s : State) (f : State → Proc) :
    (Proc.capacity s).andThen f = .capacity s := rfl

@[simp] theorem Proc.respondOk_goOn (s : State) (b : List Byte) :
    (Proc.goOn s).respondOk b = .done .ok b s := rfl

@[simp] theorem Proc.respondOk_capacity (s : State) (b : List Byte) :
    (Proc.capacity s).respondOk b = .capacity s := rfl

/-- What a step can do. -/
theorem step_cases {s t : State} (h : step s = .next t) :
    (s.resetPin = true ∧ t = s.applyReset) ∨
      (s.resetPin = false ∧ fetchCommand s.cmdIn = none ∧ t = s) ∨
      (s.resetPin = false ∧ ∃ opc why rest, fetchCommand s.cmdIn = some (.illegal opc why, rest) ∧
        t = State.rejectIllegal { s with cmdIn := rest } opc) ∨
      (s.resetPin = false ∧ ∃ i rest, fetchCommand s.cmdIn = some (.instr i, rest) ∧
        exec i { s with cmdIn := rest } = .next t) := by
  unfold step at h
  cases hp : s.resetPin with
  | true => rw [hp] at h; cases h; exact .inl ⟨rfl, rfl⟩
  | false =>
    rw [hp] at h
    simp only [Bool.false_eq_true, if_false] at h
    split at h
    · rename_i hf
      cases h
      exact .inr (.inl ⟨rfl, hf, rfl⟩)
    · rename_i opc why rest hf
      cases h
      exact .inr (.inr (.inl ⟨rfl, opc, why, rest, hf, rfl⟩))
    · rename_i i rest hf
      exact .inr (.inr (.inr ⟨rfl, i, rest, hf, h⟩))

end Sys2Proof.Machine
end

