-- ==== Sys2Proof/Laws/Field.lean ====
section
/-!
SUPPORT. Lengths of vectors and payload combinations, and the sum of the field.
-/

namespace Sys2Proof.Machine

theorem gadd_comm (a b : Byte) : gadd a b = gadd b a := BitVec.xor_comm a b

theorem gadd_assoc (a b c : Byte) : gadd (gadd a b) c = gadd a (gadd b c) := BitVec.xor_assoc a b c

@[simp] theorem gadd_self (a : Byte) : gadd a a = 0 := BitVec.xor_self

@[simp] theorem gadd_zero (a : Byte) : gadd a 0 = a := BitVec.xor_zero

@[simp] theorem zero_gadd (a : Byte) : gadd 0 a = a := BitVec.zero_xor

@[simp] theorem length_scale (F : Gf) (c : Byte) (v : List Byte) : (scale F c v).length = v.length := by
  simp [scale]

@[simp] theorem length_vadd (v w : List Byte) : (vadd v w).length = min v.length w.length := by
  simp [vadd]

@[simp] theorem length_zeroVec (n : Nat) : (zeroVec n).length = n := by simp [zeroVec]

@[simp] theorem length_lcp (F : Gf) (u : List Byte) (ps : List (List Byte)) :
    (lcp F u ps).length = maxLength ps := by
  simp [lcp]

@[simp] theorem length_xorAll (ps : List (List Byte)) : (xorAll ps).length = maxLength ps := by
  simp [xorAll]

/-- Rows of length n combine to a vector of length n. -/
theorem length_linComb {F : Gf} {n : Nat} {u : List Byte} {rows : List (List Byte)}
    (h : ∀ v ∈ rows, v.length = n) : (linComb F n u rows).length = n := by
  have key : ∀ (l : List (List Byte)) (z : List Byte), z.length = n → (∀ v ∈ l, v.length = n) →
      (l.foldl vadd z).length = n := by
    intro l
    induction l with
    | nil => intro z hz _; exact hz
    | cons v l ih =>
      intro z hz hl
      exact ih _ (by simp [hz, hl v (by simp)]) fun w hw => hl w (by simp [hw])
  refine key _ _ (by simp) fun v hv => ?_
  rw [List.zipWith_eq_zipWith_take_min, List.mem_iff_getElem] at hv
  obtain ⟨i, hi, rfl⟩ := hv
  simp only [List.getElem_zipWith, length_scale, List.getElem_take]
  exact h _ (List.getElem_mem _)

/-- The longest member bounds every member, and is one of them unless there is none. -/
theorem maxLength_spec (ps : List (List Byte)) :
    (∀ p ∈ ps, p.length ≤ maxLength ps) ∧ (ps ≠ [] → ∃ p ∈ ps, p.length = maxLength ps) := by
  have key : ∀ (l : List (List Byte)) (m : Nat),
      m ≤ l.foldl (fun n p => max n p.length) m ∧
      (∀ p ∈ l, p.length ≤ l.foldl (fun n p => max n p.length) m) ∧
      (l.foldl (fun n p => max n p.length) m = m ∨
        ∃ p ∈ l, p.length = l.foldl (fun n p => max n p.length) m) := by
    intro l
    induction l with
    | nil => intro m; simp
    | cons x l ih =>
      intro m
      obtain ⟨h1, h2, h3⟩ := ih (max m x.length)
      simp only [List.foldl_cons]
      refine ⟨by omega, ?_, ?_⟩
      · intro p hp
        rcases List.mem_cons.1 hp with rfl | hp
        · omega
        · exact h2 p hp
      · rcases h3 with h3 | ⟨p, hp, h3⟩
        · rw [h3]
          by_cases hx : x.length ≤ m
          · exact .inl (by omega)
          · exact .inr ⟨x, by simp, by omega⟩
        · exact .inr ⟨p, by simp [hp], h3⟩
  obtain ⟨-, h2, h3⟩ := key ps 0
  refine ⟨h2, fun hne => ?_⟩
  rcases h3 with h3 | h3
  · obtain ⟨x, xs, rfl⟩ := List.exists_cons_of_ne_nil hne
    refine ⟨x, by simp, ?_⟩
    have := h2 x (by simp)
    unfold maxLength
    rw [h3] at this ⊢
    omega
  · exact h3

end Sys2Proof.Machine
end

