-- ==== Sys2Proof/Laws/Ops.lean ====
section
/-!
SUPPORT. Responses, deadlines, draws and operand checks: what each shared operation answers.
-/

namespace Sys2Proof.Machine

/-! ## Statuses and responses -/

theorem Status.code_injective {a b : Status} (h : a.code = b.code) : a = b := by
  revert h
  cases a <;> cases b <;> first | (intro; rfl) | (intro h; revert h; decide)

/-- A response tells its status. -/
theorem responseBytes_status {a b : Status} {x y : List Byte}
    (h : responseBytes a x = responseBytes b y) : a = b := by
  unfold responseBytes at h
  simp only [List.cons_append, List.nil_append, List.cons.injEq] at h
  exact Status.code_injective h.1

/-- The byte width cuts a number that does not fit. -/
theorem putBE_mod_self (n v m : Nat) (h : m = 256 ^ n) : putBE n (v % m) = putBE n v := by
  subst h
  exact putBE_mod n n v le_rfl

/-! ## Deadlines -/

theorem deadlineAfter_toNat (ts : U64) (d : U32) :
    (deadlineAfter ts d).toNat = ts.toNat + d.toNat := by
  unfold deadlineAfter
  rw [BitVec.toNat_add, BitVec.toNat_setWidth, BitVec.toNat_setWidth]
  omega

theorem deadlineAfter_eq (ts : U64) (d : U32) :
    deadlineAfter ts d = BitVec.ofNat 65 (ts.toNat + d.toNat) := by
  apply BitVec.eq_of_toNat_eq
  rw [deadlineAfter_toNat, BitVec.toNat_ofNat]
  omega

/-! ## Draws -/

theorem legalDraw_iff {q n : Nat} {v : List Byte} :
    legalDraw q n v = true ↔
      v.length = n ∧ (∀ e ∈ v, e.toNat < 2 ^ q) ∧ ∃ e ∈ v, e ≠ 0 := by
  simp [legalDraw, isElem, and_assoc]

@[simp] theorem length_freeVector (q n serial : Nat) : (freeVector q n serial).length = n := by
  simp [freeVector]

theorem freeVector_elems {q n serial : Nat} (hq : q ≤ 8) {e : Byte}
    (h : e ∈ freeVector q n serial) : e.toNat < 2 ^ q := by
  simp only [freeVector, List.mem_map] at h
  obtain ⟨i, -, rfl⟩ := h
  have h1 : (Config.freeSymbol serial i).toNat % 2 ^ q < 2 ^ q := Nat.mod_lt _ (by positivity)
  have h2 : (2 : Nat) ^ q ≤ 2 ^ 8 := Nat.pow_le_pow_right (by omega) hq
  rw [BitVec.toNat_ofNat, Nat.mod_eq_of_lt (by omega)]
  exact h1

theorem legalDraw_freeDraw {q n serial : Nat} (hq : 1 ≤ q) (hq8 : q ≤ 8) (hn : n ≠ 0) :
    legalDraw q n (freeDraw q n serial) = true := by
  rw [legalDraw_iff]
  unfold freeDraw
  simp only
  split
  · rename_i h
    refine ⟨by simp, fun e he => freeVector_elems hq8 he, ?_⟩
    simpa using h
  · refine ⟨by simp [unitVec], fun e he => ?_, 1, ?_, by decide⟩
    · have h2 : (2 : Nat) ^ 1 ≤ 2 ^ q := Nat.pow_le_pow_right (by omega) hq
      simp only [unitVec, List.mem_map] at he
      obtain ⟨j, -, rfl⟩ := he
      split
      · simp; omega
      · simp
    · simp only [unitVec, List.mem_map, List.mem_range]
      exact ⟨0, by omega, by simp⟩

/-- Every draw is legal. -/
theorem legalDraw_nextDraw (s : State) {q n : Nat} (hq : 1 ≤ q) (hq8 : q ≤ 8) (hn : n ≠ 0) :
    legalDraw q n (s.nextDraw q n) = true := by
  unfold State.nextDraw
  split
  · split
    · assumption
    · exact legalDraw_freeDraw hq hq8 hn
  · exact legalDraw_freeDraw hq hq8 hn

/-- A legal answer that waits is the one taken. -/
theorem nextDraw_of_legal {s : State} {q n : Nat} {d : List Byte} {ds : List (List Byte)}
    (hd : s.draws = d :: ds) (h : legalDraw q n d = true) : s.nextDraw q n = d := by
  simp [State.nextDraw, hd, h]

/-! ## Operand checks -/

theorem payloadOk_iff (s : State) (p : List Byte) :
    s.payloadOk p = true ↔ p.length ≤ s.params.payloadMax ∧ ∀ b ∈ p, b.toNat < 2 ^ s.qn := by
  simp [State.payloadOk, State.elems, isElem]

theorem acksValid_iff (acks : List Ackd) :
    acksValid acks = true ↔ ∀ a ∈ acks, validAckHeader a.tcp = true := by
  simp [acksValid]

end Sys2Proof.Machine
end

