-- ==== Sys2Proof/Laws/Table.lean ====
section
/-!
SUPPORT. The keyed tables: what `find`, `put` and `erase` do, and that they keep the canonical form.
-/

namespace Sys2Proof.Machine

variable {α : Type}

@[simp] theorem Table.find_nil (key : U16) : Table.find key ([] : Table α) = none := rfl

@[simp] theorem Table.find_put_self (key : U16) (a : α) (t : Table α) :
    Table.find key (Table.put key a t) = some a := by
  induction t with
  | nil => simp [Table.put, Table.find]
  | cons e t ih =>
    obtain ⟨k, b⟩ := e
    unfold Table.put
    split
    · simp [Table.find]
    · split
      · simp [Table.find]
      · rename_i h
        simp [Table.find, h, ih]

theorem Table.find_put_ne {key key' : U16} (h : key' ≠ key) (a : α) (t : Table α) :
    Table.find key' (Table.put key a t) = Table.find key' t := by
  induction t with
  | nil => simp [Table.put, Table.find, Ne.symm h]
  | cons e t ih =>
    obtain ⟨k, b⟩ := e
    unfold Table.put
    split
    · simp [Table.find, Ne.symm h]
    · split
      · rename_i hk
        subst hk
        simp [Table.find, Ne.symm h]
      · simp [Table.find, ih]

theorem Table.find_erase_ne {key key' : U16} (h : key' ≠ key) (t : Table α) :
    Table.find key' (Table.erase key t) = Table.find key' t := by
  induction t with
  | nil => rfl
  | cons e t ih =>
    obtain ⟨k, b⟩ := e
    unfold Table.erase
    split
    · rename_i hk
      subst hk
      simp [Table.find, Ne.symm h]
    · simp [Table.find, ih]

theorem Table.mem_of_find {key : U16} {t : Table α} {a : α} (h : Table.find key t = some a) :
    (key, a) ∈ t := by
  induction t with
  | nil => simp at h
  | cons e t ih =>
    obtain ⟨k, b⟩ := e
    unfold Table.find at h
    split at h
    · rename_i hk
      simp_all
    · exact List.mem_cons_of_mem _ (ih h)

/-- Every entry after a `put` is the new one or an old one. -/
theorem Table.mem_put {key : U16} {a : α} {t : Table α} {e : U16 × α}
    (h : e ∈ Table.put key a t) : e = (key, a) ∨ e ∈ t := by
  induction t with
  | nil => simpa [Table.put] using h
  | cons x t ih =>
    obtain ⟨k, b⟩ := x
    unfold Table.put at h
    split at h
    · simpa using h
    · split at h
      · simp only [List.mem_cons] at h ⊢
        tauto
      · simp only [List.mem_cons] at h ⊢
        rcases h with h | h
        · tauto
        · rcases ih h with h | h <;> tauto

theorem Table.mem_erase {key : U16} {t : Table α} {e : U16 × α} (h : e ∈ Table.erase key t) :
    e ∈ t := by
  induction t with
  | nil => simp [Table.erase] at h
  | cons x t ih =>
    obtain ⟨k, b⟩ := x
    unfold Table.erase at h
    split at h
    · exact List.mem_cons_of_mem _ h
    · simp only [List.mem_cons] at h ⊢
      rcases h with h | h
      · exact .inl h
      · exact .inr (ih h)

theorem Table.wf_cons {k : U16} {b : α} {t : Table α} :
    Table.wf ((k, b) :: t) = true ↔ (∀ e ∈ t, k < e.1) ∧ Table.wf t = true := by
  simp only [Table.wf, Bool.and_eq_true, List.all_eq_true, decide_eq_true_eq]

/-- `put` keeps the canonical form. -/
theorem Table.put_wf {key : U16} {a : α} {t : Table α} (h : Table.wf t = true) :
    Table.wf (Table.put key a t) = true := by
  induction t with
  | nil => simp [Table.put, Table.wf]
  | cons e t ih =>
    obtain ⟨k, b⟩ := e
    have hw := Table.wf_cons.1 h
    unfold Table.put
    split
    · rename_i hlt
      refine Table.wf_cons.2 ⟨fun e he => ?_, h⟩
      rcases List.mem_cons.1 he with rfl | he
      · exact hlt
      · exact BitVec.lt_trans hlt (hw.1 e he)
    · split
      · rename_i hk
        subst hk
        exact Table.wf_cons.2 hw
      · rename_i hge hne
        refine Table.wf_cons.2 ⟨fun e he => ?_, ih hw.2⟩
        rcases Table.mem_put he with rfl | he
        · show k < key
          bv_omega
        · exact hw.1 e he

/-- `erase` keeps the canonical form. -/
theorem Table.erase_wf {key : U16} {t : Table α} (h : Table.wf t = true) :
    Table.wf (Table.erase key t) = true := by
  induction t with
  | nil => rfl
  | cons e t ih =>
    obtain ⟨k, b⟩ := e
    have hw := Table.wf_cons.1 h
    unfold Table.erase
    split
    · exact hw.2
    · exact Table.wf_cons.2 ⟨fun e he => hw.1 e (Table.mem_erase he), ih hw.2⟩

/-- In a table in canonical form, membership is what `find` sees. -/
theorem Table.find_eq_some_iff {key : U16} {t : Table α} {a : α} (h : Table.wf t = true) :
    Table.find key t = some a ↔ (key, a) ∈ t := by
  refine ⟨Table.mem_of_find, fun hm => ?_⟩
  induction t with
  | nil => simp at hm
  | cons e t ih =>
    obtain ⟨k, b⟩ := e
    have hw := Table.wf_cons.1 h
    rcases List.mem_cons.1 hm with he | he
    · cases he
      simp [Table.find]
    · have hne : k ≠ key := fun hk => absurd (hw.1 _ he) (by simp [hk])
      simp [Table.find, hne, ih hw.2 he]

/-- In a table in canonical form a removed key is gone. -/
theorem Table.find_erase_self {key : U16} {t : Table α} (h : Table.wf t = true) :
    Table.find key (Table.erase key t) = none := by
  induction t with
  | nil => rfl
  | cons e t ih =>
    obtain ⟨k, b⟩ := e
    have hw := Table.wf_cons.1 h
    unfold Table.erase
    split
    · rename_i hk
      subst hk
      cases hf : Table.find k t with
      | none => rfl
      | some x => exact absurd (hw.1 _ (Table.mem_of_find hf)) (by simp)
    · rename_i hk
      simp [Table.find, hk, ih hw.2]

/-- `put` adds an entry exactly when the key is new. -/
theorem Table.length_put (key : U16) (a : α) {t : Table α} (h : Table.wf t = true) :
    (Table.put key a t).length =
      if (Table.find key t).isSome then t.length else t.length + 1 := by
  induction t with
  | nil => simp [Table.put]
  | cons e t ih =>
    obtain ⟨k, b⟩ := e
    have hw := Table.wf_cons.1 h
    unfold Table.put
    split
    · rename_i hlt
      have hne : k ≠ key := by bv_omega
      have hf : Table.find key t = none := by
        cases hf : Table.find key t with
        | none => rfl
        | some x => exact absurd (BitVec.lt_trans hlt (hw.1 _ (Table.mem_of_find hf))) (BitVec.lt_irrefl _)
      simp [Table.find, hne, hf]
    · split
      · rename_i hk
        simp [Table.find, hk]
      · rename_i hk
        simp only [List.length_cons, ih hw.2, Table.find, hk, if_false]
        split <;> rfl

/-- Putting back what is there changes nothing. -/
theorem Table.put_find {key : U16} {a : α} {t : Table α} (hw : Table.wf t = true)
    (h : Table.find key t = some a) : Table.put key a t = t := by
  induction t with
  | nil => simp at h
  | cons e t ih =>
    obtain ⟨k, b⟩ := e
    have hw' := Table.wf_cons.1 hw
    unfold Table.find at h
    unfold Table.put
    split at h
    · rename_i hk
      cases h
      subst hk
      simp
    · rename_i hk
      have hlt := hw'.1 _ (Table.mem_of_find h)
      have hnot : ¬ key < k := by
        simp only at hlt
        bv_omega
      rw [if_neg hnot, if_neg hk, ih hw'.2 h]

theorem Table.length_erase_le (key : U16) (t : Table α) :
    (Table.erase key t).length ≤ t.length := by
  induction t with
  | nil => simp [Table.erase]
  | cons e t ih =>
    obtain ⟨k, b⟩ := e
    unfold Table.erase
    split
    · simp
    · simpa using ih

end Sys2Proof.Machine
end

