-- ==== Sys2Proof/Laws/Flow.lean ====
section
/-!
SUPPORT. The procedures on flow records: everything each of them can do.
-/

namespace Sys2Proof.Machine

variable {s s' : State} {flow : U16} {f : FlowRec}

/-! ## Rows of M -/

@[simp] theorem FlowRec.length_row (f : FlowRec) (n i : Nat) : (f.row n i).length = n := by
  simp [FlowRec.row]

@[simp] theorem FlowRec.length_rows (f : FlowRec) (n m : Nat) : (f.rows n m).length = m := by
  simp [FlowRec.rows]

/-- A vector of n entries reads back as itself. -/
theorem range_map_getD (v : List Byte) : (List.range v.length).map (fun j => v.getD j 0) = v := by
  apply List.ext_getElem
  · simp
  · intro i h1 h2
    simp [List.getD, h2]

theorem getD_setRow (m : List (List Byte)) (i j : Nat) (v : List Byte) :
    (setRow m i v).getD j [] = if j = i then v else m.getD j [] := by
  unfold setRow
  by_cases hj : j < max m.length (i + 1)
  · simp [List.getD, hj]
  · have h1 : j ≠ i := by omega
    have h2 : m.length ≤ j := by omega
    simp [List.getD, hj, h1, h2]

/-- Setting the next row appends it. -/
theorem setRow_length (m : List (List Byte)) (v : List Byte) : setRow m m.length v = m ++ [v] := by
  apply List.ext_getElem
  · simp [setRow]
  · intro i h1 h2
    simp only [setRow, List.getElem_map, List.getElem_range]
    split
    · rename_i h
      subst h
      simp
    · rename_i h
      have : i < m.length := by simp at h2; omega
      simp [List.getD, List.getElem_append_left this, this]

/-- The rows after row m was set to a vector of n entries. -/
theorem rows_setRow (f f' : FlowRec) (n m : Nat) (v : List Byte) (hv : v.length = n)
    (hm : f'.mat = setRow f.mat m v) : f'.rows n (m + 1) = f.rows n m ++ [v] := by
  unfold FlowRec.rows
  rw [List.range_succ, List.map_append]
  congr 1
  · apply List.map_congr_left
    intro i hi
    have : i ≠ m := by simp at hi; omega
    simp only [FlowRec.row, hm, getD_setRow, this, if_false]
  · simp only [List.map_cons, List.map_nil, FlowRec.row, hm, getD_setRow, if_true]
    subst hv
    rw [range_map_getD]

/-! ## ENCODE_CORE -/

theorem encOk_iff :
    s.encOk f = true ↔ f.k.toNat ≤ f.tx.length ∧ f.fwd = false ∧ f.txCounter ≤ s.encCap := by
  simp [State.encOk, and_assoc]

/-- What ENCODE_CORE does when its guard holds. -/
theorem encodeCore_fired (flow : U16) (h : s.encOk f = true) :
    s.encodeCore flow f = some { s with
      draws := s.draws.tail
      freeCount := s.freeCount + 1
      flows := Table.put flow { f with txCounter := f.txCounter + 1 } s.flows
      outputs := s.outputs ++ [.record (Record.bytes (.rlncTx flow
        (intraHdr f.k (s.q.setWidth 8) f.frag 0 f.sport f.dport (s.nextDraw s.qn f.k.toNat) ++
          lcp s.gf (s.nextDraw s.qn f.k.toNat) (f.tx.take f.k.toNat))))] } := by
  simp [State.encodeCore, h, State.afterDraw, State.emit, State.putFlow]

theorem encodeCore_notFired (flow : U16) (h : s.encOk f = false) : s.encodeCore flow f = none := by
  simp [State.encodeCore, h]

/-! ## DECODE_CORE -/

/-- The deliveries are records with indexes from j on. -/
theorem deliver_eq (s : State) (flow frag : U16) (j : Nat) (ps : List (List Byte)) :
    s.deliver flow frag j ps = { s with
      outputs := s.outputs ++ ps.mapIdx fun i p =>
        Output.record (Record.bytes (.rlncDeliver flow frag (BitVec.ofNat 8 (j + i)) p)) } := by
  induction ps generalizing s j with
  | nil => simp [State.deliver]
  | cons p ps ih =>
    unfold State.deliver
    rw [ih]
    simp [State.emit, List.mapIdx_cons, Nat.add_assoc, Nat.add_comm 1]

/-- Everything DECODE_CORE does. -/
theorem decodeCore_eq (s : State) (flow : U16) (f : FlowRec) :
    s.decodeCore flow f = { s with
      freeCount := (s.afterDecode f).freeCount
      flows := Table.put flow { f with
        frag := f.frag + 1
        rank := 0
        mat := []
        rx := []
        txCounter := 0 } s.flows
      outputs := s.outputs ++
        (s.decodedPayloads f).mapIdx (fun j p => Output.record (Record.bytes
          (.rlncDeliver flow f.frag (BitVec.ofNat 8 j) p))) ++
        [.record (Record.bytes (.rlncAck flow
          (intraHdr 0 (s.q.setWidth 8) (f.frag + 1) 1 f.dport f.sport [])))] } := by
  have h1 : s.afterDecode f = { s with freeCount := (s.afterDecode f).freeCount } := by
    unfold State.afterDecode
    split <;> rfl
  unfold State.decodeCore
  rw [h1, deliver_eq]
  simp [State.emit, State.putFlow, State.ackFrame, FlowRec.resetMatrix]

/-- DECODE_CORE where INV(M) exists: the deliveries are its rows applied to rx, and no free value is used. -/
theorem decodeCore_some {b : List (List Byte)} (flow : U16) (h : s.decodeMatrix f = some b) :
    s.decodeCore flow f = { s with
      flows := Table.put flow { f with
        frag := f.frag + 1
        rank := 0
        mat := []
        rx := []
        txCounter := 0 } s.flows
      outputs := s.outputs ++
        b.mapIdx (fun j u => Output.record (Record.bytes
          (.rlncDeliver flow f.frag (BitVec.ofNat 8 j) (lcp s.gf u f.rx)))) ++
        [.record (Record.bytes (.rlncAck flow
          (intraHdr 0 (s.q.setWidth 8) (f.frag + 1) 1 f.dport f.sport [])))] } := by
  have h1 : s.afterDecode f = s := by simp [State.afterDecode, h]
  have h2 : s.decodedPayloads f = b.map fun u => lcp s.gf u f.rx := by
    simp [State.decodedPayloads, h]
  have h3 : (b.map fun u => lcp s.gf u f.rx).mapIdx (fun j p => Output.record (Record.bytes
      (.rlncDeliver flow f.frag (BitVec.ofNat 8 j) p))) =
      b.mapIdx (fun j u => Output.record (Record.bytes
        (.rlncDeliver flow f.frag (BitVec.ofNat 8 j) (lcp s.gf u f.rx)))) := by
    apply List.ext_getElem <;> simp
  rw [decodeCore_eq, h1, h2, h3]

theorem length_decodedPayloads_of_none (h : s.decodeMatrix f = none) :
    (s.decodedPayloads f).length = f.k.toNat := by
  simp [State.decodedPayloads, h]

/-! ## CHANGE_FRAGMENT_CORE -/

/-- Everything CHANGE_FRAGMENT_CORE does. -/
theorem changeFragmentCore_eq (s : State) (flow : U16) (f : FlowRec) (nfrag : U16) :
    s.changeFragmentCore flow f nfrag =
      if f.fwd = true then some { s with
        flows := Table.put flow { f with
          frag := nfrag
          rank := 0
          mat := []
          rx := []
          tx := []
          txCounter := 0 } s.flows }
      else if nfrag ≤ f.frag then none
      else if s.kcfg.toNat ≤ (f.tx.drop (min f.k.toNat f.tx.length)).length then
        some (s.encodeOrKeep flow { f with
          k := s.kcfg
          frag := nfrag
          rank := 0
          mat := []
          rx := []
          txCounter := 0
          tx := f.tx.drop (min f.k.toNat f.tx.length) })
      else some { s with
        tseq := s.tseq + 1
        flows := Table.put flow { f with
          k := s.kcfg
          rank := 0
          mat := []
          rx := []
          txCounter := 0
          frag := if s.cfAdvance = 0 then nfrag else f.frag
          tx := f.tx.drop (min f.k.toNat f.tx.length)
          ft := some { deadline := deadlineAfter s.now s.btoIntra, seq := s.tseq } } s.flows } := by
  unfold State.changeFragmentCore State.changeFragmentForwarder State.changeFragmentSource
  split
  · rfl
  · split
    · rfl
    · simp only [FlowRec.resetMatrix]
      split
      · rfl
      · by_cases hc : s.cfAdvance = 0
        · simp only [if_pos hc]
          rfl
        · simp only [if_neg hc]
          rfl

/-! ## RX_PACKET -/

/-- A data packet that passes the checks goes to its record, or to a new one. -/
theorem rxPacketBody_data {fwd : Bool} {a : RxPacketArgs} {r : IntraHeader}
    (hp : intraParse s.params.qMax a.pkt = some r) (ht : r.txtype = 0) (hq : r.q.toNat = s.qn) (hk : r.k ≠ 0)
    (hkm : r.k.toNat ≤ s.params.kMax)
    (hpl : s.payloadOk (a.pkt.drop r.hlen) = true) :
    rxPacketBody fwd a s = match Table.find a.flow s.flows with
      | some f => s.receiveData a.flow f r (a.pkt.drop r.hlen)
      | none =>
        if s.flows.length = s.params.flowsMax then .capacity s
        else s.receiveData a.flow (newFlow r.k r.frag fwd r.sport r.dport) r
          (a.pkt.drop r.hlen) := by
  have hk2 : ¬ (r.k = 0 ∨ s.params.kMax < r.k.toNat) := by
    rintro (h | h)
    · exact hk h
    · omega
  unfold rxPacketBody
  simp only [hp, ht, ne_eq, not_true_eq_false, if_false]
  unfold rxDataBody
  refine (if_neg (not_not.2 hq)).trans ((if_neg hk2).trans ((if_neg (by simp [hpl])).trans ?_))
  cases Table.find a.flow s.flows <;> rfl

/-- An ACK is a CHANGE_FRAGMENT. -/
theorem rxPacketBody_ack {fwd : Bool} {a : RxPacketArgs} {r : IntraHeader}
    (hp : intraParse s.params.qMax a.pkt = some r) (ht : r.txtype ≠ 0) :
    rxPacketBody fwd a s = s.changeFragmentEnding a.flow r.frag := by
  unfold rxPacketBody
  simp only [hp, ne_eq, ht, not_false_eq_true, if_true]

/-- A parsed coefficient vector has k entries. -/
theorem intraParse_length {qMax : Nat} {pkt : List Byte} {r : IntraHeader} (h : intraParse qMax pkt = some r) :
    r.coeff.length = r.k.toNat := by
  have hc : ∀ (q n : Nat) (b : List Bool), (chunkBits q n b).length = n := by
    intro q n
    induction n with
    | zero => intro b; rfl
    | succ n ih => intro b; simp [chunkBits, ih]
  simp only [intraParse, Option.bind_eq_bind, Option.bind_eq_some_iff, Prod.exists] at h
  obtain ⟨k, b1, -, q, b2, -, frag, b3, -, tt, b4, -, sp, b5, -, dp, b6, -, h⟩ := h
  split at h
  · cases h
  · split at h
    · cases h
    · simp only [Option.bind_eq_some_iff, Prod.exists] at h
      obtain ⟨field, b7, -, h⟩ := h
      cases h
      exact hc _ _ _

/-- A data packet's rule is the insertion into the record that RX_PACKET prepares, which has its k. -/
theorem rxPacketBody_target {fwd : Bool} {a : RxPacketArgs} {r : IntraHeader}
    (hp : intraParse s.params.qMax a.pkt = some r) (ht : r.txtype = 0) (hq : r.q.toNat = s.qn) (hk : r.k ≠ 0)
    (hkm : r.k.toNat ≤ s.params.kMax)
    (hpl : s.payloadOk (a.pkt.drop r.hlen) = true) (h : s.RxTarget fwd a.flow r f) :
    rxPacketBody fwd a s = s.insertRow a.flow f r.coeff (a.pkt.drop r.hlen) ∧ f.k = r.k := by
  rw [rxPacketBody_data hp ht hq hk hkm hpl]
  cases h with
  | created hu hr => exact ⟨by simp [hu, hr, State.receiveData, newFlow], rfl⟩
  | ahead f hu hl =>
    refine ⟨?_, rfl⟩
    simp [hu, State.receiveData, BitVec.lt_asymm hl, hl, FlowRec.ahead, FlowRec.resetMatrix]
  | first f hu hs he => exact ⟨by simp [hu, State.receiveData, hs, he], rfl⟩
  | next f hu hs he ha =>
    refine ⟨?_, ha.symm⟩
    simp only [hu, State.receiveData, hs]
    rw [if_neg (by simp), if_neg (by simp), if_neg he, if_neg (by simp [ha])]

/-- Everything the insertion of a packet does. -/
theorem insertRow_eq (s : State) (flow : U16) (f : FlowRec) (v payload : List Byte) :
    s.insertRow flow f v payload =
      if f.rank = f.k ∨ indep s.gf f.k.toNat (f.rows f.k.toNat f.rank.toNat) v = false then
        .done .iDependent [] (s.putFlow flow f)
      else if f.rank + 1 = f.k then
        .done .ok [] (s.decodeCore flow { f with
          mat := setRow f.mat f.rank.toNat v
          rx := f.rx ++ [payload]
          rank := f.rank + 1 })
      else
        .done .ok [] (s.putFlow flow { f with
          mat := setRow f.mat f.rank.toNat v
          rx := f.rx ++ [payload]
          rank := f.rank + 1 }) := rfl

/-! ## FLOW_EXPIRE -/

/-- After a shrink to n, M holds at most n rows of at most n entries. -/
theorem FlowRec.shrink_mat (f : FlowRec) (n : Nat) :
    (f.shrink n).mat.length = min n f.mat.length ∧ ∀ r ∈ (f.shrink n).mat, r.length ≤ n := by
  refine ⟨by simp [FlowRec.shrink], fun r hr => ?_⟩
  obtain ⟨v, -, rfl⟩ := List.mem_map.1 hr
  simp only [List.length_take]
  omega

/-- Everything FLOW_EXPIRE does. -/
theorem flowExpire_eq (s : State) (flow : U16) :
    s.flowExpire flow = match Table.find flow s.flows with
      | none => s
      | some f =>
        if 0 < f.tx.length ∧ f.tx.length < f.k.toNat then
          s.encodeOrKeep flow { f with
            ft := none
            k := BitVec.ofNat 8 f.tx.length
            mat := (f.mat.take f.tx.length).map (List.take f.tx.length) }
        else s.putFlow flow { f with ft := none } := rfl

end Sys2Proof.Machine
end

