-- ==== Sys2Proof/Laws/PerInstr.lean ====
section
/-!
SUPPORT. The family HeaderBytes: what the first four bytes of a command are (30_encoding R91, R101).
-/

namespace Sys2Proof.Laws

/-- A command begins with its OPC, its FLG and two RSV bytes of 0; only POOL_INSERT and RX_PACKET may
set FLG bit 0, and no command sets another FLG bit. -/
def HeaderBytes.Statement (i : Instr) : Prop :=
  (encode i).take 4 = [i.opcode, i.flagByte, 0, 0] ∧
    (i.flagByte = 0 ∨ i.flagByte = 1 ∧ flagBitZeroDefined i.opcode = true)

theorem HeaderBytes.nop (o : Args Unit) : HeaderBytes.Statement (.nop o) := ⟨rfl, .inl rfl⟩
theorem HeaderBytes.regRead (o : Args Byte) : HeaderBytes.Statement (.regRead o) := ⟨rfl, .inl rfl⟩
theorem HeaderBytes.cfgWrite (o : Args CfgWriteArgs) : HeaderBytes.Statement (.cfgWrite o) :=
  ⟨rfl, .inl rfl⟩
theorem HeaderBytes.start (o : Args Unit) : HeaderBytes.Statement (.start o) := ⟨rfl, .inl rfl⟩
theorem HeaderBytes.timeAdvance (o : Args U64) : HeaderBytes.Statement (.timeAdvance o) :=
  ⟨rfl, .inl rfl⟩
theorem HeaderBytes.hash (o : Args HashArgs) : HeaderBytes.Statement (.hash o) := ⟨rfl, .inl rfl⟩
theorem HeaderBytes.hdrBuildInter (o : Args HdrBuildInterArgs) :
    HeaderBytes.Statement (.hdrBuildInter o) := ⟨rfl, .inl rfl⟩
theorem HeaderBytes.hdrParseInter (o : Args (List Byte)) :
    HeaderBytes.Statement (.hdrParseInter o) := ⟨rfl, .inl rfl⟩
theorem HeaderBytes.hdrBuildIntra (o : Args HdrBuildIntraArgs) :
    HeaderBytes.Statement (.hdrBuildIntra o) := ⟨rfl, .inl rfl⟩
theorem HeaderBytes.hdrParseIntra (o : Args (List Byte)) :
    HeaderBytes.Statement (.hdrParseIntra o) := ⟨rfl, .inl rfl⟩
theorem HeaderBytes.xorEnc (o : Args (List (List Byte))) : HeaderBytes.Statement (.xorEnc o) :=
  ⟨rfl, .inl rfl⟩
theorem HeaderBytes.xorDec (o : Args XorDecArgs) : HeaderBytes.Statement (.xorDec o) :=
  ⟨rfl, .inl rfl⟩
theorem HeaderBytes.gfMul (o : Args GfMulArgs) : HeaderBytes.Statement (.gfMul o) := ⟨rfl, .inl rfl⟩
theorem HeaderBytes.gfInv (o : Args Byte) : HeaderBytes.Statement (.gfInv o) := ⟨rfl, .inl rfl⟩
theorem HeaderBytes.matRank (o : Args MatRankArgs) : HeaderBytes.Statement (.matRank o) :=
  ⟨rfl, .inl rfl⟩
theorem HeaderBytes.matInv (o : Args MatInvArgs) : HeaderBytes.Statement (.matInv o) :=
  ⟨rfl, .inl rfl⟩
theorem HeaderBytes.vecGen (o : Args Byte) : HeaderBytes.Statement (.vecGen o) := ⟨rfl, .inl rfl⟩
theorem HeaderBytes.poolInsert (native : Bool) (o : Args PoolInsertArgs) :
    HeaderBytes.Statement (.poolInsert native o) := by
  cases native
  · exact ⟨rfl, .inl rfl⟩
  · exact ⟨rfl, .inr ⟨rfl, rfl⟩⟩
theorem HeaderBytes.oqPopFrame (o : Args OqPopArgs) : HeaderBytes.Statement (.oqPopFrame o) :=
  ⟨rfl, .inl rfl⟩
theorem HeaderBytes.poolStat (o : Args U16) : HeaderBytes.Statement (.poolStat o) :=
  ⟨rfl, .inl rfl⟩
theorem HeaderBytes.txPush (o : Args TxPushArgs) : HeaderBytes.Statement (.txPush o) :=
  ⟨rfl, .inl rfl⟩
theorem HeaderBytes.encode (o : Args U16) : HeaderBytes.Statement (.encode o) := ⟨rfl, .inl rfl⟩
theorem HeaderBytes.rxPacket (fwd : Bool) (o : Args RxPacketArgs) :
    HeaderBytes.Statement (.rxPacket fwd o) := by
  cases fwd
  · exact ⟨rfl, .inl rfl⟩
  · exact ⟨rfl, .inr ⟨rfl, rfl⟩⟩
theorem HeaderBytes.decode (o : Args U16) : HeaderBytes.Statement (.decode o) := ⟨rfl, .inl rfl⟩
theorem HeaderBytes.recode (o : Args U16) : HeaderBytes.Statement (.recode o) := ⟨rfl, .inl rfl⟩
theorem HeaderBytes.changeFragment (o : Args ChangeFragmentArgs) :
    HeaderBytes.Statement (.changeFragment o) := ⟨rfl, .inl rfl⟩
theorem HeaderBytes.flowStat (o : Args U16) : HeaderBytes.Statement (.flowStat o) :=
  ⟨rfl, .inl rfl⟩
theorem HeaderBytes.flowRow (o : Args FlowRowArgs) : HeaderBytes.Statement (.flowRow o) :=
  ⟨rfl, .inl rfl⟩

end Sys2Proof.Laws
end

