-- ==== Sys2Proof/Laws/Pool.lean ====
section
/-!
SUPPORT. The pool's procedures: everything each of them can do.
-/

namespace Sys2Proof.Machine

variable {s s' : State}

@[simp] theorem State.itemOf_fk (native : Bool) (a : PoolInsertArgs) :
    (s.itemOf native a).fk = flowKey s.params a.src a.dst a.sport a.dport := rfl

@[simp] theorem State.itemOf_ts (native : Bool) (a : PoolInsertArgs) :
    (s.itemOf native a).ts = s.now := rfl

@[simp] theorem State.itemOf_payload (native : Bool) (a : PoolInsertArgs) :
    (s.itemOf native a).payload = a.payload := rfl

/-- ARM_POOL gives the bucket a new timer and counts the arming; without the bucket it does nothing. -/
theorem armPool_cases (s : State) (g : U16) :
    (Table.find g s.pool = none ∧ s.armPool g = s) ∨
      ∃ b, Table.find g s.pool = some b ∧
        s.armPool g = { s with
          pool := Table.put g
            { b with timer := { deadline := deadlineAfter b.head.ts s.btoInter, seq := s.tseq } } s.pool
          tseq := s.tseq + 1 } := by
  unfold State.armPool
  split
  · rename_i h
    exact .inl ⟨h, rfl⟩
  · rename_i b h
    exact .inr ⟨b, h, rfl⟩

/-- TAKE_HEAD takes the oldest item of an existing bucket: the last one with the bucket, another one by
arming the bucket's timer for the next. -/
theorem takeHead_cases {g : U16} {it : Item} (h : s.takeHead g = some (it, s')) :
    ∃ b, Table.find g s.pool = some b ∧ it = b.head ∧
      ((b.rest = [] ∧ s' = { s with pool := Table.erase g s.pool }) ∨
        ∃ y ys, b.rest = y :: ys ∧
          s' = { s with
            pool := Table.put g
              { head := y
                rest := ys
                timer := { deadline := deadlineAfter y.ts s.btoInter, seq := s.tseq } }
              (Table.put g { b with head := y, rest := ys } s.pool)
            tseq := s.tseq + 1 }) := by
  unfold State.takeHead at h
  split at h
  · cases h
  · rename_i b hb
    refine ⟨b, hb, ?_⟩
    split at h
    · rename_i hr
      cases h
      exact ⟨rfl, .inl ⟨hr, rfl⟩⟩
    · rename_i y ys hr
      cases h
      refine ⟨rfl, .inr ⟨y, ys, hr, ?_⟩⟩
      simp [State.armPool, State.putBucket, State.countArm, State.armed]

theorem takeHead_eq_none {g : U16} : s.takeHead g = none ↔ Table.find g s.pool = none := by
  unfold State.takeHead
  split
  · simp [*]
  · rename_i b hb
    simp only [hb, reduceCtorEq, iff_false]
    split <;> simp

/-- PUSH_BATCH meets a full queue, or appends one batch and sends SEND. -/
theorem pushBatch_eq (s : State) (first : Item) (others : List Item) :
    s.pushBatch first others =
      if s.oq.length = s.params.oqMax then .capacity s
      else .goOn { s with
        oq := s.oq ++ [{ first, others, oldest := oldestTs first others }]
        outputs := s.outputs ++ [.record Record.send.bytes] } := rfl

/-- The least timestamp is one of the batch's and not above any of them. -/
theorem oldestTs_spec (first : Item) (others : List Item) :
    oldestTs first others ∈ (first :: others).map Item.ts ∧
      ∀ it ∈ first :: others, oldestTs first others ≤ it.ts := by
  have key : ∀ (l : List Item) (m : U64),
      (l.foldl (fun m it => if it.ts < m then it.ts else m) m ∈ m :: l.map Item.ts) ∧
        l.foldl (fun m it => if it.ts < m then it.ts else m) m ≤ m ∧
        ∀ it ∈ l, l.foldl (fun m it => if it.ts < m then it.ts else m) m ≤ it.ts := by
    intro l
    induction l with
    | nil => intro m; simp
    | cons x l ih =>
      intro m
      obtain ⟨h1, h2, h3⟩ := ih (if x.ts < m then x.ts else m)
      simp only [List.foldl_cons, List.map_cons, List.mem_cons] at h1 ⊢
      by_cases hx : x.ts < m
      · rw [if_pos hx] at h1 h2 h3 ⊢
        refine ⟨by tauto, BitVec.le_trans h2 (BitVec.le_of_lt hx), ?_⟩
        rintro it (rfl | hit)
        · exact h2
        · exact h3 it hit
      · rw [if_neg hx] at h1 h2 h3 ⊢
        refine ⟨by tauto, h2, ?_⟩
        rintro it (rfl | hit)
        · exact BitVec.le_trans h2 (BitVec.not_lt.1 hx)
        · exact h3 it hit
  obtain ⟨h1, h2, h3⟩ := key others first.ts
  refine ⟨by simpa [oldestTs] using h1, ?_⟩
  rintro it hit
  rcases List.mem_cons.1 hit with rfl | hit
  · exact h2
  · exact h3 it hit

/-- TAKE_HEAD changes the pool and TSEQ only. -/
theorem takeHead_frame {g : U16} {it : Item} (h : s.takeHead g = some (it, s')) :
    ∃ p n, s' = { s with pool := p, tseq := n } := by
  obtain ⟨b, -, -, h2⟩ := takeHead_cases h
  rcases h2 with ⟨-, rfl⟩ | ⟨y, ys, -, rfl⟩
  · exact ⟨_, s.tseq, rfl⟩
  · exact ⟨_, _, rfl⟩

/-- The walk of SEARCH changes the pool and TSEQ only. -/
theorem gather_frame (gs : List U16) (n : Nat) (s : State) :
    ∃ p m, (s.gather n gs).2 = { s with pool := p, tseq := m } := by
  induction gs generalizing n s with
  | nil => exact ⟨s.pool, s.tseq, rfl⟩
  | cons g gs ih =>
    unfold State.gather
    split
    · exact ⟨s.pool, s.tseq, rfl⟩
    · split
      · exact ih n s
      · rename_i it s' h
        obtain ⟨p, m, rfl⟩ := takeHead_frame h
        exact ih (n + 1) _

/-- The walk of SEARCH takes at most MCP − n items. -/
theorem gather_length (gs : List U16) (n : Nat) (s : State) (h : n ≤ s.mcp.toNat) :
    n + (s.gather n gs).1.length ≤ s.mcp.toNat := by
  induction gs generalizing n s with
  | nil => simpa [State.gather] using h
  | cons g gs ih =>
    unfold State.gather
    split
    · simpa using h
    · rename_i hn
      split
      · exact ih n s h
      · rename_i it s' ht
        obtain ⟨p, m, hs⟩ := takeHead_frame ht
        have hs' : s'.mcp = s.mcp := by rw [hs]
        have := ih (n + 1) s' (by rw [hs']; omega)
        rw [hs'] at this
        simp only [List.length_cons]
        omega

/-- SEARCH leaves a pool of at most one bucket alone; otherwise it takes the head of bucket fk and those it
gathers, and pushes them as one batch. -/
theorem search_eq (s : State) (fk : U16) :
    s.search fk =
      if s.pool.length ≤ 1 then .goOn s
      else match s.takeHead fk with
        | none => .goOn s
        | some (it, s1) =>
          (s1.gather 1 (s.otherKeys fk)).2.pushBatch it (s1.gather 1 (s.otherKeys fk)).1 := rfl

/-- POOL_EXPIRE pushes the head of an existing bucket as a batch of its own. -/
theorem poolExpire_eq (s : State) (fk : U16) :
    s.poolExpire fk = match s.takeHead fk with
      | none => .goOn s
      | some (it, s') => s'.pushBatch it [] := rfl

end Sys2Proof.Machine
end

