-- ==== Sys2Proof/Laws/Timers.lean ====
section
/-!
SUPPORT. The order in which timers fire.
-/

namespace Sys2Proof.Machine

theorem Timer.before_iff (a b : Timer) :
    a.before b = true ↔ a.deadline < b.deadline ∨ (a.deadline = b.deadline ∧ a.seq < b.seq) := by
  simp [Timer.before]

theorem leastTimer_eq_none {l : List (Timer × Owner)} : leastTimer l = none ↔ l = [] := by
  cases l with
  | nil => simp [leastTimer]
  | cons e es =>
    simp only [leastTimer, reduceCtorEq, iff_false]
    split
    · simp
    · split <;> simp

/-- The least timer is in the list, and no other is before it. -/
theorem leastTimer_spec {l : List (Timer × Owner)} {e : Timer × Owner}
    (h : leastTimer l = some e) : e ∈ l ∧ ∀ e' ∈ l, e'.1.before e.1 = false := by
  induction l generalizing e with
  | nil => simp [leastTimer] at h
  | cons x l ih =>
    have hself : ∀ a : Timer, a.before a = false := by intro a; simp [Timer.before]
    unfold leastTimer at h
    split at h
    · rename_i hn
      cases h
      rw [leastTimer_eq_none] at hn
      subst hn
      simp [hself]
    · rename_i m hm
      obtain ⟨h1, h2⟩ := ih hm
      split at h
      · rename_i hb
        cases h
        refine ⟨List.mem_cons_of_mem _ h1, fun e' he => ?_⟩
        rcases List.mem_cons.1 he with rfl | he
        · rw [Timer.before_iff] at hb
          rw [← Bool.not_eq_true, Timer.before_iff]
          rintro (h | h) <;> bv_omega
        · exact h2 e' he
      · rename_i hb
        cases h
        refine ⟨List.mem_cons_self, fun e' he => ?_⟩
        rcases List.mem_cons.1 he with rfl | he
        · exact hself _
        · have h3 := h2 e' he
          rw [Timer.before_iff] at hb
          rw [← Bool.not_eq_true, Timer.before_iff] at h3 ⊢
          bv_omega

/-- What fires next is armed and due. -/
theorem nextDue_mem {s : State} {t : U64} {e : Timer × Owner} (h : s.nextDue t = some e) :
    e ∈ s.armedTimers ∧ e.1.deadline ≤ t.setWidth 65 := by
  simpa using (leastTimer_spec h).1

end Sys2Proof.Machine
end

