-- ==== Sys2Proof/Tests/Slice0.lean ====
section
/-!
SUPPORT. Tests of the model on small fixed inputs, and a witness for the hypotheses of each statement. The bytes of
the tests are those of spec/95_test_vectors.md, whose vector each comment names, unless it says otherwise.
-/

namespace Sys2Proof.Tests

open Sys2Proof.Machine

set_option Elab.async false

/-! ## Helpers -/

/-- The state S8 of 95_test_vectors section 0. -/
def s8 : State :=
  { State.reset with
    phase := .run
    mbs := 4
    btoInter := 10
    mcp := 2
    q := 8
    kcfg := 4
    btoIntra := 100 }

/-- What one step with the command bytes `cmd` waiting sends. -/
def sent (s : State) (cmd : List Byte) : List Output :=
  match step { s with cmdIn := cmd } with
  | .next t => t.outputs
  | _ => []

/-- A next state with a property. -/
def holds (o : Host.Outcome State Fault Refusal) (p : State → Bool) : Bool :=
  match o with
  | .next t => p t
  | _ => false

theorem of_holds {o : Host.Outcome State Fault Refusal} {p : State → Bool}
    (h : holds o p = true) : ∃ t, o = .next t ∧ p t = true := by
  cases o with
  | next t => exact ⟨t, rfl, h⟩
  | fault r => cases r
  | refused r => exact absurd h (by simp [holds])

/-- A next state whose last output is the response with this status and result. -/
def answers (o : Host.Outcome State Fault Refusal) (st : Status) (r : List Byte) : Bool :=
  holds o fun t => t.outputs.getLast? == some (.response (responseBytes st r))

theorem of_answers {o : Host.Outcome State Fault Refusal} {st : Status} {r : List Byte}
    (h : answers o st r = true) : ∃ t, o = .next t ∧ t.Answered st := by
  obtain ⟨t, h1, h2⟩ := of_holds h
  exact ⟨t, h1, r, by simpa using h2⟩

/-! ## Decoding: a word of every constructor, written out from 30_encoding R91, R94, R101 -/

theorem test_decode_nop :
    fetchCommand
      [0x00, 0x00, 0x00, 0x00, 0x00, 0x00, 0x00, 0x00] =
      some (.instr
        (.nop (.ok ())), []) := by
  decide +kernel

theorem test_decode_regRead :
    fetchCommand
      [0x01, 0x00, 0x00, 0x00, 0x00, 0x00, 0x00, 0x01, 0x27] =
      some (.instr
        (.regRead (.ok 0x27)), []) := by
  decide +kernel

theorem test_decode_cfgWrite :
    fetchCommand
      [0x02, 0x00, 0x00, 0x00, 0x00, 0x00, 0x00, 0x05, 0x24, 0x80, 0x00, 0x00, 0x01] =
      some (.instr
        (.cfgWrite (.ok { reg := 0x24, value := 0x80000001 })), []) := by
  decide +kernel

theorem test_decode_start :
    fetchCommand
      [0x03, 0x00, 0x00, 0x00, 0x00, 0x00, 0x00, 0x00] =
      some (.instr
        (.start (.ok ())), []) := by
  decide +kernel

theorem test_decode_timeAdvance :
    fetchCommand
      [0x04, 0x00, 0x00, 0x00, 0x00, 0x00, 0x00, 0x08, 0x01, 0x02, 0x03, 0x04, 0x05, 0x06, 0x07,
      0x08] =
      some (.instr
        (.timeAdvance (.ok 0x0102030405060708)), []) := by
  decide +kernel

theorem test_decode_hash :
    fetchCommand
      [0x10, 0x00, 0x00, 0x00, 0x00, 0x00, 0x00, 0x0C, 0x0A, 0x00, 0x00, 0x01, 0x0A, 0x00, 0x00,
      0x02, 0x03, 0xE8, 0x00, 0x50] =
      some (.instr
        (.hash (.ok { src := 0x0A000001, dst := 0x0A000002, sport := 1000, dport := 80 })), []) := by
  decide +kernel

theorem test_decode_hdrBuildInter :
    fetchCommand
      [0x20, 0x00, 0x00, 0x00, 0x00, 0x00, 0x00, 0x1A, 0x06, 0x01, 0x01, 0x01, 0x0A, 0x00, 0x00,
      0x02, 0x00, 0x00, 0x00, 0x09, 0xBE, 0xEF, 0x00, 0x07, 0x0A, 0x00, 0x00, 0x01, 0x00,
      0x00, 0x00, 0x02, 0x55, 0x66] =
      some (.instr
        (.hdrBuildInter (.ok
        { proto := 6, ptype := 1, descs := [{ dst := 0x0A000002, seq := 9, fh := 0xBEEF, len := 7 }],
          acks := [{ dst := 0x0A000001, tcp := [0x55, 0x66] }] })), []) := by
  decide +kernel

theorem test_decode_hdrParseInter :
    fetchCommand
      [0x21, 0x00, 0x00, 0x00, 0x00, 0x00, 0x00, 0x07, 0x00, 0x00, 0x00, 0x03, 0x06, 0x00, 0x01] =
      some (.instr
        (.hdrParseInter (.ok [6, 0, 1])), []) := by
  decide +kernel

theorem test_decode_hdrBuildIntra :
    fetchCommand
      [0x22, 0x00, 0x00, 0x00, 0x00, 0x00, 0x00, 0x0C, 0x03, 0x04, 0x01, 0x02, 0x00, 0x13, 0x88,
      0x17, 0x70, 0x03, 0x05, 0x07] =
      some (.instr
        (.hdrBuildIntra (.ok
        { q := 4, frag := 0x0102, txtype := 0, sport := 5000, dport := 6000, coeff := [3, 5, 7] })), []) := by
  decide +kernel

theorem test_decode_hdrParseIntra :
    fetchCommand
      [0x23, 0x00, 0x00, 0x00, 0x00, 0x00, 0x00, 0x06, 0x00, 0x00, 0x00, 0x02, 0x03, 0x04] =
      some (.instr
        (.hdrParseIntra (.ok [3, 4])), []) := by
  decide +kernel

theorem test_decode_xorEnc :
    fetchCommand
      [0x30, 0x00, 0x00, 0x00, 0x00, 0x00, 0x00, 0x0C, 0x02, 0x00, 0x00, 0x00, 0x02, 0x0F, 0x0E,
      0x00, 0x00, 0x00, 0x01, 0xF0] =
      some (.instr
        (.xorEnc (.ok [[0x0F, 0x0E], [0xF0]])), []) := by
  decide +kernel

theorem test_decode_xorDec :
    fetchCommand
      [0x31, 0x00, 0x00, 0x00, 0x00, 0x00, 0x00, 0x0C, 0x00, 0x00, 0x00, 0x02, 0xFF, 0x0F, 0x01,
      0x00, 0x00, 0x00, 0x01, 0xF0] =
      some (.instr
        (.xorDec (.ok { coded := [0xFF, 0x0F], natives := [[0xF0]] })), []) := by
  decide +kernel

theorem test_decode_gfMul :
    fetchCommand
      [0x40, 0x00, 0x00, 0x00, 0x00, 0x00, 0x00, 0x02, 0x02, 0x80] =
      some (.instr
        (.gfMul (.ok { a := 0x02, b := 0x80 })), []) := by
  decide +kernel

theorem test_decode_gfInv :
    fetchCommand
      [0x41, 0x00, 0x00, 0x00, 0x00, 0x00, 0x00, 0x01, 0x53] =
      some (.instr
        (.gfInv (.ok 0x53)), []) := by
  decide +kernel

theorem test_decode_matRank :
    fetchCommand
      [0x42, 0x00, 0x00, 0x00, 0x00, 0x00, 0x00, 0x08, 0x02, 0x03, 0x01, 0x02, 0x03, 0x02, 0x04,
      0x06] =
      some (.instr
        (.matRank (.ok { r := 2, c := 3, elems := [1, 2, 3, 2, 4, 6] })), []) := by
  decide +kernel

theorem test_decode_matInv :
    fetchCommand
      [0x43, 0x00, 0x00, 0x00, 0x00, 0x00, 0x00, 0x05, 0x02, 0x01, 0x02, 0x03, 0x04] =
      some (.instr
        (.matInv (.ok { n := 2, elems := [1, 2, 3, 4] })), []) := by
  decide +kernel

theorem test_decode_vecGen :
    fetchCommand
      [0x44, 0x00, 0x00, 0x00, 0x00, 0x00, 0x00, 0x01, 0x03] =
      some (.instr
        (.vecGen (.ok 3)), []) := by
  decide +kernel

theorem test_decode_poolInsert :
    fetchCommand
      [0x50, 0x01, 0x00, 0x00, 0x00, 0x00, 0x00, 0x16, 0x0A, 0x00, 0x00, 0x01, 0x0A, 0x00, 0x00,
      0x03, 0x03, 0xE8, 0x00, 0x50, 0x06, 0x00, 0x00, 0x00, 0x02, 0x00, 0x00, 0x00, 0x01,
      0x11] =
      some (.instr
        (.poolInsert true (.ok
        { src := 0x0A000001, dst := 0x0A000003, sport := 1000, dport := 80, proto := 6, seq := 2,
          payload := [0x11] })), []) := by
  decide +kernel

theorem test_decode_oqPopFrame :
    fetchCommand
      [0x51, 0x00, 0x00, 0x00, 0x00, 0x00, 0x00, 0x0B, 0x09, 0x01, 0x0A, 0x00, 0x00, 0x09, 0x00,
      0x00, 0x00, 0x01, 0x77] =
      some (.instr
        (.oqPopFrame (.ok { ptype := 9, acks := [{ dst := 0x0A000009, tcp := [0x77] }] })), []) := by
  decide +kernel

theorem test_decode_poolStat :
    fetchCommand
      [0x52, 0x00, 0x00, 0x00, 0x00, 0x00, 0x00, 0x02, 0xC5, 0x8F] =
      some (.instr
        (.poolStat (.ok 0xC58F)), []) := by
  decide +kernel

theorem test_decode_txPush :
    fetchCommand
      [0x60, 0x00, 0x00, 0x00, 0x00, 0x00, 0x00, 0x0B, 0x00, 0x01, 0x13, 0x88, 0x17, 0x70, 0x00,
      0x00, 0x00, 0x01, 0x02] =
      some (.instr
        (.txPush (.ok { flow := 1, sport := 5000, dport := 6000, payload := [2] })), []) := by
  decide +kernel

theorem test_decode_encode :
    fetchCommand
      [0x61, 0x00, 0x00, 0x00, 0x00, 0x00, 0x00, 0x02, 0x12, 0x34] =
      some (.instr
        (.encode (.ok 0x1234)), []) := by
  decide +kernel

theorem test_decode_rxPacket :
    fetchCommand
      [0x62, 0x01, 0x00, 0x00, 0x00, 0x00, 0x00, 0x08, 0x00, 0x05, 0x00, 0x00, 0x00, 0x02, 0x03,
      0x01] =
      some (.instr
        (.rxPacket true (.ok { flow := 5, pkt := [3, 1] })), []) := by
  decide +kernel

theorem test_decode_decode :
    fetchCommand
      [0x63, 0x00, 0x00, 0x00, 0x00, 0x00, 0x00, 0x02, 0x12, 0x34] =
      some (.instr
        (.decode (.ok 0x1234)), []) := by
  decide +kernel

theorem test_decode_recode :
    fetchCommand
      [0x64, 0x00, 0x00, 0x00, 0x00, 0x00, 0x00, 0x02, 0x12, 0x34] =
      some (.instr
        (.recode (.ok 0x1234)), []) := by
  decide +kernel

theorem test_decode_changeFragment :
    fetchCommand
      [0x65, 0x00, 0x00, 0x00, 0x00, 0x00, 0x00, 0x04, 0x00, 0x01, 0x12, 0x34] =
      some (.instr
        (.changeFragment (.ok { flow := 1, nfrag := 0x1234 })), []) := by
  decide +kernel

theorem test_decode_flowStat :
    fetchCommand
      [0x66, 0x00, 0x00, 0x00, 0x00, 0x00, 0x00, 0x02, 0x12, 0x34] =
      some (.instr
        (.flowStat (.ok 0x1234)), []) := by
  decide +kernel

theorem test_decode_flowRow :
    fetchCommand
      [0x67, 0x00, 0x00, 0x00, 0x00, 0x00, 0x00, 0x03, 0x12, 0x34, 0x07] =
      some (.instr
        (.flowRow (.ok { flow := 0x1234, i := 7 })), []) := by
  decide +kernel

/-- 30_encoding R92 step 2, R102: an unassigned opcode. -/
theorem test_decode_unassigned :
    fetchCommand [0x05, 0, 0, 0, 0, 0, 0, 0, 9] = some (.illegal 0x05 .unknownOpcode, [9]) := by
  decide +kernel

/-- 30_encoding R92 step 3, R102: FLG bit 0 where it is not defined, and FLG bit 1. -/
theorem test_decode_reserved :
    fetchCommand [0x40, 1, 0, 0, 0, 0, 0, 0] = some (.illegal 0x40 .reservedBits, []) ∧
      fetchCommand [0x62, 2, 0, 0, 0, 0, 0, 0] = some (.illegal 0x62 .reservedBits, []) ∧
      fetchCommand [0x62, 0, 0, 1, 0, 0, 0, 0] = some (.illegal 0x62 .reservedBits, []) := by
  decide +kernel

/-- spec/opcode_table.json numbers W0 first; operand bytes of zeros follow. -/
theorem test_decode_tableWord :
    decodeTableWord 32 0x03000000 = some (.start (.ok ())) ∧
      decodeTableWord 32 0x61000000 = some (.encode (.bad [])) ∧
      decodeTableWord 80 (0x02 * 2 ^ 64 + 0x80 * 2 ^ 72 + 2 * 2 ^ 32 + 0x40000000) =
        some (.gfMul (.ok { a := 0x02, b := 0x80 })) := by
  decide +kernel

/-! ## WellFormed refuses an ill-formed term of each check -/

theorem test_wf_descs :
    (Instr.hdrBuildInter (.ok
      { proto := 6, ptype := 0, descs := List.replicate 256 { dst := 0, seq := 0, fh := 0, len := 0 },
        acks := [] })).wf = false := by
  decide +kernel

theorem test_wf_acks :
    (Instr.oqPopFrame (.ok
      { ptype := 0, acks := List.replicate 256 { dst := 0, tcp := [] } })).wf = false := by
  decide +kernel

theorem test_wf_coeff :
    (Instr.hdrBuildIntra (.ok
      { q := 1, frag := 0, txtype := 0, sport := 0, dport := 0,
        coeff := List.replicate 256 0 })).wf = false := by
  decide +kernel

theorem test_wf_xorEnc : (Instr.xorEnc (.ok (List.replicate 256 []))).wf = false := by
  decide +kernel

theorem test_wf_xorDec :
    (Instr.xorDec (.ok { coded := [], natives := List.replicate 256 [] })).wf = false := by
  decide +kernel

theorem test_wf_matRank :
    (Instr.matRank (.ok { r := 2, c := 2, elems := [1, 2, 3] })).wf = false := by
  decide +kernel

theorem test_wf_matInv : (Instr.matInv (.ok { n := 1, elems := [1, 2] })).wf = false := by
  decide +kernel

/-- A blob of 2^32 bytes has no length field. -/
theorem test_wf_blob (b : List Byte) (h : b.length = 2 ^ 32) :
    (Instr.hdrParseInter (.ok b)).wf = false := by
  simp [Instr.wf, Instr.operandsWf, Args.wf, blobFits, h]

/-- Operands of 2^32 bytes have no OLEN. -/
theorem test_wf_olen (b : List Byte) (h : b.length = 2 ^ 32) : (Instr.nop (.bad b)).wf = false := by
  simp [Instr.wf, Instr.olen, Instr.operandBytes, Args.put, h]

/-- Bytes that parse are not kept as bytes. -/
theorem test_wf_bad :
    (Instr.gfMul (.bad [1, 2])).wf = false ∧ (Instr.gfMul (.bad [1])).wf = true ∧
      (Instr.nop (.bad [])).wf = false := by
  decide +kernel

/-! ## One step of each instruction -/

/-- Flow A of 95_test_vectors with sequence number `seq` and payload `p` at time 0. -/
def itemA (seq : U32) (p : List Byte) : Item :=
  Item.mk p 0x0A000001 0x0A000003 1000 80 6 0xC58F seq true 0

/-- A bucket of flow A whose timer was armed first. -/
def bucketA (head : Item) (rest : List Item) : U16 × Bucket :=
  (0xC58F, { head, rest, timer := { deadline := 10, seq := 0 } })

/-- A flow record with ports 5000 and 6000 and nothing in it. -/
def flowRec (k : Byte) : FlowRec :=
  { k, rank := 0, frag := 0, txCounter := 0, fwd := false, mat := [], tx := [], rx := [],
    sport := 5000, dport := 6000, ft := none }

/-- V-CTL-28. -/
theorem test_nop :
    sent s8
      [0x00, 0x00, 0x00, 0x00, 0x00, 0x00, 0x00, 0x00] =
      [.response [0, 0, 0, 0, 0, 0, 0, 0]] := by
  decide +kernel

/-- V-CTL-1. -/
theorem test_regRead :
    sent State.reset
      [0x01, 0x00, 0x00, 0x00, 0x00, 0x00, 0x00, 0x01, 0x00] =
      [.response [0x00, 0x00, 0x00, 0x00, 0x00, 0x00, 0x00, 0x04, 0x4E, 0x43, 0x45, 0x01]] := by
  decide +kernel

/-- V-EXC-3: STATUS while faulted. -/
theorem test_regRead_status :
    sent { s8 with
           faulted := true
           fcode := 1
           oq := [{ first := itemA 1 [], others := [], oldest := 0 }] }
      [0x01, 0x00, 0x00, 0x00, 0x00, 0x00, 0x00, 0x01, 0x01] =
      [.response [0x00, 0x00, 0x00, 0x00, 0x00, 0x00, 0x00, 0x04, 0x00, 0x00, 0x01, 0x07]] := by
  decide +kernel

/-- V-CTL-15. -/
theorem test_cfgWrite :
    holds (step { State.reset with cmdIn := [0x02, 0, 0, 0, 0, 0, 0, 5, 0x20, 0, 0, 0, 4] })
      (fun t => t == { State.reset with q := 4, outputs := [.response [0, 0, 0, 0, 0, 0, 0, 0]] }) =
      true := by
  decide +kernel

/-- V-CTL-6: Q = 9. -/
theorem test_cfgWrite_range :
    sent State.reset
      [0x02, 0x00, 0x00, 0x00, 0x00, 0x00, 0x00, 0x05, 0x20, 0x00, 0x00, 0x00, 0x09] =
      [.response [0x13, 0x00, 0x00, 0x00, 0x00, 0x00, 0x00, 0x00]] := by
  decide +kernel

/-- V-CTL-25. -/
theorem test_start :
    holds (step { State.reset with mcp := 2, q := 4, kcfg := 4, cmdIn := [3, 0, 0, 0, 0, 0, 0, 0] })
      (fun t => t == { State.reset with
        phase := .run
        mcp := 2
        q := 4
        kcfg := 4
        outputs := [.response [0, 0, 0, 0, 0, 0, 0, 0]] }) = true := by
  decide +kernel

/-- V-CTL-4: MCP = 0. -/
theorem test_start_unset :
    sent State.reset
      [0x03, 0x00, 0x00, 0x00, 0x00, 0x00, 0x00, 0x00] =
      [.response [0x13, 0x00, 0x00, 0x00, 0x00, 0x00, 0x00, 0x00]] := by
  decide +kernel

/-- V-POOL-20: a timer due at NOW fires. -/
theorem test_timeAdvance :
    sent { s8 with
           pool :=
             [(0xC58F,
             { head := itemA 1 [1], rest := [], timer := { deadline := 0, seq := 0 } })] }
      [0x04, 0x00, 0x00, 0x00, 0x00, 0x00, 0x00, 0x08, 0x00, 0x00, 0x00, 0x00, 0x00, 0x00, 0x00,
      0x00] =
      [.record [0x01, 0x00, 0x00, 0x00, 0x00, 0x00, 0x00, 0x00], .response [0, 0, 0, 0, 0, 0, 0,
        0]] := by
  decide +kernel

/-- V-RLNC-38: FLOW_EXPIRE lowers k to 1 and encodes; DRAW gives [5]. -/
theorem test_timeAdvance_flow :
    sent { s8 with
           flows :=
             [(7, { flowRec 2 with tx := [[3]], ft := some { deadline := 100, seq := 1 } })]
           draws := [[5]] }
      [0x04, 0x00, 0x00, 0x00, 0x00, 0x00, 0x00, 0x08, 0x00, 0x00, 0x00, 0x00, 0x00, 0x00, 0x00,
      0x64] =
      [.record [0x02, 0x00, 0x00, 0x00, 0x00, 0x00, 0x00, 0x11, 0x00, 0x07, 0x00, 0x00, 0x00,
        0x0B, 0x01, 0x08, 0x00, 0x00, 0x00, 0x13, 0x88, 0x17, 0x70, 0x05, 0x0F], .response
        [0, 0, 0, 0, 0, 0, 0, 0]] := by
  decide +kernel

/-- V-HASH-1. -/
theorem test_hash :
    sent s8
      [0x10, 0x00, 0x00, 0x00, 0x00, 0x00, 0x00, 0x0C, 0x0A, 0x00, 0x00, 0x01, 0x0A, 0x00, 0x00,
      0x02, 0x03, 0xE8, 0x00, 0x50] =
      [.response [0x00, 0x00, 0x00, 0x00, 0x00, 0x00, 0x00, 0x02, 0x6F, 0xDE]] := by
  decide +kernel

/-- 41_hash R150: FLOWKEY_FN is a parameter; here it gives the tuple the key 0xBEEF. -/
theorem test_hash_parameter :
    sent { s8 with
           params :=
             { s8.params with
               flowKeys :=
                 [({ src := 0x0A000001, dst := 0x0A000002, sport := 1000, dport := 80 }, 0xBEEF)] } }
      [0x10, 0x00, 0x00, 0x00, 0x00, 0x00, 0x00, 0x0C, 0x0A, 0x00, 0x00, 0x01, 0x0A, 0x00, 0x00,
      0x02, 0x03, 0xE8, 0x00, 0x50] =
      [.response [0x00, 0x00, 0x00, 0x00, 0x00, 0x00, 0x00, 0x02, 0xBE, 0xEF]] := by
  decide +kernel

/-- V-HDR-3. -/
theorem test_hdrBuildInter :
    sent s8
      [0x20, 0x00, 0x00, 0x00, 0x00, 0x00, 0x00, 0x2C, 0x06, 0x01, 0x01, 0x01, 0x0A, 0x00, 0x00,
      0x02, 0x00, 0x00, 0x00, 0x09, 0xBE, 0xEF, 0x00, 0x00, 0x0A, 0x00, 0x00, 0x01, 0x00,
      0x00, 0x00, 0x14, 0x00, 0x00, 0x00, 0x00, 0x00, 0x00, 0x00, 0x00, 0x00, 0x00, 0x00,
      0x00, 0x50, 0x00, 0x00, 0x00, 0x00, 0x00, 0x00, 0x00] =
      [.response [0x00, 0x00, 0x00, 0x00, 0x00, 0x00, 0x00, 0x2C, 0x00, 0x00, 0x00, 0x28, 0x06,
        0x01, 0x01, 0x01, 0x0A, 0x00, 0x00, 0x02, 0x00, 0x00, 0x00, 0x09, 0xBE, 0xEF, 0x00,
        0x00, 0x0A, 0x00, 0x00, 0x01, 0x00, 0x00, 0x00, 0x00, 0x00, 0x00, 0x00, 0x00, 0x00,
        0x00, 0x00, 0x00, 0x50, 0x00, 0x00, 0x00, 0x00, 0x00, 0x00, 0x00]] := by
  decide +kernel

/-- V-HDR-5: trailing payload. -/
theorem test_hdrParseInter :
    sent s8
      [0x21, 0x00, 0x00, 0x00, 0x00, 0x00, 0x00, 0x16, 0x00, 0x00, 0x00, 0x12, 0x06, 0x00, 0x01,
      0x00, 0x0A, 0x00, 0x00, 0x02, 0x00, 0x00, 0x00, 0x01, 0x12, 0x34, 0x00, 0x02, 0xAB,
      0xCD] =
      [.response [0x00, 0x00, 0x00, 0x00, 0x00, 0x00, 0x00, 0x14, 0x00, 0x00, 0x00, 0x10, 0x06,
        0x00, 0x01, 0x00, 0x0A, 0x00, 0x00, 0x02, 0x00, 0x00, 0x00, 0x01, 0x12, 0x34, 0x00,
        0x02]] := by
  decide +kernel

/-- V-HDR-10: q = 3. -/
theorem test_hdrBuildIntra :
    sent s8
      [0x22, 0x00, 0x00, 0x00, 0x00, 0x00, 0x00, 0x0C, 0x03, 0x03, 0x01, 0x02, 0x00, 0x00, 0x01,
      0x00, 0x02, 0x03, 0x05, 0x07] =
      [.response [0x00, 0x00, 0x00, 0x00, 0x00, 0x00, 0x00, 0x0F, 0x00, 0x00, 0x00, 0x0B, 0x03,
        0x03, 0x01, 0x02, 0x00, 0x00, 0x01, 0x00, 0x02, 0xEB, 0x01]] := by
  decide +kernel

/-- V-HDR-16: padding bits set. -/
theorem test_hdrParseIntra :
    sent s8
      [0x23, 0x00, 0x00, 0x00, 0x00, 0x00, 0x00, 0x10, 0x00, 0x00, 0x00, 0x0C, 0x03, 0x03, 0x01,
      0x02, 0x00, 0x00, 0x01, 0x00, 0x02, 0x6B, 0x0F, 0xFF] =
      [.response [0x00, 0x00, 0x00, 0x00, 0x00, 0x00, 0x00, 0x10, 0x00, 0x00, 0x00, 0x0B, 0x03,
        0x03, 0x01, 0x02, 0x00, 0x00, 0x01, 0x00, 0x02, 0x03, 0x05, 0x05]] := by
  decide +kernel

/-- V-XOR-7. -/
theorem test_xorEnc :
    sent s8
      [0x30, 0x00, 0x00, 0x00, 0x00, 0x00, 0x00, 0x13, 0x03, 0x00, 0x00, 0x00, 0x01, 0x01, 0x00,
      0x00, 0x00, 0x02, 0x02, 0x02, 0x00, 0x00, 0x00, 0x03, 0x04, 0x04, 0x04] =
      [.response [0x00, 0x00, 0x00, 0x00, 0x00, 0x00, 0x00, 0x07, 0x00, 0x00, 0x00, 0x03, 0x07,
        0x06, 0x04]] := by
  decide +kernel

/-- V-XOR-3. -/
theorem test_xorDec :
    sent s8
      [0x31, 0x00, 0x00, 0x00, 0x00, 0x00, 0x00, 0x0C, 0x00, 0x00, 0x00, 0x02, 0xFF, 0x0F, 0x01,
      0x00, 0x00, 0x00, 0x01, 0xF0] =
      [.response [0x00, 0x00, 0x00, 0x00, 0x00, 0x00, 0x00, 0x06, 0x00, 0x00, 0x00, 0x02, 0x0F,
        0x0F]] := by
  decide +kernel

/-- V-GF-2. -/
theorem test_gfMul :
    sent s8
      [0x40, 0x00, 0x00, 0x00, 0x00, 0x00, 0x00, 0x02, 0x53, 0xCA] =
      [.response [0x00, 0x00, 0x00, 0x00, 0x00, 0x00, 0x00, 0x01, 0x8F]] := by
  decide +kernel

/-- 44_gf R200: POLY is a parameter; with 0x11B, 0x53 and 0xCA are inverses (computed by hand from R202). -/
theorem test_gfMul_parameter :
    sent { s8 with
           params := { s8.params with polys := [0x3, 0x7, 0xB, 0x13, 0x25, 0x43, 0x89, 0x11B] } }
      [0x40, 0x00, 0x00, 0x00, 0x00, 0x00, 0x00, 0x02, 0x53, 0xCA] =
      [.response [0x00, 0x00, 0x00, 0x00, 0x00, 0x00, 0x00, 0x01, 0x01]] := by
  decide +kernel

/-- V-GF-14: Q = 4. -/
theorem test_gfInv :
    sent { s8 with q := 4 }
      [0x41, 0x00, 0x00, 0x00, 0x00, 0x00, 0x00, 0x01, 0x02] =
      [.response [0x00, 0x00, 0x00, 0x00, 0x00, 0x00, 0x00, 0x01, 0x09]] := by
  decide +kernel

/-- V-GF-18. -/
theorem test_gfInv_zero :
    sent s8
      [0x41, 0x00, 0x00, 0x00, 0x00, 0x00, 0x00, 0x01, 0x00] =
      [.response [0x30, 0x00, 0x00, 0x00, 0x00, 0x00, 0x00, 0x00]] := by
  decide +kernel

/-- V-GF-23. -/
theorem test_matRank :
    sent s8
      [0x42, 0x00, 0x00, 0x00, 0x00, 0x00, 0x00, 0x08, 0x02, 0x03, 0x01, 0x02, 0x03, 0x02, 0x04,
      0x06] =
      [.response [0x00, 0x00, 0x00, 0x00, 0x00, 0x00, 0x00, 0x01, 0x01]] := by
  decide +kernel

/-- V-GF-28: Q = 4. -/
theorem test_matInv :
    sent { s8 with q := 4 }
      [0x43, 0x00, 0x00, 0x00, 0x00, 0x00, 0x00, 0x05, 0x02, 0x01, 0x02, 0x03, 0x04] =
      [.response [0x00, 0x00, 0x00, 0x00, 0x00, 0x00, 0x00, 0x04, 0x02, 0x01, 0x08, 0x09]] := by
  decide +kernel

/-- V-GF-34: DRAW gives [0, 5, 0]. -/
theorem test_vecGen :
    sent { s8 with draws := [[0, 5, 0]] }
      [0x44, 0x00, 0x00, 0x00, 0x00, 0x00, 0x00, 0x01, 0x03] =
      [.response [0x00, 0x00, 0x00, 0x00, 0x00, 0x00, 0x00, 0x03, 0x00, 0x05, 0x00]] := by
  decide +kernel

/-- V-POOL-27: the fifth item of a bucket evicts the oldest. -/
theorem test_poolInsert_full :
    sent { s8 with pool := [bucketA (itemA 1 [1]) [itemA 2 [2], itemA 3 [3], itemA 4 [4]]] }
      [0x50, 0x01, 0x00, 0x00, 0x00, 0x00, 0x00, 0x16, 0x0A, 0x00, 0x00, 0x01, 0x0A, 0x00, 0x00,
      0x03, 0x03, 0xE8, 0x00, 0x50, 0x06, 0x00, 0x00, 0x00, 0x05, 0x00, 0x00, 0x00, 0x01,
      0x05] =
      [.record [0x01, 0x00, 0x00, 0x00, 0x00, 0x00, 0x00, 0x00], .response [0, 0, 0, 0, 0, 0, 0,
        0]] := by
  decide +kernel

/-- V-POOL-13: a new bucket, its timer armed. -/
theorem test_poolInsert :
    holds (step { s8 with
        cmdIn :=
          [0x50, 0x01, 0x00, 0x00, 0x00, 0x00, 0x00, 0x16, 0x0A, 0x00, 0x00, 0x01, 0x0A, 0x00, 0x00,
          0x03, 0x03, 0xE8, 0x00, 0x50, 0x06, 0x00, 0x00, 0x00, 0x01, 0x00, 0x00, 0x00,
          0x01, 0x01] })
      (fun t => t.pool == [bucketA (itemA 1 [1]) []] && t.tseq == 1 && t.oq == []) = true := by
  decide +kernel

/-- V-POOL-16: a batch of two items. -/
theorem test_oqPopFrame :
    sent { s8 with
           oq :=
             [{ first := { itemA 1 [4] with dst := 0x0A000006, fk := 0xA13A }, others := [itemA 1 [1]], oldest := 0 }] }
      [0x51, 0x00, 0x00, 0x00, 0x00, 0x00, 0x00, 0x02, 0x00, 0x00] =
      [.response [0x00, 0x00, 0x00, 0x00, 0x00, 0x00, 0x00, 0x29, 0x00, 0x00, 0x00, 0x00, 0x00,
        0x00, 0x00, 0x00, 0x00, 0x00, 0x00, 0x1D, 0x06, 0x00, 0x02, 0x00, 0x0A, 0x00, 0x00,
        0x06, 0x00, 0x00, 0x00, 0x01, 0xA1, 0x3A, 0x00, 0x01, 0x0A, 0x00, 0x00, 0x03, 0x00,
        0x00, 0x00, 0x01, 0xC5, 0x8F, 0x00, 0x01, 0x05]] := by
  decide +kernel

/-- V-POOL-26. -/
theorem test_poolStat :
    sent { s8 with pool := [bucketA (itemA 1 [1]) [itemA 2 [2], itemA 3 [3], itemA 4 [4]]] }
      [0x52, 0x00, 0x00, 0x00, 0x00, 0x00, 0x00, 0x02, 0xC5, 0x8F] =
      [.response [0x00, 0x00, 0x00, 0x00, 0x00, 0x00, 0x00, 0x0B, 0x00, 0x04, 0x01, 0x00, 0x00,
        0x00, 0x00, 0x00, 0x00, 0x00, 0x0A]] := by
  decide +kernel

/-- V-RLNC-3 and V-RLNC-5: a new flow with its timer armed at 100. -/
theorem test_txPush :
    holds (step { s8 with
        q := 1
        kcfg := 2
        cmdIn := [0x60, 0x00, 0x00, 0x00, 0x00, 0x00, 0x00, 0x0B, 0x00, 0x01, 0x13, 0x88, 0x17, 0x70, 0x00,
          0x00, 0x00, 0x01, 0x01] })
      (fun t => t.flows ==
        [(1, { flowRec 2 with tx := [[1]], ft := some { deadline := 100, seq := 0 } })]) = true := by
  decide +kernel

/-- V-RLNC-9: DRAW gives [2]. -/
theorem test_encode :
    sent { s8 with
           flows := [(1, { flowRec 1 with tx := [[1]], txCounter := 1 })]
           draws := [[2]] }
      [0x61, 0x00, 0x00, 0x00, 0x00, 0x00, 0x00, 0x02, 0x00, 0x01] =
      [.record [0x02, 0x00, 0x00, 0x00, 0x00, 0x00, 0x00, 0x11, 0x00, 0x01, 0x00, 0x00, 0x00,
        0x0B, 0x01, 0x08, 0x00, 0x00, 0x00, 0x13, 0x88, 0x17, 0x70, 0x02, 0x02], .response
        [0, 0, 0, 0, 0, 0, 0, 0]] := by
  decide +kernel

/-- V-RLNC-14: txCounter above ENC_CAP. -/
theorem test_encode_cap :
    sent { s8 with flows := [(1, { flowRec 1 with tx := [[1]], txCounter := 6 })] }
      [0x61, 0x00, 0x00, 0x00, 0x00, 0x00, 0x00, 0x02, 0x00, 0x01] =
      [.response [0x01, 0x00, 0x00, 0x00, 0x00, 0x00, 0x00, 0x00]] := by
  decide +kernel

/-- V-RLNC-31: the packet that completes the rank. -/
theorem test_rxPacket :
    sent { s8 with
           kcfg := 2
           flows := [(6, { flowRec 2 with rank := 1, mat := [[1, 2]], rx := [[0x77, 0x22]] })] }
      [0x62, 0x00, 0x00, 0x00, 0x00, 0x00, 0x00, 0x13, 0x00, 0x06, 0x00, 0x00, 0x00, 0x0D, 0x02,
      0x08, 0x00, 0x00, 0x00, 0x13, 0x88, 0x17, 0x70, 0x03, 0x04, 0xFF, 0x66] =
      [.record [0x03, 0x00, 0x00, 0x00, 0x00, 0x00, 0x00, 0x0B, 0x00, 0x06, 0x00, 0x00, 0x00,
        0x00, 0x00, 0x00, 0x02, 0x11, 0x22], .record [0x03, 0x00, 0x00, 0x00, 0x00, 0x00,
        0x00, 0x0B, 0x00, 0x06, 0x00, 0x00, 0x01, 0x00, 0x00, 0x00, 0x02, 0x33, 0x00],
        .record [0x04, 0x00, 0x00, 0x00, 0x00, 0x00, 0x00, 0x0F, 0x00, 0x06, 0x00, 0x00,
        0x00, 0x09, 0x00, 0x08, 0x00, 0x01, 0x01, 0x17, 0x70, 0x13, 0x88], .response [0, 0,
        0, 0, 0, 0, 0, 0]] := by
  decide +kernel

/-- P6-6. -/
theorem test_rxPacket_behind :
    sent { s8 with
           kcfg := 2
           flows := [(4, { flowRec 2 with frag := 5, rank := 1, mat := [[1, 2]], rx := [[7]] })] }
      [0x62, 0x00, 0x00, 0x00, 0x00, 0x00, 0x00, 0x12, 0x00, 0x04, 0x00, 0x00, 0x00, 0x0C, 0x02,
      0x08, 0x00, 0x04, 0x00, 0x13, 0x88, 0x17, 0x70, 0x01, 0x01, 0x01] =
      [.record [0x04, 0x00, 0x00, 0x00, 0x00, 0x00, 0x00, 0x0F, 0x00, 0x04, 0x00, 0x00, 0x00,
        0x09, 0x00, 0x08, 0x00, 0x05, 0x02, 0x17, 0x70, 0x13, 0x88], .response [0x03, 0x00,
        0x00, 0x00, 0x00, 0x00, 0x00, 0x00]] := by
  decide +kernel

/-- V-RLNC-23. -/
theorem test_decode_rank :
    sent { s8 with flows := [(2, { flowRec 2 with rank := 1, mat := [[1, 0]], rx := [[1]] })] }
      [0x63, 0x00, 0x00, 0x00, 0x00, 0x00, 0x00, 0x02, 0x00, 0x02] =
      [.response [0x24, 0x00, 0x00, 0x00, 0x00, 0x00, 0x00, 0x00]] := by
  decide +kernel

/-- The records of V-RLNC-31, from DECODE at rank k. -/
theorem test_decode :
    sent { s8 with
           flows :=
             [(6,
             { flowRec 2 with
               rank := 2
               mat := [[1, 2], [3, 4]]
               rx := [[0x77, 0x22], [0xFF, 0x66]] })] }
      [0x63, 0x00, 0x00, 0x00, 0x00, 0x00, 0x00, 0x02, 0x00, 0x06] =
      [.record [0x03, 0x00, 0x00, 0x00, 0x00, 0x00, 0x00, 0x0B, 0x00, 0x06, 0x00, 0x00, 0x00,
        0x00, 0x00, 0x00, 0x02, 0x11, 0x22], .record [0x03, 0x00, 0x00, 0x00, 0x00, 0x00,
        0x00, 0x0B, 0x00, 0x06, 0x00, 0x00, 0x01, 0x00, 0x00, 0x00, 0x02, 0x33, 0x00],
        .record [0x04, 0x00, 0x00, 0x00, 0x00, 0x00, 0x00, 0x0F, 0x00, 0x06, 0x00, 0x00,
        0x00, 0x09, 0x00, 0x08, 0x00, 0x01, 0x01, 0x17, 0x70, 0x13, 0x88], .response [0, 0,
        0, 0, 0, 0, 0, 0]] := by
  decide +kernel

/-- P5-9: DRAW gives [1, 1]. -/
theorem test_recode :
    sent { s8 with
           mode := 1
           flows :=
             [(3,
             { flowRec 3 with
               frag := 4
               fwd := true
               rank := 2
               mat := [[1, 0, 0], [0, 1, 0]]
               rx := [[0x10], [0x20]] })]
           draws := [[1, 1]] }
      [0x64, 0x00, 0x00, 0x00, 0x00, 0x00, 0x00, 0x02, 0x00, 0x03] =
      [.record [0x02, 0x00, 0x00, 0x00, 0x00, 0x00, 0x00, 0x13, 0x00, 0x03, 0x00, 0x00, 0x00,
        0x0D, 0x03, 0x08, 0x00, 0x04, 0x00, 0x13, 0x88, 0x17, 0x70, 0x01, 0x01, 0x00, 0x30],
        .response [0, 0, 0, 0, 0, 0, 0, 0]] := by
  decide +kernel

/-- P5-7: rank 1. -/
theorem test_recode_rank :
    sent { s8 with
           mode := 1
           flows :=
             [(3,
             { flowRec 3 with
               frag := 4
               fwd := true
               rank := 1
               mat := [[1, 0, 0]]
               rx := [[0x10]] })]
           draws := [[1, 1]] }
      [0x64, 0x00, 0x00, 0x00, 0x00, 0x00, 0x00, 0x02, 0x00, 0x03] =
      [.response [0x01, 0x00, 0x00, 0x00, 0x00, 0x00, 0x00, 0x00]] := by
  decide +kernel

/-- V-RLNC-27. -/
theorem test_changeFragment_stale :
    sent { s8 with flows := [(2, flowRec 2)] }
      [0x65, 0x00, 0x00, 0x00, 0x00, 0x00, 0x00, 0x04, 0x00, 0x02, 0x00, 0x00] =
      [.response [0x04, 0x00, 0x00, 0x00, 0x00, 0x00, 0x00, 0x00]] := by
  decide +kernel

/-- V-RLNC-28 and V-RLNC-29: at a source the record is reset, the fragment taken and the timer armed. -/
theorem test_changeFragment :
    holds (step { s8 with
        kcfg := 2
        flows := [(2, { flowRec 2 with rank := 1, mat := [[1, 0]], rx := [[1]] })]
        cmdIn := [0x65, 0, 0, 0, 0, 0, 0, 4, 0, 2, 0, 3] })
      (fun t => t.flows ==
        [(2, { flowRec 2 with frag := 3, ft := some { deadline := 100, seq := 0 } })]) = true := by
  decide +kernel

/-- V-RLNC-37. -/
theorem test_flowStat :
    sent { s8 with
           flows :=
             [(7, { flowRec 2 with tx := [[3]], ft := some { deadline := 100, seq := 1 } })] }
      [0x66, 0x00, 0x00, 0x00, 0x00, 0x00, 0x00, 0x02, 0x00, 0x07] =
      [.response [0x00, 0x00, 0x00, 0x00, 0x00, 0x00, 0x00, 0x1E, 0x02, 0x00, 0x00, 0x00, 0x00,
        0x00, 0x00, 0x00, 0x00, 0x00, 0x00, 0x00, 0x01, 0x00, 0x00, 0x00, 0x00, 0x01, 0x00,
        0x00, 0x00, 0x00, 0x00, 0x00, 0x00, 0x64, 0x13, 0x88, 0x17, 0x70]] := by
  decide +kernel

/-- P6-9. -/
theorem test_flowRow :
    sent { s8 with
           flows := [(4, { flowRec 2 with frag := 6, rank := 1, mat := [[0, 3]], rx := [[2]] })] }
      [0x67, 0x00, 0x00, 0x00, 0x00, 0x00, 0x00, 0x03, 0x00, 0x04, 0x00] =
      [.response [0x00, 0x00, 0x00, 0x00, 0x00, 0x00, 0x00, 0x02, 0x00, 0x03]] := by
  decide +kernel

/-- V-RLNC-24: i = k. -/
theorem test_flowRow_bound :
    sent { s8 with flows := [(2, flowRec 2)] }
      [0x67, 0x00, 0x00, 0x00, 0x00, 0x00, 0x00, 0x03, 0x00, 0x02, 0x02] =
      [.response [0x11, 0x00, 0x00, 0x00, 0x00, 0x00, 0x00, 0x00]] := by
  decide +kernel

/-- 10_state R46 is a derived claim that a step does not keep (log 9): FLOW_EXPIRE lowers k to the
number of waiting packets and leaves the rank. What M held outside the new k × k part is 0 (10_state R41). -/
theorem test_rank_reaches_k :
    holds (step { s8 with
        flows := [(1, { flowRec 4 with
          rank := 2
          mat := [[1, 2, 0, 0], [0, 1, 0, 0]]
          rx := [[1], [1]]
          tx := [[1]]
          ft := some { deadline := 0, seq := 0 } })]
        draws := [[1]]
        cmdIn := [0x04, 0, 0, 0, 0, 0, 0, 8, 0, 0, 0, 0, 0, 0, 0, 0] })
      (fun t => t.flows.map (fun e => (e.2.rank, e.2.k, e.2.mat)) == [(2, 1, [[1]])]) = true := by
  decide +kernel

/-! ## Witnesses: states and operands that meet the hypotheses of each statement -/

/-- A command runs in a state of RUN whose CMD_MAX is `n`. -/
theorem runs {s : State} {i : Instr} (n : Nat) (hf : s.faulted = false) (hp : s.phase = .run)
    (hm : s.params.cmdMax = n) (h : i.olen ≤ n) : s.Running i :=
  ⟨hf, hp, by rw [hm]; exact h⟩

theorem witness_DecodeOfEncode :
    (Instr.gfMul (.ok { a := 2, b := 0x80 })).wf = true ∧ (Instr.nop (.bad [0])).wf = true ∧
      (Instr.matRank (.ok { r := 0, c := 0, elems := [] })).wf = true ∧
      (Instr.xorEnc (.ok (List.replicate 255 []))).wf = true := by
  decide +kernel

theorem witness_EncodeOfDecode :
    fetchCommand [0x41, 0, 0, 0, 0, 0, 0, 1, 0x53, 7] = some (.instr (.gfInv (.ok 0x53)), [7]) ∧
      fetchCommand [0x41, 0, 0, 0, 0, 0, 0, 0] = some (.instr (.gfInv (.bad [])), []) := by
  decide +kernel

theorem witness_StreamStaysFramed :
    let short : State := { s8 with cmdIn := [0x41, 0, 0, 0, 0, 0, 0] }
    let waiting : State := { s8 with cmdIn := [0x41, 0, 0, 0, 0, 0, 0, 1] ++ [] }
    let whole : State := { s8 with cmdIn := [0x41, 0, 0, 0, 0, 0, 0, 1] ++ [0x53] }
    (short.resetPin = false ∧ short.cmdIn.length < 8) ∧
      (waiting.resetPin = false ∧ ([] : List Byte).length < beNat [0, 0, 0, 1]) ∧
      (whole.resetPin = false ∧ beNat [0, 0, 0, 1] ≤ ([0x53] : List Byte).length) := by
  decide +kernel

theorem witness_IllegalCommandsAnswerEOpcode :
    s8.resetPin = false ∧ s8.faulted = false ∧ ([9] : List Byte).length < 2 ^ 32 ∧
      (∃ s : State, s.resetPin = false ∧ s.faulted = false ∧
        s.cmdIn = [0x05, 0, 0, 0] ++ putBE 4 1 ++ [9] ++ [] ∧ (0x05 : Byte) ∉ opcodeMap) ∧
      (∃ s : State, s.resetPin = false ∧ s.faulted = false ∧
        s.cmdIn = [0x50, 2, 0, 0] ++ putBE 4 1 ++ [9] ++ [] ∧ (0x50 : Byte) ∈ opcodeMap) ∧
      ∃ s : State, s.resetPin = false ∧ s.faulted = false ∧
        s.cmdIn = [0x62, 1, 0, 0] ++ putBE 4 1 ++ [9] ++ [] ∧ (0x62 : Byte) ∈ opcodeMap :=
  ⟨rfl, rfl, by decide,
    ⟨{ s8 with cmdIn := [0x05, 0, 0, 0] ++ putBE 4 1 ++ [9] ++ [] }, rfl, rfl, rfl, by decide⟩,
    ⟨{ s8 with cmdIn := [0x50, 2, 0, 0] ++ putBE 4 1 ++ [9] ++ [] }, rfl, rfl, rfl, by decide⟩,
    ⟨{ s8 with cmdIn := [0x62, 1, 0, 0] ++ putBE 4 1 ++ [9] ++ [] }, rfl, rfl, rfl, by decide⟩⟩

theorem witness_StepRunsDecodedCommand :
    ∃ s : State, s.resetPin = false ∧ fetchCommand s.cmdIn = some (.instr (.gfInv (.ok 0x53)), [7]) :=
  ⟨{ s8 with cmdIn := [0x41, 0, 0, 0, 0, 0, 0, 1, 0x53, 7] }, rfl, by decide +kernel⟩

theorem witness_ResetSignalResetsState :
    ∃ s : State, s.resetPin = true ∧ s.faulted = true ∧ s.phase = .run :=
  ⟨{ s8 with resetPin := true, faulted := true, fcode := 1 }, rfl, rfl, rfl⟩

theorem witness_ChecksComeInOrder :
    let i : Instr := .gfMul (.ok { a := 2, b := 3 })
    let faulty : State := { s8 with faulted := true }
    let tight (n : Nat) : State := { s8 with params := { s8.params with cmdMax := n } }
    (faulty.faulted = true ∧ i.opcode ≠ 0x01#8) ∧
      ((tight 1).faulted = false ∧ (tight 1).params.cmdMax < i.olen) ∧
      (i.olen ≤ (tight 2).params.cmdMax ∧ (phaseNeed i).allows Phase.config = false ∧
        State.reset.phase = .config ∧ i.olen ≤ State.reset.params.cmdMax) ∧
      ((phaseNeed (.gfMul (.bad [1]))).allows s8.phase = true ∧
        malformed (.gfMul (.bad [1])) = true) ∧
      (Instr.regRead (.bad [])).opcode = 0x01#8 := by
  decide +kernel

theorem witness_StatusWithoutEffect :
    (∃ t, exec (.gfInv (.ok 0)) s8 = .next t ∧ t.Answered .eZero) ∧
      (∃ t, exec (.nop (.ok ())) { s8 with faulted := true } = .next t ∧ t.Answered .eFaulted) ∧
      (∃ t, exec (.encode (.ok 1)) { s8 with flows := [(1, flowRec 1)] } = .next t ∧
        t.Answered .iNotFired) ∧
      (∃ t, exec (.oqPopFrame (.ok { ptype := 0, acks := [] })) s8 = .next t ∧
        t.Answered .iEmpty) ∧
      (∃ t, exec (.changeFragment (.ok { flow := 1, nfrag := 0 }))
          { s8 with flows := [(1, flowRec 1)] } = .next t ∧ t.Answered .iStale) ∧
      ∃ t, exec (.rxPacket false (.ok { flow := 1, pkt := [1, 8, 0, 4, 0, 0, 1, 0, 2, 1] }))
          { s8 with flows := [(1, { flowRec 1 with frag := 5 })] } = .next t ∧ t.Answered .iBehind :=
  ⟨of_answers (r := []) (by decide +kernel), of_answers (r := []) (by decide +kernel),
    of_answers (r := []) (by decide +kernel), of_answers (r := []) (by decide +kernel),
    of_answers (r := []) (by decide +kernel), of_answers (r := []) (by decide +kernel)⟩

theorem witness_InspectionHasNoSideEffect :
    (∃ t, exec (.poolStat (.ok 0xC58F)) s8 = .next t ∧ t.Answered .ok) ∧
      hasNoSideEffect (.poolStat (.ok 0xC58F)) = true ∧
      ∃ t, exec (.vecGen (.ok 1)) { s8 with draws := [[3]] } = .next t ∧ t.Answered .ok :=
  ⟨of_answers (r := [0, 0, 0, 0, 0, 0, 0, 0, 0, 0, 0]) (by decide +kernel), rfl,
    of_answers (r := [3]) (by decide +kernel)⟩

theorem witness_FaultStateIsSticky :
    ∃ s : State, s.faulted = true ∧ s.resetPin = false ∧ (∃ t, step s = .next t) ∧
      s.cmdIn = 0x00#8 :: [0, 0, 0, 0, 0, 0, 0] ∧
      fetchCommand s.cmdIn = some (.instr (.nop (.ok ())), []) :=
  ⟨{ s8 with faulted := true, fcode := 1, cmdIn := [0, 0, 0, 0, 0, 0, 0, 0] }, rfl, rfl, ⟨_, rfl⟩,
    rfl, by decide +kernel⟩

/-- S8 with the smallest legal capacities of 00_scope R5. -/
def smallest : State :=
  { s8 with params :=
    { s8.params with
      poolFlowsMax := 2
      oqMax := 1
      flowsMax := 1
      txbufMax := 255
      payloadMax := 1
      cmdMax := 20001 } }

/-- An insert of an item of no payload. -/
def insertArgs : PoolInsertArgs :=
  { src := 1, dst := 2, sport := 3, dport := 4, proto := 6, seq := 1, payload := [] }

/-- A batch of one item. -/
def batch1 : Batch := { first := itemA 1 [], others := [], oldest := 0 }

theorem witness_FaultOnlyFromCapacity :
    smallest.params.legal = true ∧
      (∃ t, exec (.poolInsert false (.ok insertArgs)) { smallest with mbs := 0, oq := [batch1] } =
        .next t ∧ t.faulted = true) ∧
      (∃ t, exec (.poolInsert false (.ok insertArgs))
          { smallest with pool := [bucketA (itemA 1 []) [], (0xC590, (bucketA (itemA 1 []) []).2)] } =
        .next t ∧ t.faulted = true) ∧
      (∃ t, exec (.timeAdvance (.ok 10))
          { smallest with pool := [bucketA (itemA 1 []) []], oq := [batch1] } = .next t ∧
        t.faulted = true) ∧
      (∃ t, exec (.txPush (.ok { flow := 2, sport := 1, dport := 1, payload := [] }))
          { smallest with flows := [(1, flowRec 1)] } = .next t ∧ t.faulted = true) ∧
      ∃ t, exec (.rxPacket true (.ok { flow := 2, pkt := [1, 8, 0, 4, 0, 0, 1, 0, 2, 1] }))
          { smallest with flows := [(1, flowRec 1)] } = .next t ∧ t.faulted = true :=
  ⟨by decide, of_holds (p := (·.faulted)) (by decide +kernel),
    of_holds (p := (·.faulted)) (by decide +kernel),
    of_holds (p := (·.faulted)) (by decide +kernel),
    of_holds (p := (·.faulted)) (by decide +kernel), of_holds (p := (·.faulted)) (by decide +kernel)⟩

theorem witness_NopDoesNothing :
    s8.faulted = false ∧ ({ s8 with faulted := true } : State).faulted = true ∧
      ((0 : Byte), (0 : Byte), (1 : Byte)) ≠ (0, 0, 0) := by
  decide +kernel

theorem witness_RegReadAnswersRegister : 1 ≤ State.reset.params.cmdMax := by decide

/-- Each clause of CfgWriteSetsOneRegister, with Q at 1 and 8 and beyond both ends. -/
theorem witness_CfgWriteSetsOneRegister :
    (∀ a : CfgWriteArgs, State.reset.Configuring (.cfgWrite (.ok a))) ∧
      State.reset.params.legal = true ∧
      specRegister State.reset 0x08 = none ∧
      (specRegister State.reset 0x00 ≠ none ∧ specRange State.reset.params 0x00 = none) ∧
      (specRange State.reset.params 0x20 = some (1, 8) ∧ ¬ (1 ≤ (0 : U32).toNat) ∧ ¬ ((9 : U32).toNat ≤ 8)) ∧
      1 ≤ (1 : U32).toNat ∧ (8 : U32).toNat ≤ 8 :=
  ⟨fun a => ⟨rfl, rfl, by simp [Instr.olen, Instr.operandBytes, Args.put, putCfgWrite, put32, putBE,
      State.reset, Config.vectorParams]⟩, by decide +kernel⟩

theorem witness_StartEntersRun :
    State.reset.Configuring (.start (.ok ())) ∧ State.reset.mcp = 0 ∧
      (let s : State := { State.reset with mcp := 1, q := 1, kcfg := 1 }
       s.Configuring (.start (.ok ())) ∧ s.mcp ≠ 0 ∧ s.q ≠ 0 ∧ s.kcfg ≠ 0) ∧
      s8.Running (.start (.ok ())) :=
  ⟨⟨rfl, rfl, by decide⟩, rfl, ⟨⟨rfl, rfl, by decide⟩, by decide, by decide, by decide⟩,
    ⟨rfl, rfl, by decide⟩⟩

theorem witness_PhaseMovesByStartAndReset :
    (∃ t, step { s8 with cmdIn := [0, 0, 0, 0, 0, 0, 0, 0] } = .next t ∧ t.phase = .run) ∧
      (∃ t, step { State.reset with mcp := 1, q := 1, kcfg := 1, cmdIn := [3, 0, 0, 0, 0, 0, 0, 0] } =
        .next t ∧ t.phase = .run) ∧
      ({ s8 with resetPin := true } : State).resetPin = true := by
  refine ⟨?_, ?_, rfl⟩
  · obtain ⟨t, h1, h2⟩ := of_holds (o := step { s8 with cmdIn := [0, 0, 0, 0, 0, 0, 0, 0] })
      (p := (·.phase == .run)) (by decide +kernel)
    exact ⟨t, h1, by simpa using h2⟩
  · obtain ⟨t, h1, h2⟩ := of_holds
      (o := step { State.reset with mcp := 1, q := 1, kcfg := 1, cmdIn := [3, 0, 0, 0, 0, 0, 0, 0] })
      (p := (·.phase == .run)) (by decide +kernel)
    exact ⟨t, h1, by simpa using h2⟩

theorem witness_ConfigurationFrozenInRun :
    s8.Running (.cfgWrite (.ok { reg := 0x20, value := 4 })) ∧ s8.Running (.start (.ok ())) ∧
      s8.phase = .run ∧ s8.resetPin = false ∧ (∃ t, step s8 = .next t) ∧
      ∃ s : State, s.resetPin = true ∧ s.pool ≠ [] :=
  ⟨⟨rfl, rfl, by decide⟩, ⟨rfl, rfl, by decide⟩, rfl, rfl, ⟨_, rfl⟩,
    ⟨{ s8 with resetPin := true, pool := [bucketA (itemA 1 []) []] }, rfl, by simp⟩⟩

/-- One item of flow A in the pool, its timer armed. -/
def pool1 : State := { s8 with pool := [bucketA (itemA 1 []) []], tseq := 1 }

theorem witness_StepKeepsConfigInv : pool1.ConfigInv ∧ ∃ t, step pool1 = .next t :=
  ⟨⟨by decide, by decide, by decide, by decide, fun _ => by decide, by decide, fun h => by cases h⟩,
    ⟨_, rfl⟩⟩

theorem pool1_timeInv : pool1.TimeInv :=
  ⟨by decide, by decide, fun _ => ⟨by decide, by decide, by decide, by decide, by decide, by decide⟩,
    fun h => by cases h⟩

/-- `pool1` with TIME_ADVANCE to `t` waiting. -/
def pool1At (t : Byte) : State :=
  { pool1 with cmdIn := [0x04, 0, 0, 0, 0, 0, 0, 8, 0, 0, 0, 0, 0, 0, 0, t] }

theorem witness_NowMovesOnlyForward :
    (pool1At 9).TimeInv ∧ (pool1At 9).resetPin = false ∧
      ∃ t, step (pool1At 9) = .next t ∧ t.now ≠ (pool1At 9).now := by
  refine ⟨⟨by decide, by decide,
    fun _ => ⟨by decide, by decide, by decide, by decide, by decide, by decide⟩,
    fun h => by cases h⟩, rfl, ?_⟩
  obtain ⟨t, h1, h2⟩ := of_holds (o := step (pool1At 9)) (p := (·.now == 9)) (by decide +kernel)
  refine ⟨t, h1, ?_⟩
  rw [show t.now = 9 by simpa using h2]
  decide

theorem witness_StepKeepsTimeInv : pool1.TimeInv ∧ ∃ t, step pool1 = .next t :=
  ⟨pool1_timeInv, ⟨_, rfl⟩⟩

/-- Both sides of t = NOW, a full queue and one with room. -/
theorem witness_TimeAdvanceLeavesNothingDue :
    (∀ t : U64, pool1.Running (.timeAdvance (.ok t))) ∧ Table.wf pool1.pool = true ∧
      Table.wf pool1.flows = true ∧
      ((9 : U64) < ({ pool1 with now := 10 } : State).now) ∧
      (({ pool1 with now := 10 } : State).now ≤ 10) ∧
      (pool1.oq.length + pool1.poolItems ≤ pool1.params.oqMax) ∧
      ∃ t, exec (.timeAdvance (.ok 10)) { smallest with pool := pool1.pool, oq := [batch1] } =
        .next t ∧ t.faulted = true :=
  ⟨fun t => ⟨rfl, rfl, by simp [Instr.olen, Instr.operandBytes, Args.put, put64, putBE, pool1, s8,
      State.reset, Config.vectorParams]⟩,
    by decide, by decide, by decide, by decide, by decide,
    of_holds (p := (·.faulted)) (by decide +kernel)⟩

/-- None due; a pool timer due with room in the queue and with the queue full, for a bucket that keeps an
item and one that does not; and a flow timer due. -/
theorem witness_TimersFireInOrder :
    let due : Timer := { deadline := 10, seq := 0 }
    let pool2 : State := { pool1 with pool := [bucketA (itemA 1 []) [itemA 2 []]] }
    let full : State := { pool1 with oq := List.replicate 16 batch1 }
    let flow1 : State := { s8 with flows := [(1, { flowRec 2 with ft := some due }), (2, flowRec 1)] }
    (∀ t : U64, pool1.Running (.timeAdvance (.ok t)) ∧ pool2.Running (.timeAdvance (.ok t)) ∧
      full.Running (.timeAdvance (.ok t)) ∧ flow1.Running (.timeAdvance (.ok t))) ∧
      (Table.wf pool2.pool = true ∧ Table.wf flow1.flows = true ∧ pool1.now ≤ 9 ∧
        full.oq.length = full.params.oqMax ∧ pool1.oq.length ≠ pool1.params.oqMax) ∧
      pool1.nextDue 9 = none ∧ pool1.nextDue 10 = some (due, .pool 0xC58F) ∧
      pool2.nextDue 10 = some (due, .pool 0xC58F) ∧ full.nextDue 10 = some (due, .pool 0xC58F) ∧
      flow1.nextDue 10 = some (due, .flow 1) :=
  ⟨fun t => by
      have h (s : State) (hf : s.faulted = false) (hp : s.phase = .run)
          (hm : s.params.cmdMax = 1048576) : s.Running (.timeAdvance (.ok t)) :=
        runs 1048576 hf hp hm
          (by simp [Instr.olen, Instr.operandBytes, Args.put, put64, putBE])
      exact ⟨h _ rfl rfl rfl, h _ rfl rfl rfl, h _ rfl rfl rfl, h _ rfl rfl rfl⟩,
    by decide +kernel, by decide +kernel⟩

/-- Just before and at T + D, with T = 0 and D = 10. -/
theorem witness_EvictionTimeLaw :
    s8.Running (.poolInsert true (.ok insertArgs)) ∧ s8.Running (.timeAdvance (.ok 9)) ∧
      s8.Running (.timeAdvance (.ok 10)) ∧ s8.pool = [] ∧ Table.wf s8.flows = true ∧ s8.mbs ≠ 0 ∧
      s8.params.poolFlowsMax ≠ 0 ∧ s8.oq.length ≠ s8.params.oqMax ∧
      insertArgs.payload.length ≤ s8.params.payloadMax ∧ s8.now ≤ 9 ∧ s8.now ≤ 10 ∧
      (9 : U64).toNat < s8.now.toNat + s8.btoInter.toNat ∧
      s8.now.toNat + s8.btoInter.toNat ≤ (10 : U64).toNat :=
  ⟨⟨rfl, rfl, by decide⟩, ⟨rfl, rfl, by decide⟩, ⟨rfl, rfl, by decide⟩, rfl, rfl, by decide⟩

/-- A flow with `n` packets waiting whose timer is due at 5. -/
def timed (n : Nat) (fwd : Bool) (c : U32) : FlowRec :=
  { flowRec 2 with tx := List.replicate n [1], ft := some { deadline := 5, seq := 0 }, fwd, txCounter := c }

theorem witness_FlowTimerFlushesShortBatch :
    let s (f : FlowRec) : State := { s8 with flows := [(1, f)] }
    (∀ f, (s f).Running (.timeAdvance (.ok 5)) ∧ (s f).now ≤ 5 ∧ (s f).pool = [] ∧ 1 ≤ (s f).qn ∧
      (s f).qn ≤ 8) ∧
      (∀ n fwd c, (timed n fwd c).ft = some { deadline := 5, seq := 0 }) ∧
      (5 : BitVec 65) ≤ (5 : U64).setWidth 65 ∧
      (0 < (timed 1 false 5).tx.length ∧ (timed 1 false 5).tx.length < (timed 1 false 5).k.toNat ∧
        (timed 1 false 5).fwd = false ∧ (timed 1 false 5).txCounter ≤ s8.encCap) ∧
      (0 < (timed 1 false 6).tx.length ∧ (timed 1 false 6).tx.length < (timed 1 false 6).k.toNat ∧
        s8.encCap < (timed 1 false 6).txCounter) ∧
      (timed 1 true 0).fwd = true ∧ (timed 0 false 0).tx.length = 0 ∧
      (timed 2 false 0).k.toNat ≤ (timed 2 false 0).tx.length ∧
      ∀ f, Table.find 1 (s f).flows = some f :=
  ⟨fun _ => ⟨runs 1048576 rfl rfl rfl (by decide), show s8.now ≤ 5 by decide, rfl,
      show 1 ≤ s8.qn by decide, show s8.qn ≤ 8 by decide⟩, fun _ _ _ => rfl, by decide, by decide, by decide, rfl, rfl, by decide,
    fun _ => rfl⟩

theorem witness_PoolOffBypasses :
    let s : State := { smallest with mbs := 0 }
    s.Running (.poolInsert true (.ok insertArgs)) ∧ s.mbs = 0 ∧
      insertArgs.payload.length ≤ s.params.payloadMax ∧ s.oq.length ≠ s.params.oqMax ∧
      ({ s with oq := [batch1] } : State).Running (.poolInsert true (.ok insertArgs)) ∧
      ({ s with oq := [batch1] } : State).oq.length = s.params.oqMax :=
  ⟨⟨rfl, rfl, by decide⟩, rfl, by decide, by decide, ⟨rfl, rfl, by decide⟩, rfl⟩

/-- Flow A as POOL_INSERT operands. -/
def argsA (p : List Byte) : PoolInsertArgs :=
  { src := 0x0A000001, dst := 0x0A000003, sport := 1000, dport := 80, proto := 6, seq := 5,
    payload := p }

theorem witness_InsertIntoOneBucket :
    s8.Running (.poolInsert true (.ok (argsA [5]))) ∧
      smallest.Running (.poolInsert true (.ok (argsA [5, 6]))) ∧
      smallest.params.payloadMax < (argsA [5, 6]).payload.length ∧
      ((argsA [5]).payload.length ≤ s8.params.payloadMax ∧ s8.mbs ≠ 0 ∧ s8.pool = [] ∧
        s8.params.poolFlowsMax ≠ 0) ∧
      (let b : Bucket := (bucketA (itemA 1 []) [itemA 2 [], itemA 3 []]).2
       let s : State := { s8 with pool := [(0xC58F, b)] }
       s.Running (.poolInsert true (.ok (argsA [5]))) ∧
          s.pool = [(flowKey s.params 0x0A000001 0x0A000003 1000 80, b)] ∧
          (Bucket.items b).length < s.mbs.toNat) ∧
      (let b : Bucket := (bucketA (itemA 1 []) [itemA 2 [], itemA 3 [], itemA 4 []]).2
       let s : State := { s8 with pool := [(0xC58F, b)] }
       s.Running (.poolInsert true (.ok (argsA [5]))) ∧
          s.pool = [(flowKey s.params 0x0A000001 0x0A000003 1000 80, b)] ∧ s.mbs.toNat ≤ b.items.length ∧
          b.rest ++ [s.itemOf true (argsA [5])] =
            itemA 2 [] :: [itemA 3 [], itemA 4 [], s.itemOf true (argsA [5])] ∧
          s.oq.length ≠ s.params.oqMax) ∧
      (let s : State := { smallest with pool := [(7, (bucketA (itemA 1 []) []).2), bucketA (itemA 1 []) []] }
       s.Running (.poolInsert true (.ok insertArgs)) ∧
          Table.find (flowKey s.params 1 2 3 4) s.pool = none ∧
          s.pool.length = s.params.poolFlowsMax) ∧
      (let b : Bucket := (bucketA (itemA 1 []) [itemA 2 []]).2
       let s : State := { smallest with pool := [(0xC58F, b)], mbs := 2, oq := [batch1] }
       s.Running (.poolInsert true (.ok (argsA [5]))) ∧
          Table.find (flowKey s.params 0x0A000001 0x0A000003 1000 80) s.pool = some b ∧
          s.mbs.toNat ≤ b.items.length ∧
          b.rest ++ [s.itemOf true (argsA [5])] = itemA 2 [] :: [s.itemOf true (argsA [5])] ∧
          s.oq.length = s.params.oqMax) :=
  ⟨⟨rfl, rfl, by decide⟩, ⟨rfl, rfl, by decide⟩, by decide, by decide,
    ⟨⟨rfl, rfl, by decide⟩, by decide +kernel, by decide⟩,
    ⟨⟨rfl, rfl, by decide⟩, by decide +kernel, by decide, rfl, by decide⟩,
    ⟨⟨rfl, rfl, by decide⟩, by decide +kernel⟩,
    ⟨⟨rfl, rfl, by decide⟩, by decide +kernel, by decide, rfl, by decide⟩⟩

theorem witness_SearchCodesTwoFlows :
    let s (mcp : Byte) : State := { s8 with pool := [bucketA (itemA 1 []) []], mcp }
    (∀ mcp, (s mcp).Running (.poolInsert true (.ok insertArgs)) ∧
      insertArgs.payload.length ≤ (s mcp).params.payloadMax ∧ (s mcp).mbs ≠ 0 ∧
      (s mcp).pool = [(0xC58F, { head := itemA 1 [], rest := [], timer := { deadline := 10, seq := 0 } })] ∧
      (s mcp).params.poolFlowsMax ≠ 1 ∧ (s mcp).oq.length ≠ (s mcp).params.oqMax) ∧
      flowKey s8.params 1 2 3 4 ≠ 0xC58F ∧ 2 ≤ (s 2).mcp.toNat ∧ (s 1).mcp = 1 :=
  ⟨fun _ => ⟨runs 1048576 rfl rfl rfl (by decide), show 0 ≤ 1500 by decide,
      show s8.mbs ≠ 0 by decide, rfl, show 16 ≠ 1 by decide, show 0 ≠ 16 by decide⟩,
    by decide +kernel, by decide, rfl⟩

/-- The clauses on a pool of more buckets: an item of a new flow beside two other buckets; an item of flow A
beside another bucket, with room in its own bucket and with its own bucket full; and the output queue with
room for two batches, for one and for none. -/
theorem witness_SearchCodesTwoFlows_buckets :
    let others : Table Bucket := [(7, (bucketA (itemA 1 []) [itemA 2 []]).2), bucketA (itemA 3 []) []]
    let s (mbs : U16) (n : Nat) : State :=
      { s8 with pool := others, mbs, oq := List.replicate n batch1 }
    let b : Bucket := (bucketA (itemA 3 []) []).2
    let it : Item := (s 1 0).itemOf true (argsA [])
    (∀ mbs n, (s mbs n).Running (.poolInsert true (.ok insertArgs)) ∧
      (s mbs n).Running (.poolInsert true (.ok (argsA [])))) ∧
      (insertArgs.payload.length ≤ (s 4 0).params.payloadMax ∧ (s 4 0).mbs ≠ 0 ∧ (s 4 0).mcp ≠ 0 ∧
        Table.wf (s 4 0).pool = true) ∧
      ((s 4 14).oq.length + 2 ≤ (s 4 14).params.oqMax ∧ (s 4 15).oq.length < (s 4 15).params.oqMax ∧
        (s 4 15).oq.length + 1 = (s 4 15).params.oqMax ∧
        (s 4 16).oq.length = (s 4 16).params.oqMax) ∧
      (Table.find (flowKey s8.params 1 2 3 4) others = none ∧ others ≠ [] ∧
        others.length ≠ s8.params.poolFlowsMax ∧
        Bucket.items { b with head := (s 4 0).itemOf true insertArgs } =
          [(s 4 0).itemOf true insertArgs]) ∧
      (Table.find (flowKey s8.params 0x0A000001 0x0A000003 1000 80) others = some b ∧
        2 ≤ others.length) ∧
      (b.items.length < (s 4 0).mbs.toNat ∧
        Bucket.items { b with rest := [it] } = b.items ++ [it]) ∧
      ((s 1 0).mbs.toNat ≤ b.items.length ∧
        b.items ++ [it] = b.head :: Bucket.items { b with head := it }) :=
  ⟨fun _ _ => ⟨runs 1048576 rfl rfl rfl (by decide), runs 1048576 rfl rfl rfl (by decide)⟩,
    by decide +kernel, by decide +kernel, by decide +kernel, by decide +kernel, by decide +kernel,
    by decide +kernel⟩

theorem witness_StepKeepsPoolInv : pool1.PoolInv ∧ ∃ t, step pool1 = .next t :=
  ⟨⟨by decide, by decide, by decide, by decide, by decide, by decide, by decide, fun _ => by decide,
    fun h => by cases h⟩, ⟨_, rfl⟩⟩

theorem witness_OqPopFrameSendsFront :
    s8.Running (.oqPopFrame (.ok { ptype := 0, acks := [{ dst := 0, tcp := [] }] })) ∧
      validAckHeader [] = false ∧ s8.Running (.oqPopFrame (.ok { ptype := 0, acks := [] })) ∧
      s8.oq = [] ∧
      ({ s8 with oq := [batch1] } : State).Running (.oqPopFrame (.ok { ptype := 0, acks := [] })) ∧
      validAckHeader [0, 0, 0, 0, 0, 0, 0, 0, 0, 0, 0, 0, 0x50, 0, 0, 0, 0, 0, 0, 0] = true :=
  ⟨⟨rfl, rfl, by decide⟩, by decide, ⟨rfl, rfl, by decide⟩, rfl, ⟨rfl, rfl, by decide⟩,
    by decide +kernel⟩

theorem witness_InspectionAnswers :
    s8.Running (.poolStat (.ok 0xC58F)) ∧ s8.Running (.flowStat (.ok 1)) ∧
      s8.Running (.flowRow (.ok { flow := 1, i := 0 })) :=
  ⟨⟨rfl, rfl, by decide⟩, ⟨rfl, rfl, by decide⟩, ⟨rfl, rfl, by decide⟩⟩

theorem witness_CommandsTouchOnlyTheirState :
    (∃ t, exec (.poolInsert true (.ok insertArgs)) s8 = .next t ∧ t.Answered .ok) ∧
      (∃ t, exec (.oqPopFrame (.ok { ptype := 0, acks := [] })) s8 = .next t ∧ t.Answered .iEmpty) ∧
      (∃ t, exec (.encode (.ok 1)) { s8 with flows := [(1, flowRec 1), (2, flowRec 1)] } = .next t ∧
        t.Answered .iNotFired) ∧ writesFlow (.encode (.ok 1)) = some 1 ∧
      ∃ t, exec (.timeAdvance (.ok 1)) s8 = .next t ∧ t.Answered .ok :=
  ⟨of_answers (r := []) (by decide +kernel), of_answers (r := []) (by decide +kernel),
    of_answers (r := []) (by decide +kernel), rfl, of_answers (r := []) (by decide +kernel)⟩

/-- The ends of the field orders and of the elements, and a polynomial that is not of the default table. -/
theorem witness_GmulIsReducedProduct :
    (Gf.mk 1 3).degreeOk ∧ (Gf.mk 8 0x11B).degreeOk ∧
      isElem 1 0 = true ∧ isElem 1 1 = true ∧ isElem 8 0xFF = true ∧ isElem 1 2 = false :=
  ⟨by unfold Gf.degreeOk; decide, by unfold Gf.degreeOk; decide, by decide +kernel⟩

theorem witness_FieldLaws :
    (Gf.mk 8 0x11D).degreeOk ∧ isElem 8 0xFF = true ∧ isElem 8 0x80 = true ∧ isElem 8 1 = true :=
  ⟨by unfold Gf.degreeOk; decide, by decide +kernel⟩

/-- GF(2). -/
def gf2 : Gf := { q := 1, poly := 3 }

theorem gf2_elem {a : Byte} (h : isElem gf2.q a = true) : a = 0 ∨ a = 1 := by
  have : a.toNat < 2 := by simpa [isElem, gf2] using h
  bv_omega

theorem gf2_lawful : gf2.Lawful where
  order := by decide
  mul_closed a b ha hb := by
    rcases gf2_elem ha with rfl | rfl <;> rcases gf2_elem hb with rfl | rfl <;> decide +kernel
  mul_comm a b ha hb := by
    rcases gf2_elem ha with rfl | rfl <;> rcases gf2_elem hb with rfl | rfl <;> decide +kernel
  mul_assoc a b c ha hb hc := by
    rcases gf2_elem ha with rfl | rfl <;> rcases gf2_elem hb with rfl | rfl <;>
      rcases gf2_elem hc with rfl | rfl <;> decide +kernel
  mul_add a b c ha hb hc := by
    rcases gf2_elem ha with rfl | rfl <;> rcases gf2_elem hb with rfl | rfl <;>
      rcases gf2_elem hc with rfl | rfl <;> decide +kernel
  mul_one a ha := by rcases gf2_elem ha with rfl | rfl <;> decide +kernel
  inverse a ha h0 := by
    rcases gf2_elem ha with rfl | rfl
    · exact absurd rfl h0
    · decide +kernel

theorem witness_InverseLaw :
    gf2.Lawful ∧ isElem gf2.q 1 = true ∧ (1 : Byte) ≠ 0 ∧ gmul gf2 1 1 = 1 :=
  ⟨gf2_lawful, by decide +kernel, by decide, by decide +kernel⟩

/-- Dependent rows with an independent part, and independent rows. -/
theorem witness_RankIsIndependence :
    gf2.Lawful ∧ isMatrix gf2.q 3 2 [[1, 0], [0, 1], [1, 1]] ∧ isMatrix gf2.q 1 2 [[1, 1]] ∧
      isMatrix gf2.q 0 0 [] ∧ Independent gf2 2 [[1, 1]] ∧
      ([[1, 0], [0, 1]] : List (List Byte)).Sublist [[1, 0], [0, 1], [1, 1]] ∧
      ([1, 0] : List Byte).all (isElem gf2.q) = true := by
  refine ⟨gf2_lawful, ⟨rfl, by decide +kernel⟩, ⟨rfl, by decide +kernel⟩, ⟨rfl, by decide +kernel⟩,
    ?_, by decide, by decide +kernel⟩
  intro u hu he h
  obtain ⟨x, rfl⟩ := List.length_eq_one_iff.1 hu
  rcases gf2_elem (a := x) (by simpa using he) with rfl | rfl
  · rfl
  · exact absurd h (by decide +kernel)

/-- An invertible matrix and a singular one. -/
theorem witness_InverseMatrixLaw :
    gf2.Lawful ∧ isMatrix gf2.q 2 2 [[1, 1], [0, 1]] ∧ matRank gf2 2 [[1, 1], [0, 1]] = 2 ∧
      isMatrix gf2.q 2 2 [[1, 1], [1, 1]] ∧ matRank gf2 2 [[1, 1], [1, 1]] < 2 :=
  ⟨gf2_lawful, ⟨rfl, by decide +kernel⟩, by decide +kernel, ⟨rfl, by decide +kernel⟩,
    by decide +kernel⟩

theorem witness_GfCommandsAnswer :
    s8.Running (.gfMul (.ok { a := 2, b := 3 })) ∧ s8.Running (.gfInv (.ok 0)) ∧
      s8.Running (.matRank (.ok { r := 1, c := 1, elems := [4] })) ∧
      (let s : State := { s8 with q := 1 }
       s.gf.Lawful ∧ s.Running (.matInv (.ok { n := 0, elems := [] })) ∧
          s.Running (.matInv (.ok { n := 1, elems := [0x10] })) ∧
          s.Running (.matInv (.ok { n := 2, elems := [1, 1, 1, 1] })) ∧
          matRank s.gf 2 (toRows 2 2 [1, 1, 1, 1]) < 2 ∧
          s.Running (.matInv (.ok { n := 2, elems := [1, 1, 0, 1] })) ∧
          matRank s.gf 2 (toRows 2 2 [1, 1, 0, 1]) = 2) :=
  ⟨⟨rfl, rfl, by decide⟩, ⟨rfl, rfl, by decide⟩, ⟨rfl, rfl, by decide⟩, gf2_lawful,
    ⟨rfl, rfl, by decide⟩, ⟨rfl, rfl, by decide⟩, ⟨rfl, rfl, by decide⟩, by decide +kernel,
    ⟨rfl, rfl, by decide⟩, by decide +kernel⟩

theorem witness_VecGenAnswersNonZero :
    s8.Running (.vecGen (.ok 0)) ∧ s8.Running (.vecGen (.ok 1)) ∧ (1 : Byte) ≠ 0 ∧ 1 ≤ s8.qn ∧
      s8.qn ≤ 8 ∧ ({ s8 with draws := [[7]] } : State).Running (.vecGen (.ok 1)) ∧
      legalDraw s8.qn 1 [7] = true :=
  ⟨⟨rfl, rfl, by decide⟩, ⟨rfl, rfl, by decide⟩, by decide, by decide, by decide,
    ⟨rfl, rfl, by decide⟩, by decide +kernel⟩

theorem witness_DecodeRecoversOriginals :
    gf2.Lawful ∧ isMatrix gf2.q 2 2 [[1, 1], [0, 1]] ∧ isMatrix gf2.q 2 3 [[1, 0, 1], [0, 1, 1]] ∧
      matInv gf2 2 [[1, 1], [0, 1]] = some [[1, 1], [0, 1]] :=
  ⟨gf2_lawful, ⟨rfl, by decide +kernel⟩, ⟨rfl, by decide +kernel⟩, by decide +kernel⟩

theorem witness_RecodeIsValidCombination :
    gf2.Lawful ∧ isMatrix gf2.q 2 3 [[1, 0, 0], [0, 1, 0]] ∧ isMatrix gf2.q 3 1 [[1], [0], [1]] ∧
      ([1, 1] : List Byte).all (isElem gf2.q) = true ∧
      matRank gf2 3 [[1, 0, 0], [0, 1, 0]] = ([1, 1] : List Byte).length ∧
      ([1, 1] : List Byte).any (· != 0) = true :=
  ⟨gf2_lawful, ⟨rfl, by decide +kernel⟩, ⟨rfl, by decide +kernel⟩, by decide +kernel,
    by decide +kernel, by decide⟩

theorem witness_XorAllIsPairwise :
    ([[1], [2, 3]] : List (List Byte)) ≠ [] ∧
      ([[1], [2, 3]] : List (List Byte)).Perm [[2, 3], [1]] :=
  ⟨by decide, List.Perm.swap _ _ _⟩

theorem witness_XorInvolution :
    ([1, 2] : List Byte).length = ([3, 4] : List Byte).length ∧
      ([1] : List Byte).length < ([3, 4] : List Byte).length := by
  decide

theorem witness_XorCommandsAnswer :
    s8.Running (.xorEnc (.ok [])) ∧ s8.Running (.xorEnc (.ok [[1]])) ∧
      s8.Running (.xorDec (.ok { coded := [], natives := [] })) :=
  ⟨⟨rfl, rfl, by decide⟩, ⟨rfl, rfl, by decide⟩, ⟨rfl, rfl, by decide⟩⟩

theorem witness_InterHeaderRoundTrip :
    (([] : List Desc).length < 256 ∧ (List.replicate 255 (⟨0, 0, 0, 0⟩ : Desc)).length < 256 ∧
      ∀ a ∈ [(⟨9, [0, 0, 0, 0, 0, 0, 0, 0, 0, 0, 0, 0, 0x50, 0, 0, 0, 0, 0, 0, 0]⟩ : Ackd)],
        validAckHeader a.tcp = true) ∧
      (∃ h, interParse [6, 0, 0, 0, 9] = some h) ∧ ([6, 0, 0] : List Byte).length < 4 :=
  ⟨by decide +kernel, ⟨{ proto := 6, ptype := 0, descs := [], acks := [], hlen := 4 },
    by decide +kernel⟩, by decide⟩

/-- The ends of q and txtype, and a field with its unused bits set. -/
theorem witness_IntraHeaderRoundTrip :
    (1 ≤ (1 : Byte).toNat ∧ (8 : Byte).toNat ≤ 8 ∧ (2 : Byte).toNat ≤ 2) ∧
      (([] : List Byte).length < 256 ∧ (List.replicate 255 (7 : Byte)).length < 256 ∧
      (List.replicate 255 (7 : Byte)).all (isElem 3) = true) ∧
      ([0x6B, 0x0F] : List Byte).length = ((3 : Byte).toNat * (3 : Byte).toNat + 7) / 8 ∧
      (∃ h, intraParse 8 [3, 3, 1, 2, 0, 0, 1, 0, 2, 0x6B, 0x0F, 0xFF] = some h) ∧
      ([3, 3, 1, 2, 0, 0, 1, 0] : List Byte).length < 9 :=
  ⟨by decide +kernel, by decide +kernel, by decide,
    ⟨{ k := 3, q := 3, frag := 0x0102, txtype := 0, sport := 1, dport := 2, coeff := [3, 5, 5],
       hlen := 11 }, by decide +kernel⟩, by decide⟩

/-- The ends of q, and of the indexes for one coefficient. -/
theorem witness_PackedBitLayout :
    (1 ≤ 1 ∧ 8 ≤ 8) ∧ 0 < ([5] : List Byte).length ∧ 2 < 3 ∧
      ([5] : List Byte).length * 3 ≤ 7 ∧ 7 < 8 * ((([5] : List Byte).length * 3 + 7) / 8) := by
  decide

theorem witness_HeaderCommandsAnswer :
    s8.Running (.hdrBuildInter (.ok { proto := 6, ptype := 0, descs := [], acks := [] })) ∧
      s8.Running (.hdrParseInter (.ok [])) ∧
      s8.Running (.hdrBuildIntra (.ok
        { q := 9, frag := 0, txtype := 0, sport := 1, dport := 2, coeff := [] })) ∧
      s8.Running (.hdrParseIntra (.ok [])) :=
  ⟨⟨rfl, rfl, by decide⟩, ⟨rfl, rfl, by decide⟩, ⟨rfl, rfl, by decide⟩, ⟨rfl, rfl, by decide⟩⟩

/-- The default function, and one that gives another key to the 4-tuple. -/
theorem witness_HashAnswersCrc :
    let s (l : List (FourTuple × U16)) : State :=
      { s8 with params := { s8.params with flowKeys := l } }
    (∀ l, (s l).Running (.hash (.ok { src := 1, dst := 2, sport := 3, dport := 4 }))) ∧
      (∀ e ∈ (s []).params.flowKeys, e.1 ≠ { src := 1, dst := 2, sport := 3, dport := 4 }) ∧
      (s [({ src := 9, dst := 2, sport := 3, dport := 4 }, 7),
          ({ src := 1, dst := 2, sport := 3, dport := 4 }, 9)]).params.flowKeys =
        [({ src := 9, dst := 2, sport := 3, dport := 4 }, 7)] ++
          ({ src := 1, dst := 2, sport := 3, dport := 4 }, 9) :: [] ∧
      ∀ e ∈ [(({ src := 9, dst := 2, sport := 3, dport := 4 } : FourTuple), (7 : U16))],
        e.1 ≠ { src := 1, dst := 2, sport := 3, dport := 4 } :=
  ⟨fun _ => runs 1048576 rfl rfl rfl (by decide), by decide, rfl, by decide⟩

/-- A push of one symbol to flow `g`. -/
def pushArgs (g : U16) (b : Byte) : TxPushArgs := { flow := g, sport := 1, dport := 2, payload := [b] }

theorem witness_TxPushQueuesPayload :
    let s (fs : Table FlowRec) : State := { smallest with q := 4, flows := fs }
    (∀ fs g b, (s fs).Running (.txPush (.ok (pushArgs g b)))) ∧
      (¬ (0x10 : Byte).toNat < 2 ^ (s []).qn ∧ (0x0F : Byte).toNat < 2 ^ (s []).qn ∧
        (pushArgs 1 0x0F).payload.length ≤ (s []).params.payloadMax) ∧
      (Table.find 2 (s [(1, flowRec 1)]).flows = none ∧
        (s [(1, flowRec 1)]).flows.length = (s []).params.flowsMax) ∧
      (Table.find 1 (s []).flows = none ∧ (s []).flows.length ≠ (s []).params.flowsMax ∧
        (s []).params.txbufMax ≠ 0) ∧
      (Table.find 1 (s [(1, flowRec 1)]).flows = some (flowRec 1) ∧ (flowRec 1).tx = [] ∧
        (flowRec 1).ft = none ∧ (flowRec 1).tx.length ≠ (s []).params.txbufMax) ∧
      (({ flowRec 1 with tx := [[1]] } : FlowRec).tx ≠ []) ∧
      (({ flowRec 1 with tx := List.replicate 255 [1] } : FlowRec).tx.length =
        (s []).params.txbufMax) ∧
      Table.wf (s [(1, flowRec 1)]).flows = true :=
  ⟨fun _ _ _ => ⟨rfl, rfl, by simp [Instr.olen, Instr.operandBytes, Args.put, putTxPush, put16, putBlob,
      putBE, pushArgs, smallest]⟩, by decide +kernel⟩

theorem witness_EncodeEmitsCombination :
    let s (fs : Table FlowRec) : State := { s8 with flows := fs }
    let f : FlowRec := { flowRec 1 with tx := [[1]], txCounter := 5 }
    (∀ fs, (s fs).Running (.encode (.ok 1))) ∧ Table.find 1 (s []).flows = none ∧
      (Table.find 1 (s [(1, flowRec 1)]).flows = some (flowRec 1) ∧
        (flowRec 1).tx.length < (flowRec 1).k.toNat) ∧
      s8.encCap < ({ f with txCounter := 6 } : FlowRec).txCounter ∧
      (Table.find 1 (s [(1, f)]).flows = some f ∧ f.k.toNat ≤ f.tx.length ∧ f.fwd = false ∧
        f.txCounter ≤ s8.encCap ∧ f.k ≠ 0 ∧ 1 ≤ s8.qn ∧ s8.qn ≤ 8) :=
  ⟨fun _ => runs 1048576 rfl rfl rfl (by decide), by decide +kernel⟩

/-- The header of a data packet with k = 2, q = 8 and vector [a, b]. -/
def hdrOf (frag : U16) (a b : Byte) : IntraHeader :=
  { k := 2, q := 8, frag, txtype := 0, sport := 1, dport := 2, coeff := [a, b], hlen := 11 }

/-- A record with k = 2 that holds the row [1, 0]. -/
def rowRec : FlowRec := { flowRec 2 with frag := 5, rank := 1, mat := [[1, 0]], rx := [[9]] }

/-- Each check that turns a packet away, one packet each; q = 4, so that 0x10 is no symbol. -/
theorem witness_RxTurnsPacketsAway :
    let s (fs : Table FlowRec) : State := { smallest with q := 4, kcfg := 2, flows := fs }
    let hdr (frag : Byte) (k q a : Byte) : List Byte := [k, q, 0, frag, 0, 0, 1, 0, 2, a]
    let r (frag : U16) (a b : Byte) : IntraHeader :=
      { k := 2, q := 4, frag, txtype := 0, sport := 1, dport := 2, coeff := [a, b], hlen := 10 }
    (∀ fs pkt, pkt.length ≤ 12 → (s fs).Running (.rxPacket false (.ok { flow := 1, pkt }))) ∧
      (s []).params.qMax = 8 ∧ intraParse 8 (hdr 5 2 9 0) = none ∧
      (∃ h, intraParse 8 (hdr 5 1 8 1) = some h ∧ h.txtype = 0 ∧ h.q.toNat ≠ (s []).qn) ∧
      (∃ h, intraParse 8 (hdr 5 0 4 1) = some h ∧ h.txtype = 0 ∧ h.q.toNat = (s []).qn ∧ h.k = 0) ∧
      (intraParse 8 (hdr 5 2 4 1 ++ [0x10]) = some (r 5 1 0) ∧ (r 5 1 0).k ≠ 0 ∧
        (r 5 1 0).k.toNat ≤ (s []).params.kMax ∧
        ¬ ∀ b ∈ (hdr 5 2 4 1 ++ [0x10]).drop 10, b.toNat < 2 ^ (s []).qn) ∧
      (intraParse 8 (hdr 5 2 4 1 ++ [9]) = some (r 5 1 0) ∧
        ((hdr 5 2 4 1 ++ [9]).drop 10).length ≤ (s []).params.payloadMax ∧
        (∀ b ∈ (hdr 5 2 4 1 ++ [9]).drop 10, b.toNat < 2 ^ (s []).qn)) ∧
      (Table.find 1 (s [(2, rowRec)]).flows = none ∧
        (s [(2, rowRec)]).flows.length = (s []).params.flowsMax) ∧
      Table.find 1 (s [(1, rowRec)]).flows = some rowRec ∧
      (intraParse 8 (hdr 4 2 4 1 ++ [9]) = some (r 4 1 0) ∧ (r 4 1 0).frag < rowRec.frag) ∧
      (∃ h, intraParse 8 (hdr 5 1 4 1 ++ [9]) = some h ∧ h.frag = rowRec.frag ∧ rowRec.rank ≠ 0 ∧
        h.k ≠ rowRec.k) ∧
      ((r 5 1 0).frag = rowRec.frag ∧ (r 5 1 0).k = rowRec.k ∧
        Table.wf (s [(1, rowRec)]).flows = true ∧
        indep (s []).gf 2 (rowRec.rows 2 1) (r 5 1 0).coeff = false) :=
  ⟨fun _ pkt h => ⟨rfl, rfl, by
      simp [Instr.olen, Instr.operandBytes, Args.put, put16, putBlob, putBE, smallest]; omega⟩,
    rfl, by decide +kernel,
    ⟨{ k := 1, q := 8, frag := 5, txtype := 0, sport := 1, dport := 2, coeff := [1], hlen := 10 },
      by decide +kernel⟩,
    ⟨{ k := 0, q := 4, frag := 5, txtype := 0, sport := 1, dport := 2, coeff := [], hlen := 9 },
      by decide +kernel⟩, by decide +kernel, by decide +kernel, by decide +kernel, by decide +kernel,
    by decide +kernel,
    ⟨{ k := 1, q := 4, frag := 5, txtype := 0, sport := 1, dport := 2, coeff := [1], hlen := 10 },
      by decide +kernel⟩, by decide +kernel⟩

/-- The four kinds of record a packet can go to, and the three ends of the insertion. -/
theorem witness_RxInsertsRow :
    let s (fs : Table FlowRec) : State := { s8 with flows := fs }
    (s []).RxTarget true 1 (hdrOf 5 0 1) (newFlow 2 5 true 1 2) ∧
      (s [(1, rowRec)]).RxTarget true 1 (hdrOf 6 0 1)
        { rowRec with frag := 6, k := 2, rank := 0, mat := [], rx := [], txCounter := 0 } ∧
      (s [(1, { flowRec 4 with frag := 5 })]).RxTarget true 1 (hdrOf 5 0 1)
        { flowRec 4 with frag := 5, k := 2 } ∧
      (s [(1, rowRec)]).RxTarget true 1 (hdrOf 5 0 1) rowRec ∧
      (2 ≤ s8.params.kMax ∧ rowRec.mat.length = rowRec.rank.toNat ∧ rowRec.rank < rowRec.k ∧
        indep s8.gf 2 (rowRec.rows 2 1) [1, 0] = false ∧
        indep s8.gf 2 (rowRec.rows 2 1) [0, 1] = true ∧ rowRec.rank + 1 = rowRec.k ∧
        matInv s8.gf 2 (rowRec.rows 2 1 ++ [[0, 1]]) = some [[1, 0], [0, 1]]) ∧
      (indep s8.gf 2 ((newFlow 2 5 true 1 2).rows 2 0) [0, 1] = true ∧
        (newFlow 2 5 true 1 2).rank + 1 ≠ (newFlow 2 5 true 1 2).k) :=
  ⟨.created rfl (by decide), .ahead rowRec rfl (by decide),
    .first { flowRec 4 with frag := 5 } rfl rfl rfl,
    .next rowRec rfl rfl (by decide) rfl, by decide +kernel, by decide +kernel⟩

theorem witness_DecodeDeliversFragment :
    let s (fs : Table FlowRec) : State := { s8 with q := 4, flows := fs }
    let full : FlowRec := { flowRec 2 with rank := 2, mat := [[1, 2], [3, 4]], rx := [[1], [2]] }
    (∀ fs, (s fs).Running (.decode (.ok 1))) ∧ Table.find 1 (s []).flows = none ∧
      (Table.find 1 (s [(1, rowRec)]).flows = some rowRec ∧ rowRec.rank < rowRec.k) ∧
      (Table.find 1 (s [(1, full)]).flows = some full ∧ full.k ≤ full.rank ∧ full.rank = full.k ∧
        matInv (s []).gf 2 (full.rows 2 2) = some [[2, 1], [8, 9]]) :=
  ⟨fun _ => runs 1048576 rfl rfl rfl (by decide), by decide +kernel⟩

theorem witness_RecodeEmitsRecombination :
    let s (m : BitVec 1) (fs : Table FlowRec) : State := { s8 with mode := m, flows := fs }
    let f : FlowRec := { flowRec 3 with
      fwd := true
      rank := 2
      mat := [[1, 0, 0], [0, 1, 0]]
      rx := [[1], [2]]
      txCounter := 1 }
    (∀ m fs, (s m fs).Running (.recode (.ok 1))) ∧ Table.find 1 (s 1 []).flows = none ∧
      (Table.find 1 (s 1 [(1, rowRec)]).flows = some rowRec ∧ rowRec.fwd = false) ∧
      (Table.find 1 (s 1 [(1, f)]).flows = some f ∧ f.fwd = true ∧ (s 1 []).mode = 1 ∧
        (s 0 []).mode = 0 ∧ 2 ≤ f.rank.toNat ∧ f.txCounter ≤ s8.recCap ∧ 1 ≤ s8.qn ∧ s8.qn ≤ 8) ∧
      (rowRec.rank.toNat < 2 ∧ s8.recCap < ({ f with txCounter := 2 } : FlowRec).txCounter) :=
  ⟨fun _ _ => runs 1048576 rfl rfl rfl (by decide), by decide +kernel⟩

theorem witness_ChangeFragmentResyncs :
    let s (fs : Table FlowRec) : State := { s8 with kcfg := 2, flows := fs }
    let f (n : Nat) (fwd : Bool) : FlowRec := { flowRec 2 with
      frag := 5
      fwd
      tx := List.replicate n [1] }
    (∀ fs n, (s fs).Running (.changeFragment (.ok { flow := 1, nfrag := n }))) ∧
      Table.find 1 (s []).flows = none ∧ Table.find 1 (s [(1, f 0 true)]).flows = some (f 0 true) ∧
      (f 0 true).fwd = true ∧ ((f 4 false).fwd = false ∧ (5 : U16) ≤ (f 4 false).frag ∧
        (f 4 false).frag < 6) ∧
      (s []).kcfg.toNat ≤ ((f 4 false).tx.drop (min (f 4 false).k.toNat (f 4 false).tx.length)).length ∧
      ((f 3 false).tx.drop (min (f 3 false).k.toNat (f 3 false).tx.length)).length <
        (s []).kcfg.toNat ∧
      ((s []).kcfg ≠ 0 ∧ 1 ≤ (s []).qn ∧ (s []).qn ≤ 8) ∧
      (∃ r, intraParse (s []).params.qMax [0, 8, 0, 6, 1, 0, 1, 0, 2] = some r ∧ r.txtype ≠ 0 ∧ r.frag = 6) ∧
      (s []).Running (.rxPacket false (.ok { flow := 1, pkt := [0, 8, 0, 6, 1, 0, 1, 0, 2] })) :=
  ⟨fun _ _ => runs 1048576 rfl rfl rfl (show 4 ≤ 1048576 by decide), by decide, by decide, by decide, by decide, by decide, by decide,
    by decide,
    ⟨{ k := 0, q := 8, frag := 6, txtype := 1, sport := 1, dport := 2, coeff := [], hlen := 9 },
      by decide +kernel, by decide, rfl⟩, ⟨rfl, rfl, by decide⟩⟩

theorem witness_StepKeepsFlowInv :
    let s : State := { s8 with flows := [(1, rowRec)] }
    s.FlowInv ∧ ∃ t, step s = .next t := by
  refine ⟨⟨by decide, by decide, fun e he => ?_, by decide, fun _ => by decide,
    by decide, fun h => by cases h⟩, ⟨_, rfl⟩⟩
  obtain rfl : e = (1, rowRec) := by simpa using he
  exact ⟨by decide, by decide, by decide, by decide, by decide, by decide, by decide, by decide +kernel, by decide +kernel,
    by decide +kernel, fun _ => by decide, fun _ => by decide +kernel⟩

theorem witness_RankStaysBelowK :
    (∀ e ∈ [((1 : U16), rowRec)], e.2.rank < e.2.k) ∧
      ∃ t, step { s8 with flows := [(1, rowRec)] } = .next t :=
  ⟨by decide, ⟨_, rfl⟩⟩

end Sys2Proof.Tests
end

section
/-!
PROOFS. What a step reads from the command port, and the sticky fault (10_state R28, 60_exceptions R337): while
FAULT = 1 a step can only answer.
-/

namespace Sys2Proof

/-! ## The opcode of a fetched command -/

/-- The decoder's table and the encoder's table give a command the same OPC (30_encoding R101). -/
theorem instrOf_opcode {opc : Byte} {flag : Bool} {ops : List Byte} {i : Instr}
    (h : instrOf opc flag ops = some i) : i.opcode = opc := by
  unfold instrOf at h
  split at h
  all_goals cases h
  all_goals exact BitVec.eq_of_toNat_eq (Eq.symm ‹opc.toNat = _›)

/-- The header checks keep the OPC, of a command and of one that is none. -/
theorem decodeCommand_cases (opc flg r1 r0 : Byte) (ops : List Byte) :
    (∃ why, decodeCommand opc flg r1 r0 ops = .illegal opc why) ∨
      ∃ i, decodeCommand opc flg r1 r0 ops = .instr i ∧ i.opcode = opc := by
  unfold decodeCommand
  split
  · exact .inl ⟨_, rfl⟩
  · rename_i i hi
    split
    · exact .inl ⟨_, rfl⟩
    · exact .inr ⟨i, rfl, instrOf_opcode hi⟩

/-- The first byte of the command stream is the OPC of the command fetched from it (30_encoding R91). -/
theorem fetchCommand_opcode {opc : Byte} {tail rest : List Byte} {d : Decoded}
    (h : fetchCommand (opc :: tail) = some (d, rest)) :
    (∃ why, d = .illegal opc why) ∨ ∃ i, d = .instr i ∧ i.opcode = opc := by
  unfold fetchCommand at h
  split at h
  · rename_i opc' flg r1 r0 l3 l2 l1 l0 body heq
    obtain ⟨rfl, -⟩ := List.cons.inj heq
    simp only [Option.bind_eq_bind, Option.bind_eq_some_iff, Prod.exists] at h
    obtain ⟨ops, body', -, h⟩ := h
    cases h
    exact decodeCommand_cases ..
  · cases h

namespace Machine

/-! ## One step, by what is fetched -/

theorem step_illegal {s : State} {opc : Byte} {why : DecodeError} {rest : List Byte}
    (hr : s.resetPin = false) (hf : fetchCommand s.cmdIn = some (.illegal opc why, rest)) :
    step s = .next (State.rejectIllegal { s with cmdIn := rest } opc) := by
  simp [step, hr, hf]

theorem step_instr {s : State} {i : Instr} {rest : List Byte}
    (hr : s.resetPin = false) (hf : fetchCommand s.cmdIn = some (.instr i, rest)) :
    step s = exec i { s with cmdIn := rest } := by
  simp [step, hr, hf]

theorem step_reset {s : State} (hr : s.resetPin = true) : step s = .next s.applyReset := by
  simp [step, hr]

/-- A rejected command only answers. -/
theorem rejectIllegal_cases (s : State) (opc : Byte) :
    ∃ st, s.rejectIllegal opc = s.respond st [] := by
  unfold State.rejectIllegal
  split
  · exact ⟨_, rfl⟩
  · exact ⟨_, rfl⟩

/-! ## The fault state -/

/-- While FAULT = 1 a command other than REG_READ is turned away (30_encoding R92 step 1). -/
theorem exec_of_faulted {s : State} {i : Instr} (hf : s.faulted = true)
    (hi : i.opcode ≠ regReadOpcode) : exec i s = .next (s.respond .eFaulted []) := by
  have hw : s.turnedAway i.opcode i.olen (phaseNeed i) = some .eFaulted := by
    simp [State.turnedAway, hf, hi]
  rw [exec_eq, hw]

/-- While FAULT = 1 bytes that are no command answer E_FAULTED too, unless they name REG_READ. -/
theorem rejectIllegal_of_faulted {s : State} {opc : Byte} (hf : s.faulted = true)
    (ho : opc ≠ regReadOpcode) : s.rejectIllegal opc = s.respond .eFaulted [] := by
  simp [State.rejectIllegal, hf, ho]

/-- REG_READ answers, and does nothing else. -/
theorem rule_regRead_finish (o : Args Byte) (s : State) :
    ∃ st b, (rule (.regRead o) s).finish = s.respond st b := by
  cases o with
  | bad bs => exact ⟨_, _, rfl⟩
  | ok reg =>
    simp only [rule, Args.ending_ok, regReadBody]
    split
    · exact ⟨_, _, rfl⟩
    · exact ⟨_, _, rfl⟩

/-- While FAULT = 1 every command only answers: REG_READ is the one that is not turned away. -/
theorem exec_of_faulted_responds {s t : State} {i : Instr} (hf : s.faulted = true)
    (h : exec i s = .next t) : ∃ st b, t = s.respond st b := by
  by_cases hi : i.opcode = regReadOpcode
  · obtain ⟨o, rfl⟩ := opcode_eq_regRead hi
    rcases exec_cases h with ⟨st, -, rfl⟩ | ⟨-, rfl⟩
    · exact ⟨st, [], rfl⟩
    · exact rule_regRead_finish o s
  · rw [exec_of_faulted hf hi] at h
    cases h
    exact ⟨_, _, rfl⟩

/-- Without the reset signal a step keeps FAULT = 1 and FCODE. -/
theorem step_keeps_fault {s t : State} (hf : s.faulted = true) (hr : s.resetPin = false)
    (h : step s = .next t) : t.faulted = true ∧ t.fcode = s.fcode := by
  rcases step_cases h with ⟨hp, -⟩ | ⟨-, -, rfl⟩ | ⟨-, opc, why, rest, -, rfl⟩ | ⟨-, i, rest, -, he⟩
  · rw [hr] at hp
    cases hp
  · exact ⟨hf, rfl⟩
  · obtain ⟨st, hst⟩ := rejectIllegal_cases { s with cmdIn := rest } opc
    rw [hst]
    exact ⟨hf, rfl⟩
  · obtain ⟨st, b, rfl⟩ := exec_of_faulted_responds (s := { s with cmdIn := rest }) hf he
    exact ⟨hf, rfl⟩

/-- Settles O12: while FAULT = 1 a step only answers (`step_keeps_fault`), and the first byte of the command
stream decides whether the command is turned away (`fetchCommand_opcode`). -/
theorem faultStateIsSticky : Obligations.FaultStateIsSticky := by
  refine ⟨⟨rfl, rfl⟩, fun s hf hr => ⟨fun t => step_keeps_fault hf hr, ?_⟩⟩
  intro opc tail d rest ho hc hd
  rcases fetchCommand_opcode (hc ▸ hd) with ⟨why, rfl⟩ | ⟨i, rfl, rfl⟩
  · rw [step_illegal hr hd, rejectIllegal_of_faulted (s := { s with cmdIn := rest }) hf ho]
  · rw [step_instr hr hd, exec_of_faulted (s := { s with cmdIn := rest }) hf ho]

end Machine

end Sys2Proof
end

section
/-!
PROOFS. The frame of every command's rule. `State.setup` is the part of the state that only reset, CFG_WRITE,
START, the capacity fault and the fetch may write: the phase, the fault, the configuration registers, the
command port, the reset signal and the parameters. Each procedure of the model keeps it.
-/

namespace Sys2Proof.Machine

/-- The state with all that the commands of RUN work on blanked: the clock, the tables, the out ports and the
oracle's side. Two states with the same `setup` agree on every other field. -/
def State.setup (s : State) : State :=
  { s with
    now := 0
    tseq := 0
    pool := []
    oq := []
    flows := []
    outputs := []
    draws := []
    freeCount := 0 }

/-- The state a rule's steps left. -/
def Ending.left : Ending → State
  | .done _ _ s => s
  | .capacity s => s

/-- The state a procedure's steps left. -/
def Proc.left : Proc → State
  | .goOn s => s
  | .capacity s => s

section
variable {s t : State}

theorem State.phase_eq_of_setup (h : t.setup = s.setup) : t.phase = s.phase :=
  show t.setup.phase = s.setup.phase by rw [h]

@[simp] theorem Ending.left_done (st : Status) (b : List Byte) (s : State) :
    (Ending.done st b s).left = s := rfl

@[simp] theorem Ending.left_capacity (s : State) : (Ending.capacity s).left = s := rfl

@[simp] theorem Proc.left_goOn (s : State) : (Proc.goOn s).left = s := rfl

@[simp] theorem Proc.left_capacity (s : State) : (Proc.capacity s).left = s := rfl

@[simp] theorem Ending.finish_phase (e : Ending) : e.finish.phase = e.left.phase := by
  cases e <;> rfl

@[simp] theorem Proc.left_respondOk (p : Proc) (b : List Byte) : (p.respondOk b).left = p.left := by
  cases p <;> rfl

/-- Procedures that keep `setup` keep it one after the other. -/
theorem Proc.andThen_setup {p : Proc} {f : State → Proc} (hp : p.left.setup = s.setup)
    (hf : ∀ s', (f s').left.setup = s'.setup) : (p.andThen f).left.setup = s.setup := by
  cases p with
  | goOn s' => exact (hf s').trans hp
  | capacity s' => exact hp

/-! ## The state's own operations -/

@[simp] theorem State.setup_emit (s : State) (r : Record) : (s.emit r).setup = s.setup := rfl

@[simp] theorem State.setup_respond (s : State) (st : Status) (b : List Byte) :
    (s.respond st b).setup = s.setup := rfl

@[simp] theorem State.setup_countArm (s : State) : s.countArm.setup = s.setup := rfl

@[simp] theorem State.setup_afterDraw (s : State) : s.afterDraw.setup = s.setup := rfl

@[simp] theorem State.setup_putFlow (s : State) (g : U16) (f : FlowRec) :
    (s.putFlow g f).setup = s.setup := rfl

@[simp] theorem State.setup_putBucket (s : State) (g : U16) (b : Bucket) :
    (s.putBucket g b).setup = s.setup := rfl

/-! ## Flow procedures -/

theorem encodeCore_setup {flow : U16} {f : FlowRec} (h : s.encodeCore flow f = some t) :
    t.setup = s.setup := by
  cases hok : s.encOk f with
  | true => rw [encodeCore_fired flow hok] at h; cases h; rfl
  | false => rw [encodeCore_notFired flow hok] at h; cases h

@[simp] theorem encodeOrKeep_setup (s : State) (flow : U16) (f : FlowRec) :
    (s.encodeOrKeep flow f).setup = s.setup := by
  unfold State.encodeOrKeep
  cases h : s.encodeCore flow f with
  | none => rfl
  | some t => exact encodeCore_setup h

@[simp] theorem decodeCore_setup (s : State) (flow : U16) (f : FlowRec) :
    (s.decodeCore flow f).setup = s.setup := by
  rw [decodeCore_eq]
  rfl

@[simp] theorem recodeCombine_setup (s : State) (flow : U16) (f : FlowRec) :
    (s.recodeCombine flow f).setup = s.setup := rfl

theorem changeFragmentCore_setup {flow nfrag : U16} {f : FlowRec}
    (h : s.changeFragmentCore flow f nfrag = some t) : t.setup = s.setup := by
  rw [changeFragmentCore_eq] at h
  split at h
  · cases h; rfl
  · split at h
    · cases h
    · split at h
      · cases h; exact encodeOrKeep_setup ..
      · cases h; rfl

@[simp] theorem changeFragmentEnding_setup (s : State) (flow nfrag : U16) :
    (s.changeFragmentEnding flow nfrag).left.setup = s.setup := by
  unfold State.changeFragmentEnding
  split
  · rfl
  · split
    · rfl
    · rename_i h; exact changeFragmentCore_setup h

@[simp] theorem flowExpire_setup (s : State) (flow : U16) : (s.flowExpire flow).setup = s.setup := by
  rw [flowExpire_eq]
  split
  · rfl
  · split
    · exact encodeOrKeep_setup ..
    · rfl

@[simp] theorem insertRow_setup (s : State) (flow : U16) (f : FlowRec) (v payload : List Byte) :
    (s.insertRow flow f v payload).left.setup = s.setup := by
  rw [insertRow_eq]
  split
  · rfl
  · split
    · exact decodeCore_setup ..
    · rfl

@[simp] theorem receiveData_setup (s : State) (flow : U16) (f : FlowRec) (r : IntraHeader)
    (payload : List Byte) : (s.receiveData flow f r payload).left.setup = s.setup := by
  unfold State.receiveData
  split_ifs <;> simp

@[simp] theorem pushTx_setup (s : State) (flow : U16) (f : FlowRec) (payload : List Byte) :
    (s.pushTx flow f payload).left.setup = s.setup := by
  unfold State.pushTx
  split
  · rfl
  · split
    · rfl
    · rfl

/-! ## Pool procedures -/

@[simp] theorem armPool_setup (s : State) (g : U16) : (s.armPool g).setup = s.setup := by
  rcases armPool_cases s g with ⟨-, h⟩ | ⟨b, -, h⟩
  · rw [h]
  · rw [h]; rfl

theorem takeHead_setup {g : U16} {it : Item} (h : s.takeHead g = some (it, t)) :
    t.setup = s.setup := by
  obtain ⟨p, n, rfl⟩ := takeHead_frame h
  rfl

@[simp] theorem gather_setup (s : State) (n : Nat) (gs : List U16) :
    (s.gather n gs).2.setup = s.setup := by
  obtain ⟨p, m, h⟩ := gather_frame gs n s
  rw [h]
  rfl

@[simp] theorem pushBatch_setup (s : State) (first : Item) (others : List Item) :
    (s.pushBatch first others).left.setup = s.setup := by
  rw [pushBatch_eq]
  split
  · rfl
  · rfl

@[simp] theorem search_setup (s : State) (fk : U16) : (s.search fk).left.setup = s.setup := by
  rw [search_eq]
  split
  · rfl
  · split
    · rfl
    · rename_i h; simp [takeHead_setup h]

@[simp] theorem poolExpire_setup (s : State) (fk : U16) :
    (s.poolExpire fk).left.setup = s.setup := by
  rw [poolExpire_eq]
  split
  · rfl
  · rename_i h; simp [takeHead_setup h]

@[simp] theorem insertItem_setup (s : State) (it : Item) :
    (s.insertItem it).left.setup = s.setup := by
  unfold State.insertItem
  split
  · split
    · rfl
    · simp
  · split
    · rfl
    · exact Proc.andThen_setup (by simp) (by simp)

/-! ## The timer loop -/

@[simp] theorem fire_setup (s : State) (e : Timer × Owner) : (s.fire e).left.setup = s.setup := by
  obtain ⟨tm, fk | flow⟩ := e
  · exact poolExpire_setup ..
  · exact flowExpire_setup ..

@[simp] theorem fireDue_setup (n : Nat) (u : U64) (s : State) :
    (State.fireDue n u s).left.setup = s.setup := by
  induction n generalizing s with
  | zero => rfl
  | succ n ih =>
    unfold State.fireDue
    split
    · rfl
    · exact Proc.andThen_setup (fire_setup ..) ih

/-! ## The rules -/

theorem timeAdvanceBody_setup (u : U64) (s : State) :
    (timeAdvanceBody u s).left.setup = s.setup := by
  unfold timeAdvanceBody
  split
  · rfl
  · rw [Proc.left_respondOk]
    exact Proc.andThen_setup (fireDue_setup ..) fun _ => rfl

theorem poolInsertBody_setup (native : Bool) (a : PoolInsertArgs) (s : State) :
    (poolInsertBody native a s).left.setup = s.setup := by
  unfold poolInsertBody
  split
  · rfl
  · simp only
    split
    · simp
    · rw [Proc.left_respondOk]
      exact Proc.andThen_setup (insertItem_setup ..) fun _ => search_setup ..

theorem oqPopFrameBody_setup (a : OqPopArgs) (s : State) :
    (oqPopFrameBody a s).left.setup = s.setup := by
  unfold oqPopFrameBody
  split
  · rfl
  · split
    · rfl
    · rfl

theorem txPushBody_setup (a : TxPushArgs) (s : State) :
    (txPushBody a s).left.setup = s.setup := by
  unfold txPushBody
  split
  · rfl
  · split
    · exact pushTx_setup ..
    · split
      · rfl
      · exact pushTx_setup ..

theorem encodeBody_setup (flow : U16) (s : State) : (encodeBody flow s).left.setup = s.setup := by
  unfold encodeBody
  split
  · rfl
  · split
    · rfl
    · rename_i h; exact encodeCore_setup h

theorem rxDataBody_setup (fwd : Bool) (flow : U16) (r : IntraHeader) (payload : List Byte)
    (s : State) : (rxDataBody fwd flow r payload s).left.setup = s.setup := by
  unfold rxDataBody
  split
  · rfl
  · split
    · rfl
    · split
      · rfl
      · split
        · exact receiveData_setup ..
        · split
          · rfl
          · exact receiveData_setup ..

theorem rxPacketBody_setup (fwd : Bool) (a : RxPacketArgs) (s : State) :
    (rxPacketBody fwd a s).left.setup = s.setup := by
  unfold rxPacketBody
  split
  · rfl
  · split
    · exact changeFragmentEnding_setup ..
    · exact rxDataBody_setup ..

theorem decodeBody_setup (flow : U16) (s : State) : (decodeBody flow s).left.setup = s.setup := by
  unfold decodeBody
  split
  · rfl
  · split
    · rfl
    · exact decodeCore_setup ..

theorem recodeBody_setup (flow : U16) (s : State) : (recodeBody flow s).left.setup = s.setup := by
  unfold recodeBody
  split
  · rfl
  · split
    · rfl
    · rfl

/-! ## The rules of the commands that only answer (20_memory R75) -/

theorem regReadBody_left (reg : Byte) (s : State) : (regReadBody reg s).left = s := by
  unfold regReadBody
  split
  · rfl
  · rfl

theorem hdrBuildInterBody_left (a : HdrBuildInterArgs) (s : State) :
    (hdrBuildInterBody a s).left = s := by
  unfold hdrBuildInterBody
  split
  · rfl
  · rfl

theorem hdrParseInterBody_left (pkt : List Byte) (s : State) :
    (hdrParseInterBody pkt s).left = s := by
  unfold hdrParseInterBody
  split
  · rfl
  · rfl

theorem hdrBuildIntraBody_left (a : HdrBuildIntraArgs) (s : State) :
    (hdrBuildIntraBody a s).left = s := by
  unfold hdrBuildIntraBody
  split_ifs <;> rfl

theorem hdrParseIntraBody_left (pkt : List Byte) (s : State) :
    (hdrParseIntraBody pkt s).left = s := by
  unfold hdrParseIntraBody
  split
  · rfl
  · rfl

theorem xorEncBody_left (ps : List (List Byte)) (s : State) : (xorEncBody ps s).left = s := by
  unfold xorEncBody
  split_ifs <;> rfl

theorem xorDecBody_left (a : XorDecArgs) (s : State) : (xorDecBody a s).left = s := by
  unfold xorDecBody
  split_ifs <;> rfl

theorem gfMulBody_left (x : GfMulArgs) (s : State) : (gfMulBody x s).left = s := by
  unfold gfMulBody
  split_ifs <;> rfl

theorem gfInvBody_left (a : Byte) (s : State) : (gfInvBody a s).left = s := by
  unfold gfInvBody
  split_ifs <;> rfl

theorem matRankBody_left (x : MatRankArgs) (s : State) : (matRankBody x s).left = s := by
  unfold matRankBody
  split_ifs <;> rfl

theorem matInvBody_left (x : MatInvArgs) (s : State) : (matInvBody x s).left = s := by
  unfold matInvBody
  simp only
  split_ifs
  · rfl
  · rfl
  · rfl
  · split
    · rfl
    · rfl

theorem poolStatBody_left (fk : U16) (s : State) : (poolStatBody fk s).left = s := by
  unfold poolStatBody
  split
  · rfl
  · rfl

theorem flowStatBody_left (flow : U16) (s : State) : (flowStatBody flow s).left = s := by
  unfold flowStatBody
  split
  · rfl
  · rfl

theorem flowRowBody_left (a : FlowRowArgs) (s : State) : (flowRowBody a s).left = s := by
  unfold flowRowBody
  split
  · rfl
  · split
    · rfl
    · rfl

/-- Operands that do not parse leave the state alone, so what a rule keeps is kept with any operands. -/
theorem Args.ending_keeps {α β : Type} (g : State → β) (o : Args α) {body : α → State → Ending}
    (hb : ∀ a, g (body a s).left = g s) : g (Args.ending o body s).left = g s := by
  cases o with
  | ok a => exact hb a
  | bad bs => rfl

/-- The commands 20_memory R75 lists leave the state as it is. -/
theorem rule_left_of_noSideEffect {i : Instr} (s : State) (h : hasNoSideEffect i = true) :
    (rule i s).left = s := by
  cases i with
  | regRead o => exact Args.ending_keeps id o fun a => regReadBody_left a s
  | hash o => exact Args.ending_keeps id o fun _ => rfl
  | hdrBuildInter o => exact Args.ending_keeps id o fun a => hdrBuildInterBody_left a s
  | hdrParseInter o => exact Args.ending_keeps id o fun a => hdrParseInterBody_left a s
  | hdrBuildIntra o => exact Args.ending_keeps id o fun a => hdrBuildIntraBody_left a s
  | hdrParseIntra o => exact Args.ending_keeps id o fun a => hdrParseIntraBody_left a s
  | xorEnc o => exact Args.ending_keeps id o fun a => xorEncBody_left a s
  | xorDec o => exact Args.ending_keeps id o fun a => xorDecBody_left a s
  | gfMul o => exact Args.ending_keeps id o fun a => gfMulBody_left a s
  | gfInv o => exact Args.ending_keeps id o fun a => gfInvBody_left a s
  | matRank o => exact Args.ending_keeps id o fun a => matRankBody_left a s
  | matInv o => exact Args.ending_keeps id o fun a => matInvBody_left a s
  | poolStat o => exact Args.ending_keeps id o fun a => poolStatBody_left a s
  | flowStat o => exact Args.ending_keeps id o fun a => flowStatBody_left a s
  | flowRow o => exact Args.ending_keeps id o fun a => flowRowBody_left a s
  | nop | cfgWrite | start | timeAdvance | vecGen | poolInsert | oqPopFrame | txPush | encode
  | rxPacket | decode | recode | changeFragment => simp [hasNoSideEffect] at h

theorem vecGenBody_setup (n : Byte) (s : State) : (vecGenBody n s).left.setup = s.setup := by
  unfold vecGenBody
  split
  · rfl
  · rfl

/-- Every command but those of CONFIG keeps `setup`: the phase, the fault, the configuration registers, the
command port, the reset signal and the parameters. -/
theorem rule_setup {i : Instr} (s : State) (h : phaseNeed i ≠ .config) :
    (rule i s).left.setup = s.setup := by
  by_cases hn : hasNoSideEffect i = true
  · rw [rule_left_of_noSideEffect s hn]
  · cases i with
    | nop o => exact Args.ending_keeps State.setup o fun _ => rfl
    | timeAdvance o =>
      exact Args.ending_keeps State.setup o (timeAdvanceBody_setup · s)
    | vecGen o => exact Args.ending_keeps State.setup o (vecGenBody_setup · s)
    | poolInsert native o =>
      exact Args.ending_keeps State.setup o (poolInsertBody_setup native · s)
    | oqPopFrame o =>
      exact Args.ending_keeps State.setup o (oqPopFrameBody_setup · s)
    | txPush o => exact Args.ending_keeps State.setup o (txPushBody_setup · s)
    | encode o => exact Args.ending_keeps State.setup o (encodeBody_setup · s)
    | rxPacket fwd o =>
      exact Args.ending_keeps State.setup o (rxPacketBody_setup fwd · s)
    | decode o => exact Args.ending_keeps State.setup o (decodeBody_setup · s)
    | recode o => exact Args.ending_keeps State.setup o (recodeBody_setup · s)
    | changeFragment o =>
      exact Args.ending_keeps State.setup o fun _ => changeFragmentEnding_setup ..
    | cfgWrite | start => exact absurd rfl h
    | regRead | hash | hdrBuildInter | hdrParseInter | hdrBuildIntra | hdrParseIntra | xorEnc
    | xorDec | gfMul | gfInv | matRank | matInv | poolStat | flowStat | flowRow =>
      exact absurd rfl hn

end

end Sys2Proof.Machine
end

section
/-!
PROOFS. The phase (10_state R27): of the two commands of CONFIG only START writes it.
-/

namespace Sys2Proof.Machine

/-- CFG_WRITE writes configuration registers only. -/
@[simp] theorem writeReg_phase (s : State) (r : Reg) (v : U32) : (s.writeReg r v).phase = s.phase := by
  cases r <;> rfl

theorem cfgWriteBody_phase (a : CfgWriteArgs) (s : State) :
    (cfgWriteBody a s).left.phase = s.phase := by
  unfold cfgWriteBody
  split
  · rfl
  · split_ifs
    · rfl
    · rfl
    · exact writeReg_phase ..

/-- START enters RUN when MCP, Q and KCFG are set (40_control R133). -/
theorem startBody_of_configured {s : State} (hm : s.mcp ≠ 0) (hq : s.q ≠ 0) (hk : s.kcfg ≠ 0) :
    startBody () s = .done .ok [] { s with phase := .run } :=
  if_neg (not_or.2 ⟨hm, not_or.2 ⟨hq, hk⟩⟩)

/-- START keeps the phase or enters RUN. -/
theorem startBody_phase (u : Unit) (s : State) :
    (startBody u s).left.phase = s.phase ∨ (startBody u s).left.phase = .run := by
  unfold startBody
  split
  · exact .inl rfl
  · exact .inr rfl

/-- A rule keeps the phase, or it is START's and enters RUN. -/
theorem rule_phase (i : Instr) (s : State) :
    (rule i s).left.phase = s.phase ∨ (i = .start (.ok ()) ∧ (rule i s).left.phase = .run) := by
  by_cases hc : phaseNeed i = .config
  · cases i with
    | cfgWrite o =>
      exact .inl (Args.ending_keeps State.phase o (cfgWriteBody_phase · s))
    | start o =>
      cases o with
      | bad bs => exact .inl rfl
      | ok u => exact (startBody_phase u s).imp_right fun hrun => ⟨rfl, hrun⟩
    | _ => cases hc
  · exact .inl (State.phase_eq_of_setup (rule_setup s hc))

/-- A command keeps the phase, or it is START and enters RUN. -/
theorem exec_phase {i : Instr} {s t : State} (h : exec i s = .next t) :
    t.phase = s.phase ∨ (i = .start (.ok ()) ∧ t.phase = .run) := by
  rcases exec_cases h with ⟨st, -, rfl⟩ | ⟨-, rfl⟩
  · exact .inl rfl
  · rw [Ending.finish_phase]
    exact rule_phase i s

/-- What a step does to the phase: reset puts it in CONFIG, START may enter RUN, all else keeps it. -/
theorem step_phase {s t : State} (h : step s = .next t) :
    (s.resetPin = true ∧ t.phase = .config) ∨ t.phase = s.phase ∨
      ((∃ rest, fetchCommand s.cmdIn = some (.instr (.start (.ok ())), rest)) ∧ t.phase = .run) := by
  rcases step_cases h with ⟨hp, rfl⟩ | ⟨-, -, rfl⟩ | ⟨-, opc, why, rest, -, rfl⟩ | ⟨-, i, rest, hi, he⟩
  · exact .inl ⟨hp, rfl⟩
  · exact .inr (.inl rfl)
  · obtain ⟨st, hst⟩ := rejectIllegal_cases { s with cmdIn := rest } opc
    rw [hst]
    exact .inr (.inl rfl)
  · rcases exec_phase he with hkeep | ⟨rfl, hrun⟩
    · exact .inr (.inl hkeep)
    · exact .inr (.inr ⟨⟨rest, hi⟩, hrun⟩)

/-- STATUS.RUN is bit 0 of STATUS, and no other field reaches it (10_state R22). -/
theorem statusWord_run (s : State) : s.statusWord.getLsbD 0 = decide (s.phase = .run) := by
  have hfault : (if s.faulted then 2#32 ||| (s.fcode.setWidth 32 <<< 8) else 0#32).getLsbD 0 = false := by
    split
    · simp
    · rfl
  have hoqne : (if s.oqne then 4#32 else 0#32).getLsbD 0 = false := by
    split
    · rfl
    · rfl
  have hrun : (if s.phase = .run then 1#32 else 0#32).getLsbD 0 = decide (s.phase = .run) := by
    split
    · simp [*]
    · simp [*]
  rw [State.statusWord, BitVec.getLsbD_or, BitVec.getLsbD_or, hrun, hfault, hoqne, Bool.or_false,
    Bool.or_false]

/-- Settles O18: each clause is a case of `step_phase`, and START's own equation gives the move to RUN. -/
theorem phaseMovesByStartAndReset : Obligations.PhaseMovesByStartAndReset := by
  refine ⟨rfl, fun s t h hp hr => ?_, fun s t h hc hr => ?_, fun s hs hm hq hk => ?_,
    fun s hp => ⟨s.applyReset, step_reset hp, rfl⟩, statusWord_run⟩
  · rcases step_phase h with ⟨hp', -⟩ | hkeep | ⟨-, hrun⟩
    · rw [hp] at hp'
      cases hp'
    · exact hkeep.trans hr
    · exact hrun
  · rcases step_phase h with ⟨-, hcfg⟩ | hkeep | ⟨hstart, -⟩
    · rw [hr] at hcfg
      cases hcfg
    · rw [hr, hc] at hkeep
      cases hkeep
    · exact hstart
  · refine ⟨_, hs.exec_eq rfl, ?_⟩
    rw [Ending.finish_phase, rule, Args.ending_ok, startBody_of_configured hm hq hk]
    rfl

end Sys2Proof.Machine
end

section
/-!
PROOFS. NOP (40_control R130): no phase requirement and no rule of its own, so only the decode checks of
30_encoding R92 can answer instead of OK.
-/

namespace Sys2Proof

/-- An opcode that defines no FLG bit rejects any set bit of FLG or RSV (30_encoding R92 step 3). -/
theorem decodeCommand_reservedBits {opc flg r1 r0 : Byte} {ops : List Byte} {i : Instr}
    (hi : instrOf opc (flg.getLsbD 0) ops = some i) (hflag : flagBitZeroDefined opc = false)
    (hne : (flg, r1, r0) ≠ (0, 0, 0)) :
    decodeCommand opc flg r1 r0 ops = .illegal opc .reservedBits := by
  have hbits : r1 ≠ 0 ∨ r0 ≠ 0 ∨ ¬ (flg = 0 ∨ flg = 1 ∧ flagBitZeroDefined opc = true) := by
    by_contra hnone
    obtain ⟨h1, h0, hf⟩ : r1 = 0 ∧ r0 = 0 ∧ flg = 0 := by simpa [hflag] using hnone
    exact hne (by rw [h1, h0, hf])
  unfold decodeCommand
  rw [hi]
  exact if_pos hbits

namespace Machine

/-- A command that passes the checks of 30_encoding R92 steps 1, 4 and 5 runs its rule. -/
theorem exec_of_accepted {s : State} {i : Instr}
    (h : s.turnedAway i.opcode i.olen (phaseNeed i) = none) : exec i s = .next (rule i s).finish := by
  rw [exec_eq, h]

/-- OLEN beyond CMD_MAX answers E_OPERAND (30_encoding R92 step 4). -/
theorem exec_of_tooLong {s : State} {i : Instr} (hf : s.faulted = false)
    (hlen : s.params.cmdMax < i.olen) : exec i s = .next (s.respond .eOperand []) := by
  have hw : s.turnedAway i.opcode i.olen (phaseNeed i) = some .eOperand := by
    simp [State.turnedAway, hf, hlen]
  rw [exec_eq, hw]

/-- In either phase an unfaulted engine runs a NOP's rule when OLEN is within CMD_MAX. -/
theorem exec_nop_of_fits {s : State} {o : Args Unit} (hf : s.faulted = false)
    (hlen : (Instr.nop o).olen ≤ s.params.cmdMax) :
    exec (.nop o) s = .next (rule (.nop o) s).finish :=
  exec_of_accepted (turnedAway_none.2 ⟨.inl hf, hlen, rfl⟩)

/-- Operand bytes behind a NOP answer E_OPERAND: too long for CMD_MAX (30_encoding R92 step 4), or left
over by its empty layout (step 6). -/
theorem exec_nop_bad {s : State} (bs : List Byte) (hf : s.faulted = false) :
    exec (.nop (.bad bs)) s = .next (s.respond .eOperand []) := by
  rcases Nat.lt_or_ge s.params.cmdMax (Instr.nop (.bad bs)).olen with hlong | hfits
  · exact exec_of_tooLong hf hlong
  · exact exec_nop_of_fits hf hfits

/-- Settles O14: the empty operands always fit CMD_MAX, and opcode 0 defines no FLG bit. -/
theorem nopDoesNothing : Obligations.NopDoesNothing := by
  refine ⟨fun s hf => ?accepted, fun s o hf => ?faulted, fun s bs hf => exec_nop_bad bs hf, rfl, rfl,
    fun flg r1 r0 ops hne => ?reserved⟩
  case accepted => exact exec_nop_of_fits hf (Nat.zero_le _)
  case faulted => exact exec_of_faulted (i := .nop o) hf (show (0x00#8 : Byte) ≠ 0x01#8 by decide)
  case reserved => exact decodeCommand_reservedBits rfl rfl hne

end Machine

end Sys2Proof
end

section
/-!
PROOFS. The bit layout of packed coefficients (42_headers R170): PACK and UNPACK both cut one LSB-first bit
stream into values, so each is read off from what `lowBits` puts into the stream and `chunkBits` takes out.
-/

namespace Sys2Proof.Machine

/-- The number with a list of bits has just these bits. -/
theorem testBit_bitsValue (s : List Bool) (j : Nat) : (bitsValue s).testBit j = s.getD j false := by
  induction s generalizing j with
  | nil => simp [bitsValue]
  | cons b s ih =>
    have hcons : bitsValue (b :: s) = Nat.bit b (bitsValue s) := by
      rw [bitsValue, Nat.bit_val, Nat.add_comm]
    rw [hcons]
    cases j with
    | zero => rw [Nat.testBit_bit_zero, List.getD_cons_zero]
    | succ j => rw [Nat.testBit_bit_succ, ih, List.getD_cons_succ]

@[simp] theorem chunkBits_length (n m : Nat) (s : List Bool) : (chunkBits n m s).length = m := by
  induction m generalizing s with
  | zero => rfl
  | succ m ih => simp [chunkBits, ih]

/-- A value taken from the front of the stream holds its first n bits, and 0 above them. -/
theorem getLsbD_bitsValue_take {n : Nat} (hn : n ≤ 8) (s : List Bool) (j : Nat) :
    (BitVec.ofNat 8 (bitsValue (s.take n))).getLsbD j = (decide (j < n) && s.getD j false) := by
  rw [BitVec.getLsbD_ofNat, testBit_bitsValue]
  by_cases hj : j < n
  · simp [hj, hj.trans_le hn]
  · simp [hj]

/-- Bit j of value i is stream bit i·n + j; every other bit is 0. -/
theorem getLsbD_chunkBits {n : Nat} (hn : n ≤ 8) (m : Nat) (s : List Bool) (i j : Nat) :
    ((chunkBits n m s).getD i 0).getLsbD j =
      (decide (i < m ∧ j < n) && s.getD (i * n + j) false) := by
  induction m generalizing s i with
  | zero => simp [chunkBits]
  | succ m ih =>
    rw [chunkBits]
    cases i with
    | zero =>
      rw [List.getD_cons_zero, getLsbD_bitsValue_take hn]
      simp
    | succ i =>
      have hpos : n + (i * n + j) = (i + 1) * n + j := by ring
      rw [List.getD_cons_succ, ih]
      simp [hpos]

@[simp] theorem lowBits_length (n : Nat) (b : Byte) : (lowBits n b).length = n := by simp [lowBits]

theorem lowBits_getD {n j : Nat} (hj : j < n) (b : Byte) : (lowBits n b).getD j false = b.getLsbD j := by
  simp [lowBits, hj]

@[simp] theorem flatMap_lowBits_length (n : Nat) (c : List Byte) :
    (c.flatMap (lowBits n)).length = c.length * n := by
  simp [List.length_flatMap]

/-- Bit j of the i-th byte is stream bit i·n + j; past the stream's end both are 0. -/
theorem flatMap_lowBits_getD {n j : Nat} (hj : j < n) (c : List Byte) (i : Nat) :
    (c.flatMap (lowBits n)).getD (i * n + j) false = (c.getD i 0).getLsbD j := by
  induction c generalizing i with
  | nil => simp
  | cons b c ih =>
    rw [List.flatMap_cons]
    cases i with
    | zero =>
      rw [List.getD_append _ _ _ _ (by simpa using hj), Nat.zero_mul, Nat.zero_add, lowBits_getD hj,
        List.getD_cons_zero]
    | succ i =>
      have hpos : (i + 1) * n + j - n = i * n + j := by rw [Nat.succ_mul]; omega
      rw [List.getD_append_right _ _ _ _ (by rw [lowBits_length, Nat.succ_mul]; omega),
        lowBits_length, hpos, ih, List.getD_cons_succ]

theorem pack_length (q : Nat) (c : List Byte) : (pack q c).length = (c.length * q + 7) / 8 :=
  chunkBits_length ..

/-- Stream bit s is bit s mod 8 of byte s div 8 of the packed field (42_headers R170). -/
theorem getLsbD_pack {q s : Nat} {c : List Byte} (hs : s < 8 * ((c.length * q + 7) / 8)) :
    ((pack q c).getD (s / 8) 0).getLsbD (s % 8) = (c.flatMap (lowBits q)).getD s false := by
  have hin : s / 8 < packedLength c.length q ∧ s % 8 < 8 := by
    unfold packedLength
    omega
  rw [pack, getLsbD_chunkBits le_rfl, decide_eq_true hin, Bool.true_and, Nat.div_add_mod']

/-- Bit j of coefficient i lies within the stream. -/
theorem streamBit_lt {i j k q : Nat} (hi : i < k) (hj : j < q) : i * q + j < k * q :=
  calc i * q + j < i * q + q := Nat.add_lt_add_left hj _
    _ = (i + 1) * q := (Nat.succ_mul ..).symm
    _ ≤ k * q := Nat.mul_le_mul_right q hi

theorem unpack_length (q k : Nat) (b : List Byte) : (unpack q k b).length = k :=
  chunkBits_length ..

/-- A field byte's bit s mod 8 at s div 8 is stream bit s, so UNPACK reads bit j of coefficient i from
stream bit i·q + j, and nothing from the bits behind the k coefficients. -/
theorem getLsbD_unpack {q : Nat} (hq : q ≤ 8) (k : Nat) (b : List Byte) (i j : Nat) :
    ((unpack q k b).getD i 0).getLsbD j =
      (decide (i < k ∧ j < q) && (b.getD ((i * q + j) / 8) 0).getLsbD ((i * q + j) % 8)) := by
  rw [unpack, getLsbD_chunkBits hq, ← flatMap_lowBits_getD (Nat.mod_lt _ (by decide)),
    Nat.div_add_mod']

/-- Settles O48: PACK is `getLsbD_pack` with the stream's bits given by `flatMap_lowBits_getD`, or past
its end for the unused bits; UNPACK is `getLsbD_unpack`. -/
theorem packedBitLayout : Obligations.PackedBitLayout := by
  refine ⟨fun q c _ _ => ⟨pack_length q c, fun i j hi hj => ?packedBit, fun s hlo hhi => ?unusedBit⟩,
    fun q k b _ hq => ⟨unpack_length q k b, fun i j hi hj => ?readBit, fun i j hj => ?highBit⟩⟩
  case packedBit =>
    have hs := streamBit_lt hi hj
    rw [getLsbD_pack (by omega), flatMap_lowBits_getD hj]
  case unusedBit =>
    rw [getLsbD_pack hhi, List.getD_eq_default _ _ (by simpa using hlo)]
  case readBit => rw [getLsbD_unpack hq, decide_eq_true ⟨hi, hj⟩, Bool.true_and]
  case highBit =>
    rw [getLsbD_unpack hq, decide_eq_false fun hin => hj.not_gt hin.2, Bool.false_and]

end Sys2Proof.Machine
end

section
/-!
PROOFS. The XOR codec (43_xor R190, R193). A payload is its length and its zero-padded bytes
(`eq_of_length_of_getD`), and XORALL is given by these two: `length_xorAll` and `getD_xorAll`.
-/

namespace Sys2Proof.Machine

/-! ## Payloads by length and zero-padded bytes -/

theorem eq_of_length_of_getD {a b : List Byte} (hlen : a.length = b.length)
    (hbyte : ∀ i, a.getD i 0 = b.getD i 0) : a = b := by
  refine List.ext_getElem hlen fun i ha hb => ?_
  rw [← List.getD_eq_getElem a 0 ha, ← List.getD_eq_getElem b 0 hb, hbyte]

/-- Padding with zeros at the end changes no zero-padded byte. -/
theorem getD_append_replicate_zero (a : List Byte) (n i : Nat) :
    (a ++ List.replicate n 0).getD i 0 = a.getD i 0 := by
  rcases Nat.lt_or_ge i a.length with hi | hi
  · rw [List.getD_append _ _ _ _ hi]
  · rw [List.getD_append_right _ _ _ _ hi, List.getD_eq_default _ _ hi]
    simp

theorem maxLength_pair (a b : List Byte) : maxLength [a, b] = max a.length b.length := by
  simp [maxLength]

/-- The running maximum: the first two members may be replaced by one of their longer length. -/
theorem maxLength_cons_cons {a b c : List Byte} (hc : c.length = max a.length b.length)
    (ps : List (List Byte)) : maxLength (a :: b :: ps) = maxLength (c :: ps) := by
  simp [maxLength, hc]

theorem maxLength_perm {ps ps' : List (List Byte)} (h : ps.Perm ps') :
    maxLength ps = maxLength ps' :=
  h.foldl_eq' (fun p _ q _ n => max_right_comm n p.length q.length) 0

/-! ## XORALL -/

/-- Members that all have 0 at i XOR to 0 there. -/
theorem foldl_xor_of_zero {i : Nat} {ps : List (List Byte)} (h : ∀ p ∈ ps, p.getD i 0 = 0) :
    ps.foldl (fun x p => x ^^^ p.getD i 0) 0 = (0 : Byte) := by
  induction ps with
  | nil => rfl
  | cons p ps ih =>
    obtain ⟨hp, hps⟩ := List.forall_mem_cons.1 h
    rw [List.foldl_cons, hp, BitVec.xor_self]
    exact ih hps

/-- The bytes of XORALL, those past its end too: there every member is past its own end. -/
theorem getD_xorAll (ps : List (List Byte)) (i : Nat) :
    (xorAll ps).getD i 0 = ps.foldl (fun x p => x ^^^ p.getD i 0) 0 := by
  rcases Nat.lt_or_ge i (maxLength ps) with hi | hi
  · rw [List.getD_eq_getElem _ _ (by simpa using hi)]
    simp [xorAll, List.foldl_map]
  · have hpast : ∀ p ∈ ps, p.getD i 0 = 0 := fun p hp =>
      List.getD_eq_default _ _ (((maxLength_spec ps).1 p hp).trans hi)
    rw [List.getD_eq_default _ _ (by simpa using hi), foldl_xor_of_zero hpast]

theorem getD_xorAll_pair (a b : List Byte) (i : Nat) :
    (xorAll [a, b]).getD i 0 = a.getD i 0 ^^^ b.getD i 0 := by
  rw [getD_xorAll]
  simp

theorem xorAll_singleton (a : List Byte) : xorAll [a] = a :=
  eq_of_length_of_getD (by simp [maxLength]) fun i => by rw [getD_xorAll]; simp

/-- Pairwise accumulation: zero-padding to the running maximum commutes with the XOR. -/
theorem xorAll_cons_cons (a b : List Byte) (ps : List (List Byte)) :
    xorAll (a :: b :: ps) = xorAll (xorAll [a, b] :: ps) := by
  refine eq_of_length_of_getD ?length fun i => ?byte
  case length =>
    rw [length_xorAll, length_xorAll,
      maxLength_cons_cons ((length_xorAll _).trans (maxLength_pair a b))]
  case byte =>
    simp only [getD_xorAll (_ :: _ :: ps), getD_xorAll (_ :: ps), List.foldl_cons, getD_xorAll_pair]
    rw [BitVec.xor_assoc]

theorem xorAll_perm {ps ps' : List (List Byte)} (h : ps.Perm ps') : xorAll ps = xorAll ps' := by
  refine eq_of_length_of_getD (by simp [maxLength_perm h]) fun i => ?_
  rw [getD_xorAll, getD_xorAll]
  refine h.foldl_eq' (fun p _ q _ x => ?_) 0
  rw [BitVec.xor_assoc, BitVec.xor_comm (p.getD i 0), ← BitVec.xor_assoc]

/-- Decoding with b recovers a, padded with zeros to the longer length. -/
theorem xorAll_decode (a b : List Byte) :
    xorAll [xorAll [a, b], b] = a ++ List.replicate (b.length - a.length) 0 := by
  refine eq_of_length_of_getD ?length fun i => ?byte
  case length =>
    simp only [length_xorAll, maxLength_pair, List.length_append, List.length_replicate]
    omega
  case byte =>
    rw [getD_append_replicate_zero, getD_xorAll_pair, getD_xorAll_pair, BitVec.xor_assoc,
      BitVec.xor_self, BitVec.xor_zero]

/-- A known member at least as short as the other recovers it as it was. -/
theorem xorAll_decode_of_le {a b : List Byte} (h : b.length ≤ a.length) :
    xorAll [xorAll [a, b], b] = a := by
  rw [xorAll_decode, Nat.sub_eq_zero_of_le h, List.replicate_zero, List.append_nil]

/-! ## The obligations -/

/-- Settles O43: the length is `maxLength_spec`, the bytes are `getD_xorAll`, and any order of pairwise
accumulation is `xorAll_perm` followed by `xorAll_cons_cons` down to `xorAll_singleton`. -/
theorem xorAllIsPairwise : Obligations.XorAllIsPairwise := by
  refine ⟨fun ps hne => ?_, getD_xorAll, xorAll_cons_cons, fun _ _ => xorAll_perm, xorAll_singleton⟩
  obtain ⟨hle, hmem⟩ := maxLength_spec ps
  rw [length_xorAll]
  exact ⟨hle, hmem hne⟩

/-- Settles O44: both parts are `xorAll_decode`; the first member is recovered in the order b, a. -/
theorem xorInvolution : Obligations.XorInvolution := by
  refine ⟨fun a b hlen => ⟨?_, xorAll_decode_of_le hlen.ge⟩, fun a b _ => xorAll_decode a b⟩
  rw [xorAll_perm (List.Perm.swap b a [])]
  exact xorAll_decode_of_le hlen.le

end Sys2Proof.Machine
end

section
/-!
PROOFS. Reset and the configuration (70_reset R360, R364): what the reset signal leaves in the register file, and
why no command that passes the checks in RUN reaches a configuration register.
-/

namespace Sys2Proof.Machine

/-! ## The register file after reset -/

/-- The reset value of each register (10_state R21). -/
def Reg.resetValue : Reg → U32
  | .id => 0x4E434501#32
  | .encCap => 5
  | .recCap => 1
  | .status | .nowLo | .nowHi | .oqDepth | .poolBuckets | .flows | .mbs | .btoInter | .mcp | .q
  | .kcfg | .mode | .btoIntra | .cfAdvance | .poly => 0

/-- In CONFIG, without a fault and with an empty output queue, no STATUS bit is set (10_state R22). -/
theorem statusWord_eq_zero {s : State} (hp : s.phase = .config) (hf : s.faulted = false)
    (hq : s.oq = []) : s.statusWord = 0 := by
  simp [State.statusWord, State.oqne, hp, hf, hq]

/-- While Q is not set there is no field polynomial, so POLY reads 0 (10_state R21). -/
theorem poly_zero (p : Params) : poly p 0 = 0 := if_neg fun h => absurd h.1 (by decide)

/-- After reset every register, read-only or not, reads its reset value, whatever the parameters are. -/
theorem readReg_applyReset (s : State) (r : Reg) : s.applyReset.readReg r = r.resetValue := by
  cases r with
  | status => exact statusWord_eq_zero rfl rfl rfl
  | poly => exact congrArg (BitVec.ofNat 32) (poly_zero s.params)
  | nowHi =>
    show ((0 : U64) >>> 32).setWidth 32 = (0 : U32)
    decide
  | id | nowLo | oqDepth | poolBuckets | flows | mbs | btoInter | mcp | q | kcfg | mode
  | btoIntra | encCap | recCap | cfAdvance => rfl

/-- Reset empties the out ports, so no record is pending. -/
theorem record_not_mem_applyReset (s : State) (bytes : List Byte) :
    Output.record bytes ∉ s.applyReset.outputs := List.not_mem_nil

/-- Settles O7: the state after the step is `applyReset`, whose fields are the table's reset values, and its
registers read as `readReg_applyReset` says. -/
theorem resetSignalResetsState : Obligations.ResetSignalResetsState := by
  intro s hr
  have hreg := readReg_applyReset s
  exact ⟨s.applyReset, step_reset hr, rfl, rfl, rfl, rfl, rfl, rfl, rfl, rfl, rfl, rfl, rfl, rfl, rfl,
    rfl, rfl, rfl, rfl, rfl, record_not_mem_applyReset s, hreg .id, hreg .status, hreg .nowLo,
    hreg .nowHi, hreg .oqDepth, hreg .poolBuckets, hreg .flows, hreg .poly⟩

/-! ## The configuration in RUN -/

/-- The ten configuration registers (the RW rows of 10_state R21). -/
structure Configuration where
  mbs : U16
  btoInter : U32
  mcp : Byte
  q : BitVec 4
  kcfg : Byte
  mode : BitVec 1
  btoIntra : U32
  encCap : U32
  recCap : U32
  cfAdvance : BitVec 1

/-- The values the configuration registers hold. -/
def State.configuration (s : State) : Configuration :=
  ⟨s.mbs, s.btoInter, s.mcp, s.q, s.kcfg, s.mode, s.btoIntra, s.encCap, s.recCap, s.cfAdvance⟩

/-- The configuration is part of `setup`. -/
theorem State.configuration_eq_of_setup {s t : State} (h : t.setup = s.setup) :
    t.configuration = s.configuration :=
  show t.setup.configuration = s.setup.configuration by rw [h]

/-- Answering, even with the capacity fault, writes no configuration register. -/
@[simp] theorem Ending.finish_configuration (e : Ending) :
    e.finish.configuration = e.left.configuration := by
  cases e <;> rfl

/-- A command of CONFIG answers E_PHASE in RUN (30_encoding R92 step 5). -/
theorem State.Running.exec_config {s : State} {i : Instr} (h : s.Running i)
    (hc : phaseNeed i = .config) : exec i s = .next (s.respond .ePhase []) := by
  have hw : s.turnedAway i.opcode i.olen (phaseNeed i) = some .ePhase := by
    simp [State.turnedAway, h.healthy, h.fits, hc, h.inRun, PhaseNeed.allows]
  rw [Machine.exec_eq, hw]

/-- What passes the checks in RUN is no command of CONFIG. -/
theorem phaseNeed_ne_config_of_run {s : State} {i : Instr} (hrun : s.phase = .run)
    (h : s.turnedAway i.opcode i.olen (phaseNeed i) = none) : phaseNeed i ≠ .config := by
  obtain ⟨-, -, hallows⟩ := turnedAway_none.1 h
  intro hc
  rw [hc, hrun] at hallows
  exact absurd hallows (by decide)

/-- In RUN every command keeps the configuration: it only answers, or its rule keeps `setup`. -/
theorem exec_keeps_configuration {s t : State} {i : Instr} (hrun : s.phase = .run)
    (h : exec i s = .next t) : t.configuration = s.configuration := by
  rcases exec_cases h with ⟨st, -, rfl⟩ | ⟨hpass, rfl⟩
  · rfl
  · rw [Ending.finish_configuration]
    exact State.configuration_eq_of_setup (rule_setup s (phaseNeed_ne_config_of_run hrun hpass))

/-- In RUN every step without the reset signal keeps the configuration. -/
theorem step_keeps_configuration {s t : State} (hrun : s.phase = .run) (hr : s.resetPin = false)
    (h : step s = .next t) : t.configuration = s.configuration := by
  rcases step_cases h with ⟨hp, -⟩ | ⟨-, -, rfl⟩ | ⟨-, opc, why, rest, -, rfl⟩ | ⟨-, i, rest, -, he⟩
  · rw [hr] at hp
    cases hp
  · rfl
  · obtain ⟨st, hst⟩ := rejectIllegal_cases { s with cmdIn := rest } opc
    rw [hst]
    rfl
  · exact exec_keeps_configuration (s := { s with cmdIn := rest }) hrun he

/-- Settles O19: the two commands of CONFIG are turned away (`State.Running.exec_config`), and equal
configurations are equal register by register. -/
theorem configurationFrozenInRun : Obligations.ConfigurationFrozenInRun :=
  ⟨fun _ _ h => h.exec_config rfl, fun _ _ h => h.exec_config rfl,
    fun _ _ hrun hr h => Configuration.mk.inj (step_keeps_configuration hrun hr h),
    fun s hr => ⟨s.applyReset, step_reset hr, rfl, rfl, rfl⟩⟩

end Sys2Proof.Machine
end

section
/-!
PROOFS. The command format (30_encoding R90 to R94, R101, R102). A layout is a parser and a writer that are inverse
to each other (`Layout`); the opcode map pairs each command with its layout (`instrOf_iff`); and the header with
its length frames the stream (`fetchCommand_frame`, `fetchCommand_eq_some`).
-/

namespace Sys2Proof

/-! ## Layouts -/

/-- A parser reads back what the writer writes of a good value, and reads only that. -/
structure Layout {α : Type} (good : α → Bool) (p : Parser α) (put : α → List Byte) : Prop where
  reads : ∀ a, good a = true → ∀ r, p (put a ++ r) = some (a, r)
  written : ∀ bs a r, p bs = some (a, r) → bs = put a ++ r ∧ good a = true

namespace Layout

variable {α : Type} {good : α → Bool} {p : Parser α} {put : α → List Byte}

/-- Operand bytes parse as `o` exactly when `o` is well-formed and has these bytes. -/
theorem parseArgs_eq_iff (hl : Layout good p put) {bs : List Byte} {o : Args α} :
    parseArgs p bs = o ↔ o.put put = bs ∧ o.wf good p = true := by
  constructor
  · rintro rfl
    cases h : parseArgs p bs with
    | ok a =>
      obtain ⟨hbs, hgood⟩ := hl.written _ _ _ (parseArgs_eq_ok.1 h)
      exact ⟨by simpa [Args.put] using hbs.symm, hgood⟩
    | bad bs' =>
      obtain rfl := parseArgs_eq_bad h
      exact ⟨rfl, by simp [Args.wf, h]⟩
  · rintro ⟨rfl, hw⟩
    cases o with
    | ok a => exact parseArgs_eq_ok.2 (by simpa [Args.put] using hl.reads a hw [])
    | bad bs =>
      cases h : parseArgs p bs with
      | ok a => simp [Args.wf, h] at hw
      | bad bs' => rw [Args.put, h, parseArgs_eq_bad h]

/-- The counted list of a layout: as many elements as the byte before them says. -/
theorem many (hl : Layout good p put) {n : Nat} {bs r : List Byte} {xs : List α}
    (h : getMany p n bs = some (xs, r)) :
    bs = xs.flatMap put ++ r ∧ xs.length = n ∧ xs.all good = true := by
  obtain ⟨hbs, hn, hx⟩ := getMany_eq (good := fun a => good a = true) hl.written h
  exact ⟨hbs, hn, List.all_eq_true.2 hx⟩

theorem many_reads (hl : Layout good p put) {xs : List α} (hx : xs.all good = true)
    (r : List Byte) : getMany p xs.length (xs.flatMap put ++ r) = some (xs, r) :=
  getMany_flatMap (fun a ha => hl.reads a (List.all_eq_true.1 hx a ha)) r

end Layout

/-- A count that fits its byte reads back. -/
theorem toNat_count {α : Type} {xs : List α} (h : countFits xs = true) :
    (BitVec.ofNat 8 xs.length).toNat = xs.length :=
  Nat.mod_eq_of_lt (of_decide_eq_true h)

theorem ofNat_count {α : Type} {xs : List α} {n : Byte} (h : xs.length = n.toNat) :
    BitVec.ofNat 8 xs.length = n ∧ countFits xs = true := by
  rw [countFits, h]
  exact ⟨BitVec.ofNat_toNat .. |>.trans (BitVec.setWidth_eq n), decide_eq_true n.isLt⟩

theorem layout_none : Layout (fun _ => true) getNone fun _ => [] :=
  ⟨fun _ _ _ => rfl, fun _ _ _ h => by cases h; exact ⟨rfl, rfl⟩⟩

theorem layout_u8 : Layout (fun _ => true) getU8 fun b => [b] :=
  ⟨fun _ _ _ => rfl, fun _ _ _ h => ⟨getU8_eq h, rfl⟩⟩

theorem layout_u16 : Layout (fun _ => true) getU16 put16 :=
  ⟨fun v _ r => getU16_put16 v r, fun _ _ _ h => ⟨getU16_eq h, rfl⟩⟩

theorem layout_u64 : Layout (fun _ => true) getU64 put64 :=
  ⟨fun v _ r => getU64_put64 v r, fun _ _ _ h => ⟨getU64_eq h, rfl⟩⟩

theorem layout_blob : Layout blobFits getBlob putBlob := by
  refine ⟨fun b hb r => getBlob_putBlob (of_decide_eq_true hb) r, fun _ _ _ h => ?_⟩
  obtain ⟨hbs, hl⟩ := getBlob_eq h
  exact ⟨hbs, decide_eq_true hl⟩

theorem layout_desc : Layout (fun _ => true) getDesc putDesc :=
  ⟨fun d _ r => getDesc_putDesc d r, fun _ _ _ h => ⟨getDesc_eq h, rfl⟩⟩

theorem layout_ackd : Layout (fun a => blobFits a.tcp) getAckd putAckd := by
  refine ⟨fun a ha r => getAckd_putAckd (of_decide_eq_true ha) r, fun _ _ _ h => ?_⟩
  obtain ⟨hbs, hl⟩ := getAckd_eq h
  exact ⟨hbs, decide_eq_true hl⟩

theorem layout_cfgWrite : Layout (fun _ => true) getCfgWrite putCfgWrite := by
  refine ⟨fun a _ r => by simp [getCfgWrite, putCfgWrite], fun bs a r h => ⟨?_, rfl⟩⟩
  simp only [getCfgWrite, Option.bind_eq_bind, Option.bind_eq_some_iff, Prod.exists] at h
  obtain ⟨x, r1, h1, y, r2, h2, h⟩ := h
  cases h
  simp [putCfgWrite, getU8_eq h1, getU32_eq h2]

theorem layout_hash : Layout (fun _ => true) getHash putHash := by
  refine ⟨fun a _ r => by simp [getHash, putHash], fun bs a r h => ⟨?_, rfl⟩⟩
  simp only [getHash, Option.bind_eq_bind, Option.bind_eq_some_iff, Prod.exists] at h
  obtain ⟨x, r1, h1, y, r2, h2, z, r3, h3, w, r4, h4, h⟩ := h
  cases h
  simp [putHash, getU32_eq h1, getU32_eq h2, getU16_eq h3, getU16_eq h4]

theorem layout_hdrBuildInter : Layout HdrBuildInterArgs.wf getHdrBuildInter putHdrBuildInter := by
  refine ⟨fun a ha r => ?_, fun bs a r h => ?_⟩
  · simp only [HdrBuildInterArgs.wf, Bool.and_eq_true] at ha
    obtain ⟨⟨hd, hn⟩, ht⟩ := ha
    simp [getHdrBuildInter, putHdrBuildInter, putCount, toNat_count hd, toNat_count hn,
      layout_desc.many_reads, layout_ackd.many_reads ht]
  · simp only [getHdrBuildInter, Option.bind_eq_bind, Option.bind_eq_some_iff, Prod.exists] at h
    obtain ⟨x, r1, h1, y, r2, h2, n, r3, h3, m, r4, h4, ds, r5, h5, as, r6, h6, h⟩ := h
    cases h
    obtain ⟨e5, n5, -⟩ := layout_desc.many h5
    obtain ⟨e6, n6, w6⟩ := layout_ackd.many h6
    obtain ⟨c5, f5⟩ := ofNat_count n5
    obtain ⟨c6, f6⟩ := ofNat_count n6
    rw [getU8_eq h1, getU8_eq h2, getU8_eq h3, getU8_eq h4, e5, e6]
    simp [putHdrBuildInter, putCount, c5, c6, HdrBuildInterArgs.wf, f5, f6, w6]

theorem layout_hdrBuildIntra :
    Layout (fun x => countFits x.coeff) getHdrBuildIntra putHdrBuildIntra := by
  refine ⟨fun a ha r => ?_, fun bs a r h => ?_⟩
  · simp [getHdrBuildIntra, putHdrBuildIntra, putCount, toNat_count ha, getBytes_append]
  · simp only [getHdrBuildIntra, Option.bind_eq_bind, Option.bind_eq_some_iff, Prod.exists] at h
    obtain ⟨k, r1, h1, q, r2, h2, fr, r3, h3, tt, r4, h4, sp, r5, h5, dp, r6, h6, c, r7, h7, h⟩ := h
    cases h
    obtain ⟨e7, n7⟩ := getBytes_eq h7
    obtain ⟨c7, f7⟩ := ofNat_count n7
    rw [getU8_eq h1, getU8_eq h2, getU16_eq h3, getU8_eq h4, getU16_eq h5, getU16_eq h6, e7]
    simp [putHdrBuildIntra, putCount, c7, f7]

theorem layout_xorEnc :
    Layout (fun ps => countFits ps && ps.all blobFits) getXorEnc putXorEnc := by
  refine ⟨fun ps hp r => ?_, fun bs ps r h => ?_⟩
  · obtain ⟨hn, hb⟩ := Bool.and_eq_true_iff.1 hp
    simp [getXorEnc, putXorEnc, putCount, toNat_count hn, layout_blob.many_reads hb]
  · simp only [getXorEnc, Option.bind_eq_bind, Option.bind_eq_some_iff, Prod.exists] at h
    obtain ⟨n, r1, h1, h2⟩ := h
    obtain ⟨e2, n2, w2⟩ := layout_blob.many h2
    obtain ⟨c2, f2⟩ := ofNat_count n2
    rw [getU8_eq h1, e2]
    simp [putXorEnc, putCount, c2, f2, w2]

theorem layout_xorDec : Layout XorDecArgs.wf getXorDec putXorDec := by
  refine ⟨fun x hx r => ?_, fun bs x r h => ?_⟩
  · simp only [XorDecArgs.wf, Bool.and_eq_true] at hx
    obtain ⟨⟨hc, hn⟩, hb⟩ := hx
    simp [getXorDec, putXorDec, putCount, layout_blob.reads _ hc, toNat_count hn,
      layout_blob.many_reads hb]
  · simp only [getXorDec, Option.bind_eq_bind, Option.bind_eq_some_iff, Prod.exists] at h
    obtain ⟨c, r1, h1, n, r2, h2, ns, r3, h3, h⟩ := h
    cases h
    obtain ⟨e1, w1⟩ := layout_blob.written _ _ _ h1
    obtain ⟨e3, n3, w3⟩ := layout_blob.many h3
    obtain ⟨c3, f3⟩ := ofNat_count n3
    rw [e1, getU8_eq h2, e3]
    simp [putXorDec, putCount, c3, XorDecArgs.wf, w1, f3, w3]

theorem layout_gfMul : Layout (fun _ => true) getGfMul fun x => [x.a, x.b] := by
  refine ⟨fun _ _ _ => rfl, fun bs a r h => ⟨?_, rfl⟩⟩
  simp only [getGfMul, Option.bind_eq_bind, Option.bind_eq_some_iff, Prod.exists] at h
  obtain ⟨x, r1, h1, y, r2, h2, h⟩ := h
  cases h
  simp [getU8_eq h1, getU8_eq h2]

theorem layout_matRank :
    Layout (fun x => x.elems.length == x.r.toNat * x.c.toNat) getMatRank
      fun x => [x.r, x.c] ++ x.elems := by
  refine ⟨fun x hx r => ?_, fun bs x r h => ?_⟩
  · simp [getMatRank, ← eq_of_beq hx, getBytes_append]
  · simp only [getMatRank, Option.bind_eq_bind, Option.bind_eq_some_iff, Prod.exists] at h
    obtain ⟨n, r1, h1, c, r2, h2, es, r3, h3, h⟩ := h
    cases h
    obtain ⟨e3, n3⟩ := getBytes_eq h3
    simp [getU8_eq h1, getU8_eq h2, e3, n3]

theorem layout_matInv :
    Layout (fun x => x.elems.length == x.n.toNat * x.n.toNat) getMatInv
      fun x => [x.n] ++ x.elems := by
  refine ⟨fun x hx r => ?_, fun bs x r h => ?_⟩
  · simp [getMatInv, ← eq_of_beq hx, getBytes_append]
  · simp only [getMatInv, Option.bind_eq_bind, Option.bind_eq_some_iff, Prod.exists] at h
    obtain ⟨n, r1, h1, es, r2, h2, h⟩ := h
    cases h
    obtain ⟨e2, n2⟩ := getBytes_eq h2
    simp [getU8_eq h1, e2, n2]

theorem layout_poolInsert :
    Layout (fun x => blobFits x.payload) getPoolInsert putPoolInsert := by
  refine ⟨fun x hx r => ?_, fun bs x r h => ?_⟩
  · simp [getPoolInsert, putPoolInsert, layout_blob.reads _ hx]
  · simp only [getPoolInsert, Option.bind_eq_bind, Option.bind_eq_some_iff, Prod.exists] at h
    obtain ⟨sr, r1, h1, d, r2, h2, sp, r3, h3, dp, r4, h4, pr, r5, h5, sq, r6, h6, p, r7, h7, h⟩ := h
    cases h
    obtain ⟨e7, w7⟩ := layout_blob.written _ _ _ h7
    rw [getU32_eq h1, getU32_eq h2, getU16_eq h3, getU16_eq h4, getU8_eq h5, getU32_eq h6, e7]
    simp [putPoolInsert, w7]

theorem layout_oqPop : Layout OqPopArgs.wf getOqPop putOqPop := by
  refine ⟨fun x hx r => ?_, fun bs x r h => ?_⟩
  · obtain ⟨hn, ht⟩ := Bool.and_eq_true_iff.1 hx
    simp [getOqPop, putOqPop, putCount, toNat_count hn, layout_ackd.many_reads ht]
  · simp only [getOqPop, Option.bind_eq_bind, Option.bind_eq_some_iff, Prod.exists] at h
    obtain ⟨pt, r1, h1, n, r2, h2, as, r3, h3, h⟩ := h
    cases h
    obtain ⟨e3, n3, w3⟩ := layout_ackd.many h3
    obtain ⟨c3, f3⟩ := ofNat_count n3
    rw [getU8_eq h1, getU8_eq h2, e3]
    simp [putOqPop, putCount, c3, OqPopArgs.wf, f3, w3]

theorem layout_txPush : Layout (fun x => blobFits x.payload) getTxPush putTxPush := by
  refine ⟨fun x hx r => ?_, fun bs x r h => ?_⟩
  · simp [getTxPush, putTxPush, layout_blob.reads _ hx]
  · simp only [getTxPush, Option.bind_eq_bind, Option.bind_eq_some_iff, Prod.exists] at h
    obtain ⟨g, r1, h1, sp, r2, h2, dp, r3, h3, p, r4, h4, h⟩ := h
    cases h
    obtain ⟨e4, w4⟩ := layout_blob.written _ _ _ h4
    rw [getU16_eq h1, getU16_eq h2, getU16_eq h3, e4]
    simp [putTxPush, w4]

theorem layout_rxPacket :
    Layout (fun x => blobFits x.pkt) getRxPacket fun x => put16 x.flow ++ putBlob x.pkt := by
  refine ⟨fun x hx r => ?_, fun bs x r h => ?_⟩
  · simp [getRxPacket, layout_blob.reads _ hx]
  · simp only [getRxPacket, Option.bind_eq_bind, Option.bind_eq_some_iff, Prod.exists] at h
    obtain ⟨g, r1, h1, p, r2, h2, h⟩ := h
    cases h
    obtain ⟨e2, w2⟩ := layout_blob.written _ _ _ h2
    rw [getU16_eq h1, e2]
    simp [w2]

theorem layout_changeFragment :
    Layout (fun _ => true) getChangeFragment fun x => put16 x.flow ++ put16 x.nfrag := by
  refine ⟨fun a _ r => by simp [getChangeFragment], fun bs a r h => ⟨?_, rfl⟩⟩
  simp only [getChangeFragment, Option.bind_eq_bind, Option.bind_eq_some_iff, Prod.exists] at h
  obtain ⟨g, r1, h1, n, r2, h2, h⟩ := h
  cases h
  simp [getU16_eq h1, getU16_eq h2]

theorem layout_flowRow : Layout (fun _ => true) getFlowRow fun x => put16 x.flow ++ [x.i] := by
  refine ⟨fun a _ r => by simp [getFlowRow], fun bs a r h => ⟨?_, rfl⟩⟩
  simp only [getFlowRow, Option.bind_eq_bind, Option.bind_eq_some_iff, Prod.exists] at h
  obtain ⟨g, r1, h1, i, r2, h2, h⟩ := h
  cases h
  simp [getU16_eq h1, getU8_eq h2]

/-! ## The opcode map -/

/-- A row of the opcode map that ignores FLG: its command reads the operands with its layout. -/
theorem Layout.row {α : Type} {good : α → Bool} {p : Parser α} {put : α → List Byte}
    (hl : Layout good p put) {ops : List Byte} {o : Args α} {mk : Args α → Instr} {P : Prop}
    (hinj : ∀ {a b}, mk a = mk b → a = b) (hP : P) :
    some (mk (parseArgs p ops)) = some (mk o) ↔ o.put put = ops ∧ o.wf good p = true ∧ P := by
  have hmk : some (mk (parseArgs p ops)) = some (mk o) ↔ parseArgs p ops = o :=
    ⟨fun h => hinj (Option.some.inj h), fun h => by rw [h]⟩
  rw [hmk, hl.parseArgs_eq_iff]
  simp [hP]

/-- The byte of FLG bit 0 tells the bit. -/
theorem flagByte_inj {a b : Bool} :
    (if a then (1 : Byte) else 0) = (if b then 1 else 0) ↔ b = a := by
  cases a <;> cases b <;> decide

/-- A row of the opcode map whose command holds FLG bit 0. -/
theorem Layout.flagRow {α : Type} {good : α → Bool} {p : Parser α} {put : α → List Byte}
    (hl : Layout good p put) {ops : List Byte} {o : Args α} {mk : Bool → Args α → Instr}
    {flag b : Bool} (hinj : ∀ {x y a b}, mk x a = mk y b → x = y ∧ a = b) :
    some (mk flag (parseArgs p ops)) = some (mk b o) ↔
      o.put put = ops ∧ o.wf good p = true ∧
        (if b then (1 : Byte) else 0) = if flag then 1 else 0 := by
  have hmk : some (mk flag (parseArgs p ops)) = some (mk b o) ↔ flag = b ∧ parseArgs p ops = o :=
    ⟨fun h => hinj (Option.some.inj h), fun h => by rw [h.1, h.2]⟩
  rw [hmk, hl.parseArgs_eq_iff, flagByte_inj]
  tauto

/-- The FLG byte that FLG bit 0 `flag` gives the commands that define it; 0 for the others. -/
def Instr.flagOf (i : Instr) (flag : Bool) : Byte :=
  match i with
  | .poolInsert _ _ | .rxPacket _ _ => if flag then 1 else 0
  | _ => 0

/-- The opcode map gives the command `i` for the operand bytes `ops` exactly when they are its own, are
well-formed, and FLG bit 0 is its own where it defines that bit. -/
theorem instrOf_iff (i : Instr) (flag : Bool) (ops : List Byte) :
    instrOf i.opcode flag ops = some i ↔
      i.operandBytes = ops ∧ i.operandsWf = true ∧ i.flagByte = i.flagOf flag := by
  cases i with
  | nop o => exact layout_none.row Instr.nop.inj rfl
  | regRead o => exact layout_u8.row Instr.regRead.inj rfl
  | cfgWrite o => exact layout_cfgWrite.row Instr.cfgWrite.inj rfl
  | start o => exact layout_none.row Instr.start.inj rfl
  | timeAdvance o => exact layout_u64.row Instr.timeAdvance.inj rfl
  | hash o => exact layout_hash.row Instr.hash.inj rfl
  | hdrBuildInter o => exact layout_hdrBuildInter.row Instr.hdrBuildInter.inj rfl
  | hdrParseInter o => exact layout_blob.row Instr.hdrParseInter.inj rfl
  | hdrBuildIntra o => exact layout_hdrBuildIntra.row Instr.hdrBuildIntra.inj rfl
  | hdrParseIntra o => exact layout_blob.row Instr.hdrParseIntra.inj rfl
  | xorEnc o => exact layout_xorEnc.row Instr.xorEnc.inj rfl
  | xorDec o => exact layout_xorDec.row Instr.xorDec.inj rfl
  | gfMul o => exact layout_gfMul.row Instr.gfMul.inj rfl
  | gfInv o => exact layout_u8.row Instr.gfInv.inj rfl
  | matRank o => exact layout_matRank.row Instr.matRank.inj rfl
  | matInv o => exact layout_matInv.row Instr.matInv.inj rfl
  | vecGen o => exact layout_u8.row Instr.vecGen.inj rfl
  | poolInsert b o => exact layout_poolInsert.flagRow Instr.poolInsert.inj
  | oqPopFrame o => exact layout_oqPop.row Instr.oqPopFrame.inj rfl
  | poolStat o => exact layout_u16.row Instr.poolStat.inj rfl
  | txPush o => exact layout_txPush.row Instr.txPush.inj rfl
  | encode o => exact layout_u16.row Instr.encode.inj rfl
  | rxPacket b o => exact layout_rxPacket.flagRow Instr.rxPacket.inj
  | decode o => exact layout_u16.row Instr.decode.inj rfl
  | recode o => exact layout_u16.row Instr.recode.inj rfl
  | changeFragment o => exact layout_changeFragment.row Instr.changeFragment.inj rfl
  | flowStat o => exact layout_u16.row Instr.flowStat.inj rfl
  | flowRow o => exact layout_flowRow.row Instr.flowRow.inj rfl

/-- FLG is one of the two bytes the header check accepts, and its bit 0 is the command's own. -/
theorem flagByte_accepted (i : Instr) :
    (i.flagByte = 0 ∨ i.flagByte = 1 ∧ flagBitZeroDefined i.opcode = true) ∧
      i.flagByte = i.flagOf (i.flagByte.getLsbD 0) := by
  cases i with
  | poolInsert b o | rxPacket b o =>
    cases b
    · exact ⟨.inl rfl, by simp [Instr.flagByte, Instr.flagOf]⟩
    · exact ⟨.inr ⟨rfl, rfl⟩, by simp [Instr.flagByte, Instr.flagOf]⟩
  | _ => exact ⟨.inl rfl, rfl⟩

/-- An accepted FLG byte is the one its bit 0 stands for. -/
theorem flagOf_accepted {i : Instr} {flg : Byte}
    (h : flg = 0 ∨ flg = 1 ∧ flagBitZeroDefined i.opcode = true) : i.flagOf (flg.getLsbD 0) = flg := by
  rcases h with rfl | ⟨rfl, hd⟩
  · cases i <;> rfl
  · cases i with
    | poolInsert | rxPacket => rfl
    | _ => exact absurd hd Bool.false_ne_true

/-- The opcode map answers every opcode that is in it, whatever the operand bytes, and no other. -/
theorem instrOf_isSome_iff (opc : Byte) (flag : Bool) (ops : List Byte) :
    (instrOf opc flag ops).isSome = true ↔ opc ∈ Machine.opcodeMap := by
  have hnat : opc ∈ Machine.opcodeMap ↔ opc.toNat ∈ Machine.opcodeMap.map BitVec.toNat := by
    simp [List.mem_map, BitVec.toNat_inj]
  rw [hnat]
  unfold instrOf
  split
  all_goals simp [Machine.opcodeMap, *]
  case h_29 => tauto

/-! ## The header -/

/-- A header, its length and as many operand bytes are one command of the stream. -/
theorem fetchCommand_frame (opc flg r1 r0 : Byte) (ops rest : List Byte) (h : ops.length < 2 ^ 32) :
    fetchCommand ([opc, flg, r1, r0] ++ putBE 4 ops.length ++ ops ++ rest) =
      some (decodeCommand opc flg r1 r0 ops, rest) := by
  have hlen : beNat (putBE 4 ops.length) = ops.length := by
    rw [beNat_putBE]
    exact Nat.mod_eq_of_lt (by norm_num at h ⊢; exact h)
  show (getBytes (beNat (putBE 4 ops.length)) (ops ++ rest)).bind _ = _
  rw [hlen, getBytes_append]
  rfl

/-- What is fetched is a header, its length and as many operand bytes. -/
theorem fetchCommand_eq_some {bs rest : List Byte} {d : Decoded}
    (h : fetchCommand bs = some (d, rest)) :
    ∃ opc flg r1 r0 ops, d = decodeCommand opc flg r1 r0 ops ∧ ops.length < 2 ^ 32 ∧
      bs = [opc, flg, r1, r0] ++ putBE 4 ops.length ++ ops ++ rest := by
  unfold fetchCommand at h
  split at h
  · rename_i opc flg r1 r0 l3 l2 l1 l0 body
    simp only [Option.bind_eq_bind, Option.bind_eq_some_iff, Prod.exists] at h
    obtain ⟨ops, rest', hb, h⟩ := h
    cases h
    obtain ⟨rfl, hl⟩ := getBytes_eq hb
    have hput : putBE 4 (beNat [l3, l2, l1, l0]) = [l3, l2, l1, l0] := putBE_beNat [l3, l2, l1, l0]
    refine ⟨opc, flg, r1, r0, ops, rfl, ?_, ?_⟩
    · rw [hl]
      exact (beNat_lt _).trans_eq (by norm_num)
    · rw [hl, hput]
      rfl
  · cases h

/-- The header checks give a command exactly when the opcode map does, RSV is 0 and FLG is accepted. -/
theorem decodeCommand_eq_instr {opc flg r1 r0 : Byte} {ops : List Byte} {i : Instr} :
    decodeCommand opc flg r1 r0 ops = .instr i ↔
      instrOf opc (flg.getLsbD 0) ops = some i ∧ r1 = 0 ∧ r0 = 0 ∧
        (flg = 0 ∨ flg = 1 ∧ flagBitZeroDefined opc = true) := by
  unfold decodeCommand
  cases instrOf opc (flg.getLsbD 0) ops with
  | none => simp
  | some j =>
    simp only
    split
    · rename_i hbad
      simp only [reduceCtorEq, Option.some.injEq, false_iff]
      tauto
    · rename_i hok
      simp only [Decoded.instr.injEq, Option.some.injEq]
      tauto

/-- Settles O1: the header frames the command (`fetchCommand_frame`), and the opcode map reads the operands
back (`instrOf_iff`). -/
theorem decodeOfEncode : Obligations.DecodeOfEncode := by
  intro i rest hw
  obtain ⟨hops, hlen⟩ := Bool.and_eq_true_iff.1 hw
  obtain ⟨hflag, hbit⟩ := flagByte_accepted i
  rw [encode, Instr.olen, fetchCommand_frame _ _ _ _ _ _ (of_decide_eq_true hlen),
    decodeCommand_eq_instr.2 ⟨(instrOf_iff i _ _).2 ⟨rfl, hops, hbit⟩, rfl, rfl, hflag⟩]

/-- A fetched command is well-formed, and its header and operand bytes are the ones fetched. -/
theorem decodeCommand_fields {opc flg r1 r0 : Byte} {ops : List Byte} {i : Instr}
    (h : decodeCommand opc flg r1 r0 ops = .instr i) :
    i.opcode = opc ∧ i.flagByte = flg ∧ r1 = 0 ∧ r0 = 0 ∧ i.operandBytes = ops ∧
      i.operandsWf = true := by
  obtain ⟨hi, h1, h0, hf⟩ := decodeCommand_eq_instr.1 h
  obtain rfl := instrOf_opcode hi
  obtain ⟨hops, hw, hflag⟩ := (instrOf_iff ..).1 hi
  exact ⟨rfl, hflag.trans (flagOf_accepted hf), h1, h0, hops, hw⟩

/-- Settles O2: every field of the fetched bytes is one of the command (`decodeCommand_fields`). -/
theorem encodeOfDecode : Obligations.EncodeOfDecode := by
  intro bs i rest h
  obtain ⟨opc, flg, r1, r0, ops, hd, hlen, rfl⟩ := fetchCommand_eq_some h
  obtain ⟨rfl, rfl, rfl, rfl, rfl, hw⟩ := decodeCommand_fields hd.symm
  exact ⟨Bool.and_eq_true_iff.2 ⟨hw, decide_eq_true hlen⟩, rfl⟩

namespace Machine

/-! ## Steps -/

/-- Settles O6: the last arm of `step`. -/
theorem stepRunsDecodedCommand : Obligations.StepRunsDecodedCommand :=
  fun _ _ _ => step_instr

/-- An idle engine keeps its state (60_exceptions R347). -/
theorem step_idle {s : State} (hr : s.resetPin = false) (hf : fetchCommand s.cmdIn = none) :
    step s = .next s := by
  simp [step, hr, hf]

/-- What the ports' input side and the parameters are: what no command writes. -/
def State.ports (s : State) : List Byte × Params × Bool := (s.cmdIn, s.params, s.resetPin)

theorem State.ports_eq_of_setup {s t : State} (h : t.setup = s.setup) : t.ports = s.ports :=
  show t.setup.ports = s.setup.ports by rw [h]

@[simp] theorem writeReg_ports (s : State) (r : Reg) (v : U32) :
    (s.writeReg r v).ports = s.ports := by
  cases r <;> rfl

@[simp] theorem Ending.finish_ports (e : Ending) : e.finish.ports = e.left.ports := by
  cases e <;> rfl

theorem cfgWriteBody_ports (a : CfgWriteArgs) (s : State) :
    (cfgWriteBody a s).left.ports = s.ports := by
  unfold cfgWriteBody
  split
  · rfl
  · split_ifs
    · rfl
    · rfl
    · exact writeReg_ports ..

theorem startBody_ports (u : Unit) (s : State) : (startBody u s).left.ports = s.ports := by
  unfold startBody
  split
  · rfl
  · rfl

/-- A rule leaves the command port, the parameters and the reset signal alone. -/
theorem rule_ports (i : Instr) (s : State) : (rule i s).left.ports = s.ports := by
  by_cases hc : phaseNeed i = .config
  · cases i with
    | cfgWrite o => exact Args.ending_keeps State.ports o (cfgWriteBody_ports · s)
    | start o => exact Args.ending_keeps State.ports o (startBody_ports · s)
    | _ => cases hc
  · exact State.ports_eq_of_setup (rule_setup s hc)

/-- So does a command. -/
theorem exec_ports {i : Instr} {s t : State} (h : exec i s = .next t) : t.ports = s.ports := by
  rcases exec_cases h with ⟨st, -, rfl⟩ | ⟨-, rfl⟩
  · rfl
  · rw [Ending.finish_ports]
    exact rule_ports i s

/-- No command reads from or writes to the command port. -/
theorem exec_cmdIn {i : Instr} {s t : State} (h : exec i s = .next t) : t.cmdIn = s.cmdIn :=
  congrArg Prod.fst (exec_ports h)

/-- Every command has a next state. -/
theorem exec_next (i : Instr) (s : State) : ∃ t, exec i s = .next t := ⟨_, exec_eq i s⟩

/-- A step that fetches something, legal or not, leaves the bytes behind it on the command port. -/
theorem step_consumes {s : State} {d : Decoded} {rest : List Byte} (hr : s.resetPin = false)
    (hf : fetchCommand s.cmdIn = some (d, rest)) : ∃ t, step s = .next t ∧ t.cmdIn = rest := by
  cases d with
  | instr i =>
    obtain ⟨t, ht⟩ := exec_next i { s with cmdIn := rest }
    exact ⟨t, (step_instr hr hf).trans ht, exec_cmdIn ht⟩
  | illegal opc why =>
    obtain ⟨st, hst⟩ := rejectIllegal_cases { s with cmdIn := rest } opc
    exact ⟨_, step_illegal hr hf, by rw [hst]; rfl⟩

theorem fetchCommand_short {bs : List Byte} (h : bs.length < 8) : fetchCommand bs = none := by
  unfold fetchCommand
  split
  · simp only [List.length_cons] at h
    omega
  · rfl

/-- After a header of 8 bytes the fetch takes the operand bytes its last four bytes count, if they are there. -/
theorem fetchCommand_header {header body : List Byte} (h : header.length = 8) :
    (body.length < beNat (header.drop 4) → fetchCommand (header ++ body) = none) ∧
      (beNat (header.drop 4) ≤ body.length →
        ∃ d, fetchCommand (header ++ body) = some (d, body.drop (beNat (header.drop 4)))) := by
  match header, h with
  | [opc, flg, r1, r0, l3, l2, l1, l0], _ =>
    show (body.length < beNat [l3, l2, l1, l0] → (getBytes (beNat [l3, l2, l1, l0]) body).bind _ = _) ∧
      (beNat [l3, l2, l1, l0] ≤ body.length →
        ∃ d, (getBytes (beNat [l3, l2, l1, l0]) body).bind _ = _)
    refine ⟨fun hb => ?_, fun hb =>
      ⟨decodeCommand opc flg r1 r0 (body.take (beNat [l3, l2, l1, l0])), ?_⟩⟩
    · rw [getBytes, if_pos hb]
      rfl
    · rw [getBytes, if_neg (Nat.not_lt.2 hb)]
      rfl

/-- Settles O3: the header alone tells what is fetched (`fetchCommand_header`), and a step leaves what is
behind it (`step_consumes`). -/
theorem streamStaysFramed : Obligations.StreamStaysFramed := by
  refine ⟨fun s hr hlen => step_idle hr (fetchCommand_short hlen), fun s header body hr hlen hc => ?_⟩
  obtain ⟨hshort, hwhole⟩ := fetchCommand_header (body := body) hlen
  refine ⟨fun hb => step_idle hr (hc ▸ hshort hb), fun hb => ?_⟩
  obtain ⟨d, hd⟩ := hwhole hb
  exact step_consumes hr (hc ▸ hd)

/-- FLG bit 0 is defined for two opcodes. -/
theorem flagBitZeroDefined_iff (opc : Byte) :
    flagBitZeroDefined opc = true ↔ opc = 0x50#8 ∨ opc = 0x62#8 := by
  simp [flagBitZeroDefined]

/-- The header checks reject a header that names no opcode of the map, or sets a bit it does not define. -/
theorem decodeCommand_illegal_iff {opc flg r1 r0 : Byte} {ops : List Byte} :
    (∃ why, decodeCommand opc flg r1 r0 ops = .illegal opc why) ↔
      opc ∉ opcodeMap ∨ r1 ≠ 0 ∨ r0 ≠ 0 ∨ ¬ (flg = 0 ∨ flg = 1 ∧ (opc = 0x50#8 ∨ opc = 0x62#8)) := by
  rw [← flagBitZeroDefined_iff, ← instrOf_isSome_iff opc (flg.getLsbD 0) ops]
  unfold decodeCommand
  cases instrOf opc (flg.getLsbD 0) ops with
  | none => simp
  | some i =>
    simp only [Option.isSome_some, not_true_eq_false, false_or]
    split
    · rename_i hbad
      simpa using hbad
    · rename_i hok
      simpa using hok

/-- Settles O4: the stream frames the command, and the header checks reject what `decodeCommand_illegal_iff`
says; the fields of every other command are `decodeCommand_fields`. -/
theorem illegalCommandsAnswerEOpcode : Obligations.IllegalCommandsAnswerEOpcode := by
  intro s opc flg r1 r0 ops rest hr hf hlen hc
  have hfetch := fetchCommand_frame opc flg r1 r0 ops rest hlen
  rw [← hc] at hfetch
  split
  · rename_i hbad
    obtain ⟨why, hd⟩ := (decodeCommand_illegal_iff (ops := ops)).2 hbad
    rw [hd] at hfetch
    rw [step_illegal hr hfetch, State.rejectIllegal, if_neg (by simp [hf])]
  · rename_i hgood
    rcases decodeCommand_cases opc flg r1 r0 ops with hd | ⟨i, hd, -⟩
    · exact absurd (decodeCommand_illegal_iff.1 hd) hgood
    · obtain ⟨hopc, hflg, -, -, hops, -⟩ := decodeCommand_fields hd
      rw [hd] at hfetch
      exact ⟨i, hopc, hflg, hops, step_instr hr hfetch⟩

/-- Settles O5: each written word is the encoding of its command. -/
theorem writtenWordsDecode : Obligations.WrittenWordsDecode := by
  unfold Obligations.WrittenWordsDecode
  decide +kernel

end Machine

end Sys2Proof
end

section
/-!
PROOFS. What each command may touch (20_memory R75, 60_exceptions R335 to R338). The pool's procedures take
`PoolStep`s, those of a flow record take `FlowStep`s, and TIME_ADVANCE takes both (`TimerStep`): a command changes
no more than its procedures do, and the decode checks of 30_encoding R92 come before any of them.
-/

namespace Sys2Proof.Machine

/-! ## Steps of the procedures -/

/-- The out ports after some records. -/
def State.sent (s : State) (recs : List Record) : List Output :=
  s.outputs ++ recs.map fun r => .record r.bytes

/-- From `s` to `t` only the pool, the queue and TSEQ changed, and some records were sent. -/
def State.PoolStep (s t : State) : Prop :=
  ∃ pool oq tseq recs, t = { s with pool, oq, tseq, outputs := s.sent recs }

/-- From `s` to `t` only the record of flow `g`, TSEQ and the oracle's side changed, and some records were
sent. -/
def State.FlowStep (g : U16) (s t : State) : Prop :=
  ∃ flows tseq draws freeCount recs, (∀ g', g' ≠ g → Table.find g' flows = Table.find g' s.flows) ∧
    t = { s with flows, tseq, draws, freeCount, outputs := s.sent recs }

/-- From `s` to `t` only the clock, the tables, TSEQ and the oracle's side changed, and some records were
sent. -/
def State.TimerStep (s t : State) : Prop :=
  ∃ now pool oq flows tseq draws freeCount recs,
    t = { s with now, pool, oq, flows, tseq, draws, freeCount, outputs := s.sent recs }

section
variable {s t u : State} {g : U16}

@[simp] theorem State.sent_nil (s : State) : s.sent [] = s.outputs := List.append_nil _

theorem State.PoolStep.rfl : s.PoolStep s := ⟨s.pool, s.oq, s.tseq, [], by simp⟩

/-- A change of the tables that sends nothing. -/
theorem State.PoolStep.silent (s : State) (pool : Table Bucket) (oq : List Batch) (tseq : Nat) :
    s.PoolStep { s with pool, oq, tseq } :=
  ⟨pool, oq, tseq, [], by simp⟩

theorem State.PoolStep.trans (h : s.PoolStep t) (h' : t.PoolStep u) : s.PoolStep u := by
  obtain ⟨_, _, _, r, rfl⟩ := h
  obtain ⟨p, o, n, r', rfl⟩ := h'
  exact ⟨p, o, n, r ++ r', by simp [State.sent]⟩

theorem State.FlowStep.rfl : s.FlowStep g s :=
  ⟨s.flows, s.tseq, s.draws, s.freeCount, [], fun _ _ => Eq.refl _, by simp⟩

theorem State.TimerStep.rfl : s.TimerStep s :=
  ⟨s.now, s.pool, s.oq, s.flows, s.tseq, s.draws, s.freeCount, [], by simp⟩

theorem State.TimerStep.trans (h : s.TimerStep t) (h' : t.TimerStep u) : s.TimerStep u := by
  obtain ⟨_, _, _, _, _, _, _, r, rfl⟩ := h
  obtain ⟨w, p, o, fl, n, d, c, r', rfl⟩ := h'
  exact ⟨w, p, o, fl, n, d, c, r ++ r', by simp [State.sent]⟩

theorem State.PoolStep.timerStep (h : s.PoolStep t) : s.TimerStep t := by
  obtain ⟨p, o, n, r, rfl⟩ := h
  exact ⟨s.now, p, o, s.flows, n, s.draws, s.freeCount, r, Eq.refl _⟩

theorem State.FlowStep.timerStep (h : s.FlowStep g t) : s.TimerStep t := by
  obtain ⟨fl, n, d, c, r, -, rfl⟩ := h
  exact ⟨s.now, s.pool, s.oq, fl, n, d, c, r, Eq.refl _⟩

theorem State.TimerStep.setNow (s : State) (now : U64) : s.TimerStep { s with now } :=
  ⟨now, s.pool, s.oq, s.flows, s.tseq, s.draws, s.freeCount, [], by simp⟩

/-- One procedure after the other, where each takes steps of one reflexive and transitive kind. -/
theorem Proc.andThen_left {R : State → State → Prop} {p : Proc} {f : State → Proc}
    (trans : ∀ {a b c}, R a b → R b c → R a c) (hp : R s p.left) (hf : ∀ s', R s' (f s').left) :
    R s (p.andThen f).left := by
  cases p with
  | goOn s' => exact trans hp (hf s')
  | capacity s' => exact hp

/-! ## The pool -/

theorem armPool_step (s : State) (g : U16) : s.PoolStep (s.armPool g) := by
  rcases armPool_cases s g with ⟨-, h⟩ | ⟨b, -, h⟩
  · rw [h]
    exact .rfl
  · rw [h]
    exact .silent s _ s.oq _

theorem putBucket_step (s : State) (g : U16) (b : Bucket) : s.PoolStep (s.putBucket g b) :=
  .silent s _ s.oq s.tseq

theorem takeHead_step {it : Item} (h : s.takeHead g = some (it, t)) : s.PoolStep t := by
  obtain ⟨p, n, rfl⟩ := takeHead_frame h
  exact .silent s p s.oq n

theorem gather_step (s : State) (n : Nat) (gs : List U16) : s.PoolStep (s.gather n gs).2 := by
  obtain ⟨p, m, h⟩ := gather_frame gs n s
  rw [h]
  exact .silent s p s.oq m

theorem pushBatch_step (s : State) (first : Item) (others : List Item) :
    s.PoolStep (s.pushBatch first others).left := by
  rw [pushBatch_eq]
  split
  · exact .rfl
  · exact ⟨s.pool, _, s.tseq, [.send], Eq.refl _⟩

theorem search_step (s : State) (fk : U16) : s.PoolStep (s.search fk).left := by
  rw [search_eq]
  split
  · exact .rfl
  · split
    · exact .rfl
    · rename_i h
      exact (takeHead_step h).trans ((gather_step ..).trans (pushBatch_step ..))

theorem poolExpire_step (s : State) (fk : U16) : s.PoolStep (s.poolExpire fk).left := by
  rw [poolExpire_eq]
  split
  · exact .rfl
  · rename_i h
    exact (takeHead_step h).trans (pushBatch_step ..)

theorem insertItem_step (s : State) (it : Item) : s.PoolStep (s.insertItem it).left := by
  unfold State.insertItem
  split
  · split
    · exact .rfl
    · exact (putBucket_step ..).trans (armPool_step ..)
  · split
    · exact putBucket_step ..
    · exact Proc.andThen_left .trans ((putBucket_step ..).trans (pushBatch_step ..))
        fun _ => armPool_step ..

theorem poolInsertBody_step (native : Bool) (a : PoolInsertArgs) (s : State) :
    s.PoolStep (poolInsertBody native a s).left := by
  unfold poolInsertBody
  split
  · exact .rfl
  · simp only
    split
    · rw [Proc.left_respondOk]
      exact pushBatch_step ..
    · rw [Proc.left_respondOk]
      exact Proc.andThen_left .trans (insertItem_step ..) fun _ => search_step ..

theorem oqPopFrameBody_left (a : OqPopArgs) (s : State) :
    ∃ oq, (oqPopFrameBody a s).left = { s with oq } := by
  unfold oqPopFrameBody
  split
  · exact ⟨s.oq, rfl⟩
  · split
    · exact ⟨s.oq, rfl⟩
    · exact ⟨_, rfl⟩

/-! ## Flow records -/

/-- Writing the record of flow g leaves the others; the rest of the step may move TSEQ, the oracle and the
out ports. -/
theorem State.FlowStep.of_put (s : State) (g : U16) (f : FlowRec) (tseq : Nat)
    (draws : List (List Byte)) (freeCount : Nat) (recs : List Record) :
    s.FlowStep g { s with
      flows := Table.put g f s.flows, tseq, draws, freeCount, outputs := s.sent recs } :=
  ⟨_, tseq, draws, freeCount, recs, fun _ hg => Table.find_put_ne hg f s.flows, Eq.refl _⟩

theorem putFlow_step (s : State) (g : U16) (f : FlowRec) : s.FlowStep g (s.putFlow g f) := by
  simpa [State.putFlow] using State.FlowStep.of_put s g f s.tseq s.draws s.freeCount []

theorem armedFlow_step (s : State) (g : U16) (f : FlowRec) :
    s.FlowStep g (s.putFlow g f).countArm := by
  simpa [State.putFlow, State.countArm] using
    State.FlowStep.of_put s g f (s.tseq + 1) s.draws s.freeCount []

theorem encodeCore_step {f : FlowRec} (h : s.encodeCore g f = some t) : s.FlowStep g t := by
  cases hok : s.encOk f with
  | true =>
    rw [encodeCore_fired g hok] at h
    cases h
    exact .of_put s g _ s.tseq s.draws.tail (s.freeCount + 1) [_]
  | false =>
    rw [encodeCore_notFired g hok] at h
    cases h

theorem encodeOrKeep_step (s : State) (g : U16) (f : FlowRec) : s.FlowStep g (s.encodeOrKeep g f) := by
  unfold State.encodeOrKeep
  cases h : s.encodeCore g f with
  | none => exact putFlow_step ..
  | some t => exact encodeCore_step h

theorem decodeCore_step (s : State) (g : U16) (f : FlowRec) : s.FlowStep g (s.decodeCore g f) := by
  have houts : ∀ (ps : List (List Byte)) (frag : U16) (ack : List Byte),
      s.outputs ++ ps.mapIdx (fun j p => Output.record
          (Record.bytes (.rlncDeliver g frag (BitVec.ofNat 8 j) p))) ++
        [.record (Record.bytes (.rlncAck g ack))] =
      s.sent (ps.mapIdx (fun j p => .rlncDeliver g frag (BitVec.ofNat 8 j) p) ++ [.rlncAck g ack]) := by
    intro ps frag ack
    have hmap : ps.mapIdx (fun j p => Output.record
          (Record.bytes (.rlncDeliver g frag (BitVec.ofNat 8 j) p))) =
        (ps.mapIdx fun j p => Record.rlncDeliver g frag (BitVec.ofNat 8 j) p).map
          fun r => .record r.bytes := List.ext_getElem (by simp) (by simp)
    simp [State.sent, hmap]
  rw [decodeCore_eq, houts]
  exact .of_put s g _ s.tseq s.draws _ _

theorem changeFragmentCore_step {nfrag : U16} {f : FlowRec}
    (h : s.changeFragmentCore g f nfrag = some t) : s.FlowStep g t := by
  rw [changeFragmentCore_eq] at h
  split at h
  · cases h
    exact putFlow_step ..
  · split at h
    · cases h
    · split at h
      · cases h
        exact encodeOrKeep_step ..
      · cases h
        exact armedFlow_step ..

theorem changeFragmentEnding_step (s : State) (g nfrag : U16) :
    s.FlowStep g (s.changeFragmentEnding g nfrag).left := by
  unfold State.changeFragmentEnding
  split
  · exact .rfl
  · split
    · exact .rfl
    · rename_i h
      exact changeFragmentCore_step h

theorem flowExpire_step (s : State) (g : U16) : s.FlowStep g (s.flowExpire g) := by
  rw [flowExpire_eq]
  split
  · exact .rfl
  · split
    · exact encodeOrKeep_step ..
    · exact putFlow_step ..

theorem insertRow_step (s : State) (g : U16) (f : FlowRec) (v payload : List Byte) :
    s.FlowStep g (s.insertRow g f v payload).left := by
  rw [insertRow_eq]
  split
  · exact putFlow_step ..
  · split
    · exact decodeCore_step ..
    · exact putFlow_step ..

theorem emit_step (s : State) (g : U16) (r : Record) : s.FlowStep g (s.emit r) :=
  ⟨s.flows, s.tseq, s.draws, s.freeCount, [r], fun _ _ => rfl, by simp [State.emit, State.sent]⟩

theorem receiveData_step (s : State) (g : U16) (f : FlowRec) (r : IntraHeader)
    (payload : List Byte) : s.FlowStep g (s.receiveData g f r payload).left := by
  unfold State.receiveData
  split_ifs
  · exact emit_step ..
  · exact insertRow_step ..
  · exact insertRow_step ..
  · exact .rfl
  · exact insertRow_step ..

theorem pushTx_step (s : State) (g : U16) (f : FlowRec) (payload : List Byte) :
    s.FlowStep g (s.pushTx g f payload).left := by
  unfold State.pushTx
  split
  · exact putFlow_step ..
  · split
    · exact armedFlow_step ..
    · exact putFlow_step ..

theorem txPushBody_step (a : TxPushArgs) (s : State) : s.FlowStep a.flow (txPushBody a s).left := by
  unfold txPushBody
  split
  · exact .rfl
  · split
    · exact pushTx_step ..
    · split
      · exact .rfl
      · exact pushTx_step ..

theorem encodeBody_step (g : U16) (s : State) : s.FlowStep g (encodeBody g s).left := by
  unfold encodeBody
  split
  · exact .rfl
  · split
    · exact .rfl
    · rename_i h
      exact encodeCore_step h

theorem rxDataBody_step (fwd : Bool) (g : U16) (r : IntraHeader) (payload : List Byte) (s : State) :
    s.FlowStep g (rxDataBody fwd g r payload s).left := by
  unfold rxDataBody
  cases Table.find g s.flows with
  | some f =>
    simp only
    split_ifs
    · exact .rfl
    · exact .rfl
    · exact .rfl
    · exact receiveData_step ..
  | none =>
    simp only
    split_ifs
    · exact .rfl
    · exact .rfl
    · exact .rfl
    · exact .rfl
    · exact receiveData_step ..

theorem rxPacketBody_step (fwd : Bool) (a : RxPacketArgs) (s : State) :
    s.FlowStep a.flow (rxPacketBody fwd a s).left := by
  unfold rxPacketBody
  split
  · exact .rfl
  · split
    · exact changeFragmentEnding_step ..
    · exact rxDataBody_step ..

theorem decodeBody_step (g : U16) (s : State) : s.FlowStep g (decodeBody g s).left := by
  unfold decodeBody
  split
  · exact .rfl
  · split
    · exact .rfl
    · exact decodeCore_step ..

/-- Everything RECODE does when its guard holds. -/
theorem recode_fired (s : State) (g : U16) (f f' : FlowRec) :
    (s.recodeCombine g f).putFlow g f' = { s with
      draws := s.draws.tail
      freeCount := s.freeCount + 1
      flows := Table.put g f' s.flows
      outputs := s.outputs ++ [.record (Record.bytes (.rlncTx g
        (intraHdr f.k (s.q.setWidth 8) f.frag 0 f.sport f.dport
          (linComb s.gf f.k.toNat (s.nextDraw s.qn f.rank.toNat) (f.rows f.k.toNat f.rank.toNat)) ++
          lcp s.gf (s.nextDraw s.qn f.rank.toNat) f.rx)))] } := rfl

theorem recodeBody_step (g : U16) (s : State) : s.FlowStep g (recodeBody g s).left := by
  unfold recodeBody
  split
  · exact .rfl
  · split
    · rw [recode_fired]
      exact .of_put s g _ s.tseq s.draws.tail (s.freeCount + 1) [_]
    · exact .rfl

/-! ## The timer loop -/

theorem fire_step (s : State) (e : Timer × Owner) : s.TimerStep (s.fire e).left := by
  obtain ⟨tm, fk | g⟩ := e
  · exact (State.TimerStep.setNow s _).trans (poolExpire_step _ fk).timerStep
  · exact (State.TimerStep.setNow s _).trans (flowExpire_step _ g).timerStep

theorem fireDue_step (n : Nat) (t : U64) (s : State) : s.TimerStep (State.fireDue n t s).left := by
  induction n generalizing s with
  | zero => exact .rfl
  | succ n ih =>
    unfold State.fireDue
    split
    · exact .rfl
    · exact Proc.andThen_left .trans (fire_step ..) ih

theorem timeAdvanceBody_step (t : U64) (s : State) : s.TimerStep (timeAdvanceBody t s).left := by
  unfold timeAdvanceBody
  split
  · exact .rfl
  · rw [Proc.left_respondOk]
    exact Proc.andThen_left .trans (fireDue_step ..) fun s' => .setNow s' t

end

/-! ## Every rule -/

/-- What holds of a rule on parsed operands, and of E_OPERAND alone, holds with any operands. -/
theorem Args.ending_of {α : Type} {P : Ending → Prop} {s : State} {body : α → State → Ending}
    (o : Args α) (hbad : P (.done .eOperand [] s)) (hok : ∀ a, P (body a s)) :
    P (Args.ending o body s) := by
  cases o with
  | ok a => exact hok a
  | bad bs => exact hbad

theorem vecGenBody_step (n : Byte) (s : State) : s.TimerStep (vecGenBody n s).left := by
  unfold vecGenBody
  split
  · exact .rfl
  · exact ⟨s.now, s.pool, s.oq, s.flows, s.tseq, _, _, [], by rw [State.sent_nil]; rfl⟩

/-- The rules of the commands that are not of CONFIG take steps of the timer loop's kind. -/
theorem rule_step {i : Instr} (s : State) (h : phaseNeed i ≠ .config) :
    s.TimerStep (rule i s).left := by
  by_cases hn : hasNoSideEffect i = true
  · rw [rule_left_of_noSideEffect s hn]
    exact .rfl
  · cases i with
    | nop o => exact Args.ending_of (P := fun e => s.TimerStep e.left) o .rfl fun _ => .rfl
    | timeAdvance o =>
      exact Args.ending_of (P := fun e => s.TimerStep e.left) o .rfl (timeAdvanceBody_step · s)
    | vecGen o =>
      exact Args.ending_of (P := fun e => s.TimerStep e.left) o .rfl (vecGenBody_step · s)
    | poolInsert native o =>
      exact Args.ending_of (P := fun e => s.TimerStep e.left) o .rfl
        fun a => (poolInsertBody_step native a s).timerStep
    | oqPopFrame o =>
      refine Args.ending_of (P := fun e => s.TimerStep e.left) o .rfl fun a => ?_
      obtain ⟨oq, h⟩ := oqPopFrameBody_left a s
      rw [h]
      exact (State.PoolStep.silent s s.pool oq s.tseq).timerStep
    | txPush o =>
      exact Args.ending_of (P := fun e => s.TimerStep e.left) o .rfl
        fun a => (txPushBody_step a s).timerStep
    | encode o =>
      exact Args.ending_of (P := fun e => s.TimerStep e.left) o .rfl
        fun g => (encodeBody_step g s).timerStep
    | rxPacket fwd o =>
      exact Args.ending_of (P := fun e => s.TimerStep e.left) o .rfl
        fun a => (rxPacketBody_step fwd a s).timerStep
    | decode o =>
      exact Args.ending_of (P := fun e => s.TimerStep e.left) o .rfl
        fun g => (decodeBody_step g s).timerStep
    | recode o =>
      exact Args.ending_of (P := fun e => s.TimerStep e.left) o .rfl
        fun g => (recodeBody_step g s).timerStep
    | changeFragment o =>
      exact Args.ending_of (P := fun e => s.TimerStep e.left) o .rfl
        fun a => (changeFragmentEnding_step s a.flow a.nfrag).timerStep
    | cfgWrite | start => exact absurd rfl h
    | regRead | hash | hdrBuildInter | hdrParseInter | hdrBuildIntra | hdrParseIntra | xorEnc
    | xorDec | gfMul | gfInv | matRank | matInv | poolStat | flowStat | flowRow =>
      exact absurd rfl hn

@[simp] theorem writeReg_outputs (s : State) (r : Reg) (v : U32) :
    (s.writeReg r v).outputs = s.outputs := by
  cases r <;> rfl

theorem cfgWriteBody_outputs (a : CfgWriteArgs) (s : State) :
    (cfgWriteBody a s).left.outputs = s.outputs := by
  unfold cfgWriteBody
  split
  · rfl
  · split_ifs
    · rfl
    · rfl
    · exact writeReg_outputs ..

theorem startBody_outputs (u : Unit) (s : State) : (startBody u s).left.outputs = s.outputs := by
  unfold startBody
  split
  · rfl
  · rfl

/-- A rule sends some records at most, after what was sent before. -/
theorem rule_sends (i : Instr) (s : State) : ∃ recs, (rule i s).left.outputs = s.sent recs := by
  by_cases hc : phaseNeed i = .config
  · refine ⟨[], ?_⟩
    rw [State.sent_nil]
    cases i with
    | cfgWrite o => exact Args.ending_keeps State.outputs o (cfgWriteBody_outputs · s)
    | start o => exact Args.ending_keeps State.outputs o (startBody_outputs · s)
    | _ => cases hc
  · obtain ⟨_, _, _, _, _, _, _, recs, h⟩ := rule_step s hc
    exact ⟨recs, by rw [h]⟩

/-- A rule's end is answered by one response, with no result bytes unless the status is OK. -/
theorem Ending.finish_outputs (e : Ending) : ∃ st result,
    e.finish.outputs = e.left.outputs ++ [.response (responseBytes st result)] ∧
      (st ≠ .ok → result = []) := by
  cases e with
  | done st b s => exact ⟨st, if st = .ok then b else [], rfl, fun h => if_neg h⟩
  | capacity s => exact ⟨.eFaulted, [], rfl, fun _ => rfl⟩

/-- Settles O9: a command turned away sends its response alone; a rule sends records (`rule_sends`) and is
answered once (`Ending.finish_outputs`); neither writes the ports (`rule_ports`). -/
theorem everyCommandAnswersOnce : Obligations.EveryCommandAnswersOnce := by
  intro i s
  obtain ⟨t, ht⟩ := exec_next i s
  obtain ⟨hcmd, hparams, hreset⟩ : t.cmdIn = s.cmdIn ∧ t.params = s.params ∧ t.resetPin = s.resetPin := by
    simpa [State.ports] using exec_ports ht
  rcases exec_cases ht with ⟨st, -, rfl⟩ | ⟨-, rfl⟩
  · exact ⟨_, [], st, [], ht, by simp, fun _ => rfl, hcmd, hparams, hreset⟩
  · obtain ⟨recs, hrecs⟩ := rule_sends i s
    obtain ⟨st, result, hout, hres⟩ := (rule i s).finish_outputs
    refine ⟨_, recs, st, result, ht, ?_, hres, hcmd, hparams, hreset⟩
    rw [hout, hrecs, State.sent]

/-! ## The checks -/

theorem Args.ending_of_isBad {α : Type} {o : Args α} {body : α → State → Ending} {s : State}
    (h : Args.isBad o = true) : Args.ending o body s = .done .eOperand [] s := by
  cases o with
  | ok a => cases h
  | bad bs => rfl

/-- The rule of a command whose operands do not parse is to answer E_OPERAND (30_encoding R92 step 6). -/
theorem rule_of_malformed {i : Instr} {s : State} (h : malformed i = true) :
    rule i s = .done .eOperand [] s := by
  cases i <;> exact Args.ending_of_isBad h

/-- Settles O8: each clause is one branch of `State.turnedAway`, the last one `rule_of_malformed`. -/
theorem checksComeInOrder : Obligations.ChecksComeInOrder := by
  intro i s
  refine ⟨exec_of_faulted, fun hf => ?_⟩
  have hw : ¬ (s.faulted = true ∧ i.opcode ≠ regReadOpcode) := by
    rintro ⟨hfault, hopc⟩
    rcases hf with hf | hf
    · rw [hf] at hfault
      cases hfault
    · exact hopc hf
  refine ⟨fun hlen => ?_, fun hfits => ⟨fun hp => ?_, fun hp hbad => ?_⟩⟩
  · rw [exec_eq, State.turnedAway, if_neg hw, if_pos hlen]
  · rw [exec_eq, State.turnedAway, if_neg hw, if_neg (Nat.not_lt.2 hfits), if_pos hp]
  · rw [exec_of_accepted (turnedAway_none.2 ⟨hf, hfits, hp⟩), rule_of_malformed hbad]
    rfl

/-! ## The frame of each command -/

/-- Answering a rule's end may add the fault and the response, and nothing else. -/
theorem Ending.finish_frame (e : Ending) : ∃ faulted fcode outputs,
    e.finish = { e.left with faulted, fcode, outputs } := by
  cases e with
  | done st b s => exact ⟨s.faulted, s.fcode, _, rfl⟩
  | capacity s => exact ⟨true, fCapacity, _, rfl⟩

/-- The commands on a flow take steps on that flow's record. -/
theorem rule_flowStep {i : Instr} {g : U16} (s : State) (h : writesFlow i = some g) :
    s.FlowStep g (rule i s).left := by
  cases i with
  | txPush o =>
    cases o with
    | ok a => cases h; exact txPushBody_step a s
    | bad bs => cases h
  | encode o =>
    cases o with
    | ok a => cases h; exact encodeBody_step g s
    | bad bs => cases h
  | rxPacket fwd o =>
    cases o with
    | ok a => cases h; exact rxPacketBody_step fwd a s
    | bad bs => cases h
  | decode o =>
    cases o with
    | ok a => cases h; exact decodeBody_step g s
    | bad bs => cases h
  | recode o =>
    cases o with
    | ok a => cases h; exact recodeBody_step g s
    | bad bs => cases h
  | changeFragment o =>
    cases o with
    | ok a => cases h; exact changeFragmentEnding_step s a.flow a.nfrag
    | bad bs => cases h
  | _ => cases h

theorem exec_poolInsert_frame {native : Bool} {o : Args PoolInsertArgs} {s t : State}
    (h : exec (.poolInsert native o) s = .next t) :
    t = { s with
      pool := t.pool, oq := t.oq, tseq := t.tseq, faulted := t.faulted, fcode := t.fcode,
      outputs := t.outputs } := by
  rcases exec_cases h with ⟨st, -, rfl⟩ | ⟨-, rfl⟩
  · rfl
  · obtain ⟨_, _, _, _, hleft⟩ : s.PoolStep (rule (.poolInsert native o) s).left :=
      Args.ending_of (P := fun e => s.PoolStep e.left) o .rfl (poolInsertBody_step native · s)
    obtain ⟨_, _, _, hfin⟩ := (rule (.poolInsert native o) s).finish_frame
    rw [hfin, hleft]

theorem exec_oqPopFrame_frame {o : Args OqPopArgs} {s t : State}
    (h : exec (.oqPopFrame o) s = .next t) : t = { s with oq := t.oq, outputs := t.outputs } := by
  rcases exec_cases h with ⟨st, -, rfl⟩ | ⟨-, rfl⟩
  · rfl
  · refine Args.ending_of (P := fun e => e.finish = { s with oq := e.finish.oq, outputs := e.finish.outputs })
      o rfl fun a => ?_
    unfold oqPopFrameBody
    split
    · rfl
    · split
      · rfl
      · rfl

theorem exec_timeAdvance_frame {o : Args U64} {s t : State} (h : exec (.timeAdvance o) s = .next t) :
    t = { s with
      now := t.now, pool := t.pool, oq := t.oq, flows := t.flows, tseq := t.tseq,
      draws := t.draws, freeCount := t.freeCount, faulted := t.faulted, fcode := t.fcode,
      outputs := t.outputs } := by
  rcases exec_cases h with ⟨st, -, rfl⟩ | ⟨-, rfl⟩
  · rfl
  · obtain ⟨_, _, _, _, _, _, _, _, hleft⟩ := rule_step (i := .timeAdvance o) s (by simp [phaseNeed])
    obtain ⟨_, _, _, hfin⟩ := (rule (.timeAdvance o) s).finish_frame
    rw [hfin, hleft]

theorem exec_flow_frame {i : Instr} {g : U16} {s t : State} (hi : writesFlow i = some g)
    (h : exec i s = .next t) :
    t = { s with
      flows := t.flows, tseq := t.tseq, draws := t.draws, freeCount := t.freeCount,
      faulted := t.faulted, fcode := t.fcode, outputs := t.outputs } ∧
    ∀ g', g' ≠ g → Table.find g' t.flows = Table.find g' s.flows := by
  rcases exec_cases h with ⟨st, -, rfl⟩ | ⟨-, rfl⟩
  · exact ⟨rfl, fun _ _ => rfl⟩
  · obtain ⟨_, _, _, _, _, hother, hleft⟩ := rule_flowStep s hi
    obtain ⟨_, _, _, hfin⟩ := (rule i s).finish_frame
    rw [hfin, hleft]
    exact ⟨rfl, hother⟩

/-- Settles O33: the frames of the four kinds of command. -/
theorem commandsTouchOnlyTheirState : Obligations.CommandsTouchOnlyTheirState := by
  intro i s t h
  refine ⟨?_, ?_, fun g hg => exec_flow_frame hg h, ?_⟩
  · rintro native o rfl
    exact exec_poolInsert_frame h
  · rintro o rfl
    exact exec_oqPopFrame_frame h
  · rintro o rfl
    exact exec_timeAdvance_frame h

end Sys2Proof.Machine
end

section
/-!
PROOFS. How a rule ends (60_exceptions R335 to R338): with OK; with another status that leaves the state alone;
with
I_BEHIND and its resync ACK; with I_DEPENDENT and the record prepared for the packet; or at a capacity bound that
the command can meet (`rule_ends`).
-/

namespace Sys2Proof.Machine

/-- The ways a rule can end that started in `s`; `full` is what a state left by the capacity fault meets. -/
inductive Ending.Ends (s : State) (full : State → Prop) : Ending → Prop where
  | ok (b : List Byte) (t : State) : Ends s full (.done .ok b t)
  | kept (st : Status) (b : List Byte) (notOk : st ≠ .ok) (notBehind : st ≠ .iBehind) :
      Ends s full (.done st b s)
  | behind (g : U16) (frame : List Byte) :
      Ends s full (.done .iBehind [] (s.emit (.rlncAck g frame)))
  | dependent (g : U16) (f : FlowRec) : Ends s full (.done .iDependent [] (s.putFlow g f))
  | capacity (t : State) (met : full t) : Ends s full (.capacity t)

/-- The bound that a capacity fault of the command meets (60_exceptions R338), in the state `s` it starts in or
the state it left; the commands that are not named meet none. -/
def capacityBound (i : Instr) (s : State) : State → Prop :=
  match i with
  | .poolInsert _ (.ok a) => fun t =>
    (Table.find (flowKey s.params a.src a.dst a.sport a.dport) s.pool = none ∧ s.mbs ≠ 0 ∧
      s.pool.length = s.params.poolFlowsMax) ∨ t.oq.length = t.params.oqMax
  | .timeAdvance _ => fun t => t.oq.length = t.params.oqMax
  | .txPush (.ok a) => fun _ =>
    (Table.find a.flow s.flows = none ∧
      (s.flows.length = s.params.flowsMax ∨ s.params.txbufMax = 0)) ∨
      ∃ f, Table.find a.flow s.flows = some f ∧ f.tx.length = s.params.txbufMax
  | .rxPacket _ (.ok a) => fun _ =>
    Table.find a.flow s.flows = none ∧ s.flows.length = s.params.flowsMax
  | _ => fun _ => False

/-- A capacity fault of the procedure meets the bound of the output queue. -/
def Proc.FullQueue (p : Proc) : Prop := ∀ t, p = .capacity t → t.oq.length = t.params.oqMax

section
variable {s : State} {full : State → Prop}

/-- A status that `raise` answers leaves the state alone. -/
theorem Ending.Ends.raise {st : Status} (notOk : st ≠ .ok) (notBehind : st ≠ .iBehind) :
    Ending.Ends s full (raise st s) := .kept st [] notOk notBehind

theorem Ending.Ends.mono {e : Ending} {full' : State → Prop} (h : e.Ends s full)
    (hf : ∀ t, full t → full' t) : e.Ends s full' := by
  cases h with
  | ok b t => exact .ok b t
  | kept st b h1 h2 => exact .kept st b h1 h2
  | behind g frame => exact .behind g frame
  | dependent g f => exact .dependent g f
  | capacity t met => exact .capacity t (hf t met)

/-! ## The output queue's bound -/

theorem Proc.FullQueue.goOn (s : State) : (Proc.goOn s).FullQueue := fun _ h => by cases h

theorem Proc.FullQueue.andThen {p : Proc} {f : State → Proc} (hp : p.FullQueue)
    (hf : ∀ s, (f s).FullQueue) : (p.andThen f).FullQueue := by
  cases p with
  | goOn s => exact hf s
  | capacity s => exact hp

theorem Proc.FullQueue.ends {p : Proc} (hp : p.FullQueue) (b : List Byte) :
    (p.respondOk b).Ends s fun t => t.oq.length = t.params.oqMax := by
  cases p with
  | goOn t => exact .ok b t
  | capacity t => exact .capacity t (hp t rfl)

theorem pushBatch_fullQueue (s : State) (first : Item) (others : List Item) :
    (s.pushBatch first others).FullQueue := by
  rw [pushBatch_eq]
  split
  · intro t h
    cases h
    assumption
  · exact .goOn _

theorem search_fullQueue (s : State) (fk : U16) : (s.search fk).FullQueue := by
  rw [search_eq]
  split
  · exact .goOn s
  · split
    · exact .goOn s
    · exact pushBatch_fullQueue _ _ _

theorem poolExpire_fullQueue (s : State) (fk : U16) : (s.poolExpire fk).FullQueue := by
  rw [poolExpire_eq]
  split
  · exact .goOn s
  · exact pushBatch_fullQueue _ _ _

theorem fire_fullQueue (s : State) (e : Timer × Owner) : (s.fire e).FullQueue := by
  obtain ⟨tm, fk | g⟩ := e
  · exact poolExpire_fullQueue _ _
  · exact .goOn _

theorem fireDue_fullQueue (n : Nat) (t : U64) (s : State) : (State.fireDue n t s).FullQueue := by
  induction n generalizing s with
  | zero => exact .goOn s
  | succ n ih =>
    unfold State.fireDue
    split
    · exact .goOn s
    · exact (fire_fullQueue _ _).andThen ih

/-! ## The commands that only answer -/

theorem regReadBody_ends (reg : Byte) (s : State) : (regReadBody reg s).Ends s full := by
  unfold regReadBody
  split
  · exact .raise (by decide) (by decide)
  · exact .ok ..

theorem cfgWriteBody_ends (a : CfgWriteArgs) (s : State) : (cfgWriteBody a s).Ends s full := by
  unfold cfgWriteBody
  split
  · exact .raise (by decide) (by decide)
  · split_ifs
    · exact .raise (by decide) (by decide)
    · exact .raise (by decide) (by decide)
    · exact .ok ..

theorem startBody_ends (u : Unit) (s : State) : (startBody u s).Ends s full := by
  unfold startBody
  split
  · exact .raise (by decide) (by decide)
  · exact .ok ..

theorem hdrBuildInterBody_ends (a : HdrBuildInterArgs) (s : State) :
    (hdrBuildInterBody a s).Ends s full := by
  unfold hdrBuildInterBody
  split
  · exact .raise (by decide) (by decide)
  · exact .ok ..

theorem hdrParseInterBody_ends (pkt : List Byte) (s : State) :
    (hdrParseInterBody pkt s).Ends s full := by
  unfold hdrParseInterBody
  split
  · exact .raise (by decide) (by decide)
  · exact .ok ..

theorem hdrBuildIntraBody_ends (a : HdrBuildIntraArgs) (s : State) :
    (hdrBuildIntraBody a s).Ends s full := by
  unfold hdrBuildIntraBody
  split_ifs
  · exact .raise (by decide) (by decide)
  · exact .raise (by decide) (by decide)
  · exact .raise (by decide) (by decide)
  · exact .ok ..

theorem hdrParseIntraBody_ends (pkt : List Byte) (s : State) :
    (hdrParseIntraBody pkt s).Ends s full := by
  unfold hdrParseIntraBody
  split
  · exact .raise (by decide) (by decide)
  · exact .ok ..

theorem xorEncBody_ends (ps : List (List Byte)) (s : State) : (xorEncBody ps s).Ends s full := by
  unfold xorEncBody
  split_ifs
  · exact .raise (by decide) (by decide)
  · exact .raise (by decide) (by decide)
  · exact .ok ..

theorem xorDecBody_ends (a : XorDecArgs) (s : State) : (xorDecBody a s).Ends s full := by
  unfold xorDecBody
  split
  · exact .raise (by decide) (by decide)
  · exact .ok ..

theorem gfMulBody_ends (x : GfMulArgs) (s : State) : (gfMulBody x s).Ends s full := by
  unfold gfMulBody
  split
  · exact .raise (by decide) (by decide)
  · exact .ok ..

theorem gfInvBody_ends (a : Byte) (s : State) : (gfInvBody a s).Ends s full := by
  unfold gfInvBody
  split_ifs
  · exact .raise (by decide) (by decide)
  · exact .raise (by decide) (by decide)
  · exact .ok ..

theorem matRankBody_ends (x : MatRankArgs) (s : State) : (matRankBody x s).Ends s full := by
  unfold matRankBody
  split
  · exact .raise (by decide) (by decide)
  · exact .ok ..

theorem matInvBody_ends (x : MatInvArgs) (s : State) : (matInvBody x s).Ends s full := by
  unfold matInvBody
  simp only
  split_ifs
  · exact .raise (by decide) (by decide)
  · exact .raise (by decide) (by decide)
  · exact .raise (by decide) (by decide)
  · split
    · exact .raise (by decide) (by decide)
    · exact .ok ..

theorem vecGenBody_ends (n : Byte) (s : State) : (vecGenBody n s).Ends s full := by
  unfold vecGenBody
  split
  · exact .raise (by decide) (by decide)
  · exact .ok ..

theorem oqPopFrameBody_ends (a : OqPopArgs) (s : State) : (oqPopFrameBody a s).Ends s full := by
  unfold oqPopFrameBody
  split
  · exact .raise (by decide) (by decide)
  · split
    · exact .raise (by decide) (by decide)
    · exact .ok ..

theorem poolStatBody_ends (fk : U16) (s : State) : (poolStatBody fk s).Ends s full := by
  unfold poolStatBody
  split
  · exact .ok ..
  · exact .ok ..

theorem flowStatBody_ends (g : U16) (s : State) : (flowStatBody g s).Ends s full := by
  unfold flowStatBody
  split
  · exact .raise (by decide) (by decide)
  · exact .ok ..

theorem flowRowBody_ends (a : FlowRowArgs) (s : State) : (flowRowBody a s).Ends s full := by
  unfold flowRowBody
  split
  · exact .raise (by decide) (by decide)
  · split
    · exact .raise (by decide) (by decide)
    · exact .ok ..

/-! ## The pool and the clock -/

theorem timeAdvanceBody_ends (t : U64) (s : State) :
    (timeAdvanceBody t s).Ends s fun u => u.oq.length = u.params.oqMax := by
  unfold timeAdvanceBody
  split
  · exact .raise (by decide) (by decide)
  · exact ((fireDue_fullQueue _ _ _).andThen fun _ => .goOn _).ends []

/-- Putting the item into its bucket meets a bound for a new key beyond POOL_FLOWS_MAX, or the queue's bound. -/
theorem insertItem_capacity {it : Item} {t : State} (h : s.insertItem it = .capacity t) :
    (Table.find it.fk s.pool = none ∧ s.pool.length = s.params.poolFlowsMax) ∨
      t.oq.length = t.params.oqMax := by
  unfold State.insertItem at h
  split at h
  · rename_i hnone
    split at h
    · exact .inl ⟨hnone, by assumption⟩
    · cases h
  · split at h
    · cases h
    · exact .inr (((pushBatch_fullQueue _ _ _).andThen fun _ => .goOn _) t h)

theorem poolInsertBody_ends (native : Bool) (a : PoolInsertArgs) (s : State) :
    (poolInsertBody native a s).Ends s (capacityBound (.poolInsert native (.ok a)) s) := by
  unfold poolInsertBody
  split
  · exact .raise (by decide) (by decide)
  · simp only
    split
    · exact ((pushBatch_fullQueue _ _ _).ends []).mono fun _ => .inr
    · rename_i hmbs
      cases hins : s.insertItem (s.itemOf native a) with
      | goOn s' => exact ((search_fullQueue _ _).ends []).mono fun _ => .inr
      | capacity t =>
        refine .capacity t ?_
        rcases insertItem_capacity hins with ⟨hnone, hlen⟩ | hq
        · exact .inl ⟨hnone, hmbs, hlen⟩
        · exact .inr hq

/-! ## The flow records -/

theorem changeFragmentEnding_ends (s : State) (g nfrag : U16) :
    (s.changeFragmentEnding g nfrag).Ends s full := by
  unfold State.changeFragmentEnding
  split
  · exact .raise (by decide) (by decide)
  · split
    · exact .raise (by decide) (by decide)
    · exact .ok ..

theorem encodeBody_ends (g : U16) (s : State) : (encodeBody g s).Ends s full := by
  unfold encodeBody
  split
  · exact .raise (by decide) (by decide)
  · split
    · exact .raise (by decide) (by decide)
    · exact .ok ..

theorem decodeBody_ends (g : U16) (s : State) : (decodeBody g s).Ends s full := by
  unfold decodeBody
  split
  · exact .raise (by decide) (by decide)
  · split
    · exact .raise (by decide) (by decide)
    · exact .ok ..

theorem recodeBody_ends (g : U16) (s : State) : (recodeBody g s).Ends s full := by
  unfold recodeBody
  split
  · exact .raise (by decide) (by decide)
  · split
    · exact .ok ..
    · exact .raise (by decide) (by decide)

theorem pushTx_ends (s : State) (g : U16) (f : FlowRec) (payload : List Byte) :
    (s.pushTx g f payload).Ends s fun _ => f.tx.length = s.params.txbufMax := by
  unfold State.pushTx
  split
  · exact .capacity _ (by assumption)
  · simp only
    split
    · exact .ok ..
    · exact .ok ..

theorem txPushBody_ends (a : TxPushArgs) (s : State) :
    (txPushBody a s).Ends s (capacityBound (.txPush (.ok a)) s) := by
  unfold txPushBody
  split
  · exact .raise (by decide) (by decide)
  · split
    · rename_i f hf
      exact (pushTx_ends ..).mono fun _ h => .inr ⟨f, hf, h⟩
    · rename_i hnone
      split
      · rename_i hlen
        exact .capacity s (.inl ⟨hnone, .inl hlen⟩)
      · exact (pushTx_ends ..).mono fun _ h => .inl ⟨hnone, .inr h.symm⟩

theorem insertRow_ends (s : State) (g : U16) (f : FlowRec) (v payload : List Byte) :
    (s.insertRow g f v payload).Ends s full := by
  rw [insertRow_eq]
  split
  · exact .dependent g f
  · split
    · exact .ok ..
    · exact .ok ..

theorem receiveData_ends (s : State) (g : U16) (f : FlowRec) (r : IntraHeader) (payload : List Byte) :
    (s.receiveData g f r payload).Ends s full := by
  unfold State.receiveData
  split_ifs
  · exact .behind ..
  · exact insertRow_ends ..
  · exact insertRow_ends ..
  · exact .raise (by decide) (by decide)
  · exact insertRow_ends ..

theorem rxDataBody_ends (fwd : Bool) (g : U16) (r : IntraHeader) (payload : List Byte) (s : State) :
    (rxDataBody fwd g r payload s).Ends s fun _ =>
      Table.find g s.flows = none ∧ s.flows.length = s.params.flowsMax := by
  unfold rxDataBody
  split
  · exact .raise (by decide) (by decide)
  split
  · exact .raise (by decide) (by decide)
  split
  · exact .raise (by decide) (by decide)
  split
  · exact receiveData_ends ..
  · rename_i hnone
    split
    · rename_i hlen
      exact .capacity s ⟨hnone, hlen⟩
    · exact receiveData_ends ..

theorem rxPacketBody_ends (fwd : Bool) (a : RxPacketArgs) (s : State) :
    (rxPacketBody fwd a s).Ends s (capacityBound (.rxPacket fwd (.ok a)) s) := by
  unfold rxPacketBody
  split
  · exact .raise (by decide) (by decide)
  · split
    · exact changeFragmentEnding_ends ..
    · exact rxDataBody_ends ..

end

/-- How every command's rule can end. -/
theorem rule_ends (i : Instr) (s : State) : (rule i s).Ends s (capacityBound i s) := by
  have hbad : ∀ full, Ending.Ends s full (.done .eOperand [] s) :=
    fun full => .kept _ _ (by decide) (by decide)
  cases i with
  | nop o => exact Args.ending_of o (hbad _) fun _ => .ok ..
  | regRead o => exact Args.ending_of o (hbad _) (regReadBody_ends · s)
  | cfgWrite o => exact Args.ending_of o (hbad _) (cfgWriteBody_ends · s)
  | start o => exact Args.ending_of o (hbad _) (startBody_ends · s)
  | timeAdvance o => exact Args.ending_of o (hbad _) (timeAdvanceBody_ends · s)
  | hash o => exact Args.ending_of o (hbad _) fun _ => .ok ..
  | hdrBuildInter o => exact Args.ending_of o (hbad _) (hdrBuildInterBody_ends · s)
  | hdrParseInter o => exact Args.ending_of o (hbad _) (hdrParseInterBody_ends · s)
  | hdrBuildIntra o => exact Args.ending_of o (hbad _) (hdrBuildIntraBody_ends · s)
  | hdrParseIntra o => exact Args.ending_of o (hbad _) (hdrParseIntraBody_ends · s)
  | xorEnc o => exact Args.ending_of o (hbad _) (xorEncBody_ends · s)
  | xorDec o => exact Args.ending_of o (hbad _) (xorDecBody_ends · s)
  | gfMul o => exact Args.ending_of o (hbad _) (gfMulBody_ends · s)
  | gfInv o => exact Args.ending_of o (hbad _) (gfInvBody_ends · s)
  | matRank o => exact Args.ending_of o (hbad _) (matRankBody_ends · s)
  | matInv o => exact Args.ending_of o (hbad _) (matInvBody_ends · s)
  | vecGen o => exact Args.ending_of o (hbad _) (vecGenBody_ends · s)
  | poolInsert native o =>
    cases o with
    | ok a => exact poolInsertBody_ends native a s
    | bad bs => exact hbad _
  | oqPopFrame o => exact Args.ending_of o (hbad _) (oqPopFrameBody_ends · s)
  | poolStat o => exact Args.ending_of o (hbad _) (poolStatBody_ends · s)
  | txPush o =>
    cases o with
    | ok a => exact txPushBody_ends a s
    | bad bs => exact hbad _
  | encode o => exact Args.ending_of o (hbad _) (encodeBody_ends · s)
  | rxPacket fwd o =>
    cases o with
    | ok a => exact rxPacketBody_ends fwd a s
    | bad bs => exact hbad _
  | decode o => exact Args.ending_of o (hbad _) (decodeBody_ends · s)
  | recode o => exact Args.ending_of o (hbad _) (recodeBody_ends · s)
  | changeFragment o =>
    exact Args.ending_of o (hbad _) fun a => changeFragmentEnding_ends s a.flow a.nfrag
  | flowStat o => exact Args.ending_of o (hbad _) (flowStatBody_ends · s)
  | flowRow o => exact Args.ending_of o (hbad _) (flowRowBody_ends · s)

/-! ## The last response -/

/-- A state that just answered has one status. -/
theorem State.Answered.eq_of_respond {s : State} {st st' : Status} {b : List Byte}
    (h : (s.respond st' b).Answered st) : st = st' := by
  obtain ⟨result, h⟩ := h
  rw [State.respond_outputs, List.getLast?_append] at h
  simp only [List.getLast?_singleton, Option.some_or, Option.some.injEq, Output.response.injEq] at h
  exact (responseBytes_status h).symm

theorem State.respond_answered (s : State) (st : Status) (b : List Byte) : (s.respond st b).Answered st :=
  ⟨if st = .ok then b else [], by rw [State.respond_outputs, List.getLast?_append]; rfl⟩

/-- Result bytes go only with OK. -/
theorem State.respond_of_ne_ok (s : State) {st : Status} (h : st ≠ .ok) (b : List Byte) :
    s.respond st b = s.respond st [] := by
  simp [State.respond, h]

/-- A command that runs while FAULT = 1 meets no capacity bound: it is REG_READ. -/
theorem not_capacityBound_of_faulted {i : Instr} {s t : State} (hf : s.faulted = true)
    (h : s.turnedAway i.opcode i.olen (phaseNeed i) = none) : ¬ capacityBound i s t := by
  obtain ⟨hrun, -, -⟩ := turnedAway_none.1 h
  rcases hrun with hrun | hrun
  · rw [hf] at hrun
    cases hrun
  · obtain ⟨o, rfl⟩ := opcode_eq_regRead hrun
    exact id

/-- Settles O10: the checks answer errors alone, and of the ways a rule can end (`rule_ends`) only OK and a new
capacity fault move more than the statement allows. -/
theorem statusWithoutEffect : Obligations.StatusWithoutEffect := by
  intro i s t st h hans
  rcases exec_cases h with ⟨st', hst, rfl⟩ | ⟨hpass, rfl⟩
  · obtain rfl := hans.eq_of_respond
    refine ⟨fun _ => rfl, ?_, fun _ => ⟨rfl, rfl⟩⟩
    rintro rfl
    rcases turnedAway_cases hst with ⟨h, -⟩ | h | h <;> cases h
  · generalize hfull : capacityBound i s = full
    have hends := rule_ends i s
    rw [hfull] at hends
    cases he : rule i s with
    | done st' b s' =>
      rw [he] at hends hans
      obtain rfl := hans.eq_of_respond
      cases hends with
      | ok => exact ⟨by simp [Status.isError], by simp, by simp [Status.isInfo]⟩
      | kept _ _ hok hbehind =>
        exact ⟨fun _ => s.respond_of_ne_ok hok b, fun h => absurd h hbehind, fun _ => ⟨rfl, rfl⟩⟩
      | behind g frame => exact ⟨by simp [Status.isError], fun _ => ⟨g, frame, rfl⟩, fun _ => ⟨rfl, rfl⟩⟩
      | dependent g f => exact ⟨by simp [Status.isError], by simp, fun _ => ⟨rfl, rfl⟩⟩
    | capacity s' =>
      rw [he] at hends hans
      obtain rfl := hans.eq_of_respond
      refine ⟨fun hst => ?_, by simp, by simp [Status.isInfo]⟩
      have hf : s.faulted = true := by simpa [Status.isError] using hst
      cases hends with
      | capacity _ met => exact absurd (hfull ▸ met) (not_capacityBound_of_faulted hf hpass)

/-! ## The capacity fault -/

@[simp] theorem writeReg_faulted (s : State) (r : Reg) (v : U32) :
    (s.writeReg r v).faulted = s.faulted := by
  cases r <;> rfl

theorem State.faulted_eq_of_setup {s t : State} (h : t.setup = s.setup) : t.faulted = s.faulted :=
  show t.setup.faulted = s.setup.faulted by rw [h]

theorem cfgWriteBody_faulted (a : CfgWriteArgs) (s : State) :
    (cfgWriteBody a s).left.faulted = s.faulted := by
  unfold cfgWriteBody
  split
  · rfl
  · split_ifs
    · rfl
    · rfl
    · exact writeReg_faulted ..

theorem startBody_faulted (u : Unit) (s : State) : (startBody u s).left.faulted = s.faulted := by
  unfold startBody
  split
  · rfl
  · rfl

/-- No rule writes FAULT: only its end may (60_exceptions R337). -/
theorem rule_faulted (i : Instr) (s : State) : (rule i s).left.faulted = s.faulted := by
  by_cases hc : phaseNeed i = .config
  · cases i with
    | cfgWrite o => exact Args.ending_keeps State.faulted o (cfgWriteBody_faulted · s)
    | start o => exact Args.ending_keeps State.faulted o (startBody_faulted · s)
    | _ => cases hc
  · exact State.faulted_eq_of_setup (rule_setup s hc)

/-- A command that faults the engine ended at a bound it can meet (60_exceptions R337, R338). -/
theorem exec_faults {i : Instr} {s t : State} (hf : s.faulted = false) (h : exec i s = .next t)
    (ht : t.faulted = true) :
    ∃ s', rule i s = .capacity s' ∧ t = (s'.enterFault fCapacity).respond .eFaulted [] ∧
      capacityBound i s s' ∧ s'.params = s.params := by
  rcases exec_cases h with ⟨st, -, rfl⟩ | ⟨-, rfl⟩
  · rw [State.respond_faulted, hf] at ht
    cases ht
  · have hends := rule_ends i s
    have hfault := rule_faulted i s
    have hports := rule_ports i s
    cases he : rule i s with
    | done st b s' =>
      rw [he] at hfault ht
      rw [Ending.finish_done, State.respond_faulted] at ht
      rw [Ending.left_done, ht, hf] at hfault
      cases hfault
    | capacity s' =>
      rw [he] at hends hports
      refine ⟨s', rfl, rfl, ?_, congrArg (fun p => p.2.1) hports⟩
      generalize capacityBound i s = full at hends
      cases hends with
      | capacity _ met => exact met

/-- TXBUF_MAX is not 0 within the parameter ranges (00_scope R5). -/
theorem Params.legal_txbufMax {p : Params} (h : p.legal = true) : p.txbufMax ≠ 0 := by
  simp only [Params.legal, Bool.and_eq_true, decide_eq_true_eq] at h
  omega

/-- Settles O13: the bound that `exec_faults` names is one of the four of R338. -/
theorem faultOnlyFromCapacity : Obligations.FaultOnlyFromCapacity := by
  intro i s t hlegal hf h ht
  obtain ⟨s', -, rfl, hbound, hp⟩ := exec_faults hf h ht
  refine ⟨rfl, State.respond_answered .., ?_⟩
  unfold capacityBound at hbound
  split at hbound
  · rename_i native a
    rw [hp] at hbound
    exact .inl ⟨native, a, rfl, hbound⟩
  · rename_i o
    rw [hp] at hbound
    exact .inr (.inl ⟨o, rfl, hbound⟩)
  · rename_i a
    have htx := Params.legal_txbufMax hlegal
    exact .inr (.inr (.inl ⟨a, rfl, by tauto⟩))
  · rename_i fwd a
    exact .inr (.inr (.inr ⟨fwd, a, rfl, hbound⟩))
  · exact hbound.elim

/-! ## The commands without side effects -/

/-- What a rule answers. -/
def Ending.answer : Ending → Option (Status × List Byte)
  | .done st b _ => some (st, b)
  | .capacity _ => none

theorem Ending.finish_getLast? (e : Ending) : e.finish.outputs.getLast? = some (.response
    (e.answer.elim (responseBytes .eFaulted []) fun x =>
      responseBytes x.1 (if x.1 = .ok then x.2 else []))) := by
  cases e <;> simp [Ending.finish, Ending.answer]

theorem Args.ending_answer {α : Type} {o : Args α} {body : α → State → Ending} {s t : State}
    (h : ∀ a, (body a s).answer = (body a t).answer) :
    (Args.ending o body s).answer = (Args.ending o body t).answer := by
  cases o with
  | ok a => exact h a
  | bad bs => rfl

/-- The commands of 20_memory R75 do not read the out ports. -/
theorem rule_answer_outputs {i : Instr} (s : State) (outs : List Output)
    (h : hasNoSideEffect i = true) :
    (rule i { s with outputs := outs }).answer = (rule i s).answer := by
  have hite : ∀ {p q : Prop} [Decidable p] [Decidable q] {a b c d : Ending}, (p ↔ q) →
      a.answer = c.answer → b.answer = d.answer →
      (if p then a else b).answer = (if q then c else d).answer := by
    intro p q _ _ a b c d hpq hac hbd
    simp only [hpq]
    split
    · exact hac
    · exact hbd
  cases i with
  | regRead o =>
    refine Args.ending_answer fun reg => ?_
    unfold regReadBody
    cases regOfNumber reg with
    | none => rfl
    | some r => cases r <;> rfl
  | hash o => exact Args.ending_answer fun a => rfl
  | hdrBuildInter o => exact Args.ending_answer fun a => hite Iff.rfl rfl rfl
  | hdrParseInter o =>
    refine Args.ending_answer fun pkt => ?_
    unfold hdrParseInterBody
    cases interParse pkt <;> rfl
  | hdrBuildIntra o =>
    exact Args.ending_answer fun a => hite Iff.rfl rfl (hite Iff.rfl rfl (hite Iff.rfl rfl rfl))
  | hdrParseIntra o =>
    refine Args.ending_answer fun pkt => ?_
    show (match intraParse s.params.qMax pkt with | none => _ | some h => _ : Ending).answer = _
    unfold hdrParseIntraBody
    cases intraParse s.params.qMax pkt <;> rfl
  | xorEnc o => exact Args.ending_answer fun ps => hite Iff.rfl rfl (hite Iff.rfl rfl rfl)
  | xorDec o => exact Args.ending_answer fun a => hite Iff.rfl rfl rfl
  | gfMul o => exact Args.ending_answer fun x => hite Iff.rfl rfl rfl
  | gfInv o => exact Args.ending_answer fun a => hite Iff.rfl rfl (hite Iff.rfl rfl rfl)
  | matRank o => exact Args.ending_answer fun x => hite Iff.rfl rfl rfl
  | matInv o =>
    refine Args.ending_answer fun x => hite Iff.rfl rfl (hite Iff.rfl rfl (hite Iff.rfl rfl ?_))
    show (match matInv s.gf x.n.toNat _ with | none => _ | some b => _ : Ending).answer = _
    cases matInv s.gf x.n.toNat (toRows x.n.toNat x.n.toNat x.elems) <;> rfl
  | poolStat o =>
    refine Args.ending_answer fun fk => ?_
    unfold poolStatBody
    cases Table.find fk s.pool <;> rfl
  | flowStat o =>
    refine Args.ending_answer fun g => ?_
    unfold flowStatBody
    cases Table.find g s.flows <;> rfl
  | flowRow o =>
    refine Args.ending_answer fun a => ?_
    unfold flowRowBody
    cases Table.find a.flow s.flows with
    | none => rfl
    | some f => exact hite Iff.rfl rfl rfl
  | nop | cfgWrite | start | timeAdvance | vecGen | poolInsert | oqPopFrame | txPush | encode
  | rxPacket | decode | recode | changeFragment => cases h

/-- Running such a command again, whatever was sent in between, answers the same. -/
theorem exec_again {i : Instr} {s t u : State} {outs : List Output} (hi : hasNoSideEffect i = true)
    (ht : exec i s = .next t) (hu : exec i { s with outputs := outs } = .next u) :
    u.outputs.getLast? = t.outputs.getLast? := by
  have hw : State.turnedAway { s with outputs := outs } i.opcode i.olen (phaseNeed i) =
      s.turnedAway i.opcode i.olen (phaseNeed i) := rfl
  rw [exec_eq] at ht hu
  rw [hw] at hu
  cases h : s.turnedAway i.opcode i.olen (phaseNeed i) with
  | some st =>
    rw [h] at ht hu
    cases ht
    cases hu
    simp
  | none =>
    rw [h] at ht hu
    cases ht
    cases hu
    rw [Ending.finish_getLast?, Ending.finish_getLast?, rule_answer_outputs s outs hi]

theorem exec_noSideEffect_frame {i : Instr} {s t : State} (hi : hasNoSideEffect i = true)
    (h : exec i s = .next t) : t = { s with outputs := t.outputs } := by
  rcases exec_cases h with ⟨st, -, rfl⟩ | ⟨-, rfl⟩
  · rfl
  · have hleft := rule_left_of_noSideEffect s hi
    have hends := rule_ends i s
    cases he : rule i s with
    | done st b s' =>
      rw [he, Ending.left_done] at hleft
      rw [hleft]
      rfl
    | capacity s' =>
      rw [he] at hends
      have hfalse : capacityBound i s s' := by
        generalize capacityBound i s = full at hends
        cases hends with
        | capacity _ met => exact met
      cases i with
      | timeAdvance | poolInsert | txPush | rxPacket => cases hi
      | _ => exact hfalse.elim

theorem exec_vecGen_frame {o : Args Byte} {s t : State} (h : exec (.vecGen o) s = .next t) :
    t = { s with outputs := t.outputs, draws := t.draws, freeCount := t.freeCount } := by
  rcases exec_cases h with ⟨st, -, rfl⟩ | ⟨-, rfl⟩
  · rfl
  · refine Args.ending_of (P := fun e => e.finish = { s with
      outputs := e.finish.outputs, draws := e.finish.draws, freeCount := e.finish.freeCount })
      o rfl fun n => ?_
    unfold vecGenBody
    split
    · rfl
    · rfl

/-- Settles O11: the listed commands leave the state alone but for the out port, which they do not read. -/
theorem inspectionHasNoSideEffect : Obligations.InspectionHasNoSideEffect := by
  intro i s t h
  refine ⟨fun hi => ⟨exec_noSideEffect_frame hi h, fun u hu => ?_⟩, ?_⟩
  · rw [exec_noSideEffect_frame hi h] at hu
    exact exec_again hi h hu
  · rintro o rfl
    exact exec_vecGen_frame h

end Sys2Proof.Machine
end

section
/-!
PROOFS. The control commands and the registers (10_state R21 to R28, 40_control R131 to R133), and what a step can
do to the state as a whole (`exec_kinds`), from which the invariants follow.
-/

namespace Sys2Proof.Machine

/-! ## Register numbers -/

/-- The number of a register (10_state R21). -/
def Reg.number : Reg → Nat
  | .id => 0x00
  | .status => 0x01
  | .nowLo => 0x02
  | .nowHi => 0x03
  | .oqDepth => 0x04
  | .poolBuckets => 0x05
  | .flows => 0x06
  | .mbs => 0x10
  | .btoInter => 0x11
  | .mcp => 0x12
  | .q => 0x20
  | .kcfg => 0x21
  | .mode => 0x22
  | .btoIntra => 0x23
  | .encCap => 0x24
  | .recCap => 0x25
  | .cfAdvance => 0x26
  | .poly => 0x27

/-- The register map assigns each register its number and no other. -/
theorem regOfNumber_eq_some {n : Byte} {r : Reg} (h : regOfNumber n = some r) : n.toNat = r.number := by
  unfold regOfNumber at h
  split at h
  all_goals cases h
  all_goals assumption

/-- A number without a register has no value. -/
theorem specRegister_of_unassigned {n : Byte} (s : State) (h : regOfNumber n = none) :
    specRegister s n.toNat = none := by
  unfold regOfNumber at h
  split at h
  case h_19 => simp_all [specRegister]
  all_goals cases h

/-- The fields of STATUS do not overlap, so its bits add up. -/
theorem statusBits_eq (run fault queued : Bool) : ∀ c : Byte,
    ((if run then 1#32 else 0#32) ||| (if fault then 2#32 ||| (c.setWidth 32 <<< 8) else 0#32) |||
      (if queued then 4#32 else 0#32)) = BitVec.ofNat 32
    ((if run then 1 else 0) + (if fault then 2 + 256 * c.toNat else 0) + (if queued then 4 else 0)) := by
  cases run <;> cases fault <;> cases queued <;> decide

theorem statusWord_eq (s : State) : s.statusWord = BitVec.ofNat 32
    ((if s.phase = .run then 1 else 0) + (if s.faulted then 2 + 256 * s.fcode.toNat else 0) +
      (if s.oq = [] then 0 else 4)) := by
  have hq : (if s.oqne then 4 else 0) = if s.oq = [] then 0 else 4 := by
    unfold State.oqne
    cases s.oq <;> rfl
  have h := statusBits_eq (decide (s.phase = .run)) s.faulted s.oqne s.fcode
  simp only [decide_eq_true_eq, hq] at h
  exact h

/-- The value of each register, as a number (10_state R21, R22, R25). -/
theorem specRegister_number (s : State) (r : Reg) :
    ∃ v, specRegister s r.number = some v ∧ s.readReg r = BitVec.ofNat 32 v := by
  have hmod : ∀ x : Nat, BitVec.ofNat 32 (x % 2 ^ 32) = BitVec.ofNat 32 x :=
    fun x => BitVec.eq_of_toNat_eq (Nat.mod_mod ..)
  cases r with
  | status => exact ⟨_, rfl, statusWord_eq s⟩
  | nowLo => exact ⟨_, rfl, ((hmod _).trans (BitVec.ofNat_toNat ..)).symm⟩
  | nowHi =>
    refine ⟨_, rfl, BitVec.eq_of_toNat_eq ?_⟩
    simp [State.readReg, Nat.shiftRight_eq_div_pow]
  | id | oqDepth | poolBuckets | flows | poly => exact ⟨_, rfl, rfl⟩
  | mbs | mcp | q | kcfg | mode | cfAdvance => exact ⟨_, rfl, (BitVec.ofNat_toNat ..).symm⟩
  | btoInter | btoIntra | encCap | recCap => exact ⟨_, rfl, by simp [State.readReg]⟩

/-! ## REG_READ -/

/-- REG_READ runs in both phases and while FAULT = 1 (30_encoding R92 step 1, R101). -/
theorem exec_regRead {s : State} {o : Args Byte} (hlen : (Instr.regRead o).olen ≤ s.params.cmdMax) :
    exec (.regRead o) s = .next (rule (.regRead o) s).finish :=
  exec_of_accepted (turnedAway_none.2 ⟨.inr rfl, hlen, rfl⟩)

/-- Settles O15: the register map names the register (`regOfNumber_eq_some`), and its value is the one of the
table (`specRegister_number`). -/
theorem regReadAnswersRegister : Obligations.RegReadAnswersRegister := by
  intro s reg hlen
  rw [exec_regRead (o := .ok reg) hlen]
  simp only [rule, Args.ending_ok, regReadBody]
  cases hr : regOfNumber reg with
  | none => simp [specRegister_of_unassigned s hr]
  | some r =>
    obtain ⟨v, hv, hread⟩ := specRegister_number s r
    rw [← regOfNumber_eq_some hr] at hv
    simp only [hv, hread, put32, BitVec.toNat_ofNat, putBE_mod_self 4 v (2 ^ 32) (by norm_num),
      Ending.finish_done]

/-! ## CFG_WRITE -/

/-- A register is writable exactly when the table gives it a range. -/
theorem specRange_eq_none_iff (p : Params) (r : Reg) :
    specRange p r.number = none ↔ r.writable = false := by
  cases r <;> simp [specRange, Reg.number, Reg.writable]

/-- The range of a writable register is that of the table; a 32-bit value is in any 32-bit range. -/
theorem inRange_iff {p : Params} {r : Reg} {lo hi : Nat} (h : specRange p r.number = some (lo, hi))
    (v : U32) : r.inRange p v.toNat = true ↔ lo ≤ v.toNat ∧ v.toNat ≤ hi := by
  have hv : v.toNat < 2 ^ 32 := v.isLt
  cases r with
  | btoInter | btoIntra =>
    cases h
    simp only [Reg.inRange, true_iff]
    omega
  | mcp | q | kcfg =>
    cases h
    simp only [Reg.inRange, Bool.and_eq_true, decide_eq_true_eq]
  | mbs | mode | encCap | recCap | cfAdvance =>
    cases h
    simp only [Reg.inRange, decide_eq_true_eq]
    omega
  | _ => cases h

/-- CFG_WRITE's rule on a register, which is the one of its number. -/
theorem cfgWriteBody_of_reg {a : CfgWriteArgs} {r : Reg} (s : State) (h : regOfNumber a.reg = some r) :
    cfgWriteBody a s =
      if r.writable = false then raise .eConfig s
      else if r.inRange s.params a.value.toNat = false then raise .eConfig s
      else .done .ok [] (s.writeReg r a.value) := by
  simp [cfgWriteBody, h]

/-- The parameters leave the registers Q and KCFG room for every value in range (00_scope R5). -/
theorem Params.legal_bounds {p : Params} (h : p.legal = true) : p.qMax ≤ 8 ∧ p.kMax ≤ 255 := by
  simp only [Params.legal, Bool.and_eq_true, decide_eq_true_eq] at h
  omega

/-- A value in range reads back from the register it was written to. -/
theorem specRegister_writeReg_self {s : State} {r : Reg} {v : U32} {lo hi : Nat}
    (hp : s.params.legal = true) (h : specRange s.params r.number = some (lo, hi))
    (hhi : v.toNat ≤ hi) : specRegister (s.writeReg r v) r.number = some v.toNat := by
  obtain ⟨hq, hk⟩ := Params.legal_bounds hp
  have fits : ∀ w, hi < 2 ^ w → (v.setWidth w).toNat = v.toNat := fun w hw => by
    rw [BitVec.toNat_setWidth, Nat.mod_eq_of_lt (by omega)]
  cases r with
  | btoInter | btoIntra | encCap | recCap => rfl
  | mbs | mcp | mode | cfAdvance => cases h; exact congrArg some (fits _ (by decide))
  | q => cases h; exact congrArg some (fits 4 (by omega))
  | kcfg => cases h; exact congrArg some (fits 8 (by omega))
  | _ => cases h

/-- Another register, but for POLY when Q is written, keeps its value. -/
theorem specRegister_writeReg_of_ne (s : State) (r : Reg) (v : U32) {n : Nat} (hn : n ≠ r.number)
    (hpoly : n = 0x27 → r.number ≠ 0x20) : specRegister (s.writeReg r v) n = specRegister s n := by
  unfold specRegister
  split
  all_goals cases r
  all_goals first
    | rfl
    | exact absurd rfl hn
    | exact absurd rfl (hpoly rfl)

/-- A write to a register leaves everything but the registers alone. -/
theorem writeReg_frame (s : State) (r : Reg) (v : U32) :
    (s.writeReg r v).pool = s.pool ∧ (s.writeReg r v).oq = s.oq ∧ (s.writeReg r v).flows = s.flows ∧
      (s.writeReg r v).tseq = s.tseq ∧ (s.writeReg r v).phase = s.phase ∧
      (s.writeReg r v).faulted = s.faulted ∧ (s.writeReg r v).fcode = s.fcode ∧
      (s.writeReg r v).cmdIn = s.cmdIn ∧ (s.writeReg r v).outputs = s.outputs ∧
      (s.writeReg r v).resetPin = s.resetPin ∧ (s.writeReg r v).draws = s.draws ∧
      (s.writeReg r v).freeCount = s.freeCount ∧ (s.writeReg r v).params = s.params := by
  cases r <;> simp [State.writeReg]

/-- Settles O16: in CONFIG the rule runs (`cfgWriteBody_of_reg`); the table's ranges are the rule's
(`inRange_iff`), and a write shows in its own register alone. -/
theorem cfgWriteSetsOneRegister : Obligations.CfgWriteSetsOneRegister := by
  intro s a hs hp
  have hexec : exec (.cfgWrite (.ok a)) s = .next (cfgWriteBody a s).finish := hs.exec_eq rfl
  rw [hexec]
  cases hr : regOfNumber a.reg with
  | none =>
    have hnone := specRegister_of_unassigned s hr
    have hrange : specRange s.params a.reg.toNat = none := by
      cases h : specRange s.params a.reg.toNat with
      | none => rfl
      | some x =>
        unfold specRange at h
        split at h
        case h_11 => cases h
        all_goals simp_all [specRegister]
    have hraise : cfgWriteBody a s = raise .eOperand s := by simp [cfgWriteBody, hr]
    refine ⟨fun _ => by rw [hraise]; rfl, fun h => absurd hnone h, ?_, ?_⟩
    · intro lo hi h
      rw [hrange] at h
      cases h
    · intro lo hi h
      rw [hrange] at h
      cases h
  | some r =>
    obtain ⟨v, hv, -⟩ := specRegister_number s r
    rw [cfgWriteBody_of_reg s hr, regOfNumber_eq_some hr]
    refine ⟨fun h => ?unassigned, fun _ h => ?readOnly, fun lo hi h hout => ?outOfRange,
      fun lo hi h hlo hhi => ?written⟩
    case unassigned =>
      rw [hv] at h
      cases h
    case readOnly =>
      rw [if_pos ((specRange_eq_none_iff _ r).1 h)]
      rfl
    all_goals
      have hw : ¬ r.writable = false := by
        rw [← specRange_eq_none_iff s.params, h]
        exact Option.some_ne_none _
      rw [if_neg hw]
    case outOfRange =>
      rw [if_pos (by rw [← Bool.not_eq_true, inRange_iff h]; exact hout)]
      rfl
    case written =>
      rw [if_neg (by rw [Bool.not_eq_false, inRange_iff h]; exact ⟨hlo, hhi⟩)]
      exact ⟨_, rfl, specRegister_writeReg_self hp h hhi,
        fun n hn hpoly => specRegister_writeReg_of_ne s r a.value hn hpoly, writeReg_frame s r a.value⟩

/-! ## START -/

theorem startBody_of_unconfigured {s : State} (h : s.mcp = 0 ∨ s.q = 0 ∨ s.kcfg = 0) :
    startBody () s = raise .eConfig s := if_pos h

/-- Settles O17: START's two outcomes in CONFIG, and the phase check in RUN. -/
theorem startEntersRun : Obligations.StartEntersRun := by
  refine ⟨fun s hs => ⟨fun h => ?_, fun hm hq hk => ⟨?_, statusWord_run _⟩⟩,
    fun s hs => hs.exec_config rfl⟩
  · rw [hs.exec_eq rfl, rule, Args.ending_ok, startBody_of_unconfigured h]
    rfl
  · rw [hs.exec_eq rfl, rule, Args.ending_ok, startBody_of_configured hm hq hk]
    rfl

/-! ## What a step can do -/

/-- What a command can do: answer and nothing else; write a register or start the engine, in CONFIG; or run
its rule in RUN. -/
theorem exec_kinds {i : Instr} {s t : State} (h : exec i s = .next t) :
    (∃ st b, t = s.respond st b) ∨
      (s.phase = .config ∧ ∃ r v, r.writable = true ∧ r.inRange s.params v.toNat = true ∧
        t = (s.writeReg r v).respond .ok []) ∨
      (s.phase = .config ∧ s.mcp ≠ 0 ∧ s.q ≠ 0 ∧ s.kcfg ≠ 0 ∧
        t = State.respond { s with phase := .run } .ok []) ∨
      (s.phase = .run ∧ s.faulted = false ∧ phaseNeed i = .run ∧ t = (rule i s).finish) := by
  rcases exec_cases h with ⟨st, -, rfl⟩ | ⟨hpass, rfl⟩
  · exact .inl ⟨st, [], rfl⟩
  obtain ⟨hhealthy, -, hphase⟩ := turnedAway_none.1 hpass
  cases hn : phaseNeed i with
  | run =>
    rw [hn] at hphase
    have hf : s.faulted = false := hhealthy.elim id fun hreg => by
      obtain ⟨o, rfl⟩ := opcode_eq_regRead hreg
      cases hn
    exact .inr (.inr (.inr ⟨eq_of_beq hphase, hf, rfl, rfl⟩))
  | any =>
    cases i with
    | nop o => cases o <;> exact .inl ⟨_, _, rfl⟩
    | regRead o => exact .inl (rule_regRead_finish o s)
    | _ => cases hn
  | config =>
    rw [hn] at hphase
    have hc : s.phase = .config := eq_of_beq hphase
    cases i with
    | cfgWrite o =>
      cases o with
      | bad bs => exact .inl ⟨_, _, rfl⟩
      | ok a =>
        simp only [rule, Args.ending_ok, cfgWriteBody]
        split
        · exact .inl ⟨_, _, rfl⟩
        · rename_i r _
          split_ifs with hw hr
          · exact .inl ⟨_, _, rfl⟩
          · exact .inl ⟨_, _, rfl⟩
          · exact .inr (.inl ⟨hc, r, a.value, by simpa using hw, by simpa using hr, rfl⟩)
    | start o =>
      cases o with
      | bad bs => exact .inl ⟨_, _, rfl⟩
      | ok u =>
        by_cases hcfg : s.mcp = 0 ∨ s.q = 0 ∨ s.kcfg = 0
        · rw [rule, Args.ending_ok, startBody_of_unconfigured hcfg]
          exact .inl ⟨_, _, rfl⟩
        · obtain ⟨hm, hq, hk⟩ : s.mcp ≠ 0 ∧ s.q ≠ 0 ∧ s.kcfg ≠ 0 := by tauto
          rw [rule, Args.ending_ok, startBody_of_configured hm hq hk]
          exact .inr (.inr (.inl ⟨hc, hm, hq, hk, rfl⟩))
    | _ => cases hn

/-- What is true of a state is true of it after a step of each kind: the ports' bytes moved, reset, a register
written in CONFIG, the engine started, or a RUN command's rule run. -/
theorem step_invariant {Inv : State → Prop} {s t : State} (hs : Inv s) (h : step s = .next t)
    (ports : ∀ s cmdIn outputs, Inv s → Inv { s with cmdIn, outputs })
    (reset : Inv s.applyReset)
    (write : ∀ s r v, Inv s → s.phase = .config → r.writable = true →
      r.inRange s.params v.toNat = true → Inv (s.writeReg r v))
    (start : ∀ s : State, Inv s → s.phase = .config → s.mcp ≠ 0 → s.q ≠ 0 → s.kcfg ≠ 0 →
      Inv { s with phase := .run })
    (run : ∀ s i, Inv s → s.phase = .run → s.faulted = false → phaseNeed i = .run →
      Inv (rule i s).finish) : Inv t := by
  have respond : ∀ (s : State) st b, Inv s → Inv (s.respond st b) :=
    fun s st b hs => ports s s.cmdIn (s.respond st b).outputs hs
  rcases step_cases h with ⟨-, rfl⟩ | ⟨-, -, rfl⟩ | ⟨-, opc, why, rest, -, rfl⟩ | ⟨-, i, rest, -, he⟩
  · exact reset
  · exact hs
  · obtain ⟨st, hst⟩ := rejectIllegal_cases { s with cmdIn := rest } opc
    rw [hst]
    exact respond _ st [] (ports s rest s.outputs hs)
  · have hs' : Inv { s with cmdIn := rest } := ports s rest s.outputs hs
    rcases exec_kinds he with ⟨st, b, rfl⟩ | ⟨hc, r, v, hw, hr, rfl⟩ | ⟨hc, hm, hq, hk, rfl⟩ |
      ⟨hrun, hf, hn, rfl⟩
    · exact respond _ st b hs'
    · exact respond _ _ _ (write _ r v hs' hc hw hr)
    · exact respond _ _ _ (start _ hs' hc hm hq hk)
    · exact run _ i hs' hrun hf hn

/-! ## The configuration -/

section
variable {s : State}

theorem State.ConfigInv.ports (h : s.ConfigInv) (cmdIn : List Byte) (outputs : List Output) :
    State.ConfigInv { s with cmdIn, outputs } :=
  ⟨h.q_le, h.kcfg_le, h.encCap_lt, h.recCap_lt, h.configured, h.fcode_eq, h.fresh⟩

/-- The reset values are legal, and a reset engine is empty. -/
theorem State.ConfigInv.applyReset (s : State) : s.applyReset.ConfigInv :=
  { q_le := Nat.zero_le _
    kcfg_le := Nat.zero_le _
    encCap_lt := show (5 : U32).toNat < 2 ^ 31 by decide
    recCap_lt := show (1 : U32).toNat < 2 ^ 31 by decide
    configured := fun h => nomatch h
    fcode_eq := rfl
    fresh := fun _ => ⟨rfl, rfl, rfl, rfl, rfl, rfl⟩ }

/-- Q, KCFG, ENC_CAP and REC_CAP keep their ranges: CFG_WRITE checks them, and a narrower register cuts a
value only down. -/
theorem State.ConfigInv.writeReg {r : Reg} {v : U32} (h : s.ConfigInv) (hc : s.phase = .config)
    (hr : r.inRange s.params v.toNat = true) : (s.writeReg r v).ConfigInv := by
  have cut : ∀ {w hi : Nat}, v.toNat ≤ hi → (v.setWidth w).toNat ≤ hi :=
    fun hv => by
      rw [BitVec.toNat_setWidth]
      exact (Nat.mod_le ..).trans hv
  have hrun : ∀ {p : Prop}, s.phase = .run → p := fun h => by
    rw [hc] at h
    cases h
  obtain ⟨hq, hk, he, hrc, -, hf, hfresh⟩ := h
  cases r with
  | q => exact ⟨cut (of_decide_eq_true (Bool.and_eq_true_iff.1 hr).2), hk, he, hrc, hrun, hf, hfresh⟩
  | kcfg => exact ⟨hq, cut (of_decide_eq_true (Bool.and_eq_true_iff.1 hr).2), he, hrc, hrun, hf, hfresh⟩
  | encCap => exact ⟨hq, hk, of_decide_eq_true hr, hrc, hrun, hf, hfresh⟩
  | recCap => exact ⟨hq, hk, he, of_decide_eq_true hr, hrun, hf, hfresh⟩
  | _ => exact ⟨hq, hk, he, hrc, hrun, hf, hfresh⟩

theorem State.ConfigInv.start (h : s.ConfigInv) (hm : s.mcp ≠ 0) (hq : s.q ≠ 0) (hk : s.kcfg ≠ 0) :
    State.ConfigInv { s with phase := .run } :=
  ⟨h.q_le, h.kcfg_le, h.encCap_lt, h.recCap_lt, fun _ => ⟨hm, hq, hk⟩, h.fcode_eq,
    fun hc => by cases hc⟩

/-- A rule's end keeps FCODE in step with FAULT (10_state R28). -/
theorem Ending.finish_fcode (e : Ending)
    (h : e.left.fcode = if e.left.faulted then fCapacity else 0) :
    e.finish.fcode = if e.finish.faulted then fCapacity else 0 := by
  cases e with
  | done st b s => exact h
  | capacity s => rfl

/-- What a command of RUN leaves is a RUN state with the same configuration, and FCODE in step with FAULT. -/
theorem State.ConfigInv.rule {i : Instr} (h : s.ConfigInv) (hrun : s.phase = .run)
    (hn : phaseNeed i = .run) : (Machine.rule i s).finish.ConfigInv := by
  obtain ⟨_, _, _, _, _, _, _, _, hleft⟩ := rule_step (i := i) s (by simp [hn])
  obtain ⟨hq, hk, he, hrc, hcfg, hfc, -⟩ := h
  have hcode := (Machine.rule i s).finish_fcode (by rw [hleft]; exact hfc)
  obtain ⟨_, _, _, hfin⟩ := (Machine.rule i s).finish_frame
  rw [hfin, hleft] at hcode ⊢
  exact ⟨hq, hk, he, hrc, hcfg, hcode, fun hc => absurd (hrun.symm.trans hc) (by decide)⟩

end

/-- Settles O20, by the kinds of step (`step_invariant`). -/
theorem stepKeepsConfigInv : Obligations.StepKeepsConfigInv := fun _ _ hs h =>
  step_invariant hs h (fun _ cmdIn outputs h => h.ports cmdIn outputs) (.applyReset _)
    (fun _ _ _ h hc _ hr => h.writeReg hc hr) (fun _ h _ hm hq hk => h.start hm hq hk)
    fun _ _ h hrun _ hn => h.rule hrun hn

end Sys2Proof.Machine
end

section
/-!
PROOFS. The commands that compute on their operands (41_hash, 42_headers, 43_xor) and the two wire headers: each
header is a layout of its own, with its length behind it.
-/

namespace Sys2Proof.Machine

/-! ## HASH -/

/-- A 4-tuple the parameter does not name has the default key, the CRC of its bytes (41_hash R150). -/
theorem flowKey_default {p : Params} {src dst : U32} {sport dport : U16}
    (h : ∀ e ∈ p.flowKeys, e.1 ≠ { src, dst, sport, dport }) :
    flowKey p src dst sport dport =
      BitVec.ofNat 16 (crc16 (put32 src ++ put32 dst ++ put16 sport ++ put16 dport)) := by
  have hnone : (p.flowKeys.find? fun e => decide (e.1 = { src, dst, sport, dport })) = none :=
    List.find?_eq_none.2 fun e he => by simpa using h e he
  rw [flowKey, hnone]

/-- The first entry of the parameter that names the 4-tuple gives its key. -/
theorem flowKey_named {p : Params} {src dst : U32} {sport dport key : U16}
    {before after : List (FourTuple × U16)}
    (h : p.flowKeys = before ++ ({ src, dst, sport, dport }, key) :: after)
    (hb : ∀ e ∈ before, e.1 ≠ { src, dst, sport, dport }) : flowKey p src dst sport dport = key := by
  have hnone : (before.find? fun e => decide (e.1 = { src, dst, sport, dport })) = none :=
    List.find?_eq_none.2 fun e he => by simpa using hb e he
  have hsome : (p.flowKeys.find? fun e => decide (e.1 = { src, dst, sport, dport })) =
      some ({ src, dst, sport, dport }, key) := by
    rw [h, List.find?_append, hnone]
    simp
  rw [flowKey, hsome]

/-- HASH's rule always answers the key. -/
theorem exec_hash {s : State} {a : HashArgs} (hs : s.Running (.hash (.ok a))) :
    exec (.hash (.ok a)) s =
      .next (s.respond .ok (put16 (flowKey s.params a.src a.dst a.sport a.dport))) :=
  hs.exec_eq rfl

/-- Settles O50, by the two cases of the key and one evaluation of the CRC. -/
theorem hashAnswersCrc : Obligations.HashAnswersCrc := by
  refine ⟨fun s a hs hnone => ?_, fun s a key before after hs hsome hb => ?_, by decide +kernel⟩
  · rw [exec_hash hs, flowKey_default hnone, put16, BitVec.toNat_ofNat,
      putBE_mod_self 2 _ (2 ^ 16) (by norm_num)]
  · rw [exec_hash hs, flowKey_named hsome hb]

/-! ## The XOR codec -/

/-- Settles O45: the two rules, their tests written out. -/
theorem xorCommandsAnswer : Obligations.XorCommandsAnswer := by
  refine ⟨fun s ps hs => ?_, fun s x hs => ?_⟩
  · rw [hs.exec_eq rfl, rule, Args.ending_ok, xorEncBody]
    by_cases hnil : ps = []
    · simp [hnil]
    · by_cases hlong : ∃ p ∈ ps, s.params.payloadMax < p.length
      · simp [hnil, hlong]
      · simp [hnil, hlong, putBlob]
  · rw [hs.exec_eq rfl, rule, Args.ending_ok, xorDecBody]
    by_cases hlong : s.params.payloadMax < x.coded.length ∨
        ∃ p ∈ x.natives, s.params.payloadMax < p.length
    · simp [hlong]
    · simp [hlong, putBlob]

/-! ## The inter-flow header -/

theorem validAckHeader_iff {tcp : List Byte} : validAckHeader tcp = true ↔
    20 ≤ tcp.length ∧ tcp.length = 4 * ((tcp.getD 12 0).toNat / 16) := by
  simp [validAckHeader]

/-- The bytes of an ACK descriptor in a packet (42_headers R161). -/
def putWireAck (a : Ackd) : List Byte := put32 a.dst ++ a.tcp

@[simp] theorem length_put32 (v : U32) : (put32 v).length = 4 := length_putBE ..

@[simp] theorem length_put16 (v : U16) : (put16 v).length = 2 := length_putBE ..

/-- A packet's ACK descriptor reads back when its ACK header is valid, and only a valid one is read. -/
theorem layout_wireAck : Layout (fun a => validAckHeader a.tcp) getWireAck putWireAck := by
  refine ⟨fun a ha r => ?_, fun bs a r h => ?_⟩
  · obtain ⟨h20, hlen⟩ := validAckHeader_iff.1 ha
    have hoff : (put32 a.dst ++ (a.tcp ++ r)).getD 16 0 = a.tcp.getD 12 0 := by
      rw [List.getD_append_right _ _ _ _ (by simp), length_put32, List.getD_append _ _ _ _ (by omega)]
    unfold getWireAck
    rw [putWireAck, List.append_assoc, hoff, ← hlen, if_neg (by simp; omega)]
    simp only
    rw [if_neg (by simp; omega), getU32_put32]
    simp [getBytes_append]
  · unfold getWireAck at h
    split at h
    · cases h
    simp only at h
    split at h
    · cases h
    rename_i hlong hfits
    simp only [Option.bind_eq_bind, Option.bind_eq_some_iff, Prod.exists] at h
    obtain ⟨d, r1, h1, tcp, r2, h2, h⟩ := h
    cases h
    obtain rfl := getU32_eq h1
    obtain ⟨rfl, hlen⟩ := getBytes_eq h2
    have hoff : (put32 d ++ (tcp ++ r)).getD 16 0 = tcp.getD 12 0 := by
      rw [List.getD_append_right _ _ _ _ (by simp), length_put32]
      exact List.getD_append _ _ _ _ (by omega)
    rw [hoff] at hlen hfits
    have h20 : 20 ≤ tcp.length := by omega
    exact ⟨by simp [putWireAck], validAckHeader_iff.2 ⟨h20, hlen⟩⟩

theorem interHdr_eq (proto ptype : Byte) (descs : List Desc) (acks : List Ackd) :
    interHdr proto ptype descs acks =
      [proto, ptype] ++ putCount descs.length ++ putCount acks.length ++ descs.flatMap putDesc ++
        acks.flatMap putWireAck := rfl

/-- The bytes of the descriptors: 12 each, and 4 + L for each ACK descriptor. -/
theorem length_interHdr (proto ptype : Byte) (descs : List Desc) (acks : List Ackd) :
    (interHdr proto ptype descs acks).length =
      4 + 12 * descs.length + (acks.map fun a => 4 + a.tcp.length).sum := by
  have hd : (descs.flatMap putDesc).length = 12 * descs.length := by
    simp [List.length_flatMap, putDesc, Nat.mul_comm]
  have ha : (acks.flatMap putWireAck).length = (acks.map fun a => 4 + a.tcp.length).sum := by
    simp [List.length_flatMap, putWireAck]
  rw [interHdr_eq]
  simp only [List.length_append, hd, ha, putCount, List.length_cons, List.length_nil]

/-- A built inter-flow header is parsed with any payload behind it. -/
theorem interParse_interHdr (proto ptype : Byte) {descs : List Desc} {acks : List Ackd}
    (payload : List Byte) (hd : descs.length < 256) (ha : acks.length < 256)
    (hv : ∀ a ∈ acks, validAckHeader a.tcp = true) :
    interParse (interHdr proto ptype descs acks ++ payload) =
      some { proto, ptype, descs, acks, hlen := (interHdr proto ptype descs acks).length } := by
  have hbytes : interHdr proto ptype descs acks ++ payload =
      proto :: ptype :: BitVec.ofNat 8 descs.length :: BitVec.ofNat 8 acks.length ::
        (descs.flatMap putDesc ++ (acks.flatMap putWireAck ++ payload)) := by
    simp [interHdr_eq, putCount]
  have hlen : (interHdr proto ptype descs acks ++ payload).length - payload.length =
      (interHdr proto ptype descs acks).length := by simp
  unfold interParse
  rw [← hlen, hbytes]
  simp [toNat_count (xs := descs) (decide_eq_true hd), toNat_count (xs := acks) (decide_eq_true ha),
    layout_desc.many_reads, layout_wireAck.many_reads (List.all_eq_true.2 hv)]

/-- What parses is a built inter-flow header with a payload behind it. -/
theorem interParse_eq_some {pkt : List Byte} {h : InterHeader} (hp : interParse pkt = some h) :
    h.descs.length < 256 ∧ h.acks.length < 256 ∧
      (∀ a ∈ h.acks, validAckHeader a.tcp = true) ∧
      h.hlen = (interHdr h.proto h.ptype h.descs h.acks).length ∧
      ∃ payload, pkt = interHdr h.proto h.ptype h.descs h.acks ++ payload := by
  simp only [interParse, Option.bind_eq_bind, Option.bind_eq_some_iff, Prod.exists] at hp
  obtain ⟨x, r1, h1, y, r2, h2, n, r3, h3, m, r4, h4, ds, r5, h5, as, r6, h6, hp⟩ := hp
  cases hp
  obtain ⟨e5, n5, -⟩ := layout_desc.many h5
  obtain ⟨e6, n6, w6⟩ := layout_wireAck.many h6
  obtain ⟨c5, f5⟩ := ofNat_count n5
  obtain ⟨c6, f6⟩ := ofNat_count n6
  have hpkt : pkt = interHdr x y ds as ++ r6 := by
    rw [getU8_eq h1, getU8_eq h2, getU8_eq h3, getU8_eq h4, e5, e6]
    simp [interHdr_eq, putCount, c5, c6]
  exact ⟨of_decide_eq_true f5, of_decide_eq_true f6, List.all_eq_true.1 w6, by simp [hpkt], r6, hpkt⟩

theorem interParse_short {pkt : List Byte} (h : pkt.length < 4) : interParse pkt = none := by
  cases hp : interParse pkt with
  | none => rfl
  | some x =>
    obtain ⟨-, -, -, -, payload, rfl⟩ := interParse_eq_some hp
    rw [List.length_append, length_interHdr] at h
    omega

/-- Settles O46: the header is a layout (`interParse_interHdr`, `interParse_eq_some`) of known length. -/
theorem interHeaderRoundTrip : Obligations.InterHeaderRoundTrip := by
  refine ⟨fun proto ptype descs acks payload hd ha hv => ?_, fun pkt h hp => ?_,
    fun pkt h => interParse_short h⟩
  · rw [interParse_interHdr proto ptype payload hd ha hv, length_interHdr]
  · obtain ⟨hd, ha, hv, hlen, payload, hpkt⟩ := interParse_eq_some hp
    refine ⟨hd, ha, fun a hm => validAckHeader_iff.1 (hv a hm), hlen.trans (length_interHdr ..), ?_⟩
    conv_lhs => rw [hpkt]
    rw [hpkt, hlen, List.drop_left]

/-! ## The intra-flow header -/

/-- The nine bytes before the coefficient field (42_headers R171). -/
def intraFields (k q : Byte) (frag : U16) (txtype : Byte) (sport dport : U16) : List Byte :=
  [k, q] ++ put16 frag ++ [txtype] ++ put16 sport ++ put16 dport

@[simp] theorem length_intraFields (k q : Byte) (frag : U16) (txtype : Byte) (sport dport : U16) :
    (intraFields k q frag txtype sport dport).length = 9 := by
  simp [intraFields]

/-- A packet parses exactly when its fields are in range and its coefficient field is there in full. -/
theorem intraParse_eq_some_iff {qMax : Nat} {pkt : List Byte} {h : IntraHeader} :
    intraParse qMax pkt = some h ↔
      (1 ≤ h.q.toNat ∧ h.q.toNat ≤ qMax ∧ h.txtype.toNat ≤ 2) ∧
        ∃ field payload : List Byte, field.length = packedLength h.k.toNat h.q.toNat ∧
          pkt = intraFields h.k h.q h.frag h.txtype h.sport h.dport ++ (field ++ payload) ∧
          h.coeff = unpack h.q.toNat h.k.toNat field ∧
          h.hlen = 9 + packedLength h.k.toNat h.q.toNat := by
  constructor
  · intro hp
    simp only [intraParse, Option.bind_eq_bind, Option.bind_eq_some_iff, Prod.exists] at hp
    obtain ⟨k, r1, h1, q, r2, h2, frag, r3, h3, tt, r4, h4, sp, r5, h5, dp, r6, h6, hp⟩ := hp
    split at hp
    · cases hp
    split at hp
    · cases hp
    simp only [Option.bind_eq_some_iff, Prod.exists] at hp
    obtain ⟨field, payload, h7, hp⟩ := hp
    cases hp
    obtain ⟨rfl, hlen⟩ := getBytes_eq h7
    have hrange : 1 ≤ q.toNat ∧ q.toNat ≤ qMax ∧ tt.toNat ≤ 2 := by omega
    refine ⟨hrange, field, payload, hlen, ?_, rfl, rfl⟩
    rw [getU8_eq h1, getU8_eq h2, getU16_eq h3, getU8_eq h4, getU16_eq h5, getU16_eq h6]
    simp [intraFields]
  · rintro ⟨⟨hq1, hq2, htt⟩, field, payload, hlen, rfl, hc, hl⟩
    obtain ⟨k, q, frag, tt, sp, dp, coeff, hlen'⟩ := h
    simp only at hq1 hq2 htt hlen hc hl
    subst hc hl
    unfold intraParse
    simp only [intraFields, List.append_assoc, List.cons_append, List.nil_append, getU8_cons,
      getU16_put16, Option.bind_eq_bind, Option.bind_some]
    have hq : ¬ (q.toNat < 1 ∨ qMax < q.toNat) := by omega
    rw [if_neg hq, if_neg (Nat.not_lt.2 htt), ← hlen, getBytes_append]
    rfl

/-- UNPACK gives back what PACK packed, when the coefficients fit in q bits. -/
theorem unpack_pack {q : Nat} (hq8 : q ≤ 8) {c : List Byte} (hc : c.all (isElem q) = true) :
    unpack q c.length (pack q c) = c := by
  refine eq_of_length_of_getD (unpack_length ..) fun i => BitVec.eq_of_getLsbD_eq fun j hj => ?_
  rw [getLsbD_unpack hq8]
  by_cases hin : i < c.length ∧ j < q
  · have hs := streamBit_lt hin.1 hin.2
    rw [decide_eq_true hin, Bool.true_and, getLsbD_pack (by omega), flatMap_lowBits_getD hin.2]
  · rw [decide_eq_false hin, Bool.false_and]
    by_cases hi : i < c.length
    · have helem : (c.getD i 0).toNat < 2 ^ q := by
        rw [List.getD_eq_getElem _ _ hi]
        exact of_decide_eq_true (List.all_eq_true.1 hc _ (List.getElem_mem hi))
      have hjq : q ≤ j := by
        by_contra h
        exact hin ⟨hi, Nat.lt_of_not_le h⟩
      rw [BitVec.getLsbD, Nat.testBit_lt_two_pow (helem.trans_le (Nat.pow_le_pow_right (by omega) hjq))]
    · rw [List.getD_eq_default _ _ (Nat.le_of_not_lt hi)]
      simp

theorem intraHdr_eq (k q : Byte) (frag : U16) (txtype : Byte) (sport dport : U16)
    (coeff payload : List Byte) :
    intraHdr k q frag txtype sport dport coeff ++ payload =
      intraFields k q frag txtype sport dport ++ (pack q.toNat coeff ++ payload) := by
  simp [intraHdr, intraFields]

/-- The first k·q bits of a repacked field are those it was unpacked from. -/
theorem getLsbD_pack_unpack {q k n : Nat} (hq8 : q ≤ 8) (field : List Byte) (hn : n < k * q) :
    ((pack q (unpack q k field)).getD (n / 8) 0).getLsbD (n % 8) =
      (field.getD (n / 8) 0).getLsbD (n % 8) := by
  have hq : 0 < q := Nat.pos_of_ne_zero fun h => by simp [h] at hn
  have hi : n / q < k := Nat.div_lt_of_lt_mul (by rwa [Nat.mul_comm])
  have hj : n % q < q := Nat.mod_lt _ hq
  have hsplit : n = n / q * q + n % q := by rw [Nat.mul_comm]; exact (Nat.div_add_mod n q).symm
  rw [getLsbD_pack (by rw [unpack_length]; omega)]
  conv_lhs => rw [hsplit]
  rw [flatMap_lowBits_getD hj, getLsbD_unpack hq8, decide_eq_true ⟨hi, hj⟩, Bool.true_and, ← hsplit]

/-- Settles O47: what parses is `intraParse_eq_some_iff`, and a built field unpacks to its coefficients
(`unpack_pack`). -/
theorem intraHeaderRoundTrip : Obligations.IntraHeaderRoundTrip := by
  refine ⟨?built, ?accepted, ?parsed, ?short⟩
  case built =>
    intro qMax q frag txtype sport dport coeff payload hq1 hq2 hq8 htt hlen hc
    have hk : (BitVec.ofNat 8 coeff.length).toNat = coeff.length := toNat_count (decide_eq_true hlen)
    rw [intraHdr_eq]
    refine intraParse_eq_some_iff.2 ⟨⟨hq1, hq2, htt⟩, pack q.toNat coeff, payload, ?_, rfl, ?_, ?_⟩
    · rw [pack_length, hk, packedLength]
    · rw [hk, unpack_pack hq8 hc]
    · rw [hk, packedLength]
  case accepted =>
    intro qMax k q frag txtype sport dport field payload hq1 hq2 htt hlen
    exact intraParse_eq_some_iff.2 ⟨⟨hq1, hq2, htt⟩, field, payload, hlen,
      by simp [intraFields], rfl, rfl⟩
  case parsed =>
    intro qMax pkt h hp
    obtain ⟨⟨hq1, hq2, htt⟩, field, payload, hlen, rfl, hc, hl⟩ := intraParse_eq_some_iff.1 hp
    refine ⟨hq1, hq2, htt, by rw [hc, unpack_length], hl, ?_, ?_, fun hq8 n hn => ?_⟩
    · rw [hl, List.length_append, length_intraFields, List.length_append, hlen]
      omega
    · rw [List.take_append_of_le_length (by simp)]
      exact List.take_of_length_le (by simp)
    · rw [hc, getLsbD_pack_unpack hq8 field hn, List.getD_append_right _ _ _ _ (by simp),
        length_intraFields, Nat.add_sub_cancel_left, List.getD_append _ _ _ _ ?_]
      rw [hlen, packedLength]
      omega
  case short =>
    intro qMax pkt h
    cases hp : intraParse qMax pkt with
    | none => rfl
    | some x =>
      obtain ⟨-, field, payload, -, rfl, -⟩ := intraParse_eq_some_iff.1 hp
      rw [List.length_append, length_intraFields] at h
      omega

/-! ## The header commands -/

/-- Settles O49: the four rules, their tests and layouts written out. -/
theorem headerCommandsAnswer : Obligations.HeaderCommandsAnswer := by
  refine ⟨fun s a hs => ?_, fun s pkt hs => ?_, fun s a hs => ?_, fun s pkt hs => ?_⟩
  · rw [hs.exec_eq rfl, rule, Args.ending_ok, hdrBuildInterBody]
    by_cases hbad : ∃ x ∈ a.acks, validAckHeader x.tcp = false
    · have hinv : acksValid a.acks = false := by
        rw [← Bool.not_eq_true, acksValid_iff]
        simpa using hbad
      rw [if_pos hinv, if_pos hbad]
      rfl
    · have hval : acksValid a.acks = true := acksValid_iff _ |>.2 (by simpa using hbad)
      rw [if_neg (by simp [hval]), if_neg hbad]
      rfl
  · rw [hs.exec_eq rfl, rule, Args.ending_ok, hdrParseInterBody]
    cases interParse pkt <;> rfl
  · rw [hs.exec_eq rfl, rule, Args.ending_ok, hdrBuildIntraBody]
    by_cases hok : 1 ≤ a.q.toNat ∧ a.q.toNat ≤ s.params.qMax ∧ a.txtype.toNat ≤ 2 ∧
        a.coeff.all (isElem a.q.toNat) = true
    · obtain ⟨hq1, hq2, htt, hc⟩ := hok
      have hq : ¬ (a.q.toNat < 1 ∨ s.params.qMax < a.q.toNat) := by omega
      have hc' : ¬ a.coeff.all (isElem a.q.toNat) = false := by simp [hc]
      rw [if_neg hq, if_neg (Nat.not_lt.2 htt), if_neg hc']
      simp [hq1, hq2, htt, hc, intraHdr, putCount]
    · rw [if_neg hok]
      split_ifs with h1 h2 h3
      · rfl
      · rfl
      · rfl
      · exact absurd ⟨by omega, by omega, by omega, by simpa using h3⟩ hok
  · rw [hs.exec_eq rfl, rule, Args.ending_ok, hdrParseIntraBody]
    cases intraParse s.params.qMax pkt <;> rfl

end Sys2Proof.Machine
end

section
/-!
PROOFS. The commands on flow records (46_rlnc), VEC_GEN (44_gf R214), the inspections (45_pool R246, 46_rlnc R297,
R298): what each answers and the exact state it leaves. The procedures' own equations are those of Laws/Flow.lean.
-/

namespace Sys2Proof.Machine

section
variable {s : State}

/-! ## TX_PUSH -/

theorem payloadOk_eq_false {p : List Byte}
    (h : ¬ (p.length ≤ s.params.payloadMax ∧ ∀ b ∈ p, b.toNat < 2 ^ s.qn)) : s.payloadOk p = false := by
  rw [← Bool.not_eq_true, payloadOk_iff]
  exact h

theorem State.Running.exec_txPush {a : TxPushArgs} (hs : s.Running (.txPush (.ok a))) :
    exec (.txPush (.ok a)) s = .next (txPushBody a s).finish := hs.exec_eq rfl

/-- A payload that is too long or not of symbols is refused (46_rlnc R271). -/
theorem txPushBody_refused {a : TxPushArgs} (h : s.payloadOk a.payload = false) :
    txPushBody a s = raise .eOperand s := by
  simp [txPushBody, h]

theorem txPushBody_known {a : TxPushArgs} {f : FlowRec} (h : s.payloadOk a.payload = true)
    (hf : Table.find a.flow s.flows = some f) : txPushBody a s = s.pushTx a.flow f a.payload := by
  simp [txPushBody, h, hf]

theorem txPushBody_full {a : TxPushArgs} (h : s.payloadOk a.payload = true)
    (hf : Table.find a.flow s.flows = none) (hlen : s.flows.length = s.params.flowsMax) :
    txPushBody a s = .capacity s := by
  simp [txPushBody, h, hf, hlen]

theorem txPushBody_new {a : TxPushArgs} (h : s.payloadOk a.payload = true)
    (hf : Table.find a.flow s.flows = none) (hlen : s.flows.length ≠ s.params.flowsMax) :
    txPushBody a s = s.pushTx a.flow (newFlow s.kcfg 0 false a.sport a.dport) a.payload := by
  simp [txPushBody, h, hf, hlen]

theorem pushTx_full {g : U16} {f : FlowRec} {p : List Byte} (h : f.tx.length = s.params.txbufMax) :
    s.pushTx g f p = .capacity (s.putFlow g f) := if_pos h

/-- The payload is queued; the timer is armed when the txBuffer was empty and no timer was armed. -/
theorem pushTx_queued {g : U16} {f : FlowRec} {p : List Byte} (h : f.tx.length ≠ s.params.txbufMax) :
    s.pushTx g f p = .done .ok [] (if f.tx = [] ∧ f.ft = none then
      { s with
        tseq := s.tseq + 1
        flows := Table.put g { f with
          tx := [p]
          ft := some { deadline := deadlineAfter s.now s.btoIntra, seq := s.tseq } } s.flows }
      else { s with flows := Table.put g { f with tx := f.tx ++ [p] } s.flows }) := by
  unfold State.pushTx
  rw [if_neg h]
  simp only
  split
  · rename_i he
    simp [he.1, State.armFlow, State.armed, State.putFlow, State.countArm]
  · rfl

/-- Settles O51: the checks of TX_PUSH, then `pushTx_queued` on the new or known record. -/
theorem txPushQueuesPayload : Obligations.TxPushQueuesPayload := by
  intro s a hs
  rw [hs.exec_txPush]
  refine ⟨fun hbad => by rw [txPushBody_refused (payloadOk_eq_false hbad)]; rfl, fun hlen helem => ?_⟩
  have hok : s.payloadOk a.payload = true := (payloadOk_iff ..).2 ⟨hlen, helem⟩
  refine ⟨fun hnone hfull => ?_, fun hnone hroom htx => ?_, fun f hf hroom => ?_, fun f hf hfull hw => ?_⟩
  · rw [txPushBody_full hok hnone hfull]
    rfl
  · rw [txPushBody_new hok hnone hroom, pushTx_queued (Ne.symm htx), if_pos ⟨rfl, rfl⟩,
      deadlineAfter_eq]
    rfl
  · rw [txPushBody_known hok hf, pushTx_queued hroom]
    refine ⟨fun hsome => ?_, fun htx hft => ?_⟩
    · rw [if_neg (by tauto)]
      rfl
    · rw [if_pos ⟨htx, hft⟩, deadlineAfter_eq]
      rfl
  · rw [txPushBody_known hok hf, pushTx_full hfull, State.putFlow, Table.put_find hw hf]
    rfl

/-! ## ENCODE -/

theorem encOk_eq_false {f : FlowRec}
    (h : f.tx.length < f.k.toNat ∨ f.fwd = true ∨ s.encCap < f.txCounter) : s.encOk f = false := by
  rw [← Bool.not_eq_true, encOk_iff]
  rintro ⟨h1, h2, h3⟩
  rcases h with h | h | h
  · omega
  · rw [h2] at h
    cases h
  · exact absurd h (BitVec.not_lt.2 h3)

/-- ENCODE_CORE where the record is kept either way: with the guard holding, and with it failing. -/
theorem encodeOrKeep_fired (g : U16) (f : FlowRec) (h : s.encOk f = true) :
    s.encodeOrKeep g f = { s with
      draws := s.draws.tail
      freeCount := s.freeCount + 1
      flows := Table.put g { f with txCounter := f.txCounter + 1 } s.flows
      outputs := s.outputs ++ [.record (Record.bytes (.rlncTx g
        (intraHdr f.k (s.q.setWidth 8) f.frag 0 f.sport f.dport (s.nextDraw s.qn f.k.toNat) ++
          lcp s.gf (s.nextDraw s.qn f.k.toNat) (f.tx.take f.k.toNat))))] } := by
  rw [State.encodeOrKeep, encodeCore_fired g h, Option.getD_some]

theorem encodeOrKeep_notFired (g : U16) (f : FlowRec) (h : s.encOk f = false) :
    s.encodeOrKeep g f = s.putFlow g f := by
  rw [State.encodeOrKeep, encodeCore_notFired g h, Option.getD_none]

/-- Settles O52, by the two cases of ENCODE_CORE. -/
theorem encodeEmitsCombination : Obligations.EncodeEmitsCombination := by
  intro s g hs
  rw [hs.exec_eq rfl, rule, Args.ending_ok, encodeBody]
  refine ⟨fun hnone => by rw [hnone]; rfl, fun f hf => ⟨fun hbad => ?_, fun hk hfwd hcap hk0 hq hq8 => ?_⟩⟩
  · simp only [hf, encodeCore_notFired g (encOk_eq_false hbad)]
    rfl
  · simp only [hf, encodeCore_fired g (encOk_iff.2 ⟨hk, hfwd, hcap⟩)]
    exact ⟨_, legalDraw_nextDraw s hq hq8 (by simpa [← BitVec.toNat_inj] using hk0), rfl⟩

/-! ## RX_PACKET -/

theorem State.Running.exec_rxPacket {fwd : Bool} {a : RxPacketArgs}
    (hs : s.Running (.rxPacket fwd (.ok a))) :
    exec (.rxPacket fwd (.ok a)) s = .next (rxPacketBody fwd a s).finish := hs.exec_eq rfl

/-- A data packet's own rule, after its header is parsed. -/
theorem rxPacketBody_of_data {fwd : Bool} {a : RxPacketArgs} {r : IntraHeader}
    (hp : intraParse s.params.qMax a.pkt = some r) (ht : r.txtype = 0) :
    rxPacketBody fwd a s = rxDataBody fwd a.flow r (a.pkt.drop r.hlen) s := by
  simp [rxPacketBody, hp, ht]

/-- Settles O53: the checks of RX_PACKET in order; past them `rxPacketBody_data` leads to the record. -/
theorem rxTurnsPacketsAway : Obligations.RxTurnsPacketsAway := by
  intro s fwd a hs
  rw [hs.exec_rxPacket]
  refine ⟨fun hp => by rw [rxPacketBody, hp]; rfl, fun r hp ht => ?_⟩
  have hdata := rxPacketBody_of_data (fwd := fwd) hp ht
  refine ⟨fun hq => ?fieldQ, fun hq hk => ?badK, fun hq hk0 hkm hbad => ?payload,
    fun hq hk0 hkm hlen helem => ?accepted⟩
  case fieldQ =>
    rw [hdata, rxDataBody, if_pos hq]
    rfl
  case badK =>
    rw [hdata, rxDataBody, if_neg (not_not.2 hq), if_pos hk]
    rfl
  case payload =>
    have hk : ¬ (r.k = 0 ∨ s.params.kMax < r.k.toNat) := not_or.2 ⟨hk0, Nat.not_lt.2 hkm⟩
    rw [hdata, rxDataBody, if_neg (not_not.2 hq), if_neg hk, if_pos (payloadOk_eq_false hbad)]
    rfl
  case accepted =>
    have hok : s.payloadOk (a.pkt.drop r.hlen) = true := (payloadOk_iff ..).2 ⟨hlen, helem⟩
    rw [rxPacketBody_data hp ht hq hk0 hkm hok]
    refine ⟨fun hnone hfull => ?_, fun f hf => ⟨fun hbehind => ?_, fun hfrag hrank hne => ?_,
      fun hfrag hrank hk hw hdep => ?_⟩⟩
    · simp only [hnone, if_pos hfull]
      rfl
    · simp only [hf, State.receiveData, if_pos hbehind]
      rfl
    · simp only [hf, State.receiveData, hfrag, BitVec.lt_irrefl, if_false, if_neg hrank, if_pos hne]
      rfl
    · simp only [hf, State.receiveData, hfrag, BitVec.lt_irrefl, if_false, if_neg hrank, hk, ne_eq,
        not_true_eq_false]
      rw [insertRow_eq, if_pos (.inr hdep), State.putFlow, Table.put_find hw hf]
      rfl

/-- The record with a packet inserted as its next row (46_rlnc R283). -/
def FlowRec.inserted (f : FlowRec) (v payload : List Byte) : FlowRec :=
  { f with
    mat := setRow f.mat f.rank.toNat v
    rx := f.rx ++ [payload]
    rank := f.rank + 1 }

/-- Everything an insertion does, by its three outcomes. -/
theorem insertRow_outcomes (g : U16) (f : FlowRec) (v p : List Byte) :
    s.insertRow g f v p =
      if f.rank = f.k ∨ indep s.gf f.k.toNat (f.rows f.k.toNat f.rank.toNat) v = false then
        .done .iDependent [] (s.putFlow g f)
      else if f.rank + 1 = f.k then .done .ok [] (s.decodeCore g (f.inserted v p))
      else .done .ok [] (s.putFlow g (f.inserted v p)) := rfl

/-- When the insertion completes the rank, the matrix to invert is the old rows and the new one. -/
theorem decodeMatrix_inserted {f : FlowRec} {v p : List Byte} (hrank : f.rank < f.k)
    (hfull : f.rank + 1 = f.k) (hlen : v.length = f.k.toNat) :
    s.decodeMatrix (f.inserted v p) =
      matInv s.gf f.k.toNat (f.rows f.k.toNat f.rank.toNat ++ [v]) := by
  have hk : f.k.toNat = f.rank.toNat + 1 := by
    rw [← hfull] at hrank ⊢
    bv_omega
  have hrows := rows_setRow f (f.inserted v p) f.k.toNat f.rank.toNat v hlen rfl
  have hif : s.decodeMatrix (f.inserted v p) =
      matInv s.gf f.k.toNat ((f.inserted v p).rows f.k.toNat f.k.toNat) := if_pos hfull
  rw [hif, ← hrows, ← hk]

/-- Settles O54: `rxPacketBody_target` leads to the insertion, and its outcomes are `insertRow_outcomes`. -/
theorem rxInsertsRow : Obligations.RxInsertsRow := by
  intro s fwd a r f hs hp ht hq hk hkm hpl htarget hmat hrank
  obtain ⟨hbody, hfk⟩ := rxPacketBody_target hp ht hq hk hkm hpl htarget
  rw [hs.exec_rxPacket, hbody, insertRow_outcomes]
  have hlen : r.coeff.length = f.k.toNat := by rw [intraParse_length hp, hfk]
  refine ⟨fun hdep => ?_, fun hind => ?_⟩
  · rw [if_pos (.inr hdep)]
    rfl
  have hfree : ¬ (f.rank = f.k ∨
      indep s.gf f.k.toNat (f.rows f.k.toNat f.rank.toNat) r.coeff = false) := by
    rw [hind]
    simpa using BitVec.ne_of_lt hrank
  rw [if_neg hfree]
  refine ⟨fun hpart => ?_, fun hfull b hb => ?_⟩
  · rw [if_neg hpart, FlowRec.inserted, ← hmat, setRow_length]
    rfl
  · rw [if_pos hfull, decodeCore_some a.flow ((decodeMatrix_inserted hrank hfull hlen).trans hb)]
    rfl

/-! ## DECODE -/

theorem length_gaussJordan {F : Gf} {cols : List Nat} {done rest out : List (List Byte)}
    (h : gaussJordan F cols done rest = some out) : out.length = done.length + cols.length := by
  induction cols generalizing done rest with
  | nil =>
    cases h
    simp
  | cons col cols ih =>
    unfold gaussJordan at h
    split at h
    · cases h
    · rw [ih h]
      simp
      omega

/-- An inverse that is found has as many rows as the matrix. -/
theorem length_matInv {F : Gf} {n : Nat} {rows b : List (List Byte)} (h : matInv F n rows = some b) :
    b.length = n := by
  obtain ⟨rs, hrs, rfl⟩ := Option.map_eq_some_iff.1 h
  simpa using length_gaussJordan hrs

/-- A decode delivers k payloads (46_rlnc R286). -/
theorem length_decodedPayloads (s : State) (f : FlowRec) :
    (s.decodedPayloads f).length = f.k.toNat := by
  cases h : s.decodeMatrix f with
  | none => exact length_decodedPayloads_of_none h
  | some b =>
    rw [State.decodeMatrix] at h
    split at h
    · simp [State.decodedPayloads, State.decodeMatrix, *, length_matInv h]
    · cases h

/-- Settles O55: DECODE_CORE's equation, with the inverse's rows where it exists. -/
theorem decodeDeliversFragment : Obligations.DecodeDeliversFragment := by
  intro s g hs
  rw [hs.exec_eq rfl, rule, Args.ending_ok, decodeBody]
  refine ⟨fun hnone => by rw [hnone]; rfl, fun f hf => ⟨fun hlt => ?_, fun hge => ?_⟩⟩
  · simp only [hf, if_pos hlt]
    rfl
  · simp only [hf, if_neg (BitVec.not_lt.2 hge)]
    refine ⟨s.decodedPayloads f, (s.afterDecode f).freeCount, length_decodedPayloads s f,
      fun b hk hb => ?_, ?_⟩
    · have hdm : s.decodeMatrix f = some b := by rw [State.decodeMatrix, if_pos hk, hb]
      simp [State.decodedPayloads, State.afterDecode, hdm]
    · rw [decodeCore_eq]
      rfl

/-! ## RECODE -/

theorem recodeOk_iff {f : FlowRec} : s.recodeOk f = true ↔
    f.fwd = true ∧ s.mode = 1 ∧ 2 ≤ f.rank.toNat ∧ f.txCounter ≤ s.recCap := by
  simp [State.recodeOk, and_assoc]

/-- Settles O56, by RECODE's guard (`recodeOk_iff`) and its effect (`recode_fired`). -/
theorem recodeEmitsRecombination : Obligations.RecodeEmitsRecombination := by
  intro s g hs
  rw [hs.exec_eq rfl, rule, Args.ending_ok, recodeBody]
  refine ⟨fun hnone => by rw [hnone]; rfl, fun f hf => ⟨fun hbad => ?_, fun hfwd hm hr hc hq hq8 => ?_⟩⟩
  · have hno : ¬ s.recodeOk f = true := by
      rw [recodeOk_iff]
      rintro ⟨h1, h2, h3, h4⟩
      rcases hbad with h | h | h | h
      · rw [h1] at h
        cases h
      · rw [h2] at h
        cases h
      · omega
      · exact absurd h (BitVec.not_lt.2 h4)
    simp only [hf, if_neg hno]
    rfl
  · simp only [hf, if_pos (recodeOk_iff.2 ⟨hfwd, hm, hr, hc⟩)]
    exact ⟨_, legalDraw_nextDraw s hq hq8 (by omega), rfl⟩

/-! ## CHANGE_FRAGMENT -/

theorem changeFragmentEnding_known {g nfrag : U16} {f : FlowRec} (hf : Table.find g s.flows = some f) :
    s.changeFragmentEnding g nfrag = match s.changeFragmentCore g f nfrag with
      | none => raise .iStale s
      | some s' => .done .ok [] s' := by
  simp only [State.changeFragmentEnding, hf] <;> rfl

/-- Settles O57: the four arms of `changeFragmentCore_eq`, and `rxPacketBody_ack` for a received ACK. -/
theorem changeFragmentResyncs : Obligations.ChangeFragmentResyncs := by
  intro s a hs
  have hexec : exec (.changeFragment (.ok a)) s =
      .next (s.changeFragmentEnding a.flow a.nfrag).finish := hs.exec_eq rfl
  rw [hexec]
  refine ⟨fun hnone => by rw [State.changeFragmentEnding, hnone]; rfl, fun f hf => ?_,
    fun fwd pkt r hrx hp ht hfrag => ?_⟩
  · rw [changeFragmentEnding_known hf, changeFragmentCore_eq]
    refine ⟨fun hfwd => ?_, fun hfwd hstale => ?_, fun hfwd hnew hwait hk hq hq8 => ?_,
      fun hfwd hnew hshort => ?_⟩
    · rw [if_pos hfwd]
      rfl
    · rw [if_neg (by simp [hfwd]), if_pos hstale]
      rfl
    · rw [if_neg (by simp [hfwd]), if_neg (BitVec.not_le.2 hnew), if_pos hwait, encodeOrKeep_fired]
      · exact ⟨_, legalDraw_nextDraw s hq hq8 (by simpa [← BitVec.toNat_inj] using hk), rfl⟩
      · exact encOk_iff.2 ⟨hwait, hfwd, Nat.zero_le _⟩
    · rw [if_neg (by simp [hfwd]), if_neg (BitVec.not_le.2 hnew), if_neg (Nat.not_le.2 hshort),
        deadlineAfter_eq]
      rfl
  · rw [hrx.exec_rxPacket, rxPacketBody_ack (a := { flow := a.flow, pkt }) hp ht, hfrag]

/-! ## FLOW_EXPIRE -/

/-- What FLOW_EXPIRE does with a short batch when the guard allows: k becomes the number of waiting packets, which
are encoded (46_rlnc R296). -/
theorem flowExpire_encoded {g : U16} {f : FlowRec} (hf : Table.find g s.flows = some f)
    (h0 : 0 < f.tx.length) (hk : f.tx.length < f.k.toNat) (hfwd : f.fwd = false)
    (hc : f.txCounter ≤ s.encCap) (hq : 1 ≤ s.qn) (hq8 : s.qn ≤ 8) :
    ∃ v, legalDraw s.qn f.tx.length v = true ∧ s.flowExpire g =
      { s with
        draws := s.draws.tail
        freeCount := s.freeCount + 1
        flows := Table.put g { f with
          k := BitVec.ofNat 8 f.tx.length
          mat := (f.mat.take f.tx.length).map (List.take f.tx.length)
          ft := none
          txCounter := f.txCounter + 1 } s.flows
        outputs := s.outputs ++ [.record (Record.bytes (.rlncTx g
          (intraHdr (BitVec.ofNat 8 f.tx.length) (s.q.setWidth 8) f.frag 0 f.sport f.dport v ++
            lcp s.gf v f.tx)))] } := by
  have hn : (BitVec.ofNat 8 f.tx.length).toNat = f.tx.length :=
    Nat.mod_eq_of_lt (hk.trans f.k.isLt)
  refine ⟨s.nextDraw s.qn f.tx.length, legalDraw_nextDraw s hq hq8 (by omega), ?_⟩
  rw [flowExpire_eq, hf]
  simp only [if_pos (And.intro h0 hk)]
  rw [encodeOrKeep_fired]
  · simp only [hn, List.take_length]
  · exact encOk_iff.2 ⟨hn.le, hfwd, hc⟩

/-- With the guard failing, the record is only shrunk. -/
theorem flowExpire_shrunk {g : U16} {f : FlowRec} (hf : Table.find g s.flows = some f)
    (h0 : 0 < f.tx.length) (hk : f.tx.length < f.k.toNat) (hno : f.fwd = true ∨ s.encCap < f.txCounter) :
    s.flowExpire g = { s with
      flows := Table.put g { f with
        k := BitVec.ofNat 8 f.tx.length
        mat := (f.mat.take f.tx.length).map (List.take f.tx.length)
        ft := none } s.flows } := by
  rw [flowExpire_eq, hf]
  simp only [if_pos (And.intro h0 hk)]
  rw [encodeOrKeep_notFired]
  · rfl
  · exact encOk_eq_false (.inr hno)

/-- With no packet waiting, or k of them, the record only loses its timer. -/
theorem flowExpire_disarmed {g : U16} {f : FlowRec} (hf : Table.find g s.flows = some f)
    (h : f.tx.length = 0 ∨ f.k.toNat ≤ f.tx.length) :
    s.flowExpire g = { s with flows := Table.put g { f with ft := none } s.flows } := by
  have hno : ¬ (0 < f.tx.length ∧ f.tx.length < f.k.toNat) := by omega
  rw [flowExpire_eq, hf]
  simp only [if_neg hno]
  rfl

/-- With one flow timer armed, due by t, and no pool, TIME_ADVANCE fires it and sets NOW. -/
theorem exec_timeAdvance_oneFlow {t : U64} {g : U16} {f : FlowRec} {tm : Timer}
    (hs : s.Running (.timeAdvance (.ok t))) (hnow : s.now ≤ t) (hpool : s.pool = [])
    (hflows : s.flows = [(g, f)]) (hft : f.ft = some tm) (hdue : tm.deadline ≤ t.setWidth 65) :
    exec (.timeAdvance (.ok t)) s = .next (State.respond
      { State.flowExpire { s with now := tm.deadline.setWidth 64 } g with now := t } .ok []) := by
  have hwork : s.timerWork = 1 := by simp [State.timerWork, hpool, hflows, hft]
  have hnext : s.nextDue t = some (tm, .flow g) := by
    simp [State.nextDue, State.armedTimers, hpool, hflows, hft, hdue, leastTimer]
  rw [hs.exec_eq rfl, rule, Args.ending_ok, timeAdvanceBody, if_neg (BitVec.not_lt.2 hnow), hwork,
    State.fireDue, hnext]
  rfl

/-- Settles O26: firing a flow timer is FLOW_EXPIRE at its deadline, in its three outcomes; with that timer alone,
`exec_timeAdvance_oneFlow`. -/
theorem flowTimerFlushesShortBatch : Obligations.FlowTimerFlushesShortBatch := by
  refine ⟨fun s g f tm hf hft => ⟨fun h0 hk hfwd hc hq hq8 => ?_, fun h0 hk hno => ?_, fun h => ?_⟩,
    fun s t g f tm hs hnow hpool hflows hft hdue hq hq8 =>
      ⟨fun h0 hk hfwd hc => ?_, fun h0 hk hno => ?_, fun h => ?_⟩⟩
  · obtain ⟨v, hv, he⟩ :=
      flowExpire_encoded (s := { s with now := tm.deadline.setWidth 64 }) hf h0 hk hfwd hc hq hq8
    exact ⟨v, hv, congrArg Proc.goOn he⟩
  · exact congrArg Proc.goOn (flowExpire_shrunk (s := { s with now := tm.deadline.setWidth 64 }) hf h0 hk hno)
  · exact congrArg Proc.goOn (flowExpire_disarmed (s := { s with now := tm.deadline.setWidth 64 }) hf h)
  all_goals
    have hf : Table.find g s.flows = some f := by rw [hflows]; simp [Table.find]
    have hput : ∀ f', Table.put g f' s.flows = [(g, f')] := fun f' => by
      rw [hflows]
      simp [Table.put]
    rw [exec_timeAdvance_oneFlow hs hnow hpool hflows hft hdue]
  · obtain ⟨v, hv, he⟩ :=
      flowExpire_encoded (s := { s with now := tm.deadline.setWidth 64 }) hf h0 hk hfwd hc hq hq8
    exact ⟨v, hv, by rw [he]; simp only [hput]; rfl⟩
  · rw [flowExpire_shrunk (s := { s with now := tm.deadline.setWidth 64 }) hf h0 hk hno]
    simp only [hput]
  · rw [flowExpire_disarmed (s := { s with now := tm.deadline.setWidth 64 }) hf h]
    simp only [hput]

/-! ## Rank and k -/

/-- A record that received two packets of four and has one packet to send, as a forwarder. -/
def shortBatch : FlowRec :=
  { newFlow 4 0 true 0 0 with
    rank := 2
    mat := [[1, 0, 0, 0], [0, 1, 0, 0]]
    rx := [[1], [1]]
    tx := [[1]]
    ft := some { deadline := 0, seq := 0 } }

/-- The engine in RUN with that record alone, and TIME_ADVANCE(0) on the command port. -/
def expiring : State :=
  { State.reset with
    phase := .run
    q := 1
    flows := [(1, shortBatch)]
    cmdIn := encode (.timeAdvance (.ok 0)) ++ [] }

/-- Refutes O59: from `expiring`, whose one record has rank 2 below k = 4, the step fires the flow timer, and
FLOW_EXPIRE lowers k to 1 (46_rlnc R296, log 9). -/
theorem not_rankStaysBelowK : ¬ Obligations.RankStaysBelowK := by
  intro h
  have hfetch : fetchCommand expiring.cmdIn = some (.instr (.timeAdvance (.ok 0)), []) :=
    decodeOfEncode _ [] rfl
  have hexec := flowTimerFlushesShortBatch.2 { expiring with cmdIn := [] } 0 1 shortBatch
    { deadline := 0, seq := 0 } ⟨rfl, rfl, by decide⟩ (by decide) rfl rfl rfl (by decide) (by decide)
    (by decide)
  have hstep := (step_instr rfl hfetch).trans (hexec.2.1 (by decide) (by decide) (.inl rfl))
  have hlt := h expiring _ (by decide) hstep _ List.mem_cons_self
  exact absurd hlt (by decide)

/-! ## VEC_GEN -/

/-- Settles O40: a draw is always legal (`legalDraw_nextDraw`), and a legal waiting answer is taken. -/
theorem vecGenAnswersNonZero : Obligations.VecGenAnswersNonZero := by
  intro s n hs
  rw [hs.exec_eq rfl, rule, Args.ending_ok, vecGenBody]
  refine ⟨fun hn => by rw [if_pos hn]; rfl, fun hn hq hq8 => ?_⟩
  have hn' : n.toNat ≠ 0 := by simpa [← BitVec.toNat_inj] using hn
  obtain ⟨hlen, helems, hne⟩ := legalDraw_iff.1 (legalDraw_nextDraw s hq hq8 hn')
  rw [if_neg hn]
  exact ⟨_, hlen, helems, hne, fun d ds hd hl => nextDraw_of_legal hd hl, rfl⟩

/-! ## Inspections -/

/-- The low 64 bits of a deadline are what the inspections answer (70_reset R368). -/
theorem put64_deadline (d : BitVec 65) : put64 (d.setWidth 64) = putBE 8 (d.toNat % 2 ^ 64) := by
  rw [put64, BitVec.toNat_setWidth]

/-- Settles O32: the three rules, their layouts written out. -/
theorem inspectionAnswers : Obligations.InspectionAnswers := by
  refine ⟨fun s fk hs => ?_, fun s g hs => ?_, fun s a hs => ?_⟩
  · rw [hs.exec_eq rfl, rule, Args.ending_ok, poolStatBody]
    cases Table.find fk s.pool with
    | none => rfl
    | some b => simp only [put64_deadline, Ending.finish_done]; rfl
  · rw [hs.exec_eq rfl, rule, Args.ending_ok, flowStatBody]
    cases Table.find g s.flows with
    | none => rfl
    | some f =>
      cases hft : f.ft with
      | none => simp only [FlowRec.stat, hft, Ending.finish_done]; rfl
      | some tm =>
        simp only [FlowRec.stat, hft, put64_deadline, Ending.finish_done, Option.elim_some,
          Option.isSome_some, if_true, List.append_assoc]
  · rw [hs.exec_eq rfl, rule, Args.ending_ok, flowRowBody]
    cases Table.find a.flow s.flows with
    | none => rfl
    | some f =>
      simp only [BitVec.le_def]
      split
      · rfl
      · rfl

end

end Sys2Proof.Machine
end

section
/-!
PROOFS. The field (44_gf R200 to R203). Multiplication by x with one reduction, `timesX`, is linear over the XOR;
the loop of `gmul` is a polynomial in it, so products commute with each other as linear maps, and the ring laws
follow from 1·b = b. Reduction of the whole product gives the same (`gmulLoop_eq_polyMod`).
-/

namespace Sys2Proof.Machine

/-! ## The loop as a linear map -/

/-- x·r, reduced once: the first half of a turn of the loop of `gmul` (44_gf R202). -/
def timesX (F : Gf) (r : Nat) : Nat := if (r * 2).testBit F.q then r * 2 ^^^ F.poly else r * 2

/-- A turn of the loop: x·r, and a where the bit of b is set. -/
def gmulTurn (F : Gf) (a : Nat) (bit : Bool) (r : Nat) : Nat :=
  if bit then timesX F r ^^^ a else timesX F r

theorem gmulLoop_succ (F : Gf) (a b n r : Nat) :
    gmulLoop F a b (n + 1) r = gmulLoop F a b n (gmulTurn F a (b.testBit n) r) := rfl

theorem xor_mul_two_pow (x y n : Nat) : (x ^^^ y) * 2 ^ n = x * 2 ^ n ^^^ y * 2 ^ n := by
  simpa only [Nat.shiftLeft_eq] using Nat.shiftLeft_xor_distrib (i := n) (a := x) (b := y)

theorem xor_mul_two (x y : Nat) : (x ^^^ y) * 2 = x * 2 ^^^ y * 2 := by
  simpa using xor_mul_two_pow x y 1

theorem timesX_xor (F : Gf) (r s : Nat) : timesX F (r ^^^ s) = timesX F r ^^^ timesX F s := by
  unfold timesX
  rw [xor_mul_two, Nat.testBit_xor]
  cases (r * 2).testBit F.q with
  | false =>
    cases (s * 2).testBit F.q with
    | false => rfl
    | true => exact Nat.xor_assoc ..
  | true =>
    cases (s * 2).testBit F.q with
    | false => exact Nat.xor_right_comm ..
    | true =>
      show r * 2 ^^^ s * 2 = r * 2 ^^^ F.poly ^^^ (s * 2 ^^^ F.poly)
      rw [Nat.xor_comm (s * 2), ← Nat.xor_assoc, Nat.xor_xor_cancel_right]

@[simp] theorem timesX_zero (F : Gf) : timesX F 0 = 0 := by simp [timesX]

theorem gmulTurn_xor (F : Gf) (a a' : Nat) (bit : Bool) (r s : Nat) :
    gmulTurn F (a ^^^ a') bit (r ^^^ s) = gmulTurn F a bit r ^^^ gmulTurn F a' bit s := by
  unfold gmulTurn
  rw [timesX_xor]
  cases bit
  · rfl
  · simp only [if_true]
    ac_rfl

/-- The loop is linear in a and in the value it starts from. -/
theorem gmulLoop_xor (F : Gf) (b a a' n r s : Nat) :
    gmulLoop F (a ^^^ a') b n (r ^^^ s) = gmulLoop F a b n r ^^^ gmulLoop F a' b n s := by
  induction n generalizing r s with
  | zero => rfl
  | succ n ih => rw [gmulLoop_succ, gmulLoop_succ, gmulLoop_succ, gmulTurn_xor, ih]

/-- The loop commutes with multiplication by x. -/
theorem gmulLoop_timesX (F : Gf) (a b n r : Nat) :
    gmulLoop F (timesX F a) b n (timesX F r) = timesX F (gmulLoop F a b n r) := by
  induction n generalizing r with
  | zero => rfl
  | succ n ih =>
    have hturn : gmulTurn F (timesX F a) (b.testBit n) (timesX F r) =
        timesX F (gmulTurn F a (b.testBit n) r) := by
      unfold gmulTurn
      cases b.testBit n
      · rfl
      · exact (timesX_xor ..).symm
    rw [gmulLoop_succ, gmulLoop_succ, hturn, ih]

/-- The product as a number. -/
def natMul (F : Gf) (a b : Nat) : Nat := gmulLoop F a b F.q 0

theorem natMul_xor (F : Gf) (a a' b : Nat) : natMul F (a ^^^ a') b = natMul F a b ^^^ natMul F a' b := by
  simpa [natMul] using gmulLoop_xor F b a a' F.q 0 0

@[simp] theorem natMul_zero_left (F : Gf) (b : Nat) : natMul F 0 b = 0 := by
  simpa using natMul_xor F 0 0 b

theorem natMul_timesX (F : Gf) (a b : Nat) : natMul F (timesX F a) b = timesX F (natMul F a b) := by
  simpa [natMul] using gmulLoop_timesX F a b F.q 0

/-- Two products commute as linear maps, turn by turn. -/
theorem gmulLoop_natMul (F : Gf) (a b c n r : Nat) :
    gmulLoop F (natMul F a c) b n (natMul F r c) = natMul F (gmulLoop F a b n r) c := by
  induction n generalizing r with
  | zero => rfl
  | succ n ih =>
    have hturn : gmulTurn F (natMul F a c) (b.testBit n) (natMul F r c) =
        natMul F (gmulTurn F a (b.testBit n) r) c := by
      unfold gmulTurn
      rw [← natMul_timesX]
      cases b.testBit n
      · rfl
      · exact (natMul_xor ..).symm
    rw [gmulLoop_succ, gmulLoop_succ, hturn, ih]

theorem natMul_right_comm (F : Gf) (a b c : Nat) :
    natMul F (natMul F a b) c = natMul F (natMul F a c) b := by
  have h := gmulLoop_natMul F a b c F.q 0
  rw [natMul_zero_left] at h
  exact h.symm

/-! ## Reduction -/

/-- A number below 2^(n+1) without bit n is below 2^n. -/
theorem lt_two_pow_of_testBit {x n : Nat} (h : x < 2 ^ (n + 1)) (hb : x.testBit n = false) :
    x < 2 ^ n := by
  refine Nat.lt_pow_two_of_testBit x fun i hi => ?_
  rcases Nat.eq_or_lt_of_le hi with rfl | hlt
  · exact hb
  · exact Nat.testBit_lt_two_pow (h.trans_le (Nat.pow_le_pow_right (by decide) hlt))

/-- A number of n+1 bits has its top bit set. -/
theorem testBit_of_two_pow_le {x n : Nat} (h : 2 ^ n ≤ x) (h' : x < 2 ^ (n + 1)) : x.testBit n = true := by
  cases hb : x.testBit n with
  | true => rfl
  | false => exact absurd (lt_two_pow_of_testBit h' hb) (Nat.not_lt.2 h)

/-- One reduction keeps the values below 2^q. -/
theorem timesX_lt {F : Gf} (hF : F.degreeOk) {r : Nat} (h : r < 2 ^ F.q) : timesX F r < 2 ^ F.q := by
  obtain ⟨-, -, hlo, hhi⟩ := hF
  have hr : r * 2 < 2 ^ (F.q + 1) := by
    rw [pow_succ]
    omega
  unfold timesX
  split
  · rename_i hb
    exact lt_two_pow_of_testBit (Nat.xor_lt_two_pow hr hhi) (by
      rw [Nat.testBit_xor, hb, testBit_of_two_pow_le hlo hhi]
      rfl)
  · rename_i hb
    exact lt_two_pow_of_testBit hr (by simpa using hb)

theorem gmulTurn_lt {F : Gf} (hF : F.degreeOk) {a r : Nat} (ha : a < 2 ^ F.q) (hr : r < 2 ^ F.q)
    (bit : Bool) : gmulTurn F a bit r < 2 ^ F.q := by
  unfold gmulTurn
  split
  · exact Nat.xor_lt_two_pow (timesX_lt hF hr) ha
  · exact timesX_lt hF hr

theorem gmulLoop_lt {F : Gf} (hF : F.degreeOk) {a r : Nat} (ha : a < 2 ^ F.q) (hr : r < 2 ^ F.q)
    (b n : Nat) : gmulLoop F a b n r < 2 ^ F.q := by
  induction n generalizing r with
  | zero => exact hr
  | succ n ih =>
    rw [gmulLoop_succ]
    exact ih (gmulTurn_lt hF ha hr _)

theorem natMul_lt {F : Gf} (hF : F.degreeOk) {a : Nat} (ha : a < 2 ^ F.q) (b : Nat) :
    natMul F a b < 2 ^ F.q := gmulLoop_lt hF ha (by positivity) b F.q

theorem clMul_lt {a q : Nat} (ha : a < 2 ^ q) (b n : Nat) : clMul a b n < 2 ^ (q + n) := by
  induction n with
  | zero => exact Nat.two_pow_pos _
  | succ n ih =>
    have hterm : (if b.testBit n then a * 2 ^ n else 0) < 2 ^ (q + n) := by
      split
      · rw [pow_add]
        exact Nat.mul_lt_mul_of_pos_right ha (Nat.two_pow_pos n)
      · exact Nat.two_pow_pos _
    exact (Nat.xor_lt_two_pow ih hterm).trans (Nat.pow_lt_pow_right (by decide) (by omega))

/-- The top bit of a product of degree below q + n is one lower than its width. -/
theorem clMul_succ_lt {a q : Nat} (ha : a < 2 ^ q) (b n : Nat) : clMul a b (n + 1) < 2 ^ (q + n) := by
  refine Nat.xor_lt_two_pow (clMul_lt ha b n) ?_
  split
  · rw [pow_add]
    exact Nat.mul_lt_mul_of_pos_right ha (Nat.two_pow_pos n)
  · exact Nat.two_pow_pos _

/-- Reducing at every turn of the loop is reducing the whole product: from r, the loop gives the remainder of
r·x^n + a·b. -/
theorem gmulLoop_eq_polyMod {F : Gf} (hF : F.degreeOk) {a r : Nat} (ha : a < 2 ^ F.q)
    (hr : r < 2 ^ F.q) (b n : Nat) :
    gmulLoop F a b n r = polyMod F (r * 2 ^ n ^^^ clMul a b n) n := by
  induction n generalizing r with
  | zero => simp [gmulLoop, clMul, polyMod]
  | succ n ih =>
    have hshift : r * 2 ^ (n + 1) = r * 2 * 2 ^ n := by
      rw [pow_succ]
      ring
    have hbit : (r * 2 ^ (n + 1) ^^^ clMul a b (n + 1)).testBit (F.q + n) = (r * 2).testBit F.q := by
      rw [Nat.testBit_xor, hshift, Nat.testBit_mul_two_pow,
        Nat.testBit_lt_two_pow (clMul_succ_lt ha b n)]
      simp
    have hturn : (if (r * 2).testBit F.q then r * 2 ^ (n + 1) ^^^ clMul a b (n + 1) ^^^ F.poly * 2 ^ n
        else r * 2 ^ (n + 1) ^^^ clMul a b (n + 1)) =
        gmulTurn F a (b.testBit n) r * 2 ^ n ^^^ clMul a b n := by
      rw [hshift, clMul]
      unfold gmulTurn timesX
      cases (r * 2).testBit F.q <;> cases b.testBit n <;>
        simp only [Bool.false_eq_true, if_false, if_true, Nat.xor_zero, xor_mul_two_pow] <;> ac_rfl
    rw [gmulLoop_succ, ih (gmulTurn_lt hF ha hr _), polyMod, hbit, hturn]

/-- There is nothing to reduce below 2^q. -/
theorem polyMod_of_lt {F : Gf} {x : Nat} (h : x < 2 ^ F.q) (n : Nat) : polyMod F x n = x := by
  induction n with
  | zero => rfl
  | succ n ih =>
    have hb : x.testBit (F.q + n) = false :=
      Nat.testBit_lt_two_pow (h.trans_le (Nat.pow_le_pow_right (by decide) (Nat.le_add_right ..)))
    rw [polyMod, hb]
    exact ih

theorem clMul_one (b n : Nat) : clMul 1 b n = b % 2 ^ n := by
  induction n with
  | zero => simp [clMul, Nat.mod_one]
  | succ n ih =>
    refine Nat.eq_of_testBit_eq fun i => ?_
    rw [clMul, ih, Nat.testBit_xor, Nat.testBit_mod_two_pow, Nat.testBit_mod_two_pow]
    have hbit : (if b.testBit n then 1 * 2 ^ n else 0).testBit i = (decide (i = n) && b.testBit n) := by
      cases b.testBit n
      · simp
      · simp [Nat.testBit_two_pow, eq_comm]
    rw [hbit]
    rcases Nat.lt_trichotomy i n with h | rfl | h
    · simp [h, Nat.lt_succ_of_lt h, Nat.ne_of_lt h]
    · simp
    · simp [Nat.not_lt.2 h.le, Nat.not_lt.2 h, Nat.ne_of_gt h]

/-- 1·b = b. -/
theorem natMul_one_left {F : Gf} (hF : F.degreeOk) {b : Nat} (hb : b < 2 ^ F.q) : natMul F 1 b = b := by
  have h1 : 1 < 2 ^ F.q := Nat.one_lt_two_pow (by have := hF.1; omega)
  rw [natMul, gmulLoop_eq_polyMod hF h1 (Nat.two_pow_pos _), clMul_one, Nat.mod_eq_of_lt hb, Nat.zero_mul,
    Nat.zero_xor, polyMod_of_lt hb]

theorem natMul_comm {F : Gf} (hF : F.degreeOk) {a b : Nat} (ha : a < 2 ^ F.q) (hb : b < 2 ^ F.q) :
    natMul F a b = natMul F b a := by
  have h := natMul_right_comm F 1 a b
  rwa [natMul_one_left hF ha, natMul_one_left hF hb] at h

theorem natMul_assoc {F : Gf} (hF : F.degreeOk) {a b c : Nat} (ha : a < 2 ^ F.q) (hb : b < 2 ^ F.q) :
    natMul F (natMul F a b) c = natMul F a (natMul F b c) := by
  rw [natMul_comm hF ha (natMul_lt hF hb c), natMul_right_comm F b c a, natMul_comm hF hb ha]

/-! ## The field's operations on bytes -/

theorem isElem_iff {q : Nat} {a : Byte} : isElem q a = true ↔ a.toNat < 2 ^ q := by simp [isElem]

/-- The product's number, for a polynomial of degree q. -/
theorem gmul_toNat {F : Gf} (hF : F.degreeOk) {a : Byte} (ha : isElem F.q a = true) (b : Byte) :
    (gmul F a b).toNat = natMul F a.toNat b.toNat := by
  have h8 : (2 : Nat) ^ F.q ≤ 2 ^ 8 := Nat.pow_le_pow_right (by decide) hF.2.1
  exact Nat.mod_eq_of_lt ((natMul_lt hF (isElem_iff.1 ha) b.toNat).trans_le h8)

theorem isElem_gmul {F : Gf} (hF : F.degreeOk) {a : Byte} (ha : isElem F.q a = true) (b : Byte) :
    isElem F.q (gmul F a b) = true := by
  rw [isElem_iff, gmul_toNat hF ha]
  exact natMul_lt hF (isElem_iff.1 ha) _

theorem gadd_toNat (a b : Byte) : (gadd a b).toNat = a.toNat ^^^ b.toNat := BitVec.toNat_xor ..

theorem isElem_gadd {q : Nat} {a b : Byte} (ha : isElem q a = true) (hb : isElem q b = true) :
    isElem q (gadd a b) = true := by
  rw [isElem_iff, gadd_toNat]
  exact Nat.xor_lt_two_pow (isElem_iff.1 ha) (isElem_iff.1 hb)

@[simp] theorem isElem_zero (q : Nat) : isElem q 0 = true := isElem_iff.2 (Nat.two_pow_pos q)

theorem isElem_one {q : Nat} (hq : 1 ≤ q) : isElem q 1 = true :=
  isElem_iff.2 (Nat.one_lt_two_pow (by omega))

/-- Settles O34: the loop's invariant at its end; the product of two elements has no bit 2q − 1 to reduce. -/
theorem gmulIsReducedProduct : Obligations.GmulIsReducedProduct := by
  intro F a b hF ha _
  obtain ⟨m, hm⟩ : ∃ m, F.q = m + 1 := ⟨F.q - 1, by have := hF.1; omega⟩
  have ha' := isElem_iff.1 ha
  have htop : (clMul a.toNat b.toNat F.q).testBit (F.q + m) = false := by
    have h := clMul_succ_lt ha' b.toNat m
    rw [← hm] at h
    exact Nat.testBit_lt_two_pow h
  rw [gmul_toNat hF ha, natMul, gmulLoop_eq_polyMod hF ha' (Nat.two_pow_pos _), Nat.zero_mul,
    Nat.zero_xor]
  have hq : F.q - 1 = m := by omega
  conv_lhs => arg 3; rw [hm]
  rw [polyMod, htop, hq]
  rfl

/-- The laws of 44_gf R201 and R202 that do not need an inverse. -/
theorem gmul_comm {F : Gf} (hF : F.degreeOk) {a b : Byte} (ha : isElem F.q a = true)
    (hb : isElem F.q b = true) : gmul F a b = gmul F b a :=
  BitVec.eq_of_toNat_eq (by
    rw [gmul_toNat hF ha, gmul_toNat hF hb, natMul_comm hF (isElem_iff.1 ha) (isElem_iff.1 hb)])

theorem gmul_assoc {F : Gf} (hF : F.degreeOk) {a b : Byte} (ha : isElem F.q a = true)
    (hb : isElem F.q b = true) (c : Byte) : gmul F (gmul F a b) c = gmul F a (gmul F b c) :=
  BitVec.eq_of_toNat_eq (by
    rw [gmul_toNat hF (isElem_gmul hF ha b), gmul_toNat hF ha, gmul_toNat hF ha, gmul_toNat hF hb,
      natMul_assoc hF (isElem_iff.1 ha) (isElem_iff.1 hb)])

theorem gmul_gadd {F : Gf} (hF : F.degreeOk) {a b c : Byte} (ha : isElem F.q a = true)
    (hb : isElem F.q b = true) (hc : isElem F.q c = true) :
    gmul F a (gadd b c) = gadd (gmul F a b) (gmul F a c) := by
  rw [gmul_comm hF ha (isElem_gadd hb hc), gmul_comm hF ha hb, gmul_comm hF ha hc]
  exact BitVec.eq_of_toNat_eq (by
    rw [gmul_toNat hF (isElem_gadd hb hc), gadd_toNat, gadd_toNat, natMul_xor, gmul_toNat hF hb,
      gmul_toNat hF hc])

theorem gmul_one {F : Gf} (hF : F.degreeOk) {a : Byte} (ha : isElem F.q a = true) : gmul F a 1 = a := by
  rw [gmul_comm hF ha (isElem_one hF.1)]
  exact BitVec.eq_of_toNat_eq (by
    rw [gmul_toNat hF (isElem_one hF.1)]
    exact natMul_one_left hF (isElem_iff.1 ha))

theorem gmul_zero {F : Gf} (hF : F.degreeOk) {a : Byte} (ha : isElem F.q a = true) : gmul F a 0 = 0 := by
  rw [gmul_comm hF ha (isElem_zero _)]
  exact BitVec.eq_of_toNat_eq (by
    rw [gmul_toNat hF (isElem_zero _)]
    exact natMul_zero_left F _)

/-- Settles O35. -/
theorem fieldLaws : Obligations.FieldLaws := fun _ _ b c hF ha hb hc =>
  ⟨isElem_gmul hF ha b, isElem_gadd ha hb, gmul_comm hF ha hb, gmul_assoc hF ha hb c,
    gmul_gadd hF ha hb hc, gmul_one hF ha, gmul_zero hF ha, gadd_self _, gadd_zero _⟩

/-! ## Inverses -/

/-- The power 2^(n+1) − 2 by squaring: each step multiplies by a and squares. -/
def invPower (F : Gf) (a : Byte) : Nat → Byte
  | 0 => 1
  | n + 1 =>
    let x := gmul F (invPower F a n) a
    gmul F x x

theorem isElem_gpow {F : Gf} (hF : F.degreeOk) {a : Byte} (n : Nat) :
    isElem F.q (gpow F a n) = true := by
  induction n with
  | zero => exact isElem_one hF.1
  | succ n ih => exact isElem_gmul hF ih a

theorem gpow_add {F : Gf} (hF : F.degreeOk) {a : Byte} (m n : Nat) :
    gpow F a (m + n) = gmul F (gpow F a m) (gpow F a n) := by
  induction n with
  | zero => exact (gmul_one hF (isElem_gpow hF m)).symm
  | succ n ih =>
    rw [← Nat.add_assoc, gpow, ih, gpow, gmul_assoc hF (isElem_gpow hF m) (isElem_gpow hF n)]

theorem gpow_two_pow {F : Gf} (hF : F.degreeOk) {a : Byte} (n : Nat) :
    gpow F a (2 ^ (n + 1) - 2) = invPower F a n := by
  induction n with
  | zero => rfl
  | succ n ih =>
    have hpos : 2 ≤ 2 ^ (n + 1) := by
      rw [pow_succ]
      have := Nat.two_pow_pos n
      omega
    have hsplit : 2 ^ (n + 1 + 1) - 2 = (2 ^ (n + 1) - 2 + 1) + (2 ^ (n + 1) - 2 + 1) := by
      rw [pow_succ 2 (n + 1)]
      omega
    rw [hsplit, gpow_add hF, gpow, ih, invPower]

/-- `ginv` by squaring, for evaluation. -/
theorem ginv_eq_invPower {F : Gf} (hF : F.degreeOk) (a : Byte) :
    ginv F a = invPower F a (F.q - 1) := by
  have hq : F.q - 1 + 1 = F.q := by have := hF.1; omega
  rw [← gpow_two_pow hF, hq, ginv]

/-- With the ring laws given by the polynomial's degree, a field is one where the inverses are right. -/
theorem lawful_of_inverse {F : Gf} (hF : F.degreeOk)
    (hinv : ∀ a, isElem F.q a = true → a ≠ 0 → gmul F a (invPower F a (F.q - 1)) = 1) : F.Lawful where
  order := ⟨hF.1, hF.2.1⟩
  mul_closed _ b ha _ := isElem_gmul hF ha b
  mul_comm _ _ := gmul_comm hF
  mul_assoc _ _ c ha hb _ := gmul_assoc hF ha hb c
  mul_add _ _ _ := gmul_gadd hF
  mul_one _ := gmul_one hF
  inverse a ha h0 := ⟨isElem_gpow hF _, by rw [ginv_eq_invPower hF a]; exact hinv a ha h0⟩

theorem degreeOk_defaultGf {q : Nat} (h1 : 1 ≤ q) (h8 : q ≤ 8) : (defaultGf q).degreeOk := by
  unfold Gf.degreeOk
  interval_cases q <;> decide

/-- Every non-zero element of the default fields has its power 2^q − 2 as its inverse: a table to look up. -/
theorem defaultGf_inverse {q : Nat} (h1 : 1 ≤ q) (h8 : q ≤ 8) :
    ∀ a : Byte, isElem q a = true → a ≠ 0 → gmul (defaultGf q) a (invPower (defaultGf q) a (q - 1)) = 1 := by
  interval_cases q <;> decide +kernel

/-- In a field an inverse is unique. -/
theorem Gf.Lawful.inverse_unique {F : Gf} (hF : F.Lawful) {a b : Byte} (ha : isElem F.q a = true)
    (h0 : a ≠ 0) (hb : isElem F.q b = true) (hab : gmul F a b = 1) : b = ginv F a := by
  obtain ⟨hi, hinv⟩ := hF.inverse a ha h0
  calc b = gmul F b (gmul F a (ginv F a)) := by rw [hinv, hF.mul_one b hb]
    _ = gmul F (gmul F a b) (ginv F a) := by
      rw [← hF.mul_assoc b a _ hb ha hi, hF.mul_comm b a hb ha]
    _ = ginv F a := by
      rw [hab, hF.mul_comm 1 _ (isElem_one hF.order.1) hi, hF.mul_one _ hi]

/-- Settles O36: the default table's inverses by evaluation (`defaultGf_inverse`), uniqueness by associativity. -/
theorem inverseLaw : Obligations.InverseLaw :=
  ⟨fun _ h1 h8 => ⟨degreeOk_defaultGf h1 h8,
      lawful_of_inverse (degreeOk_defaultGf h1 h8) (defaultGf_inverse h1 h8)⟩,
    fun _ a hF ha h0 => ⟨(hF.inverse a ha h0).1, (hF.inverse a ha h0).2,
      fun _ hb hab => hF.inverse_unique ha h0 hb hab, rfl⟩⟩

end Sys2Proof.Machine
end

section
/-!
PROOFS. Vectors over a field (44_gf R204 to R206). A linear combination is a fold that adds one scaled row at
a time (`linComb_cons`); from its linearity come the associativity of products and the two facts about a
pivot, that clearing its column keeps independence and span, on which rank rests.
-/

namespace Sys2Proof.Machine

/-! ## Elements -/

section
variable {F : Gf}

theorem Gf.Lawful.one_elem (hF : F.Lawful) : isElem F.q 1 = true := isElem_one hF.order.1

theorem Gf.Lawful.mul_zero (hF : F.Lawful) {a : Byte} (ha : isElem F.q a = true) : gmul F a 0 = 0 := by
  have h := hF.mul_add a 0 0 ha (isElem_zero _) (isElem_zero _)
  rwa [gadd_self, gadd_self] at h

theorem Gf.Lawful.zero_mul (hF : F.Lawful) {a : Byte} (ha : isElem F.q a = true) : gmul F 0 a = 0 := by
  rw [hF.mul_comm 0 a (isElem_zero _) ha, hF.mul_zero ha]

theorem Gf.Lawful.one_mul (hF : F.Lawful) {a : Byte} (ha : isElem F.q a = true) : gmul F 1 a = a := by
  rw [hF.mul_comm 1 a hF.one_elem ha, hF.mul_one a ha]

theorem Gf.Lawful.add_mul (hF : F.Lawful) {a b c : Byte} (ha : isElem F.q a = true)
    (hb : isElem F.q b = true) (hc : isElem F.q c = true) :
    gmul F (gadd a b) c = gadd (gmul F a c) (gmul F b c) := by
  rw [hF.mul_comm _ c (isElem_gadd ha hb) hc, hF.mul_add c a b hc ha hb, hF.mul_comm c a hc ha,
    hF.mul_comm c b hc hb]

theorem Gf.Lawful.inv_mul (hF : F.Lawful) {a : Byte} (ha : isElem F.q a = true) (h0 : a ≠ 0) :
    gmul F (ginv F a) a = 1 := by
  obtain ⟨hi, h⟩ := hF.inverse a ha h0
  rw [hF.mul_comm _ _ hi ha, h]

/-- A field has no zero divisors. -/
theorem Gf.Lawful.eq_zero_of_mul (hF : F.Lawful) {a b : Byte} (ha : isElem F.q a = true)
    (hb : isElem F.q b = true) (hb0 : b ≠ 0) (h : gmul F a b = 0) : a = 0 := by
  obtain ⟨hi, hinv⟩ := hF.inverse b hb hb0
  calc a = gmul F (gmul F a b) (ginv F b) := by rw [hF.mul_assoc a b _ ha hb hi, hinv, hF.mul_one a ha]
    _ = 0 := by rw [h, hF.zero_mul hi]

/-- In characteristic 2, equal is adding up to 0. -/
theorem gadd_eq_zero_iff {a b : Byte} : gadd a b = 0 ↔ a = b := BitVec.xor_eq_zero_iff

/-! ## Vectors -/

/-- A vector of n elements of the field. -/
def IsRow (F : Gf) (n : Nat) (v : List Byte) : Prop := v.length = n ∧ v.all (isElem F.q) = true

theorem isRow_cons {n : Nat} {x : Byte} {v : List Byte} :
    IsRow F (n + 1) (x :: v) ↔ isElem F.q x = true ∧ IsRow F n v := by
  simp only [IsRow, List.length_cons, Nat.add_right_cancel_iff, List.all_cons, Bool.and_eq_true]
  tauto

theorem IsRow.elem {n : Nat} {v : List Byte} (h : IsRow F n v) {x : Byte} (hx : x ∈ v) :
    isElem F.q x = true := List.all_eq_true.1 h.2 x hx

/-- Entries past the end read as 0, an element too. -/
theorem IsRow.getD_elem {n : Nat} {v : List Byte} (h : IsRow F n v) (j : Nat) :
    isElem F.q (v.getD j 0) = true := by
  rcases Nat.lt_or_ge j v.length with hj | hj
  · rw [List.getD_eq_getElem _ _ hj]
    exact h.elem (List.getElem_mem hj)
  · rw [List.getD_eq_default _ _ hj]
    exact isElem_zero _

theorem isRow_zeroVec (F : Gf) (n : Nat) : IsRow F n (zeroVec n) :=
  ⟨length_zeroVec n, List.all_eq_true.2 fun _ hx => List.eq_of_mem_replicate hx ▸ isElem_zero _⟩

theorem vadd_cons (x y : Byte) (v w : List Byte) : vadd (x :: v) (y :: w) = gadd x y :: vadd v w := rfl

theorem vadd_comm (v w : List Byte) : vadd v w = vadd w v := List.zipWith_comm_of_comm gadd_comm

theorem vadd_assoc (v w x : List Byte) : vadd (vadd v w) x = vadd v (vadd w x) := by
  induction v generalizing w x with
  | nil => rfl
  | cons a v ih =>
    cases w with
    | nil => rfl
    | cons b w =>
      cases x with
      | nil => rfl
      | cons c x => rw [vadd_cons, vadd_cons, vadd_cons, vadd_cons, ih, gadd_assoc]

theorem vadd_left_comm (v w x : List Byte) : vadd v (vadd w x) = vadd w (vadd v x) := by
  rw [← vadd_assoc, vadd_comm v w, vadd_assoc]

theorem vadd_zeroVec {n : Nat} {v : List Byte} (h : v.length = n) : vadd v (zeroVec n) = v := by
  subst h
  induction v with
  | nil => rfl
  | cons a v ih =>
    show vadd (a :: v) (0 :: zeroVec v.length) = a :: v
    rw [vadd_cons, ih, gadd_zero]

theorem zeroVec_vadd {n : Nat} {v : List Byte} (h : v.length = n) : vadd (zeroVec n) v = v := by
  rw [vadd_comm, vadd_zeroVec h]

theorem vadd_self (v : List Byte) : vadd v v = zeroVec v.length := by
  induction v with
  | nil => rfl
  | cons a v ih => rw [vadd_cons, ih, gadd_self]; rfl

theorem getD_zeroVec (n j : Nat) : (zeroVec n).getD j 0 = 0 := by
  rw [zeroVec, List.getD_eq_getElem?_getD, List.getElem?_replicate]
  split <;> rfl

/-- Two vectors of one length that add up to 0 are equal. -/
theorem eq_of_vadd_eq_zero {n : Nat} {v w : List Byte} (hv : v.length = n) (hw : w.length = n)
    (h : vadd v w = zeroVec n) : v = w :=
  calc v = vadd (vadd v w) w := by rw [vadd_assoc, vadd_self, hw, vadd_zeroVec hv]
    _ = w := by rw [h, zeroVec_vadd hw]

theorem getD_vadd {n : Nat} {v w : List Byte} (hv : v.length = n) (hw : w.length = n) (j : Nat) :
    (vadd v w).getD j 0 = gadd (v.getD j 0) (w.getD j 0) := by
  rcases Nat.lt_or_ge j n with hj | hj
  · rw [List.getD_eq_getElem _ _ (by simp [hv, hw, hj]), List.getD_eq_getElem _ _ (by omega),
      List.getD_eq_getElem _ _ (by omega)]
    simp [vadd]
  · rw [List.getD_eq_default _ _ (by simp [hv, hj]), List.getD_eq_default _ _ (by omega),
      List.getD_eq_default _ _ (by omega), gadd_zero]

theorem getD_scale (hF : F.Lawful) {s : Byte} (hs : isElem F.q s = true) (v : List Byte) (j : Nat) :
    (scale F s v).getD j 0 = gmul F s (v.getD j 0) := by
  rcases Nat.lt_or_ge j v.length with hj | hj
  · rw [List.getD_eq_getElem _ _ (by simpa using hj), List.getD_eq_getElem _ _ hj]
    simp [scale]
  · rw [List.getD_eq_default _ _ (by simpa using hj), List.getD_eq_default _ _ hj, hF.mul_zero hs]

theorem IsRow.vadd {n : Nat} {v w : List Byte} (hv : IsRow F n v) (hw : IsRow F n w) :
    IsRow F n (vadd v w) := by
  refine ⟨by simp [hv.1, hw.1], List.all_eq_true.2 fun x hx => ?_⟩
  obtain ⟨i, hi, rfl⟩ := List.mem_iff_getElem.1 hx
  simp only [Machine.vadd, List.getElem_zipWith]
  exact isElem_gadd (hv.elem (List.getElem_mem _)) (hw.elem (List.getElem_mem _))

theorem IsRow.scale (hF : F.Lawful) {n : Nat} {s : Byte} {v : List Byte} (hs : isElem F.q s = true)
    (hv : IsRow F n v) : IsRow F n (scale F s v) := by
  refine ⟨by simp [hv.1], List.all_eq_true.2 fun x hx => ?_⟩
  obtain ⟨y, hy, rfl⟩ := List.mem_map.1 hx
  exact hF.mul_closed s y hs (hv.elem hy)

theorem scale_vadd (hF : F.Lawful) {n : Nat} {s : Byte} {v w : List Byte} (hs : isElem F.q s = true)
    (hv : IsRow F n v) (hw : IsRow F n w) :
    scale F s (vadd v w) = vadd (scale F s v) (scale F s w) := by
  induction n generalizing v w with
  | zero =>
    obtain rfl := List.length_eq_zero_iff.1 hv.1
    rfl
  | succ n ih =>
    match v, w, hv, hw with
    | x :: v, y :: w, hv, hw =>
      obtain ⟨hx, hv⟩ := isRow_cons.1 hv
      obtain ⟨hy, hw⟩ := isRow_cons.1 hw
      show gmul F s (gadd x y) :: scale F s (vadd v w) = _
      rw [hF.mul_add s x y hs hx hy, ih hv hw]
      rfl

theorem scale_gadd (hF : F.Lawful) {n : Nat} {a b : Byte} {v : List Byte} (ha : isElem F.q a = true)
    (hb : isElem F.q b = true) (hv : IsRow F n v) :
    scale F (gadd a b) v = vadd (scale F a v) (scale F b v) := by
  induction n generalizing v with
  | zero =>
    obtain rfl := List.length_eq_zero_iff.1 hv.1
    rfl
  | succ n ih =>
    match v, hv with
    | x :: v, hv =>
      obtain ⟨hx, hv⟩ := isRow_cons.1 hv
      show gmul F (gadd a b) x :: scale F (gadd a b) v = _
      rw [hF.add_mul ha hb hx, ih hv]
      rfl

theorem scale_scale (hF : F.Lawful) {n : Nat} {a b : Byte} {v : List Byte} (ha : isElem F.q a = true)
    (hb : isElem F.q b = true) (hv : IsRow F n v) :
    scale F a (scale F b v) = scale F (gmul F a b) v := by
  simp only [scale, List.map_map]
  refine List.map_congr_left fun x hx => ?_
  exact (hF.mul_assoc a b x ha hb (hv.elem hx)).symm

theorem scale_one (hF : F.Lawful) {n : Nat} {v : List Byte} (hv : IsRow F n v) : scale F 1 v = v :=
  (List.map_congr_left fun _ hx => hF.one_mul (hv.elem hx)).trans (List.map_id v)

theorem scale_zero (hF : F.Lawful) {n : Nat} {v : List Byte} (hv : IsRow F n v) :
    scale F 0 v = zeroVec n := by
  have h : scale F 0 v = v.map fun _ => 0 :=
    List.map_congr_left fun _ hx => hF.zero_mul (hv.elem hx)
  rw [h, List.map_const', hv.1, zeroVec]

theorem scale_zeroVec (hF : F.Lawful) {s : Byte} (hs : isElem F.q s = true) (n : Nat) :
    scale F s (zeroVec n) = zeroVec n := by
  rw [scale, zeroVec, List.map_replicate, hF.mul_zero hs]

/-! ## Linear combinations -/

theorem foldl_vadd (l : List (List Byte)) (z w : List Byte) :
    l.foldl vadd (vadd z w) = vadd w (l.foldl vadd z) := by
  induction l generalizing z with
  | nil => exact vadd_comm z w
  | cons x l ih => rw [List.foldl_cons, List.foldl_cons, vadd_assoc, vadd_comm w x, ← vadd_assoc, ih]

@[simp] theorem linComb_nil (F : Gf) (n : Nat) (u : List Byte) : linComb F n u [] = zeroVec n := by
  simp [linComb]

theorem linComb_cons (F : Gf) (n : Nat) (x : Byte) (u v : List Byte) (rows : List (List Byte)) :
    linComb F n (x :: u) (v :: rows) = vadd (scale F x v) (linComb F n u rows) := by
  simp only [linComb, List.zipWith_cons_cons, List.foldl_cons, foldl_vadd]

/-- Rows that are all vectors of n elements. -/
def AreRows (F : Gf) (n : Nat) (rows : List (List Byte)) : Prop := ∀ v ∈ rows, IsRow F n v

theorem areRows_cons {n : Nat} {v : List Byte} {rows : List (List Byte)} :
    AreRows F n (v :: rows) ↔ IsRow F n v ∧ AreRows F n rows := List.forall_mem_cons

theorem areRows_append {n : Nat} {rows rows' : List (List Byte)} :
    AreRows F n (rows ++ rows') ↔ AreRows F n rows ∧ AreRows F n rows' := List.forall_mem_append

theorem isRow_linComb (hF : F.Lawful) {n : Nat} {u : List Byte} {rows : List (List Byte)}
    (hu : IsRow F rows.length u) (hr : AreRows F n rows) : IsRow F n (linComb F n u rows) := by
  induction rows generalizing u with
  | nil =>
    rw [linComb_nil]
    exact isRow_zeroVec F n
  | cons v rows ih =>
    match u, hu with
    | x :: u, hu =>
      obtain ⟨hx, hu⟩ := isRow_cons.1 hu
      obtain ⟨hv, hr⟩ := areRows_cons.1 hr
      rw [linComb_cons]
      exact (hv.scale hF hx).vadd (ih hu hr)

theorem linComb_zeroVec (hF : F.Lawful) {n : Nat} {rows : List (List Byte)} (hr : AreRows F n rows) :
    linComb F n (zeroVec rows.length) rows = zeroVec n := by
  induction rows with
  | nil => exact linComb_nil ..
  | cons v rows ih =>
    obtain ⟨hv, hr⟩ := areRows_cons.1 hr
    show linComb F n (0 :: zeroVec rows.length) (v :: rows) = zeroVec n
    rw [linComb_cons, ih hr, scale_zero hF hv, vadd_zeroVec (length_zeroVec n)]

theorem linComb_vadd (hF : F.Lawful) {n : Nat} {u w : List Byte} {rows : List (List Byte)}
    (hu : IsRow F rows.length u) (hw : IsRow F rows.length w) (hr : AreRows F n rows) :
    linComb F n (vadd u w) rows = vadd (linComb F n u rows) (linComb F n w rows) := by
  induction rows generalizing u w with
  | nil => rw [linComb_nil, linComb_nil, linComb_nil, vadd_self, length_zeroVec]
  | cons v rows ih =>
    match u, w, hu, hw with
    | x :: u, y :: w, hu, hw =>
      obtain ⟨hx, hu⟩ := isRow_cons.1 hu
      obtain ⟨hy, hw⟩ := isRow_cons.1 hw
      obtain ⟨hv, hr⟩ := areRows_cons.1 hr
      rw [vadd_cons, linComb_cons, linComb_cons, linComb_cons, scale_gadd hF hx hy hv, ih hu hw hr]
      simp only [vadd_assoc, vadd_left_comm]

theorem linComb_scale (hF : F.Lawful) {n : Nat} {s : Byte} {u : List Byte} {rows : List (List Byte)}
    (hs : isElem F.q s = true) (hu : IsRow F rows.length u) (hr : AreRows F n rows) :
    linComb F n (scale F s u) rows = scale F s (linComb F n u rows) := by
  induction rows generalizing u with
  | nil => rw [linComb_nil, linComb_nil, scale_zeroVec hF hs]
  | cons v rows ih =>
    match u, hu with
    | x :: u, hu =>
      obtain ⟨hx, hu⟩ := isRow_cons.1 hu
      obtain ⟨hv, hr⟩ := areRows_cons.1 hr
      show linComb F n (gmul F s x :: scale F s u) (v :: rows) = _
      rw [linComb_cons, linComb_cons, ih hu hr,
        scale_vadd hF hs (hv.scale hF hx) (isRow_linComb hF hu hr), scale_scale hF hs hx hv]

/-- Combining combinations is combining with the combined coefficients (the associativity of the product). -/
theorem linComb_linComb (hF : F.Lawful) {n m : Nat} {u : List Byte} {rows t : List (List Byte)}
    (hu : IsRow F rows.length u) (hr : AreRows F m rows) (ht : AreRows F n t) (hm : t.length = m) :
    linComb F n u (rows.map fun v => linComb F n v t) = linComb F n (linComb F m u rows) t := by
  subst hm
  induction rows generalizing u with
  | nil => rw [List.map_nil, linComb_nil, linComb_nil, linComb_zeroVec hF ht]
  | cons v rows ih =>
    match u, hu with
    | x :: u, hu =>
      obtain ⟨hx, hu⟩ := isRow_cons.1 hu
      obtain ⟨hv, hr⟩ := areRows_cons.1 hr
      rw [List.map_cons, linComb_cons, linComb_cons, ih hu hr, ← linComb_scale hF hx hv ht,
        linComb_vadd hF (hv.scale hF hx) (isRow_linComb hF hu hr) ht]

/-- A column where every row is 0 is 0 in every combination. -/
theorem getD_linComb_of_zero (hF : F.Lawful) {n j : Nat} {u : List Byte} {rows : List (List Byte)}
    (hu : IsRow F rows.length u) (hr : AreRows F n rows) (hz : ∀ v ∈ rows, v.getD j 0 = 0) :
    (linComb F n u rows).getD j 0 = 0 := by
  induction rows generalizing u with
  | nil => simp [zeroVec]
  | cons v rows ih =>
    match u, hu with
    | x :: u, hu =>
      obtain ⟨hx, hu⟩ := isRow_cons.1 hu
      obtain ⟨hv, hr⟩ := areRows_cons.1 hr
      obtain ⟨hvz, hz⟩ := List.forall_mem_cons.1 hz
      rw [linComb_cons, getD_vadd (hv.scale hF hx).1 (isRow_linComb hF hu hr).1, ih hu hr hz,
        getD_scale hF hx, hvz, hF.mul_zero hx, gadd_zero]

/-- A row may be moved to the front, with its coefficient. -/
theorem linComb_middle (F : Gf) (n : Nat) {u u' : List Byte} (x : Byte) (p : List Byte)
    {pre post : List (List Byte)} (h : u.length = pre.length) :
    linComb F n (u ++ x :: u') (pre ++ p :: post) =
      linComb F n (x :: (u ++ u')) (p :: (pre ++ post)) := by
  induction pre generalizing u with
  | nil =>
    obtain rfl := List.length_eq_zero_iff.1 h
    rfl
  | cons v pre ih =>
    match u, h with
    | y :: u, h =>
      have hlen : u.length = pre.length := by simpa using h
      simp only [List.cons_append, linComb_cons, ih hlen, vadd_left_comm (scale F x p)]

/-! ## Span and independence -/

/-- The vector is a combination of the rows. -/
def InSpan (F : Gf) (n : Nat) (rows : List (List Byte)) (v : List Byte) : Prop :=
  ∃ u, IsRow F rows.length u ∧ linComb F n u rows = v

theorem InSpan.isRow (hF : F.Lawful) {n : Nat} {rows : List (List Byte)} {v : List Byte}
    (hr : AreRows F n rows) (h : InSpan F n rows v) : IsRow F n v := by
  obtain ⟨u, hu, rfl⟩ := h
  exact isRow_linComb hF hu hr

theorem InSpan.vadd (hF : F.Lawful) {n : Nat} {rows : List (List Byte)} {v w : List Byte}
    (hr : AreRows F n rows) (hv : InSpan F n rows v) (hw : InSpan F n rows w) :
    InSpan F n rows (vadd v w) := by
  obtain ⟨u, hu, rfl⟩ := hv
  obtain ⟨u', hu', rfl⟩ := hw
  exact ⟨_, hu.vadd hu', linComb_vadd hF hu hu' hr⟩

theorem InSpan.scale (hF : F.Lawful) {n : Nat} {rows : List (List Byte)} {s : Byte} {v : List Byte}
    (hr : AreRows F n rows) (hs : isElem F.q s = true) (hv : InSpan F n rows v) :
    InSpan F n rows (scale F s v) := by
  obtain ⟨u, hu, rfl⟩ := hv
  exact ⟨_, hu.scale hF hs, linComb_scale hF hs hu hr⟩

/-- Coefficients split where the rows do. -/
theorem IsRow.split {pre post : List (List Byte)} {p u : List Byte}
    (h : IsRow F (pre ++ p :: post).length u) :
    ∃ u1 x u2, u = u1 ++ x :: u2 ∧ u1.length = pre.length ∧
      IsRow F (p :: (pre ++ post)).length (x :: (u1 ++ u2)) := by
  obtain ⟨hlen, hall⟩ := h
  have hdrop : (u.drop pre.length).length = post.length + 1 := by
    simp only [List.length_drop, hlen, List.length_append, List.length_cons]
    omega
  obtain ⟨x, u2, hx⟩ := List.exists_cons_of_length_eq_add_one hdrop
  have hu : u = u.take pre.length ++ x :: u2 := by rw [← hx, List.take_append_drop]
  have htake : (u.take pre.length).length = pre.length := by
    simp only [List.length_take, hlen, List.length_append]
    omega
  refine ⟨_, x, u2, hu, htake, ?_, ?_⟩
  · rw [hx] at hdrop
    simp only [List.length_cons, List.length_append, htake] at hdrop ⊢
    omega
  · rw [hu, List.all_append, List.all_cons, Bool.and_eq_true, Bool.and_eq_true] at hall
    obtain ⟨h1, hx, h2⟩ := hall
    rw [List.all_cons, List.all_append, hx, h1, h2]
    rfl

theorem IsRow.unsplit {pre post : List (List Byte)} {p : List Byte} {x : Byte} {u1 u2 : List Byte}
    (h : IsRow F (p :: (pre ++ post)).length (x :: (u1 ++ u2))) :
    IsRow F (pre ++ p :: post).length (u1 ++ x :: u2) := by
  obtain ⟨hlen, hall⟩ := h
  refine ⟨by simp at hlen ⊢; omega, ?_⟩
  rw [List.all_cons, List.all_append, Bool.and_eq_true, Bool.and_eq_true] at hall
  obtain ⟨hx, h1, h2⟩ := hall
  rw [List.all_append, List.all_cons, hx, h1, h2]
  rfl

theorem inSpan_middle {n : Nat} {pre post : List (List Byte)} {p v : List Byte}
    (h : InSpan F n (pre ++ p :: post) v) : InSpan F n (p :: (pre ++ post)) v := by
  obtain ⟨u, hu, rfl⟩ := h
  obtain ⟨u1, x, u2, rfl, hlen, hrow⟩ := hu.split
  exact ⟨_, hrow, (linComb_middle F n x p hlen).symm⟩

/-- Whose elements all stand in the zero vector is one. -/
theorem eq_zeroVec_of_subset {n m : Nat} {u w : List Byte} (hu : u.length = n) (hw : w = zeroVec m)
    (h : u ⊆ w) : u = zeroVec n :=
  List.eq_replicate_iff.2 ⟨hu, fun _ hb => List.eq_of_mem_replicate (hw ▸ h hb)⟩

/-- Independence does not depend on where a row stands. -/
theorem independent_middle {n : Nat} {pre post : List (List Byte)} {p : List Byte} :
    Independent F n (pre ++ p :: post) ↔ Independent F n (p :: (pre ++ post)) := by
  constructor
  · intro h u hlen hall hzero
    match u, hlen with
    | x :: u, hlen =>
      have hu : u.length = pre.length + post.length := by simpa using hlen
      have hsplit : u = u.take pre.length ++ u.drop pre.length := (List.take_append_drop ..).symm
      have htake : (u.take pre.length).length = pre.length := by simp [hu]
      rw [hsplit] at hlen hall hzero ⊢
      have hrow := IsRow.unsplit (F := F) (p := p) (pre := pre) (post := post) ⟨hlen, hall⟩
      have h0 := h _ hrow.1 hrow.2 ((linComb_middle F n x p htake).trans hzero)
      refine eq_zeroVec_of_subset hlen h0 fun b hb => ?_
      simp only [List.mem_cons, List.mem_append] at hb ⊢
      tauto
  · intro h u hlen hall hzero
    obtain ⟨u1, x, u2, rfl, hlen', hrow⟩ := IsRow.split (F := F) ⟨hlen, hall⟩
    have h0 := h _ hrow.1 hrow.2 ((linComb_middle F n x p hlen').symm.trans hzero)
    refine eq_zeroVec_of_subset hlen h0 fun b hb => ?_
    simp only [List.mem_cons, List.mem_append] at hb ⊢
    tauto

theorem independent_nil (F : Gf) (n : Nat) : Independent F n [] :=
  fun _ hlen _ _ => List.length_eq_zero_iff.1 hlen

/-- Independent rows are not 0. -/
theorem Independent.eq_nil (hF : F.Lawful) {n : Nat} {rows : List (List Byte)}
    (h : Independent F n rows) (hz : ∀ v ∈ rows, v = zeroVec n) : rows = [] := by
  cases rows with
  | nil => rfl
  | cons v rows =>
    obtain ⟨rfl, hrest⟩ := List.forall_mem_cons.1 hz
    have hr : AreRows F n rows := fun v hv => hrest v hv ▸ isRow_zeroVec F n
    have hu : IsRow F (rows.length + 1) (1 :: zeroVec rows.length) :=
      isRow_cons.2 ⟨hF.one_elem, isRow_zeroVec ..⟩
    have h1 := h _ hu.1 hu.2 (by
      rw [linComb_cons, scale_zeroVec hF hF.one_elem, linComb_zeroVec hF hr, vadd_self, length_zeroVec])
    exact absurd (List.cons.inj h1).1 (by decide)

/-- Another vector keeps independent rows independent exactly when it is no combination of them. -/
theorem independent_cons_iff (hF : F.Lawful) {n : Nat} {v : List Byte} {rows : List (List Byte)}
    (hv : IsRow F n v) (hr : AreRows F n rows) (hind : Independent F n rows) :
    Independent F n (v :: rows) ↔ ¬ InSpan F n rows v := by
  constructor
  · rintro h ⟨u, hu, rfl⟩
    have hrow : IsRow F (rows.length + 1) (1 :: u) := isRow_cons.2 ⟨hF.one_elem, hu⟩
    have h1 := h _ hrow.1 hrow.2 (by
      rw [linComb_cons, scale_one hF hv, vadd_self, hv.1])
    exact absurd (List.cons.inj h1).1 (by decide)
  · intro h u hlen hall hzero
    match u, hlen with
    | x :: u, hlen =>
      obtain ⟨hx, hu⟩ := isRow_cons.1 (show IsRow F (rows.length + 1) (x :: u) from ⟨hlen, hall⟩)
      rw [linComb_cons] at hzero
      have heq := eq_of_vadd_eq_zero (hv.scale hF hx).1 (isRow_linComb hF hu hr).1 hzero
      by_cases hx0 : x = 0
      · subst hx0
        rw [scale_zero hF hv] at heq
        rw [hind u hu.1 hu.2 heq.symm]
        rfl
      · obtain ⟨hi, -⟩ := hF.inverse x hx hx0
        refine absurd ⟨scale F (ginv F x) u, hu.scale hF hi, ?_⟩ h
        rw [linComb_scale hF hi hu hr, ← heq, scale_scale hF hi hx hv, hF.inv_mul hx hx0,
          scale_one hF hv]

/-! ## A pivot -/

/-- The coefficients of the pivot row in a combination of the cleared rows. -/
def pivotSum (F : Gf) (col : Nat) (s : Byte) : List Byte → List (List Byte) → Byte
  | x :: u, v :: vs => gadd (gmul F x (gmul F (v.getD col 0) s)) (pivotSum F col s u vs)
  | _, _ => 0

theorem isElem_pivotSum (hF : F.Lawful) {n col : Nat} {s : Byte} (hs : isElem F.q s = true)
    {u : List Byte} {rows : List (List Byte)} (hu : IsRow F rows.length u) (hr : AreRows F n rows) :
    isElem F.q (pivotSum F col s u rows) = true := by
  induction rows generalizing u with
  | nil =>
    obtain rfl := List.length_eq_zero_iff.1 hu.1
    exact isElem_zero _
  | cons v rows ih =>
    match u, hu with
    | x :: u, hu =>
      obtain ⟨hx, hu⟩ := isRow_cons.1 hu
      obtain ⟨hv, hr⟩ := areRows_cons.1 hr
      exact isElem_gadd (hF.mul_closed _ _ hx (hF.mul_closed _ _ (hv.getD_elem col) hs)) (ih hu hr)

theorem IsRow.clearColumn (hF : F.Lawful) {n : Nat} {p v : List Byte} {s : Byte} (hp : IsRow F n p)
    (hs : isElem F.q s = true) (hv : IsRow F n v) (col : Nat) : IsRow F n (clearColumn F col p s v) :=
  hv.vadd (hp.scale hF (hF.mul_closed _ _ (hv.getD_elem col) hs))

theorem AreRows.clearColumn (hF : F.Lawful) {n : Nat} {p : List Byte} {s : Byte}
    {rows : List (List Byte)} (hp : IsRow F n p) (hs : isElem F.q s = true) (hr : AreRows F n rows)
    (col : Nat) : AreRows F n (rows.map (clearColumn F col p s)) := by
  intro v hv
  obtain ⟨w, hw, rfl⟩ := List.mem_map.1 hv
  exact hp.clearColumn hF hs (hr w hw) col

/-- A cleared row is 0 in the pivot's column. -/
theorem getD_clearColumn (hF : F.Lawful) {n col : Nat} {p v : List Byte} {s : Byte} (hp : IsRow F n p)
    (hs : isElem F.q s = true) (hv : IsRow F n v) (hinv : gmul F (p.getD col 0) s = 1) :
    (clearColumn F col p s v).getD col 0 = 0 := by
  have hvc := hv.getD_elem col
  have hm := hF.mul_closed _ _ hvc hs
  unfold clearColumn
  rw [getD_vadd hv.1 (hp.scale hF hm).1, getD_scale hF hm, hF.mul_assoc _ _ _ hvc hs (hp.getD_elem col),
    hF.mul_comm s _ hs (hp.getD_elem col), hinv, hF.mul_one _ hvc, gadd_self]

/-- A combination of cleared rows is one of the pivot row and the rows. -/
theorem linComb_clearColumn (hF : F.Lawful) {n col : Nat} {p : List Byte} {s : Byte} {u : List Byte}
    {rows : List (List Byte)} (hp : IsRow F n p) (hs : isElem F.q s = true)
    (hu : IsRow F rows.length u) (hr : AreRows F n rows) :
    linComb F n u (rows.map (clearColumn F col p s)) =
      linComb F n (pivotSum F col s u rows :: u) (p :: rows) := by
  induction rows generalizing u with
  | nil =>
    obtain rfl := List.length_eq_zero_iff.1 hu.1
    rw [List.map_nil, linComb_cons, linComb_nil]
    show _ = vadd (scale F 0 p) _
    rw [scale_zero hF hp, vadd_self, length_zeroVec]
  | cons v rows ih =>
    match u, hu with
    | x :: u, hu =>
      obtain ⟨hx, hu⟩ := isRow_cons.1 hu
      obtain ⟨hv, hr⟩ := areRows_cons.1 hr
      have hm := hF.mul_closed _ _ (hv.getD_elem col) hs
      rw [List.map_cons, linComb_cons, ih hu hr, linComb_cons, linComb_cons, linComb_cons, clearColumn,
        scale_vadd hF hx hv (hp.scale hF hm), scale_scale hF hx hm hp, pivotSum,
        scale_gadd hF (hF.mul_closed _ _ hx hm) (isElem_pivotSum hF hs hu hr) hp]
      simp only [vadd_assoc, vadd_left_comm]

section pivot
variable {n col : Nat} {p : List Byte} {s : Byte} {rows : List (List Byte)}

/-- A combination of the pivot row and the rows that is 0 in the pivot's column is one of the cleared rows
(`linComb_clearColumn`). -/
theorem eq_pivotSum_of_getD_eq_zero (hF : F.Lawful) (hp : IsRow F n p) (hs : isElem F.q s = true)
    (hr : AreRows F n rows) (hinv : gmul F (p.getD col 0) s = 1) {x : Byte} {u : List Byte}
    (hx : isElem F.q x = true) (hu : IsRow F rows.length u)
    (hzero : (linComb F n (x :: u) (p :: rows)).getD col 0 = 0) : x = pivotSum F col s u rows := by
  have hsum := isElem_pivotSum hF hs hu hr (col := col)
  have hc := hr.clearColumn hF hp hs col
  have hu' : IsRow F (rows.map (clearColumn F col p s)).length u := by rwa [List.length_map]
  have hcomb : linComb F n (x :: u) (p :: rows) =
      vadd (scale F (gadd x (pivotSum F col s u rows)) p)
        (linComb F n u (rows.map (clearColumn F col p s))) := by
    rw [linComb_cons, linComb_clearColumn hF hp hs hu hr, linComb_cons, scale_gadd hF hx hsum hp,
      vadd_assoc, ← vadd_assoc (scale F (pivotSum F col s u rows) p), vadd_self,
      (hp.scale hF hsum).1, zeroVec_vadd (isRow_linComb hF hu hr).1]
  have hcol : (linComb F n u (rows.map (clearColumn F col p s))).getD col 0 = 0 := by
    refine getD_linComb_of_zero hF hu' hc fun v hv => ?_
    obtain ⟨w, hw, rfl⟩ := List.mem_map.1 hv
    exact getD_clearColumn hF hp hs (hr w hw) hinv
  have hd := isElem_gadd hx hsum
  have hp0 : p.getD col 0 ≠ 0 := fun h => by
    rw [h, hF.zero_mul hs] at hinv
    exact absurd hinv (by decide)
  rw [hcomb, getD_vadd (hp.scale hF hd).1 (isRow_linComb hF hu' hc).1, hcol, gadd_zero,
    getD_scale hF hd] at hzero
  exact gadd_eq_zero_iff.1 (hF.eq_zero_of_mul hd (hp.getD_elem col) hp0 hzero)

theorem pivotSum_zeroVec (hF : F.Lawful) (hs : isElem F.q s = true) (hr : AreRows F n rows) :
    pivotSum F col s (zeroVec rows.length) rows = 0 := by
  induction rows with
  | nil => rfl
  | cons v rows ih =>
    obtain ⟨hv, hr⟩ := areRows_cons.1 hr
    show gadd (gmul F 0 _) (pivotSum F col s (zeroVec rows.length) rows) = 0
    rw [ih hr, hF.zero_mul (hF.mul_closed _ _ (hv.getD_elem col) hs), gadd_zero]

/-- Clearing a column with a pivot keeps independence, both ways. -/
theorem independent_clearColumn_iff (hF : F.Lawful) (hp : IsRow F n p) (hs : isElem F.q s = true)
    (hr : AreRows F n rows) (hinv : gmul F (p.getD col 0) s = 1) :
    Independent F n (rows.map (clearColumn F col p s)) ↔ Independent F n (p :: rows) := by
  constructor
  · intro h u hlen hall hzero
    match u, hlen with
    | x :: u, hlen =>
      obtain ⟨hx, hu⟩ := isRow_cons.1 (show IsRow F (rows.length + 1) (x :: u) from ⟨hlen, hall⟩)
      have hxs : x = pivotSum F col s u rows :=
        eq_pivotSum_of_getD_eq_zero hF hp hs hr hinv hx hu (by rw [hzero]; exact getD_zeroVec n col)
      have hu0 : u = zeroVec rows.length := by
        have h0 := h u (by rw [List.length_map, hu.1]) hu.2
          (by rw [linComb_clearColumn hF hp hs hu hr, ← hxs, hzero])
        rwa [List.length_map] at h0
      rw [hxs, hu0, pivotSum_zeroVec hF hs hr]
      rfl
  · intro h u hlen hall hzero
    rw [List.length_map] at hlen ⊢
    have hu : IsRow F rows.length u := ⟨hlen, hall⟩
    have hrow : IsRow F (rows.length + 1) (pivotSum F col s u rows :: u) :=
      isRow_cons.2 ⟨isElem_pivotSum hF hs hu hr, hu⟩
    have h0 := h _ hrow.1 hrow.2 (by rw [← linComb_clearColumn hF hp hs hu hr, hzero])
    exact (List.cons.inj h0).2

/-- What the pivot row and the rows span and is 0 in the pivot's column, the cleared rows span. -/
theorem InSpan.clearColumn (hF : F.Lawful) (hp : IsRow F n p) (hs : isElem F.q s = true)
    (hr : AreRows F n rows) (hinv : gmul F (p.getD col 0) s = 1) {v : List Byte}
    (hv : InSpan F n (p :: rows) v) (hzero : v.getD col 0 = 0) :
    InSpan F n (rows.map (clearColumn F col p s)) v := by
  obtain ⟨u, hu, rfl⟩ := hv
  match u, hu with
  | x :: u, hu =>
    obtain ⟨hx, hu⟩ := isRow_cons.1 hu
    refine ⟨u, by rwa [List.length_map], ?_⟩
    rw [linComb_clearColumn hF hp hs hu hr,
      ← eq_pivotSum_of_getD_eq_zero hF hp hs hr hinv hx hu hzero]

end pivot

/-! ## Finding a pivot -/

theorem findPivot_eq_none {col : Nat} {rows : List (List Byte)} :
    findPivot col rows = none ↔ ∀ v ∈ rows, v.getD col 0 = 0 := by
  induction rows with
  | nil => simp [findPivot]
  | cons v rows ih =>
    rw [findPivot, List.forall_mem_cons]
    split
    · next h => exact iff_of_false (by simp) fun h' => h h'.1
    · next h => rw [Option.map_eq_none_iff, ih, and_iff_right (not_not.1 h)]

theorem findPivot_eq_some {col : Nat} {rows others : List (List Byte)} {p : List Byte}
    (h : findPivot col rows = some (p, others)) :
    p.getD col 0 ≠ 0 ∧ ∃ pre post, rows = pre ++ p :: post ∧ others = pre ++ post := by
  induction rows generalizing others with
  | nil => cases h
  | cons v rows ih =>
    rw [findPivot] at h
    split at h
    · next h0 =>
      cases h
      exact ⟨h0, [], rows, rfl, rfl⟩
    · obtain ⟨⟨p', others'⟩, hfind, heq⟩ := Option.map_eq_some_iff.1 h
      cases heq
      obtain ⟨h0, pre, post, rfl, rfl⟩ := ih hfind
      exact ⟨h0, v :: pre, post, rfl, rfl⟩

/-! ## Rank -/

theorem rankCols_le (F : Gf) (cols : List Nat) (rows : List (List Byte)) :
    rankCols F cols rows ≤ cols.length := by
  induction cols generalizing rows with
  | nil => exact Nat.le_refl 0
  | cons col cols ih =>
    rw [rankCols, List.length_cons]
    split
    · exact (ih rows).trans (Nat.le_succ _)
    · exact (Nat.add_comm ..).trans_le (Nat.succ_le_succ (ih _))

/-- The rank is that of some rows among them that are independent. -/
theorem exists_independent (hF : F.Lawful) {n : Nat} (cols : List Nat) {rows : List (List Byte)}
    (hr : AreRows F n rows) :
    ∃ sub, sub.Sublist rows ∧ Independent F n sub ∧ sub.length = rankCols F cols rows := by
  induction cols generalizing rows with
  | nil => exact ⟨[], List.nil_sublist _, independent_nil F n, rfl⟩
  | cons col cols ih =>
    rw [rankCols]
    split
    · exact ih hr
    · next p others hfind =>
      obtain ⟨hp0, pre, post, rfl, rfl⟩ := findPivot_eq_some hfind
      obtain ⟨hpre, hcons⟩ := areRows_append.1 hr
      obtain ⟨hp, hpost⟩ := areRows_cons.1 hcons
      have hothers := areRows_append.2 ⟨hpre, hpost⟩
      obtain ⟨hs, hinv⟩ := hF.inverse _ (hp.getD_elem col) hp0
      obtain ⟨sub', hsub', hind, hlen⟩ := ih (hothers.clearColumn hF hp hs col)
      obtain ⟨sub, hsub, rfl⟩ := List.sublist_map_iff.1 hsub'
      obtain ⟨s1, s2, rfl, h1, h2⟩ := List.sublist_append_iff.1 hsub
      have hsubr : AreRows F n (s1 ++ s2) := fun v hv => hothers v (hsub.subset hv)
      refine ⟨s1 ++ p :: s2, h1.append (h2.cons_cons p),
        independent_middle.2 ((independent_clearColumn_iff hF hp hs hsubr hinv).1 hind), ?_⟩
      rw [← hlen]
      simp only [List.length_append, List.length_cons, List.length_map]
      omega

/-- Rows that are 0 in every column but these. -/
def ZeroOutside (cols : List Nat) (rows : List (List Byte)) : Prop :=
  ∀ v ∈ rows, ∀ j, j ∉ cols → v.getD j 0 = 0

/-- Of what rows span, no more vectors than the rank are independent (the exchange argument: a pivot of the
rows clears one vector at most). -/
theorem length_le_rankCols (hF : F.Lawful) {n : Nat} (cols : List Nat) {rows xs : List (List Byte)}
    (hr : AreRows F n rows) (hz : ZeroOutside cols rows) (hspan : ∀ x ∈ xs, InSpan F n rows x)
    (hind : Independent F n xs) : xs.length ≤ rankCols F cols rows := by
  induction cols generalizing rows xs with
  | nil =>
    rw [hind.eq_nil hF fun x hx => ?_]
    · exact Nat.zero_le _
    · obtain ⟨u, hu, rfl⟩ := hspan x hx
      have hlen := (isRow_linComb hF hu hr).1
      refine eq_of_length_of_getD (hlen.trans (length_zeroVec n).symm) fun j => ?_
      rw [getD_linComb_of_zero hF hu hr fun v hv => hz v hv j List.not_mem_nil, getD_zeroVec]
  | cons col cols ih =>
    rw [rankCols]
    split
    · next hnone =>
      refine ih hr (fun v hv j hj => ?_) hspan hind
      by_cases hc : j = col
      · exact hc ▸ findPivot_eq_none.1 hnone v hv
      · exact hz v hv j fun hm => (List.mem_cons.1 hm).elim hc hj
    · next p others hfind =>
      obtain ⟨hp0, pre, post, rfl, rfl⟩ := findPivot_eq_some hfind
      obtain ⟨hpre, hcons⟩ := areRows_append.1 hr
      obtain ⟨hp, hpost⟩ := areRows_cons.1 hcons
      have hothers := areRows_append.2 ⟨hpre, hpost⟩
      obtain ⟨hs, hinv⟩ := hF.inverse _ (hp.getD_elem col) hp0
      have hz' : ZeroOutside cols ((pre ++ post).map
          (clearColumn F col p (ginv F (p.getD col 0)))) := by
        intro v hv j hj
        obtain ⟨w, hw, rfl⟩ := List.mem_map.1 hv
        by_cases hc : j = col
        · subst hc
          exact getD_clearColumn hF hp hs (hothers w hw) hinv
        · have hj' : j ∉ col :: cols := fun hm => (List.mem_cons.1 hm).elim hc hj
          have hm := hF.mul_closed _ _ ((hothers w hw).getD_elem col) hs
          have hwz : w.getD j 0 = 0 := hz w (by
            simp only [List.mem_append, List.mem_cons] at hw ⊢
            tauto) j hj'
          rw [Machine.clearColumn, getD_vadd (hothers w hw).1 (hp.scale hF hm).1, hwz, getD_scale hF hm,
            hz p (by simp) j hj', hF.mul_zero hm, gadd_zero]
      have hcr := hothers.clearColumn hF hp hs col
      have hspan' : ∀ x, InSpan F n (pre ++ p :: post) x → x.getD col 0 = 0 →
          InSpan F n ((pre ++ post).map (clearColumn F col p (ginv F (p.getD col 0)))) x :=
        fun x hx h0 => (inSpan_middle hx).clearColumn hF hp hs hothers hinv h0
      cases hfx : findPivot col xs with
      | none =>
        have := ih hcr hz' (fun x hx => hspan' x (hspan x hx) (findPivot_eq_none.1 hfx x hx)) hind
        omega
      | some r =>
        obtain ⟨y, ys⟩ := r
        obtain ⟨hy0, xpre, xpost, rfl, rfl⟩ := findPivot_eq_some hfx
        have hxs : ∀ x ∈ y :: (xpre ++ xpost), InSpan F n (pre ++ p :: post) x := fun x hx =>
          hspan x (by
            simp only [List.mem_append, List.mem_cons] at hx ⊢
            tauto)
        obtain ⟨hyspan, hysspan⟩ := List.forall_mem_cons.1 hxs
        have hy := hyspan.isRow hF hr
        have hys : AreRows F n (xpre ++ xpost) := fun x hx => (hysspan x hx).isRow hF hr
        obtain ⟨ht, htinv⟩ := hF.inverse _ (hy.getD_elem col) hy0
        have := ih hcr hz' (xs := (xpre ++ xpost).map (clearColumn F col y (ginv F (y.getD col 0))))
          (fun x hx => by
            obtain ⟨w, hw, rfl⟩ := List.mem_map.1 hx
            have hm := hF.mul_closed _ _ ((hys w hw).getD_elem col) ht
            exact hspan' _ ((hysspan w hw).vadd hF hr (hyspan.scale hF hr hm))
              (getD_clearColumn hF hy ht (hys w hw) htinv))
          ((independent_clearColumn_iff hF hy ht hys htinv).2 (independent_middle.1 hind))
        simp only [List.length_map, List.length_append, List.length_cons] at this ⊢
        omega

theorem inSpan_of_mem (hF : F.Lawful) {n : Nat} {rows : List (List Byte)} {v : List Byte}
    (hr : AreRows F n rows) (hv : v ∈ rows) : InSpan F n rows v := by
  induction rows with
  | nil => cases hv
  | cons w rows ih =>
    obtain ⟨hw, hrest⟩ := areRows_cons.1 hr
    rcases List.mem_cons.1 hv with rfl | hv
    · refine ⟨1 :: zeroVec rows.length, isRow_cons.2 ⟨hF.one_elem, isRow_zeroVec ..⟩, ?_⟩
      rw [linComb_cons, scale_one hF hw, linComb_zeroVec hF hrest, vadd_zeroVec hw.1]
    · obtain ⟨u, hu, rfl⟩ := ih hrest hv
      refine ⟨0 :: u, isRow_cons.2 ⟨isElem_zero _, hu⟩, ?_⟩
      rw [linComb_cons, scale_zero hF hw, zeroVec_vadd (isRow_linComb hF hu hrest).1]

theorem zeroOutside_range {n : Nat} {rows : List (List Byte)} (hr : AreRows F n rows) :
    ZeroOutside (List.range n) rows := by
  intro v hv j hj
  have hlen := (hr v hv).1
  exact List.getD_eq_default _ _ (by
    rw [hlen]
    exact Nat.not_lt.1 fun h => hj (List.mem_range.2 h))

section
variable {n : Nat} {rows : List (List Byte)}

/-- Of what rows span, no more vectors than RANK are independent. -/
theorem length_le_matRank (hF : F.Lawful) (hr : AreRows F n rows) {xs : List (List Byte)}
    (hspan : ∀ x ∈ xs, InSpan F n rows x) (hind : Independent F n xs) :
    xs.length ≤ matRank F n rows :=
  length_le_rankCols hF _ hr (zeroOutside_range hr) hspan hind

theorem matRank_le_length (hF : F.Lawful) (hr : AreRows F n rows) : matRank F n rows ≤ rows.length := by
  obtain ⟨sub, hsub, -, hlen⟩ := exists_independent hF (List.range n) hr
  exact hlen.symm.trans_le hsub.length_le

theorem matRank_eq_length_iff (hF : F.Lawful) (hr : AreRows F n rows) :
    matRank F n rows = rows.length ↔ Independent F n rows := by
  constructor
  · intro h
    obtain ⟨sub, hsub, hind, hlen⟩ := exists_independent hF (List.range n) hr
    exact hsub.eq_of_length (hlen.trans h) ▸ hind
  · exact fun h => (matRank_le_length hF hr).antisymm
      (length_le_matRank hF hr (fun _ hx => inSpan_of_mem hF hr hx) h)

/-- Settles O37, by a pivot's two facts (`exists_independent`, `length_le_matRank`). -/
theorem rankIsIndependence : Obligations.RankIsIndependence := by
  intro F c rows hF ⟨_, hr⟩
  refine ⟨le_min (matRank_le_length hF hr) ?_, exists_independent hF _ hr, fun sub hsub hind => ?_,
    matRank_eq_length_iff hF hr, fun v hlen hall hind => ?_⟩
  · exact (rankCols_le ..).trans_eq List.length_range
  · exact length_le_matRank hF hr (fun _ hx => inSpan_of_mem hF hr (hsub.subset hx)) hind
  · have hv : IsRow F c v := ⟨hlen, hall⟩
    have happ : AreRows F c (rows ++ [v]) :=
      areRows_append.2 ⟨hr, areRows_cons.2 ⟨hv, List.forall_mem_nil _⟩⟩
    have hcount : indep F c rows v = true ↔ matRank F c (rows ++ [v]) = (rows ++ [v]).length := by
      rw [indep, beq_iff_eq, List.length_append, List.length_singleton]
    rw [hcount, matRank_eq_length_iff hF happ, independent_middle, List.append_nil,
      independent_cons_iff hF hv hr hind]
    exact ⟨fun h u hu hall' heq => h ⟨u, ⟨hu, hall'⟩, heq⟩, fun h ⟨u, ⟨hu, hall'⟩, heq⟩ => h u hu hall' heq⟩

end

end

end Sys2Proof.Machine
end

section
/-!
PROOFS. The inverse of a matrix and combinations of payloads (44_gf R207, R208, R210 to R213, 46_rlnc R287,
R291). Gauss-Jordan keeps two things of its augmented rows (`JordanAt`): the right half of each combines the
matrix's rows to its left half, and the columns done read as those of the identity.
-/

namespace Sys2Proof.Machine

/-! ## The identity matrix -/

theorem unitVec_succ (n i : Nat) : unitVec (n + 1) (i + 1) = 0 :: unitVec n i := by
  simp [unitVec, List.range_succ_eq_map, Function.comp_def]

theorem unitVec_zero (n : Nat) : unitVec (n + 1) 0 = 1 :: zeroVec n := by
  simp [unitVec, List.range_succ_eq_map, zeroVec, Function.comp_def, List.map_const']

@[simp] theorem length_identity (n : Nat) : (identity n).length = n := by simp [identity]

theorem getElem_identity {n i : Nat} (h : i < (identity n).length) : (identity n)[i] = unitVec n i := by
  simp [identity]

theorem identity_succ (n : Nat) :
    identity (n + 1) = (1 :: zeroVec n) :: (identity n).map (List.cons 0) := by
  simp [identity, List.range_succ_eq_map, unitVec_zero, Function.comp_def, unitVec_succ]

theorem getD_unitVec {n i j : Nat} (hj : j < n) : (unitVec n i).getD j 0 = if j = i then 1 else 0 := by
  simp [unitVec, List.getD_eq_getElem?_getD, hj]

section
variable {F : Gf}

theorem isRow_unitVec (hF : F.Lawful) (n i : Nat) : IsRow F n (unitVec n i) := by
  refine ⟨by simp [unitVec], List.all_eq_true.2 fun x hx => ?_⟩
  obtain ⟨j, -, rfl⟩ := List.mem_map.1 hx
  split
  · exact hF.one_elem
  · exact isElem_zero _

theorem areRows_identity (hF : F.Lawful) (n : Nat) : AreRows F n (identity n) := by
  intro v hv
  obtain ⟨i, -, rfl⟩ := List.mem_map.1 hv
  exact isRow_unitVec hF n i

/-- A row of the identity picks a row. -/
theorem linComb_unitVec (hF : F.Lawful) {n i : Nat} {rows : List (List Byte)} (hr : AreRows F n rows)
    (hi : i < rows.length) : linComb F n (unitVec rows.length i) rows = rows[i] := by
  induction rows generalizing i with
  | nil => cases hi
  | cons v rows ih =>
    obtain ⟨hv, hr⟩ := areRows_cons.1 hr
    cases i with
    | zero =>
      rw [List.length_cons, unitVec_zero, linComb_cons, scale_one hF hv, linComb_zeroVec hF hr,
        vadd_zeroVec hv.1, List.getElem_cons_zero]
    | succ i =>
      have hi' : i < rows.length := Nat.lt_of_succ_lt_succ hi
      rw [List.length_cons, unitVec_succ, linComb_cons, scale_zero hF hv, ih hr hi',
        zeroVec_vadd (hr _ (List.getElem_mem hi')).1, List.getElem_cons_succ]

theorem linComb_map_cons_zero (hF : F.Lawful) {n : Nat} {u : List Byte} {rows : List (List Byte)}
    (hu : IsRow F rows.length u) :
    linComb F (n + 1) u (rows.map (List.cons 0)) = 0 :: linComb F n u rows := by
  induction rows generalizing u with
  | nil =>
    rw [List.map_nil, linComb_nil, linComb_nil]
    rfl
  | cons v rows ih =>
    match u, hu with
    | x :: u, hu =>
      obtain ⟨hx, hu⟩ := isRow_cons.1 hu
      rw [List.map_cons, linComb_cons, linComb_cons, ih hu]
      show gadd (gmul F x 0) 0 :: vadd (scale F x v) (linComb F n u rows) = _
      rw [hF.mul_zero hx, gadd_zero]

theorem linComb_identity (hF : F.Lawful) {n : Nat} {u : List Byte} (hu : IsRow F n u) :
    linComb F n u (identity n) = u := by
  induction n generalizing u with
  | zero =>
    obtain rfl := List.length_eq_zero_iff.1 hu.1
    rfl
  | succ n ih =>
    match u, hu with
    | x :: u, hu =>
      obtain ⟨hx, hu⟩ := isRow_cons.1 hu
      have hu' : IsRow F (identity n).length u := (length_identity n).symm ▸ hu
      rw [identity_succ, linComb_cons, linComb_map_cons_zero hF hu', ih hu]
      show gadd (gmul F x 1) 0 :: vadd (scale F x (zeroVec n)) u = _
      rw [hF.mul_one x hx, gadd_zero, scale_zeroVec hF hx, zeroVec_vadd hu.1]

theorem independent_identity (hF : F.Lawful) (n : Nat) : Independent F n (identity n) := by
  intro u hlen hall hzero
  rw [length_identity] at hlen ⊢
  rwa [linComb_identity hF ⟨hlen, hall⟩] at hzero

/-- Independent rows have one combination for each vector. -/
theorem Independent.inj (hF : F.Lawful) {n : Nat} {rows : List (List Byte)} (hr : AreRows F n rows)
    (hind : Independent F n rows) {u w : List Byte} (hu : IsRow F rows.length u)
    (hw : IsRow F rows.length w) (h : linComb F n u rows = linComb F n w rows) : u = w := by
  refine eq_of_vadd_eq_zero hu.1 hw.1 (hind _ (hu.vadd hw).1 (hu.vadd hw).2 ?_)
  rw [linComb_vadd hF hu hw hr, h, vadd_self, (isRow_linComb hF hw hr).1]

/-! ## Products -/

section
variable {n : Nat} {a b c : List (List Byte)}

theorem length_matMul (F : Gf) (n : Nat) (a b : List (List Byte)) : (matMul F n a b).length = a.length :=
  List.length_map _

theorem areRows_matMul (hF : F.Lawful) (hb : AreRows F b.length a) (hc : AreRows F n b) :
    AreRows F n (matMul F n a b) := by
  intro v hv
  obtain ⟨w, hw, rfl⟩ := List.mem_map.1 hv
  exact isRow_linComb hF (hb w hw) hc

theorem matMul_assoc (hF : F.Lawful) {m : Nat} (ha : AreRows F b.length a) (hb : AreRows F m b)
    (hc : AreRows F n c) (hm : c.length = m) :
    matMul F n a (matMul F n b c) = matMul F n (matMul F m a b) c := by
  simp only [matMul, List.map_map]
  exact List.map_congr_left fun u hu => linComb_linComb hF (ha u hu) hb hc hm

theorem identity_matMul (hF : F.Lawful) (ha : AreRows F n a) :
    matMul F n (identity a.length) a = a := by
  refine List.ext_getElem (by simp [matMul]) fun i hi hi' => ?_
  simp only [matMul, List.getElem_map, getElem_identity, linComb_unitVec hF ha hi']

theorem matMul_identity (hF : F.Lawful) (ha : AreRows F n a) : matMul F n a (identity n) = a :=
  (List.map_congr_left fun u hu => linComb_identity hF (ha u hu)).trans (List.map_id a)

/-- Factors on the left of independent rows cancel. -/
theorem Independent.matMul_inj (hF : F.Lawful) (hr : AreRows F n c) (hind : Independent F n c)
    (ha : AreRows F c.length a) (hb : AreRows F c.length b) (h : matMul F n a c = matMul F n b c) :
    a = b := by
  have hlen : a.length = b.length := by
    rw [← length_matMul F n a c, h, length_matMul]
  refine List.ext_getElem hlen fun i hi hi' => ?_
  refine hind.inj hF hr (ha _ (List.getElem_mem hi)) (hb _ (List.getElem_mem hi')) ?_
  have hrow := List.getElem_of_eq h (by rwa [length_matMul] : i < _)
  simpa only [matMul, List.getElem_map] using hrow

/-- Rows with a left inverse have full rank: they span the identity's rows. -/
theorem le_matRank_of_leftInverse (hF : F.Lawful) (ha : AreRows F n a) (hb : AreRows F a.length b)
    (h : matMul F n b a = identity n) : n ≤ matRank F n a := by
  have hle := length_le_matRank hF ha (xs := identity n) (fun x hx => ?_) (independent_identity hF n)
  · rwa [length_identity] at hle
  · rw [← h] at hx
    obtain ⟨u, hu, rfl⟩ := List.mem_map.1 hx
    exact ⟨u, hb u hu, rfl⟩

end

/-! ## Gauss-Jordan -/

section
variable {n : Nat} {a : List (List Byte)}

/-- The augmented row: its right half combines the matrix's rows to its left half. -/
def SoundRow (F : Gf) (n : Nat) (a : List (List Byte)) (r : List Byte) : Prop :=
  IsRow F (n + n) r ∧ linComb F n (r.drop n) a = r.take n

theorem IsRow.take {m : Nat} {r : List Byte} (h : IsRow F (n + m) r) : IsRow F n (r.take n) :=
  ⟨by simp [h.1], List.all_eq_true.2 fun _ hx => h.elem (List.mem_of_mem_take hx)⟩

theorem IsRow.drop {m : Nat} {r : List Byte} (h : IsRow F (n + m) r) : IsRow F m (r.drop n) :=
  ⟨by simp [h.1], List.all_eq_true.2 fun _ hx => h.elem (List.mem_of_mem_drop hx)⟩

theorem take_vadd (v w : List Byte) : (vadd v w).take n = vadd (v.take n) (w.take n) :=
  List.take_zipWith

theorem drop_vadd (v w : List Byte) : (vadd v w).drop n = vadd (v.drop n) (w.drop n) :=
  List.drop_zipWith

theorem take_scale (s : Byte) (v : List Byte) : (scale F s v).take n = scale F s (v.take n) :=
  List.map_take.symm

theorem drop_scale (s : Byte) (v : List Byte) : (scale F s v).drop n = scale F s (v.drop n) :=
  List.map_drop.symm

theorem SoundRow.vadd (hF : F.Lawful) (ha : AreRows F n a) (hn : a.length = n) {r t : List Byte}
    (hr : SoundRow F n a r) (ht : SoundRow F n a t) : SoundRow F n a (vadd r t) := by
  refine ⟨hr.1.vadd ht.1, ?_⟩
  rw [drop_vadd, take_vadd, linComb_vadd hF (hn.symm ▸ hr.1.drop) (hn.symm ▸ ht.1.drop) ha, hr.2, ht.2]

theorem SoundRow.scale (hF : F.Lawful) (ha : AreRows F n a) (hn : a.length = n) {s : Byte}
    {r : List Byte} (hs : isElem F.q s = true) (hr : SoundRow F n a r) :
    SoundRow F n a (scale F s r) := by
  refine ⟨hr.1.scale hF hs, ?_⟩
  rw [drop_scale, take_scale, linComb_scale hF hs (hn.symm ▸ hr.1.drop) ha, hr.2]

theorem SoundRow.clearColumn (hF : F.Lawful) (ha : AreRows F n a) (hn : a.length = n) {s : Byte}
    {p r : List Byte} (hs : isElem F.q s = true) (hp : SoundRow F n a p) (hr : SoundRow F n a r)
    (col : Nat) : SoundRow F n a (clearColumn F col p s r) :=
  hr.vadd hF ha hn (hp.scale hF ha hn (hF.mul_closed _ _ (hr.1.getD_elem col) hs))

theorem getD_take {v : List Byte} {j : Nat} (hj : j < n) : (v.take n).getD j 0 = v.getD j 0 := by
  simp [List.getD_eq_getElem?_getD, hj]

theorem take_clearColumn {col : Nat} (hc : col < n) (p v : List Byte) (s : Byte) :
    (clearColumn F col p s v).take n = clearColumn F col (p.take n) s (v.take n) := by
  rw [clearColumn, take_vadd, take_scale, clearColumn, getD_take hc]

/-- Clearing with the normalised pivot row, as Gauss-Jordan does, is clearing with the pivot row. -/
theorem clearColumn_scale (hF : F.Lawful) {m col : Nat} {p v : List Byte} {s : Byte}
    (hp : IsRow F m p) (hs : isElem F.q s = true) (hv : IsRow F m v) :
    clearColumn F col (scale F s p) 1 v = clearColumn F col p s v := by
  rw [clearColumn, hF.mul_one _ (hv.getD_elem col), scale_scale hF (hv.getD_elem col) hs hp]
  rfl

/-- Where the pivot row is 0, clearing changes nothing. -/
theorem getD_clearColumn_of_zero (hF : F.Lawful) {m col j : Nat} {p v : List Byte} {s : Byte}
    (hp : IsRow F m p) (hs : isElem F.q s = true) (hv : IsRow F m v) (hj : p.getD j 0 = 0) :
    (clearColumn F col p s v).getD j 0 = v.getD j 0 := by
  have hm := hF.mul_closed _ _ (hv.getD_elem col) hs
  rw [clearColumn, getD_vadd hv.1 (hp.scale hF hm).1, getD_scale hF hm, hj, hF.mul_zero hm, gadd_zero]

/-- Gauss-Jordan before column i: i rows are done, and the columns before i read as those of the identity. -/
structure JordanAt (F : Gf) (n : Nat) (a : List (List Byte)) (i : Nat)
    (finished rest : List (List Byte)) : Prop where
  length_finished : finished.length = i
  length_rest : i + rest.length = n
  sound_finished : ∀ r ∈ finished, SoundRow F n a r
  sound_rest : ∀ r ∈ rest, SoundRow F n a r
  unit : ∀ m r, finished[m]? = some r → ∀ j < i, r.getD j 0 = if j = m then 1 else 0
  clear : ∀ r ∈ rest, ∀ j < i, r.getD j 0 = 0

theorem JordanAt.step (hF : F.Lawful) (ha : AreRows F n a) (hn : a.length = n) {i : Nat}
    {fin rest others : List (List Byte)} {p : List Byte} (h : JordanAt F n a i fin rest)
    (hfind : findPivot i rest = some (p, others)) :
    JordanAt F n a (i + 1)
      (fin.map (clearColumn F i (scale F (ginv F (p.getD i 0)) p) 1) ++
        [scale F (ginv F (p.getD i 0)) p])
      (others.map (clearColumn F i (scale F (ginv F (p.getD i 0)) p) 1)) := by
  obtain ⟨hlf, hlr, hsf, hsr, hunit, hclear⟩ := h
  obtain ⟨hp0, pre, post, rfl, rfl⟩ := findPivot_eq_some hfind
  have hp : SoundRow F n a p := hsr p (by simp)
  have hother : ∀ r ∈ pre ++ post, r ∈ pre ++ p :: post := fun r hr => by
    simp only [List.mem_append, List.mem_cons] at hr ⊢
    tauto
  obtain ⟨hs, hinv⟩ := hF.inverse _ (hp.1.getD_elem i) hp0
  have hrow := hp.scale hF ha hn hs
  have hpivot : (scale F (ginv F (p.getD i 0)) p).getD i 0 = 1 := by
    rw [getD_scale hF hs, hF.inv_mul (hp.1.getD_elem i) hp0]
  have hbefore : ∀ j < i, (scale F (ginv F (p.getD i 0)) p).getD j 0 = 0 := fun j hj => by
    rw [getD_scale hF hs, hclear p (by simp) j hj, hF.mul_zero hs]
  have hone : gmul F ((scale F (ginv F (p.getD i 0)) p).getD i 0) 1 = 1 := by
    rw [hpivot, hF.mul_one 1 hF.one_elem]
  generalize scale F (ginv F (p.getD i 0)) p = row at *
  have hrest : ∀ r, SoundRow F n a r → (clearColumn F i row 1 r).getD i 0 = 0 := fun r hr =>
    getD_clearColumn hF hrow.1 hF.one_elem hr.1 hone
  have hkeep : ∀ r, SoundRow F n a r → ∀ j < i, (clearColumn F i row 1 r).getD j 0 = r.getD j 0 :=
    fun r hr j hj => getD_clearColumn_of_zero hF hrow.1 hF.one_elem hr.1 (hbefore j hj)
  have hmap : ∀ l : List (List Byte), (∀ r ∈ l, SoundRow F n a r) →
      ∀ r ∈ l.map (clearColumn F i row 1), SoundRow F n a r := by
    intro l hl r hr
    obtain ⟨w, hw, rfl⟩ := List.mem_map.1 hr
    exact hrow.clearColumn hF ha hn hF.one_elem (hl w hw) i
  refine ⟨by simp [hlf], ?_, ?_, hmap _ fun r hr => hsr r (hother r hr), ?_, ?_⟩
  · simp only [List.length_map, List.length_append, List.length_cons] at hlr ⊢
    omega
  · intro r hr
    rcases List.mem_append.1 hr with hr | hr
    · exact hmap fin hsf r hr
    · exact List.mem_singleton.1 hr ▸ hrow
  · intro m r hr j hj
    rw [List.getElem?_append, List.length_map, hlf] at hr
    split at hr
    · next hm =>
      rw [List.getElem?_map, Option.map_eq_some_iff] at hr
      obtain ⟨w, hw, rfl⟩ := hr
      have hws := hsf w (List.mem_of_getElem? hw)
      rcases Nat.lt_succ_iff_lt_or_eq.1 hj with hj | rfl
      · rw [hkeep w hws j hj, hunit m w hw j hj]
      · rw [hrest w hws, if_neg (by omega)]
    · next hm =>
      obtain ⟨hm', rfl⟩ := List.getElem?_eq_some_iff.1 hr
      have hmi : m = i := by
        have := hm'
        simp only [List.length_singleton] at this
        omega
      subst hmi
      simp only [Nat.sub_self, List.getElem_cons_zero]
      rcases Nat.lt_succ_iff_lt_or_eq.1 hj with hj | rfl
      · rw [hbefore j hj, if_neg (by omega)]
      · rw [hpivot, if_pos rfl]
  · intro r hr j hj
    obtain ⟨w, hw, rfl⟩ := List.mem_map.1 hr
    have hws := hsr w (hother w hw)
    rcases Nat.lt_succ_iff_lt_or_eq.1 hj with hj | rfl
    · rw [hkeep w hws j hj, hclear w (hother w hw) j hj]
    · exact hrest w hws

/-- What Gauss-Jordan finds has the identity on the left. -/
theorem JordanAt.result (hF : F.Lawful) (ha : AreRows F n a) (hn : a.length = n) {m i : Nat}
    (hm : i + m = n) {fin rest out : List (List Byte)} (h : JordanAt F n a i fin rest)
    (hout : gaussJordan F (List.range' i m) fin rest = some out) : ∃ rest', JordanAt F n a n out rest' := by
  induction m generalizing i fin rest with
  | zero =>
    cases hout
    obtain rfl : i = n := hm
    exact ⟨rest, h⟩
  | succ m ih =>
    rw [List.range'_succ, gaussJordan] at hout
    split at hout
    · cases hout
    · next hfind => exact ih (by omega) (h.step hF ha hn hfind) hout

/-- Independent rows have a pivot in every column: without one in column i, the n - i rows left would be
independent in the n - i - 1 columns after it. -/
theorem JordanAt.isSome (hF : F.Lawful) (ha : AreRows F n a) (hn : a.length = n) {m i : Nat}
    (hm : i + m = n) {fin rest : List (List Byte)} (h : JordanAt F n a i fin rest)
    (hind : Independent F n (rest.map (List.take n))) :
    (gaussJordan F (List.range' i m) fin rest).isSome = true := by
  induction m generalizing i fin rest with
  | zero => rfl
  | succ m ih =>
    have htake : AreRows F n (rest.map (List.take n)) := by
      intro v hv
      obtain ⟨r, hr, rfl⟩ := List.mem_map.1 hv
      exact (h.sound_rest r hr).1.take
    have hi : i < n := by omega
    rw [List.range'_succ, gaussJordan]
    split
    · next hnone =>
      have hle := length_le_rankCols hF (List.range' (i + 1) m) htake (fun v hv j hj => ?_)
        (fun _ hx => inSpan_of_mem hF htake hx) hind
      · have hcols := rankCols_le F (List.range' (i + 1) m) (rest.map (List.take n))
        have hlen := h.length_rest
        rw [List.length_range'] at hcols
        rw [List.length_map] at hle
        omega
      · obtain ⟨r, hr, rfl⟩ := List.mem_map.1 hv
        rcases Nat.lt_or_ge j n with hjn | hjn
        · rw [getD_take hjn]
          rcases Nat.lt_trichotomy j i with hji | rfl | hji
          · exact h.clear r hr j hji
          · exact findPivot_eq_none.1 hnone r hr
          · exact absurd (List.mem_range'_1.2 ⟨hji, by omega⟩) hj
        · exact List.getD_eq_default _ _ (by
            rw [(h.sound_rest r hr).1.take.1]
            exact hjn)
    · next p others hfind =>
      refine ih (by omega) (h.step hF ha hn hfind) ?_
      obtain ⟨hp0, pre, post, rfl, rfl⟩ := findPivot_eq_some hfind
      have hp := h.sound_rest p (by simp)
      have hother : ∀ r ∈ pre ++ post, SoundRow F n a r := fun r hr => h.sound_rest r (by
        simp only [List.mem_append, List.mem_cons] at hr ⊢
        tauto)
      obtain ⟨hs, hinv⟩ := hF.inverse _ (hp.1.getD_elem i) hp0
      have heq : ((pre ++ post).map (clearColumn F i (scale F (ginv F (p.getD i 0)) p) 1)).map
          (List.take n) =
          ((pre ++ post).map (List.take n)).map (clearColumn F i (p.take n) (ginv F (p.getD i 0))) := by
        rw [List.map_map, List.map_map]
        refine List.map_congr_left fun r hr => ?_
        simp only [Function.comp_apply]
        rw [clearColumn_scale hF hp.1 hs (hother r hr).1, take_clearColumn hi]
      have hotherTake : AreRows F n ((pre ++ post).map (List.take n)) := by
        intro v hv
        obtain ⟨r, hr, rfl⟩ := List.mem_map.1 hv
        exact (hother r hr).1.take
      rw [heq, independent_clearColumn_iff hF hp.1.take hs hotherTake (by rwa [getD_take hi]),
        List.map_append, ← independent_middle]
      rwa [List.map_append, List.map_cons] at hind

/-- The rows Gauss-Jordan starts from. -/
theorem jordanAt_start (hF : F.Lawful) (ha : AreRows F n a) (hn : a.length = n) :
    JordanAt F n a 0 [] (List.zipWith (· ++ ·) a (identity n)) := by
  refine ⟨rfl, by simp [hn], List.forall_mem_nil _, fun r hr => ?_, fun m r hr => by simp at hr,
    fun _ _ j hj => absurd hj (Nat.not_lt_zero j)⟩
  obtain ⟨i, hi, rfl⟩ := List.mem_iff_getElem.1 hr
  have hia : i < a.length := by
    simp only [List.length_zipWith] at hi
    omega
  simp only [List.getElem_zipWith, getElem_identity]
  have hv := ha _ (List.getElem_mem hia)
  have hu := isRow_unitVec hF n i
  refine ⟨⟨by simp [hv.1, hu.1], by rw [List.all_append, hv.2, hu.2]; rfl⟩, ?_⟩
  rw [List.drop_left' hv.1, List.take_left' hv.1]
  subst hn
  exact linComb_unitVec hF ha hia

/-- What `matInv` finds is a left inverse. -/
theorem matInv_eq_some (hF : F.Lawful) (ha : AreRows F n a) (hn : a.length = n) {b : List (List Byte)}
    (h : matInv F n a = some b) :
    b.length = n ∧ AreRows F n b ∧ matMul F n b a = identity n := by
  rw [matInv, List.range_eq_range', Option.map_eq_some_iff] at h
  obtain ⟨out, hout, rfl⟩ := h
  obtain ⟨rest, hj⟩ := (jordanAt_start hF ha hn).result hF ha hn (Nat.zero_add n) hout
  refine ⟨by rw [List.length_map, hj.length_finished], fun v hv => ?_, ?_⟩
  · obtain ⟨r, hr, rfl⟩ := List.mem_map.1 hv
    exact (hj.sound_finished r hr).1.drop
  · refine List.ext_getElem (by simp [matMul, hj.length_finished]) fun i hi hi' => ?_
    have hio : i < out.length := by simpa [matMul] using hi
    have hs := hj.sound_finished _ (List.getElem_mem hio)
    simp only [matMul, List.getElem_map, getElem_identity, hs.2]
    refine eq_of_length_of_getD (hs.1.take.1.trans (isRow_unitVec hF n i).1.symm) fun j => ?_
    rcases Nat.lt_or_ge j n with hjn | hjn
    · rw [getD_take hjn, getD_unitVec hjn]
      exact hj.unit i _ (List.getElem?_eq_getElem hio) j hjn
    · rw [List.getD_eq_default _ _ (by rw [hs.1.take.1]; exact hjn),
        List.getD_eq_default _ _ (by rw [(isRow_unitVec hF n i).1]; exact hjn)]

theorem matInv_isSome (hF : F.Lawful) (ha : AreRows F n a) (hn : a.length = n)
    (hind : Independent F n a) : (matInv F n a).isSome = true := by
  rw [matInv, Option.isSome_map, List.range_eq_range']
  refine (jordanAt_start hF ha hn).isSome hF ha hn (Nat.zero_add n) ?_
  have heq : (List.zipWith (· ++ ·) a (identity n)).map (List.take n) = a := by
    refine List.ext_getElem (by simp [hn]) fun i hi hi' => ?_
    simp only [List.getElem_map, List.getElem_zipWith]
    exact List.take_left' (ha _ (List.getElem_mem hi')).1
  rwa [heq]

end

/-- Settles O38: `matInv` finds a left inverse, and independent rows let factors on their left cancel, so that
it is the only one and a right inverse too. -/
theorem inverseMatrixLaw : Obligations.InverseMatrixLaw := by
  intro F n a hF _ ⟨hn, ha⟩
  have ha : AreRows F n a := ha
  have hleft : ∀ b, isMatrix F.q n n b → matMul F n b a = identity n → n ≤ matRank F n a :=
    fun b ⟨_, hb⟩ => le_matRank_of_leftInverse hF ha (by rw [hn]; exact hb)
  refine ⟨fun hrank => ?_, fun hrank => ⟨?_, fun b hb h => ?_⟩⟩
  · have hind := (matRank_eq_length_iff hF ha).1 (hrank.trans hn.symm)
    obtain ⟨b, hinv⟩ := Option.isSome_iff_exists.1 (matInv_isSome hF ha hn hind)
    obtain ⟨hlen, hb, hba⟩ := matInv_eq_some hF ha hn hinv
    refine ⟨b, hinv, ⟨hlen, hb⟩, hba, ?_, fun b' ⟨_, hb'⟩ h => ?_⟩
    · have hab : AreRows F n (matMul F n a b) := areRows_matMul hF (hlen.symm ▸ ha) hb
      refine hind.matMul_inj hF ha (hn.symm ▸ hab) (hn.symm ▸ areRows_identity hF n) ?_
      have hid := identity_matMul hF ha
      rw [hn] at hid
      rw [← matMul_assoc hF (hlen.symm ▸ ha) hb ha hn, hba, matMul_identity hF ha, hid]
    · exact hind.matMul_inj hF ha (hn.symm ▸ hb') (hn.symm ▸ hb) (h.trans hba.symm)
  · rw [Option.eq_none_iff_forall_ne_some]
    intro b hinv
    obtain ⟨hlen, hb, hba⟩ := matInv_eq_some hF ha hn hinv
    exact absurd (hleft b ⟨hlen, hb⟩ hba) (Nat.not_le.2 hrank)
  · exact absurd (hleft b hb h) (Nat.not_le.2 hrank)

/-! ## Payloads -/

theorem foldl_gadd (l : List Byte) (z w : Byte) :
    l.foldl gadd (gadd z w) = gadd w (l.foldl gadd z) := by
  induction l generalizing z with
  | nil => exact gadd_comm z w
  | cons x l ih => rw [List.foldl_cons, List.foldl_cons, gadd_assoc, gadd_comm w x, ← gadd_assoc, ih]

theorem getD_linComb (hF : F.Lawful) {len j : Nat} {u : List Byte} {rows : List (List Byte)}
    (hu : IsRow F rows.length u) (hr : AreRows F len rows) :
    (linComb F len u rows).getD j 0 =
      (List.zipWith (fun c p => gmul F c (p.getD j 0)) u rows).foldl gadd 0 := by
  induction rows generalizing u with
  | nil => rw [linComb_nil, getD_zeroVec, List.zipWith_nil_right, List.foldl_nil]
  | cons v rows ih =>
    match u, hu with
    | x :: u, hu =>
      obtain ⟨hx, hu⟩ := isRow_cons.1 hu
      obtain ⟨hv, hr⟩ := areRows_cons.1 hr
      rw [linComb_cons, getD_vadd (hv.scale hF hx).1 (isRow_linComb hF hu hr).1, ih hu hr,
        getD_scale hF hx, List.zipWith_cons_cons, List.foldl_cons, foldl_gadd]

theorem maxLength_of_areRows {len : Nat} {rows : List (List Byte)} (hr : AreRows F len rows)
    (hne : rows = [] → len = 0) : maxLength rows = len := by
  obtain ⟨-, hmem⟩ := maxLength_spec rows
  by_cases h : rows = []
  · rw [h, hne h]
    rfl
  · obtain ⟨p, hp, hlen⟩ := hmem h
    rw [← hlen, (hr p hp).1]

/-- For payloads of one length, LCP is the combination of rows. -/
theorem lcp_eq_linComb (hF : F.Lawful) {len : Nat} {u : List Byte} {rows : List (List Byte)}
    (hu : IsRow F rows.length u) (hr : AreRows F len rows) (hne : rows = [] → len = 0) :
    lcp F u rows = linComb F len u rows := by
  have hmax := maxLength_of_areRows hr hne
  refine eq_of_length_of_getD ?_ fun j => ?_
  · rw [length_lcp, hmax, (isRow_linComb hF hu hr).1]
  · rcases Nat.lt_or_ge j len with hj | hj
    · rw [getD_linComb hF hu hr, lcp, hmax, List.getD_eq_getElem?_getD, List.getElem?_map,
        List.getElem?_range hj]
      rfl
    · rw [List.getD_eq_default _ _ (by rw [length_lcp, hmax]; exact hj),
        List.getD_eq_default _ _ (by rw [(isRow_linComb hF hu hr).1]; exact hj)]

/-- Combining packets combines their vectors. -/
theorem lcp_lcp (hF : F.Lawful) {k len : Nat} {u : List Byte} {rows t : List (List Byte)}
    (hu : IsRow F rows.length u) (hrows : AreRows F k rows) (ht : AreRows F len t) (hk : t.length = k)
    (hne : t = [] → len = 0) (hrne : rows ≠ []) :
    lcp F u (rows.map fun v => lcp F v t) = lcp F (linComb F k u rows) t := by
  subst hk
  have hmap : rows.map (fun v => lcp F v t) = rows.map fun v => linComb F len v t :=
    List.map_congr_left fun v hv => lcp_eq_linComb hF (hrows v hv) ht hne
  have hcomb : AreRows F len (rows.map fun v => linComb F len v t) := areRows_matMul hF hrows ht
  rw [hmap, lcp_eq_linComb hF (by rwa [List.length_map]) hcomb fun h => absurd (List.map_eq_nil_iff.1 h) hrne,
    lcp_eq_linComb hF (isRow_linComb hF hu hrows) ht hne, linComb_linComb hF hu hrows ht rfl]

/-- Settles O41, by `lcp_lcp` and the left inverse `matInv` finds. -/
theorem decodeRecoversOriginals : Obligations.DecodeRecoversOriginals := by
  intro F n len m t b hF hn1 ⟨hm, hmr⟩ ⟨ht, htr⟩ hinv
  have hmr : AreRows F n m := hmr
  have htr : AreRows F len t := htr
  obtain ⟨-, hb, hbm⟩ := matInv_eq_some hF hmr hm hinv
  have htne : t ≠ [] := List.ne_nil_of_length_pos (ht.symm ▸ hn1)
  have hmne : m ≠ [] := List.ne_nil_of_length_pos (hm.symm ▸ hn1)
  calc b.map (fun u => lcp F u (m.map fun v => lcp F v t))
      = (matMul F n b m).map fun v => lcp F v t := by
        rw [matMul, List.map_map]
        exact List.map_congr_left fun u hu =>
          lcp_lcp hF (hm.symm ▸ hb u hu) hmr htr ht (fun h => absurd h htne) hmne
    _ = matMul F len (identity n) t := by
        rw [hbm, matMul]
        refine List.map_congr_left fun v hv => lcp_eq_linComb hF ?_ htr fun h => absurd h htne
        exact ht.symm ▸ areRows_identity hF n v hv
    _ = t := by rw [← ht, identity_matMul hF htr]

/-- Settles O42: the payload by `lcp_lcp`; the vector of independent rows is 0 only for the zero draw. -/
theorem recodeIsValidCombination : Obligations.RecodeIsValidCombination := by
  intro F k len u rows t hF hu1 ⟨hlen, hrows⟩ ⟨ht, htr⟩ hu
  have hrows : AreRows F k rows := hrows
  have hrne : rows ≠ [] := List.ne_nil_of_length_pos (hlen.symm ▸ hu1)
  have hrow : IsRow F rows.length u := ⟨hlen.symm, hu⟩
  refine ⟨?_, fun hrank hany hzero => ?_⟩
  · by_cases h : t = []
    · subst h
      exact lcp_lcp (len := 0) hF hrow hrows (List.forall_mem_nil _) ht (fun _ => rfl) hrne
    · exact lcp_lcp hF hrow hrows htr ht (fun h' => absurd h' h) hrne
  · have hind := (matRank_eq_length_iff hF hrows).1 (hrank.trans hlen.symm)
    rw [hind u hrow.1 hrow.2 hzero] at hany
    obtain ⟨x, hx, hx0⟩ := List.any_eq_true.1 hany
    rw [List.eq_of_mem_replicate hx] at hx0
    exact absurd hx0 (by decide)

/-! ## The commands of the matrix engine -/

theorem length_toRows (c r : Nat) (es : List Byte) : (toRows c r es).length = r := by
  induction r generalizing es with
  | zero => rfl
  | succ r ih => rw [toRows, List.length_cons, ih]

/-- Elements cut into rows are a matrix of them. -/
theorem isMatrix_toRows {q c r : Nat} {es : List Byte} (hlen : es.length = r * c)
    (hall : es.all (isElem q) = true) : isMatrix q r c (toRows c r es) := by
  refine ⟨length_toRows c r es, ?_⟩
  induction r generalizing es with
  | zero => exact List.forall_mem_nil _
  | succ r ih =>
    rw [← List.take_append_drop c es, List.all_append, Bool.and_eq_true] at hall
    obtain ⟨htake, hdrop⟩ := hall
    rw [Nat.succ_mul] at hlen
    exact List.forall_mem_cons.2 ⟨⟨by rw [List.length_take]; omega, htake⟩,
      ih (by rw [List.length_drop]; omega) hdrop⟩

theorem elems_eq_true_iff {s : State} {es : List Byte} :
    s.elems es = true ↔ ∀ e ∈ es, e.toNat < 2 ^ s.qn := by
  simp [State.elems, isElem]

/-- Settles O39, from the rules; MAT_INV at full rank by O38. -/
theorem gfCommandsAnswer : Obligations.GfCommandsAnswer := by
  refine ⟨fun s x hs => ?_, fun s a hs => ?_, fun s x hs => ?_, fun s x hs hlen => ?_⟩
  · rw [hs.exec_eq rfl, rule, Args.ending_ok, gfMulBody]
    have hiff : s.elems [x.a, x.b] = true ↔ x.a.toNat < 2 ^ s.qn ∧ x.b.toNat < 2 ^ s.qn := by
      simp [elems_eq_true_iff]
    by_cases h : s.elems [x.a, x.b] = true
    · simp [h, hiff.1 h]
    · rw [if_neg fun h' => h (hiff.2 h'), if_pos (Bool.eq_false_iff.2 h)]
      rfl
  · rw [hs.exec_eq rfl, rule, Args.ending_ok, gfInvBody]
    have hiff : s.elems [a] = true ↔ a.toNat < 2 ^ s.qn := by simp [elems_eq_true_iff]
    by_cases h : s.elems [a] = true
    · rw [if_neg (Nat.not_le.2 (hiff.1 h)), if_neg (by rw [h]; decide)]
      split <;> rfl
    · rw [if_pos (Nat.not_lt.1 fun h' => h (hiff.2 h')), if_pos (Bool.eq_false_iff.2 h)]
      rfl
  · rw [hs.exec_eq rfl, rule, Args.ending_ok, matRankBody, State.elems]
    by_cases h : x.elems.all (isElem s.qn) = true
    · rw [if_pos h, if_neg (by rw [h]; decide)]
      rfl
    · rw [if_neg h, if_pos (Bool.eq_false_iff.2 h)]
      rfl
  · refine ⟨fun hbad => ?_, fun hn hall => ⟨fun hrank => ?_, fun hrank hF => ?_⟩⟩ <;>
      rw [hs.exec_eq rfl, rule, Args.ending_ok, matInvBody, State.elems]
    · rcases hbad with hn | hall
      · rw [if_pos hn]
        rfl
      · rw [if_pos hall, ite_self]
        rfl
    · rw [if_neg hn, if_neg (by rw [hall]; decide), if_pos hrank]
      rfl
    · have hpos : 1 ≤ x.n.toNat := Nat.pos_of_ne_zero fun h => hn (BitVec.eq_of_toNat_eq h)
      obtain ⟨b, hinv, hb, hba, -⟩ :=
        (inverseMatrixLaw s.gf _ _ hF hpos (isMatrix_toRows hlen hall)).1 hrank
      refine ⟨b, hb, hba, ?_⟩
      rw [if_neg hn, if_neg (by rw [hall]; decide), if_neg (Nat.not_lt.2 hrank.ge), hinv]
      rfl

end

end Sys2Proof.Machine
end

section
/-!
PROOFS. The bounds of the pool and the output queue (10_state R31, R34), and the commands that do not search:
POOL_INSERT with the pool off (45_pool R231) and OQ_POP_FRAME (45_pool R245).
-/

namespace Sys2Proof.Machine

/-! ## What a RUN command's rule works on -/

/-- A RUN command moves the oracle's side at most, or works on a flow, or is one of the three pool and timer
commands. -/
theorem rule_run_cases {i : Instr} (s : State) (hn : phaseNeed i = .run) :
    (∃ draws freeCount, (rule i s).left = { s with draws, freeCount }) ∨
      (∃ g, writesFlow i = some g) ∨ (∃ native a, i = .poolInsert native (.ok a)) ∨
      (∃ b oq, s.oq = b :: oq ∧ (rule i s).left = { s with oq }) ∨ ∃ t, i = .timeAdvance (.ok t) := by
  have same : (rule i s).left = s → ∃ draws freeCount, (rule i s).left = { s with draws, freeCount } :=
    fun h => ⟨s.draws, s.freeCount, h⟩
  by_cases hq : hasNoSideEffect i = true
  · exact .inl (same (rule_left_of_noSideEffect s hq))
  cases i with
  | timeAdvance o =>
    cases o with
    | ok t => exact .inr (.inr (.inr (.inr ⟨t, rfl⟩)))
    | bad bs => exact .inl (same rfl)
  | vecGen o =>
    cases o with
    | bad bs => exact .inl (same rfl)
    | ok n =>
      by_cases hz : n = 0
      · exact .inl (same (by rw [rule, Args.ending_ok, vecGenBody, if_pos hz]; rfl))
      · exact .inl ⟨s.draws.tail, s.freeCount + 1, by
          rw [rule, Args.ending_ok, vecGenBody, if_neg hz]; rfl⟩
  | poolInsert native o =>
    cases o with
    | ok a => exact .inr (.inr (.inl ⟨native, a, rfl⟩))
    | bad bs => exact .inl (same rfl)
  | oqPopFrame o =>
    cases o with
    | bad bs => exact .inl (same rfl)
    | ok a =>
      rw [rule, Args.ending_ok, oqPopFrameBody]
      split
      · exact .inl ⟨s.draws, s.freeCount, rfl⟩
      · split
        · exact .inl ⟨s.draws, s.freeCount, rfl⟩
        · next b oq hoq => exact .inr (.inr (.inr (.inl ⟨b, oq, hoq, rfl⟩)))
  | txPush o | encode o | rxPacket fwd o | decode o | recode o | changeFragment o =>
    cases o with
    | ok a => exact .inr (.inl ⟨_, rfl⟩)
    | bad bs => exact .inl (same rfl)
  | nop | regRead | cfgWrite | start => cases hn
  | hash | hdrBuildInter | hdrParseInter | hdrBuildIntra | hdrParseIntra | xorEnc | xorDec | gfMul | gfInv
  | matRank | matInv | poolStat | flowStat | flowRow => exact absurd rfl hq

/-! ## The pool within its bounds -/

section
variable {s t : State} {g : U16}

/-- A bucket of key g within the bounds of 10_state R31. -/
def State.BucketOk (s : State) (g : U16) (b : Bucket) : Prop :=
  b.items.length ≤ s.mbs.toNat ∧ ∀ it ∈ b.items, it.fk = g

/-- The pool's invariant in RUN. -/
def State.PoolRun (s : State) : Prop := s.PoolInv ∧ s.phase = .run

theorem State.PoolInv.bucketOk (h : s.PoolInv) {b : Bucket} (hb : Table.find g s.pool = some b) :
    s.BucketOk g b :=
  ⟨h.size _ (Table.mem_of_find hb), h.owner _ (Table.mem_of_find hb)⟩

/-- The pool and the queue alone decide, with two registers, the parameters and the phase. -/
theorem State.PoolRun.of_eq (h : s.PoolRun) (hpool : t.pool = s.pool) (hoq : t.oq = s.oq)
    (hmbs : t.mbs = s.mbs) (hmcp : t.mcp = s.mcp) (hpar : t.params = s.params)
    (hphase : t.phase = s.phase) : t.PoolRun := by
  obtain ⟨⟨h1, h2, h3, h4, h5, h6, h7, h8, h9⟩, hrun⟩ := h
  exact ⟨⟨hpool ▸ h1, hpool ▸ hmbs ▸ h2, hpool ▸ h3, hpool ▸ hpar ▸ h4, hoq ▸ hpar ▸ h5,
    hoq ▸ hmcp ▸ h6, hoq ▸ h7, hphase ▸ hmcp ▸ h8, hphase ▸ hpool ▸ hoq ▸ h9⟩, hphase.trans hrun⟩

/-- Another pool within the bounds. -/
theorem State.PoolRun.setPool (h : s.PoolRun) {pool : Table Bucket} (tseq : Nat)
    (hkeys : Table.wf pool = true) (hb : ∀ e ∈ pool, s.BucketOk e.1 e.2)
    (hlen : pool.length ≤ s.params.poolFlowsMax) : State.PoolRun { s with pool, tseq } := by
  obtain ⟨⟨-, -, -, -, h5, h6, h7, h8, -⟩, hrun⟩ := h
  exact ⟨⟨hkeys, fun e he => (hb e he).1, fun e he => (hb e he).2, hlen, h5, h6, h7, h8,
    fun hc => absurd (hrun.symm.trans hc) (by decide)⟩, hrun⟩

theorem State.PoolInv.bucketOk_of_mem (h : s.PoolInv) {e : U16 × Bucket} (he : e ∈ s.pool) :
    s.BucketOk e.1 e.2 := ⟨h.size e he, h.owner e he⟩

theorem State.PoolRun.put (h : s.PoolRun) {b : Bucket} (tseq : Nat) (hb : s.BucketOk g b)
    (hlen : (Table.find g s.pool).isSome = true ∨ s.pool.length < s.params.poolFlowsMax) :
    State.PoolRun { s with pool := Table.put g b s.pool, tseq } := by
  refine h.setPool tseq (Table.put_wf h.1.keys) (fun e he => ?_) ?_
  · rcases Table.mem_put he with rfl | he
    · exact hb
    · exact h.1.bucketOk_of_mem he
  · rw [Table.length_put g b h.1.keys]
    split
    · exact h.1.buckets
    · next hnone => exact hlen.resolve_left hnone

theorem State.PoolRun.erase (h : s.PoolRun) (g : U16) :
    State.PoolRun { s with pool := Table.erase g s.pool } :=
  h.setPool s.tseq (Table.erase_wf h.1.keys)
    (fun _ he => h.1.bucketOk_of_mem (Table.mem_erase he))
    ((Table.length_erase_le ..).trans h.1.buckets)

theorem State.PoolRun.armPool (h : s.PoolRun) (g : U16) : (s.armPool g).PoolRun := by
  rcases armPool_cases s g with ⟨-, heq⟩ | ⟨b, hb, heq⟩
  · rwa [heq]
  · rw [heq]
    exact h.put (s.tseq + 1) (show s.BucketOk g b from h.1.bucketOk hb) (.inl (by rw [hb]; rfl))

theorem State.PoolRun.takeHead (h : s.PoolRun) {it : Item} (ht : s.takeHead g = some (it, t)) :
    t.PoolRun := by
  obtain ⟨b, hb, -, ⟨-, rfl⟩ | ⟨y, ys, hr, rfl⟩⟩ := takeHead_cases ht
  · exact h.erase g
  · obtain ⟨hsize, howner⟩ := h.1.bucketOk hb
    have hitems : b.items = b.head :: y :: ys := by rw [Bucket.items, hr]
    rw [hitems] at hsize howner
    have hok : ∀ timer, s.BucketOk g { head := y, rest := ys, timer } := fun _ =>
      ⟨Nat.le_of_succ_le hsize, fun it hit => howner it (List.mem_cons_of_mem _ hit)⟩
    have hsome : (Table.find g s.pool).isSome = true := by rw [hb]; rfl
    have h1 := h.put (b := { b with head := y, rest := ys }) s.tseq (hok _) (.inl hsome)
    exact h1.put (s.tseq + 1) (hok _) (.inl (by rw [Table.find_put_self]; rfl))

theorem State.PoolRun.gather (h : s.PoolRun) (n : Nat) (gs : List U16) : (s.gather n gs).2.PoolRun := by
  induction gs generalizing n s with
  | nil => exact h
  | cons g gs ih =>
    rw [State.gather]
    split
    · exact h
    · split
      · exact ih h n
      · next ht => exact ih (h.takeHead ht) (n + 1)

/-- A batch within MCP keeps the queue's bounds: a full queue takes none. -/
theorem State.PoolRun.pushBatch (h : s.PoolRun) {first : Item} {others : List Item}
    (hlen : others.length + 1 ≤ max s.mcp.toNat 1) : (s.pushBatch first others).left.PoolRun := by
  rw [pushBatch_eq]
  split
  · exact h
  · next hroom =>
    obtain ⟨⟨h1, h2, h3, h4, h5, h6, h7, h8, -⟩, hrun⟩ := h
    have hlast : ∀ {P : Batch → Prop}, (∀ b ∈ s.oq, P b) →
        P { first, others, oldest := oldestTs first others } →
        ∀ b ∈ s.oq ++ [{ first, others, oldest := oldestTs first others }], P b :=
      fun hold hnew b hb => (List.mem_append.1 hb).elim (hold b) fun hb => List.mem_singleton.1 hb ▸ hnew
    refine ⟨⟨h1, h2, h3, h4, ?_, hlast h6 hlen, hlast h7 (oldestTs_spec first others), h8,
      fun hc => absurd (hrun.symm.trans hc) (by decide)⟩, hrun⟩
    rw [Proc.left_goOn, List.length_append, List.length_singleton]
    exact Nat.lt_of_le_of_ne h5 hroom

theorem State.PoolRun.pushOne (h : s.PoolRun) (first : Item) : (s.pushBatch first []).left.PoolRun :=
  h.pushBatch (Nat.le_max_right ..)

theorem State.PoolRun.search (h : s.PoolRun) (fk : U16) : (s.search fk).left.PoolRun := by
  rw [search_eq]
  split
  · exact h
  · split
    · exact h
    · next it s1 ht =>
      have h1 := h.takeHead ht
      refine (h1.gather 1 _).pushBatch ?_
      obtain ⟨p, m, hframe⟩ := gather_frame (s.otherKeys fk) 1 s1
      have hmcp : (s1.gather 1 (s.otherKeys fk)).2.mcp = s1.mcp := by rw [hframe]
      have hpos : 1 ≤ s1.mcp.toNat := Nat.pos_of_ne_zero fun h0 =>
        h1.1.configured h1.2 (BitVec.eq_of_toNat_eq h0)
      have := gather_length (s.otherKeys fk) 1 s1 hpos
      rw [hmcp]
      omega

theorem State.PoolRun.poolExpire (h : s.PoolRun) (fk : U16) : (s.poolExpire fk).left.PoolRun := by
  rw [poolExpire_eq]
  split
  · exact h
  · next ht => exact (h.takeHead ht).pushOne _

/-- A full bucket with its head dropped and an item at its end. -/
theorem Bucket.items_rotate {b : Bucket} {it x : Item} {xs : List Item} (h : b.rest ++ [it] = x :: xs)
    (timer : Timer) : Bucket.items { head := x, rest := xs, timer } = b.rest ++ [it] := h.symm

/-- `insertItem`'s three outcomes: a new bucket, an item at a bucket's end, the head of a full one sent. -/
theorem insertItem_new {it : Item} (hnone : Table.find it.fk s.pool = none)
    (hroom : s.pool.length ≠ s.params.poolFlowsMax) : s.insertItem it = .goOn
      ((s.putBucket it.fk { head := it, rest := [], timer := s.armed 0 }).armPool it.fk) := by
  simp only [State.insertItem, hnone]
  rw [if_neg hroom]

theorem insertItem_noRoom {it : Item} (hnone : Table.find it.fk s.pool = none)
    (hfull : s.pool.length = s.params.poolFlowsMax) : s.insertItem it = .capacity s := by
  simp only [State.insertItem, hnone]
  rw [if_pos hfull]

theorem insertItem_appended {it : Item} {b : Bucket} (hb : Table.find it.fk s.pool = some b)
    (hroom : b.items.length < s.mbs.toNat) :
    s.insertItem it = .goOn (s.putBucket it.fk { b with rest := b.rest ++ [it] }) := by
  simp only [State.insertItem, hb]
  exact if_pos hroom

theorem insertItem_evicted {it x : Item} {xs : List Item} {b : Bucket}
    (hb : Table.find it.fk s.pool = some b) (hfull : s.mbs.toNat ≤ b.items.length)
    (hx : b.rest ++ [it] = x :: xs) : s.insertItem it =
      ((s.putBucket it.fk { b with head := x, rest := xs }).pushBatch b.head []).andThen
        fun s' => .goOn (s'.armPool it.fk) := by
  simp only [State.insertItem, hb]
  rw [if_neg (show ¬ b.rest.length + 1 < s.mbs.toNat from Nat.not_lt.2 hfull)]
  obtain ⟨head, rest, timer⟩ := b
  cases rest with
  | nil =>
    cases hx
    rfl
  | cons y ys =>
    cases hx
    rfl

theorem State.PoolRun.insertItem (h : s.PoolRun) {it : Item} (hmbs : s.mbs ≠ 0) :
    (s.insertItem it).left.PoolRun := by
  have hpos : 1 ≤ s.mbs.toNat := Nat.pos_of_ne_zero fun h0 => hmbs (BitVec.eq_of_toNat_eq h0)
  cases hf : Table.find it.fk s.pool with
  | none =>
    by_cases hroom : s.pool.length = s.params.poolFlowsMax
    · rwa [insertItem_noRoom hf hroom]
    · rw [insertItem_new hf hroom]
      exact (h.put (b := { head := it, rest := [], timer := s.armed 0 }) s.tseq
        ⟨hpos, fun x hx => by rw [List.mem_singleton.1 hx]⟩
        (.inr (Nat.lt_of_le_of_ne h.1.buckets hroom))).armPool _
  | some b =>
    obtain ⟨hsize, howner⟩ := h.1.bucketOk hf
    have hsome : (Table.find it.fk s.pool).isSome = true := by rw [hf]; rfl
    have hown : ∀ x ∈ b.items ++ [it], x.fk = it.fk := fun x hx =>
      (List.mem_append.1 hx).elim (howner x) fun hx => by rw [List.mem_singleton.1 hx]
    rcases Nat.lt_or_ge b.items.length s.mbs.toNat with hlt | hge
    · rw [insertItem_appended hf hlt]
      refine h.put s.tseq ⟨?_, hown⟩ (.inl hsome)
      simp only [Bucket.items, List.length_cons, List.length_append, List.length_nil] at hlt ⊢
      omega
    · obtain ⟨x, xs, hx⟩ := List.exists_cons_of_ne_nil (List.append_ne_nil_of_right_ne_nil b.rest
        (List.cons_ne_nil it []))
      rw [insertItem_evicted hf hge hx]
      refine Proc.andThen_left (R := fun s t => s.PoolRun → t.PoolRun) (fun h1 h2 h => h2 (h1 h)) ?_
        (fun s' h' => h'.armPool it.fk) (s := s) h
      intro _
      refine (h.put s.tseq (g := it.fk) ⟨?_, fun y hy => hown y ?_⟩ (.inl hsome)).pushOne b.head
      · rw [Bucket.items_rotate hx]
        simpa [Bucket.items] using hsize
      · rw [Bucket.items_rotate hx] at hy
        exact List.mem_cons_of_mem _ hy

theorem State.PoolRun.flowStep (h : s.PoolRun) (ht : s.FlowStep g t) : t.PoolRun := by
  obtain ⟨fl, n, d, c, r, -, rfl⟩ := ht
  exact h.of_eq rfl rfl rfl rfl rfl rfl

theorem State.PoolRun.fireDue (h : s.PoolRun) (n : Nat) (u : U64) : (State.fireDue n u s).left.PoolRun := by
  induction n generalizing s with
  | zero => exact h
  | succ n ih =>
    rw [State.fireDue]
    split
    · exact h
    · next e _ =>
      refine Proc.andThen_left (R := fun s t => s.PoolRun → t.PoolRun) (fun h1 h2 h => h2 (h1 h)) ?_
        (fun s' h' => ih h') (s := s) h
      intro _
      have hnow : State.PoolRun { s with now := e.1.deadline.setWidth 64 } := h.of_eq rfl rfl rfl rfl rfl rfl
      obtain ⟨tm, who⟩ := e
      cases who with
      | pool fk => exact hnow.poolExpire fk
      | flow f => exact hnow.flowStep (flowExpire_step _ f)

theorem State.PoolRun.rule (h : s.PoolRun) {i : Instr} (hn : phaseNeed i = .run) :
    (rule i s).left.PoolRun := by
  rcases rule_run_cases s hn with ⟨d, c, heq⟩ | ⟨f, hf⟩ | ⟨native, a, rfl⟩ | ⟨b, oq, hoq, heq⟩ | ⟨u, rfl⟩
  · rw [heq]
    exact h.of_eq rfl rfl rfl rfl rfl rfl
  · exact h.flowStep (rule_flowStep s hf)
  · rw [Machine.rule, Args.ending_ok, poolInsertBody]
    split_ifs with hlong hoff
    · exact h
    · rw [Proc.left_respondOk]
      exact h.pushOne _
    · rw [Proc.left_respondOk]
      exact Proc.andThen_left (R := fun s t => s.PoolRun → t.PoolRun) (fun h1 h2 h => h2 (h1 h))
        (fun _ => h.insertItem hoff) (fun s' h' => h'.search _) (s := s) h
  · rw [heq]
    obtain ⟨⟨h1, h2, h3, h4, h5, h6, h7, h8, -⟩, hrun⟩ := h
    rw [hoq] at h5 h6 h7
    exact ⟨⟨h1, h2, h3, h4, Nat.le_of_succ_le h5, fun b hb => h6 b (List.mem_cons_of_mem _ hb),
      fun b hb => h7 b (List.mem_cons_of_mem _ hb), h8,
      fun hc => absurd (hrun.symm.trans hc) (by decide)⟩, hrun⟩
  · rw [Machine.rule, Args.ending_ok, timeAdvanceBody]
    split
    · exact h
    · rw [Proc.left_respondOk]
      exact Proc.andThen_left (R := fun s t => s.PoolRun → t.PoolRun) (fun h1 h2 h => h2 (h1 h))
        (fun h => h.fireDue _ u) (fun s' h' => h'.of_eq rfl rfl rfl rfl rfl rfl) (s := s) h

/-- An empty pool and queue are within their bounds. -/
theorem State.PoolInv.of_empty (hpool : s.pool = []) (hoq : s.oq = []) (hmcp : s.phase = .run → s.mcp ≠ 0) :
    s.PoolInv := by
  constructor <;> simp_all [Table.wf]

theorem State.PoolInv.applyReset (s : State) : s.applyReset.PoolInv :=
  .of_empty rfl rfl fun h => nomatch h

end

/-- Settles O30, by the kinds of step (`step_invariant`); in CONFIG the tables are empty. -/
theorem stepKeepsPoolInv : Obligations.StepKeepsPoolInv := by
  refine fun s t hs h => step_invariant hs h (fun s _ _ hs => ?_) (.applyReset s) (fun s r v hs hc _ _ => ?_)
    (fun s hs hc hm _ _ => ?_) fun s i hs hrun _ hn => ?_
  · exact ⟨hs.keys, hs.size, hs.owner, hs.buckets, hs.queue, hs.batch, hs.oldest, hs.configured, hs.fresh⟩
  · obtain ⟨hpool, hoq⟩ := hs.fresh hc
    refine .of_empty (by cases r <;> exact hpool) (by cases r <;> exact hoq) fun hrun => ?_
    rw [writeReg_phase, hc] at hrun
    cases hrun
  · obtain ⟨hpool, hoq⟩ := hs.fresh hc
    exact .of_empty hpool hoq fun _ => hm
  · obtain ⟨faulted, fcode, outputs, hfin⟩ := (rule i s).finish_frame
    have h1 : (rule i s).left.PoolRun := State.PoolRun.rule ⟨hs, hrun⟩ hn
    rw [hfin]
    exact (State.PoolRun.of_eq (t := { (rule i s).left with faulted, fcode, outputs }) h1
      rfl rfl rfl rfl rfl rfl).1

/-! ## The pool off, and the front batch -/

theorem exec_poolInsert {s : State} {native : Bool} {a : PoolInsertArgs}
    (hs : s.Running (.poolInsert native (.ok a))) (hlen : a.payload.length ≤ s.params.payloadMax) :
    exec (.poolInsert native (.ok a)) s = .next (Ending.finish
      (if s.mbs = 0 then (s.pushBatch (s.itemOf native a) []).respondOk []
        else ((s.insertItem (s.itemOf native a)).andThen
          fun s' => s'.search (s.itemOf native a).fk).respondOk [])) := by
  rw [hs.exec_eq rfl, rule, Args.ending_ok, poolInsertBody, if_neg (Nat.not_lt.2 hlen)]

theorem pushBatch_room {s : State} {first : Item} {others : List Item}
    (h : s.oq.length ≠ s.params.oqMax) : s.pushBatch first others = .goOn (State.emit
      { s with oq := s.oq ++ [{ first, others, oldest := oldestTs first others }] } .send) := if_neg h

theorem pushBatch_full {s : State} {first : Item} {others : List Item}
    (h : s.oq.length = s.params.oqMax) : s.pushBatch first others = .capacity s := if_pos h

/-- Settles O27: with MBS = 0 the rule is one PUSH_BATCH of the item. -/
theorem poolOffBypasses : Obligations.PoolOffBypasses := by
  intro s native a hs hoff hlen
  rw [exec_poolInsert hs hlen, if_pos hoff]
  refine ⟨by cases native <;> rfl, fun hroom => ?_, fun hfull => ?_⟩
  · rw [pushBatch_room hroom]
    rfl
  · rw [pushBatch_full hfull]
    rfl

theorem putDesc_desc (it : Item) : putDesc it.desc =
    put32 it.dst ++ put32 it.seq ++ put16 it.fk ++ putBE 2 it.payload.length := by
  simp only [putDesc, Item.desc]
  congr 1
  rw [put16, BitVec.toNat_ofNat, putBE_mod_self 2 _ (2 ^ 16) (by norm_num)]

/-- Settles O31: the rule's three outcomes, the frame's header written out. -/
theorem oqPopFrameSendsFront : Obligations.OqPopFrameSendsFront := by
  intro s a hs
  have hvalid : acksValid a.acks = true ↔ ∀ x ∈ a.acks, validAckHeader x.tcp = true := by
    simp [acksValid]
  rw [hs.exec_eq rfl, rule, Args.ending_ok, oqPopFrameBody]
  refine ⟨fun ⟨x, hx, hbad⟩ => ?_, fun hok => ⟨fun hnil => ?_, fun b r hoq => ?_⟩⟩
  · rw [if_pos]
    · rfl
    · exact Bool.eq_false_iff.2 fun h => absurd (hvalid.1 h x hx) (by rw [hbad]; decide)
  · rw [if_neg (by rw [hvalid.2 hok]; decide), hnil]
    rfl
  · rw [if_neg (by rw [hvalid.2 hok]; decide), hoq]
    have hdescs : (b.items.map Item.desc).flatMap putDesc = b.items.flatMap fun it =>
        put32 it.dst ++ put32 it.seq ++ put16 it.fk ++ putBE 2 it.payload.length := by
      rw [List.flatMap_map]
      exact congrArg (b.items.flatMap ·) (funext putDesc_desc)
    simp only [Batch.frame, interHdr, hdescs, List.length_map]
    rfl

end Sys2Proof.Machine
end

section
/-!
PROOFS. POOL_INSERT with its search (45_pool R233 to R236). Tables in canonical form are equal when they find the
same (`Table.ext`); with this a head taken is `withoutHeads` of one bucket, heads taken in turn are
`withoutHeads` of them all, and the search is one PUSH_BATCH on `searchTaken`.
-/

namespace Sys2Proof.Machine

/-! ## Tables by what they find -/

section
variable {α : Type} {t t' : Table α} {key : U16}

theorem Table.find_cons (key k : U16) (a : α) (t : Table α) :
    Table.find key ((k, a) :: t) = if k = key then some a else Table.find key t := rfl

theorem Table.find_eq_none_iff : Table.find key t = none ↔ key ∉ t.map Prod.fst := by
  induction t with
  | nil => simp
  | cons e t ih =>
    obtain ⟨k, a⟩ := e
    rw [Table.find_cons, List.map_cons, List.mem_cons, not_or]
    split
    · next h => simp [h]
    · next h => rw [ih, and_iff_right (Ne.symm h)]

theorem Table.find_append (key : U16) (t t' : Table α) :
    Table.find key (t ++ t') = (Table.find key t).or (Table.find key t') := by
  induction t with
  | nil => rfl
  | cons e t ih =>
    rw [List.cons_append, Table.find, Table.find, ih]
    split <;> rfl

theorem Table.wf_iff_pairwise : Table.wf t = true ↔ t.Pairwise fun e e' => e.1 < e'.1 := by
  induction t with
  | nil => simp [Table.wf]
  | cons e t ih => rw [Table.wf_cons, List.pairwise_cons, ih]

/-- Tables in canonical form that find the same are the same. -/
theorem Table.ext (h : Table.wf t = true) (h' : Table.wf t' = true)
    (hfind : ∀ key, Table.find key t = Table.find key t') : t = t' := by
  induction t generalizing t' with
  | nil =>
    cases t' with
    | nil => rfl
    | cons e t' =>
      have := hfind e.1
      rw [Table.find_nil, Table.find_cons, if_pos rfl] at this
      cases this
  | cons e t ih =>
    obtain ⟨k, a⟩ := e
    cases t' with
    | nil =>
      have := hfind k
      rw [Table.find_nil, Table.find_cons, if_pos rfl] at this
      cases this
    | cons e' t' =>
      obtain ⟨k', a'⟩ := e'
      obtain ⟨hlt, hwf⟩ := Table.wf_cons.1 h
      obtain ⟨hlt', hwf'⟩ := Table.wf_cons.1 h'
      have hk := hfind k
      have hk' := hfind k'
      rw [Table.find_cons, if_pos rfl, Table.find_cons] at hk
      rw [Table.find_cons, Table.find_cons, if_pos rfl] at hk'
      have hkk : k' = k := by
        by_contra hne
        rw [if_neg hne] at hk
        rw [if_neg (Ne.symm hne)] at hk'
        exact absurd (BitVec.lt_trans (hlt' _ (Table.mem_of_find hk.symm)) (hlt _ (Table.mem_of_find hk')))
          (BitVec.lt_irrefl _)
      subst hkk
      rw [if_pos rfl] at hk
      cases hk
      congr 1
      refine ih hwf hwf' fun key => ?_
      by_cases hkey : k' = key
      · subst hkey
        have hnot : ∀ l : Table α, (∀ e ∈ l, k' < e.1) → Table.find k' l = none := fun l hl =>
          Table.find_eq_none_iff.2 fun hm => by
            obtain ⟨e, he, heq⟩ := List.mem_map.1 hm
            exact absurd (heq ▸ hl e he) (BitVec.lt_irrefl _)
        rw [hnot t hlt, hnot t' hlt']
      · have := hfind key
        rwa [Table.find_cons, Table.find_cons, if_neg hkey, if_neg hkey] at this

theorem Table.find_put (key g : U16) (a : α) (t : Table α) :
    Table.find key (Table.put g a t) = if key = g then some a else Table.find key t := by
  split
  · next h => rw [h, Table.find_put_self]
  · next h => rw [Table.find_put_ne h]

theorem Table.find_erase (h : Table.wf t = true) (key g : U16) :
    Table.find key (Table.erase g t) = if key = g then none else Table.find key t := by
  split
  · next hk => rw [hk, Table.find_erase_self h]
  · next hk => rw [Table.find_erase_ne hk]

theorem Table.put_put (h : Table.wf t = true) (g : U16) (a b : α) :
    Table.put g a (Table.put g b t) = Table.put g a t := by
  refine Table.ext (Table.put_wf (Table.put_wf h)) (Table.put_wf h) fun key => ?_
  simp only [Table.find_put]
  split <;> rfl

theorem Table.put_erase (h : Table.wf t = true) (g : U16) (a : α) :
    Table.put g a (Table.erase g t) = Table.put g a t := by
  refine Table.ext (Table.put_wf (Table.erase_wf h)) (Table.put_wf h) fun key => ?_
  simp only [Table.find_put, Table.find_erase h]
  split <;> rfl

theorem Table.erase_put (h : Table.wf t = true) (g : U16) (a : α) :
    Table.erase g (Table.put g a t) = Table.erase g t := by
  refine Table.ext (Table.erase_wf (Table.put_wf h)) (Table.erase_wf h) fun key => ?_
  simp only [Table.find_put, Table.find_erase h, Table.find_erase (Table.put_wf h)]
  split <;> rfl

theorem Table.erase_of_find_none (h : Table.find key t = none) : Table.erase key t = t := by
  induction t with
  | nil => rfl
  | cons e t ih =>
    obtain ⟨k, a⟩ := e
    rw [Table.find_cons] at h
    split at h
    · cases h
    · next hk => rw [Table.erase, if_neg hk, ih h]

theorem Table.erase_eq_filter (h : Table.wf t = true) (g : U16) :
    Table.erase g t = t.filter fun e => e.1 != g := by
  induction t with
  | nil => rfl
  | cons e t ih =>
    obtain ⟨k, a⟩ := e
    obtain ⟨hlt, hwf⟩ := Table.wf_cons.1 h
    rw [Table.erase]
    split
    · next hk =>
      subst hk
      rw [List.filter_cons_of_neg (by simp), List.filter_eq_self.2 fun e he => ?_]
      exact bne_iff_ne.2 fun heq => absurd (heq ▸ hlt e he) (BitVec.lt_irrefl _)
    · next hk => rw [ih hwf, List.filter_cons_of_pos (by simpa using hk)]

theorem Table.foldr_put_wf (h : Table.wf t = true) (l : Table α) :
    Table.wf (l.foldr (fun e t => Table.put e.1 e.2 t) t) = true := by
  induction l with
  | nil => exact h
  | cons e l ih => exact Table.put_wf ih

theorem Table.find_foldr_put (key : U16) (l t : Table α) :
    Table.find key (l.foldr (fun e t => Table.put e.1 e.2 t) t) =
      (Table.find key l).or (Table.find key t) := by
  induction l with
  | nil => rfl
  | cons e l ih =>
    rw [List.foldr_cons, Table.find_put, ih, Table.find]
    by_cases h : key = e.1
    · rw [if_pos h, if_pos h.symm]
      rfl
    · rw [if_neg h, if_neg (Ne.symm h)]

theorem Table.find_drop (h : Table.wf t = true) (m : Nat) (key : U16) :
    Table.find key (t.drop m) = if key ∈ (t.take m).map Prod.fst then none else Table.find key t := by
  have hpair := Table.wf_iff_pairwise.1 h
  rw [← List.take_append_drop m t, List.pairwise_append] at hpair
  obtain ⟨-, -, hcross⟩ := hpair
  split
  · next hm =>
    refine Table.find_eq_none_iff.2 fun hd => ?_
    obtain ⟨e, he, rfl⟩ := List.mem_map.1 hm
    obtain ⟨e', he', heq⟩ := List.mem_map.1 hd
    exact absurd (heq ▸ hcross e he e' he') (BitVec.lt_irrefl _)
  · next hm =>
    conv_rhs => rw [← List.take_append_drop m t, Table.find_append, Table.find_eq_none_iff.2 hm]
    rfl

theorem Table.wf_sublist (h : Table.wf t = true) {l : Table α} (hl : l.Sublist t) : Table.wf l = true :=
  Table.wf_iff_pairwise.2 ((Table.wf_iff_pairwise.1 h).sublist hl)

end

/-! ## Heads taken -/

section
variable {s : State}

theorem beheaded_keys (n : Nat) (t : Table Bucket) : ∀ e ∈ s.beheaded n t, e.1 ∈ t.map Prod.fst := by
  induction t generalizing n with
  | nil => exact List.forall_mem_nil _
  | cons e t ih =>
    obtain ⟨g, b⟩ := e
    rw [State.beheaded]
    split
    · exact fun e he => List.mem_cons_of_mem _ (ih n e he)
    · exact List.forall_mem_cons.2
        ⟨List.mem_cons_self, fun e he => List.mem_cons_of_mem _ (ih (n + 1) e he)⟩

theorem find_beheaded_eq_none {n : Nat} {t : Table Bucket} {key : U16} (h : key ∉ t.map Prod.fst) :
    Table.find key (s.beheaded n t) = none :=
  Table.find_eq_none_iff.2 fun hm => by
    obtain ⟨e, he, rfl⟩ := List.mem_map.1 hm
    exact h (beheaded_keys n t e he)

/-- The armings read BTO_INTER alone. -/
theorem beheaded_congr {t : State} (h : t.btoInter = s.btoInter) (n : Nat) (l : Table Bucket) :
    t.beheaded n l = s.beheaded n l := by
  induction l generalizing n with
  | nil => rfl
  | cons e l ih => simp only [State.beheaded, ih, h]

theorem beheaded_cons_single {g : U16} {b : Bucket} (h : b.rest = []) (n : Nat) (l : Table Bucket) :
    s.beheaded n ((g, b) :: l) = s.beheaded n l := by
  simp only [State.beheaded, h]

theorem beheaded_cons_more {g : U16} {b : Bucket} {x : Item} {xs : List Item} (h : b.rest = x :: xs) (n : Nat)
    (l : Table Bucket) : s.beheaded n ((g, b) :: l) =
      (g, { head := x, rest := xs, timer := { deadline := deadlineAfter x.ts s.btoInter, seq := n } }) ::
        s.beheaded (n + 1) l := by
  simp only [State.beheaded, h, deadlineAfter_eq]

theorem withoutHeads_tseq (chosen rest : Table Bucket) :
    (s.withoutHeads chosen rest).tseq = s.tseq + (s.beheaded s.tseq chosen).length := rfl

theorem find_withoutHeads (chosen rest : Table Bucket) (key : U16) :
    Table.find key (s.withoutHeads chosen rest).pool =
      (Table.find key (s.beheaded s.tseq chosen)).or (Table.find key rest) :=
  Table.find_foldr_put ..

/-- `rest` is the pool without the chosen buckets. -/
structure RestOf (pool chosen rest : Table Bucket) : Prop where
  keys : Table.wf rest = true
  find : ∀ key, Table.find key rest =
    if key ∈ chosen.map Prod.fst then none else Table.find key pool

theorem Table.find_filter {α : Type} (p : U16 → Bool) (key : U16) (t : Table α) :
    Table.find key (t.filter fun e => p e.1) = if p key = true then Table.find key t else none := by
  induction t with
  | nil => simp
  | cons e t ih =>
    obtain ⟨k, a⟩ := e
    by_cases hk : k = key
    · subst hk
      cases hp : p k with
      | true =>
        rw [List.filter_cons_of_pos (by exact hp), if_pos rfl, Table.find_cons, if_pos rfl, Table.find_cons,
          if_pos rfl]
      | false => rw [List.filter_cons_of_neg (by simp [hp]), ih, hp]; rfl
    · rw [Table.find_cons, if_neg hk, ← ih]
      cases hp : p k with
      | true => rw [List.filter_cons_of_pos (by exact hp), Table.find_cons, if_neg hk]
      | false => rw [List.filter_cons_of_neg (by simp [hp])]

theorem RestOf.exists {pool : Table Bucket} (h : Table.wf pool = true) (chosen : Table Bucket) :
    ∃ rest, RestOf pool chosen rest := by
  refine ⟨pool.filter fun e => decide (e.1 ∉ chosen.map Prod.fst),
    Table.wf_sublist h List.filter_sublist, fun key => ?_⟩
  rw [Table.find_filter fun k => decide (k ∉ chosen.map Prod.fst)]
  by_cases hk : key ∈ chosen.map Prod.fst <;> simp [hk]

theorem RestOf.erase {pool : Table Bucket} (h : Table.wf pool = true) (g : U16) (b : Bucket) :
    RestOf pool [(g, b)] (Table.erase g pool) :=
  ⟨Table.erase_wf h, fun key => by simp [Table.find_erase h]⟩

theorem withoutHeads_wf {chosen rest : Table Bucket} (h : Table.wf rest = true) :
    Table.wf (s.withoutHeads chosen rest).pool = true := Table.foldr_put_wf h _

/-- TAKE_HEAD is `withoutHeads` of one bucket. -/
theorem takeHead_eq {g : U16} {b : Bucket} (hwf : Table.wf s.pool = true)
    (hb : Table.find g s.pool = some b) :
    s.takeHead g = some (b.head, s.withoutHeads [(g, b)] (Table.erase g s.pool)) := by
  obtain ⟨head, rest, timer⟩ := b
  cases rest with
  | nil =>
    simp only [State.takeHead, hb]
    rfl
  | cons x xs =>
    simp only [State.takeHead, hb, State.armPool, State.putBucket, Table.find_put_self, State.countArm,
      State.armed, Table.put_put hwf, deadlineAfter_eq, State.withoutHeads, State.beheaded,
      List.foldr_cons, List.foldr_nil, Table.put_erase hwf, List.length_singleton]

theorem State.ext_pool {t u : State} (htseq : t.tseq = u.tseq) (hpool : t.pool = u.pool)
    (h : { t with pool := [], tseq := 0 } = { u with pool := [], tseq := 0 }) : t = u := by
  obtain ⟨⟩ := t
  obtain ⟨⟩ := u
  cases htseq
  cases hpool
  simpa using h

/-- One head taken, then others: all of them taken. -/
theorem withoutHeads_cons {g : U16} {b : Bucket} {chosen rest rest' : Table Bucket}
    (hwf : Table.wf s.pool = true) (hg : g ∉ chosen.map Prod.fst)
    (hrest' : RestOf (s.withoutHeads [(g, b)] (Table.erase g s.pool)).pool chosen rest')
    (hrest : RestOf s.pool ((g, b) :: chosen) rest) :
    (s.withoutHeads [(g, b)] (Table.erase g s.pool)).withoutHeads chosen rest' =
      s.withoutHeads ((g, b) :: chosen) rest := by
  have hbto : ∀ n, State.beheaded (s.withoutHeads [(g, b)] (Table.erase g s.pool)) n chosen =
      s.beheaded n chosen := 
    fun n => beheaded_congr (s := s) (t := s.withoutHeads [(g, b)] (Table.erase g s.pool)) rfl n chosen
  have hleft : ∀ n, Table.find g (s.beheaded n chosen) = none := fun n => find_beheaded_eq_none hg
  have hself : Table.find g rest = none := by rw [hrest.find, if_pos (by simp)]
  have hself' := hrest'.find g
  rw [if_neg hg, find_withoutHeads, Table.find_erase_self hwf, Option.or_none] at hself'
  have hother : ∀ key, key ≠ g → Table.find key rest' = Table.find key rest := by
    intro key hkey
    rw [hrest'.find, hrest.find, find_withoutHeads, find_beheaded_eq_none (by simpa using hkey),
      Table.find_erase_ne hkey]
    simp only [List.map_cons, List.mem_cons, hkey, false_or]
    rfl
  refine State.ext_pool ?_ (Table.ext (withoutHeads_wf hrest'.keys) (withoutHeads_wf hrest.keys)
    fun key => ?_) rfl
  · rw [withoutHeads_tseq, hbto, withoutHeads_tseq, withoutHeads_tseq]
    cases hr : b.rest with
    | nil => rw [beheaded_cons_single hr, beheaded_cons_single hr]; rfl
    | cons x xs =>
      rw [beheaded_cons_more hr, beheaded_cons_more hr]
      simp only [State.beheaded, List.length_cons, List.length_nil, Nat.zero_add]
      omega
  · rw [find_withoutHeads, find_withoutHeads, hbto, withoutHeads_tseq]
    cases hr : b.rest with
    | nil =>
      rw [beheaded_cons_single hr] at hself' ⊢
      rw [beheaded_cons_single hr]
      by_cases hkey : key = g
      · subst hkey
        rw [hself, hself']
        rfl
      · rw [hother key hkey]
        rfl
    | cons x xs =>
      rw [beheaded_cons_more hr] at hself' ⊢
      rw [beheaded_cons_more hr, Table.find_cons]
      by_cases hkey : key = g
      · subst hkey
        rw [if_pos rfl, hleft, hself', Table.find_cons, if_pos rfl]
        rfl
      · rw [if_neg (Ne.symm hkey), hother key hkey]
        rfl

theorem withoutHeads_nil {rest : Table Bucket} (hwf : Table.wf s.pool = true)
    (h : RestOf s.pool [] rest) : s.withoutHeads [] rest = s :=
  State.ext_pool rfl (Table.ext h.keys hwf fun key => (h.find key).trans (if_neg List.not_mem_nil)) rfl

/-- The walk of SEARCH takes the heads of the first MCP − n buckets. -/
theorem gather_eq {n : Nat} (hn : n ≤ s.mcp.toNat) (others : Table Bucket) (hwf : Table.wf s.pool = true)
    (hkeys : Table.wf others = true) (hfind : ∀ e ∈ others, Table.find e.1 s.pool = some e.2)
    {rest : Table Bucket} (hrest : RestOf s.pool (others.take (s.mcp.toNat - n)) rest) :
    s.gather n (others.map Prod.fst) = ((others.take (s.mcp.toNat - n)).map fun e => e.2.head,
      s.withoutHeads (others.take (s.mcp.toNat - n)) rest) := by
  induction others generalizing n s rest with
  | nil =>
    rw [List.take_nil] at hrest ⊢
    exact congrArg (Prod.mk []) (withoutHeads_nil hwf hrest).symm
  | cons e others ih =>
    obtain ⟨g, b⟩ := e
    obtain ⟨hlt, hkeys'⟩ := Table.wf_cons.1 hkeys
    obtain ⟨hb, hfind'⟩ := List.forall_mem_cons.1 hfind
    rw [List.map_cons, State.gather]
    by_cases hmcp : n = s.mcp.toNat
    · rw [if_pos hmcp]
      have hz : s.mcp.toNat - n = 0 := by omega
      rw [hz, List.take_zero] at hrest ⊢
      exact congrArg (Prod.mk []) (withoutHeads_nil hwf hrest).symm
    · rw [if_neg hmcp, takeHead_eq hwf hb]
      obtain ⟨m, hm⟩ : ∃ m, s.mcp.toNat - n = m + 1 := ⟨s.mcp.toNat - n - 1, by omega⟩
      have hm' : s.mcp.toNat - (n + 1) = m := by omega
      have hg : ∀ e ∈ others, e.1 ≠ g := fun e he heq => absurd (heq ▸ hlt e he) (BitVec.lt_irrefl _)
      have hu := withoutHeads_wf (s := s) (chosen := [(g, b)]) (Table.erase_wf hwf (key := g))
      have hkeep : ∀ key, key ≠ g → Table.find key
          (s.withoutHeads [(g, b)] (Table.erase g s.pool)).pool = Table.find key s.pool := by
        intro key hkey
        rw [find_withoutHeads, find_beheaded_eq_none (by simpa using hkey), Table.find_erase_ne hkey]
        rfl
      rw [hm, List.take_succ_cons] at hrest
      have hgm : g ∉ (others.take m).map Prod.fst := fun hmem => by
        obtain ⟨e, he, heq⟩ := List.mem_map.1 hmem
        exact hg e (List.mem_of_mem_take he) heq
      obtain ⟨rest', hrest'⟩ := RestOf.exists hu (others.take m)
      have hfind1 : ∀ e ∈ others,
          Table.find e.1 (s.withoutHeads [(g, b)] (Table.erase g s.pool)).pool = some e.2 :=
        fun e he => (hkeep e.1 (hg e he)).trans (hfind' e he)
      have hrec := ih (s := s.withoutHeads [(g, b)] (Table.erase g s.pool)) (n := n + 1)
        (show n + 1 ≤ s.mcp.toNat by omega) hu hkeys' hfind1 (rest := rest')
        (show RestOf _ (others.take (s.mcp.toNat - (n + 1))) rest' by rwa [hm'])
      rw [show (s.withoutHeads [(g, b)] (Table.erase g s.pool)).mcp = s.mcp from rfl, hm'] at hrec
      show (b.head :: (State.gather _ (n + 1) _).1, (State.gather _ (n + 1) _).2) = _
      rw [hrec, hm, List.take_succ_cons, withoutHeads_cons hwf hgm hrest' hrest]
      rfl

/-- Neither the pool nor the first bucket's timer matters. -/
theorem withoutHeads_congr {u : State} {fk : U16} {w own : Bucket} (h : w.rest = own.rest)
    (pool chosen rest : Table Bucket) : State.withoutHeads { u with pool } ((fk, w) :: chosen) rest =
      u.withoutHeads ((fk, own) :: chosen) rest := by
  have hleft : State.beheaded { u with pool } u.tseq ((fk, w) :: chosen) =
      u.beheaded u.tseq ((fk, own) :: chosen) := by
    rw [beheaded_congr (s := u) (t := { u with pool }) rfl]
    simp only [State.beheaded, h]
  simp only [State.withoutHeads, hleft]

/-! ## The search -/

/-- SEARCH(fk), where bucket fk is `w` and the rest of the pool is as in `u`: one PUSH_BATCH of the heads of
`own`, a bucket of the same items, and of the others, on the state without them. -/
theorem search_put {u : State} {fk : U16} {w own : Bucket} (hwf : Table.wf u.pool = true)
    (hmcp : u.mcp ≠ 0) (hlen : 2 ≤ (Table.put fk w u.pool).length) (hitems : w.items = own.items) :
    State.search { u with pool := Table.put fk w u.pool } fk =
      (u.searchTaken fk own (Table.erase fk u.pool)).pushBatch own.head
        (((Table.erase fk u.pool).take (u.mcp.toNat - 1)).map fun e => e.2.head) := by
  have hpos : 1 ≤ u.mcp.toNat := Nat.pos_of_ne_zero fun h0 => hmcp (BitVec.eq_of_toNat_eq h0)
  have hput := Table.put_wf (key := fk) (a := w) hwf
  have herase := Table.erase_put hwf fk w
  have hewf := Table.erase_wf hwf (key := fk)
  have hfw := Table.find_put_self fk w u.pool
  obtain ⟨hhead, hrest⟩ : w.head = own.head ∧ w.rest = own.rest := by
    obtain ⟨⟩ := w
    obtain ⟨⟩ := own
    exact ⟨(List.cons.inj hitems).1, (List.cons.inj hitems).2⟩
  generalize hothers : Table.erase fk u.pool = others at *
  have hnotfk : ∀ e ∈ others, e.1 ≠ fk := by
    rintro e he rfl
    have hnone := Table.find_erase_self hwf (key := e.1)
    rw [hothers] at hnone
    exact Table.find_eq_none_iff.1 hnone (List.mem_map_of_mem he)
  have hfk : fk ∉ (others.take (u.mcp.toNat - 1)).map Prod.fst := fun hm => by
    obtain ⟨e, he, heq⟩ := List.mem_map.1 hm
    exact hnotfk e (List.mem_of_mem_take he) heq
  have hfindOthers : ∀ key, key ≠ fk → Table.find key others = Table.find key (Table.put fk w u.pool) :=
    fun key hkey => by rw [← herase, Table.find_erase_ne hkey]
  have hkeys : State.otherKeys { u with pool := Table.put fk w u.pool } fk = others.map Prod.fst := by
    rw [← herase, Table.erase_eq_filter hput, State.otherKeys, List.filter_map]
    rfl
  have hone := RestOf.erase hput fk w
  rw [herase] at hone
  have hrestOf : RestOf (Table.put fk w u.pool) ((fk, w) :: others.take (u.mcp.toNat - 1))
      (others.drop (u.mcp.toNat - 1)) := by
    refine ⟨Table.wf_sublist hewf (List.drop_sublist ..), fun key => ?_⟩
    rw [Table.find_drop hewf, List.map_cons]
    by_cases hkey : key = fk
    · subst hkey
      rw [if_neg hfk, if_pos List.mem_cons_self]
      exact Table.find_eq_none_iff.2 fun hm => by
        obtain ⟨e, he, heq⟩ := List.mem_map.1 hm
        exact hnotfk e he heq
    · rw [hfindOthers key hkey]
      simp only [List.mem_cons, hkey, false_or]
  have htaken : State.withoutHeads { u with pool := Table.put fk w u.pool }
      ((fk, w) :: others.take (u.mcp.toNat - 1)) (others.drop (u.mcp.toNat - 1)) =
      u.searchTaken fk own others := withoutHeads_congr hrest ..
  rw [search_eq, if_neg (Nat.not_le.2 hlen), takeHead_eq hput hfw]
  simp only [hkeys]
  rw [herase]
  generalize hv : ({ u with pool := Table.put fk w u.pool } : State) = v at *
  have hvmcp : v.mcp = u.mcp := by rw [← hv]
  have hvpool : v.pool = Table.put fk w u.pool := by rw [← hv]
  have hwf1 := withoutHeads_wf (s := v) (chosen := [(fk, w)]) hewf
  obtain ⟨rest', hrest'⟩ := RestOf.exists hwf1 (others.take (u.mcp.toNat - 1))
  have hfind1 : ∀ e ∈ others, Table.find e.1 (v.withoutHeads [(fk, w)] others).pool = some e.2 := by
    intro e he
    rw [find_withoutHeads, find_beheaded_eq_none (by simpa using hnotfk e he)]
    exact (Table.find_eq_some_iff hewf).2 he
  have hmcp1 : (v.withoutHeads [(fk, w)] others).mcp = u.mcp := hvmcp
  have hg := gather_eq (s := v.withoutHeads [(fk, w)] others) (n := 1) (by rwa [hmcp1]) others hwf1 hewf
    hfind1 (by rwa [hmcp1])
  rw [hmcp1] at hg
  have hcons := withoutHeads_cons (s := v) (g := fk) (b := w) (rest := others.drop (u.mcp.toNat - 1))
    (by rwa [hvpool]) hfk (rest' := rest') (by rwa [hvpool, herase]) (by rwa [hvpool])
  rw [hvpool, herase] at hcons
  rw [hg, hcons, htaken, hhead]

/-- SEARCH leaves a pool of one bucket alone. -/
theorem search_alone {fk : U16} (h : s.pool.length ≤ 1) : s.search fk = .goOn s := by
  rw [search_eq, if_pos h]

theorem armPool_eq {g : U16} {b : Bucket} (h : Table.find g s.pool = some b) : s.armPool g = { s with
    pool := Table.put g { b with timer := { deadline := deadlineAfter b.head.ts s.btoInter, seq := s.tseq } }
      s.pool
    tseq := s.tseq + 1 } := by
  simp only [State.armPool, h]
  rfl

/-- The bucket of `head` and `rest` with its timer armed as 45_pool R233 says. -/
def State.armedBucket (s : State) (head : Item) (rest : List Item) : Bucket :=
  { head, rest, timer := { deadline := deadlineAfter head.ts s.btoInter, seq := s.tseq } }

/-- A bucket put and armed. -/
theorem armPool_putBucket (hwf : Table.wf s.pool = true) (g : U16) (b : Bucket) :
    (s.putBucket g b).armPool g = { s with
      pool := Table.put g (s.armedBucket b.head b.rest) s.pool, tseq := s.tseq + 1 } := by
  rw [armPool_eq (b := b) (Table.find_put_self ..)]
  simp only [State.putBucket, Table.put_put hwf]
  rfl

/-- The state an eviction leaves: the oldest item sent, and the bucket armed for its new head. -/
def State.evicted (s : State) (fk : U16) (b : Bucket) (x : Item) (xs : List Item) : State :=
  State.emit { s with
    tseq := s.tseq + 1
    oq := s.oq ++ [{ first := b.head, others := [], oldest := b.head.ts }]
    pool := Table.put fk (s.armedBucket x xs) s.pool } .send

theorem insertItem_evicted_room {it x : Item} {xs : List Item} {b : Bucket} (hwf : Table.wf s.pool = true)
    (hb : Table.find it.fk s.pool = some b) (hfull : s.mbs.toNat ≤ b.items.length)
    (hx : b.rest ++ [it] = x :: xs) (hroom : s.oq.length ≠ s.params.oqMax) :
    s.insertItem it = .goOn (s.evicted it.fk b x xs) := by
  have hpush : (s.putBucket it.fk { b with head := x, rest := xs }).pushBatch b.head [] =
      .goOn (State.putBucket (State.emit { s with
        oq := s.oq ++ [{ first := b.head, others := [], oldest := b.head.ts }] } .send) it.fk
          { b with head := x, rest := xs }) := pushBatch_room hroom
  have harm := armPool_putBucket (s := State.emit { s with
    oq := s.oq ++ [{ first := b.head, others := [], oldest := b.head.ts }] } .send) hwf it.fk
    { b with head := x, rest := xs }
  rw [insertItem_evicted hb hfull hx, hpush]
  show Proc.goOn _ = _
  rw [harm]
  rfl

theorem insertItem_evicted_full {it x : Item} {xs : List Item} {b : Bucket}
    (hb : Table.find it.fk s.pool = some b) (hfull : s.mbs.toNat ≤ b.items.length)
    (hx : b.rest ++ [it] = x :: xs) (hoq : s.oq.length = s.params.oqMax) :
    s.insertItem it = .capacity (s.putBucket it.fk { b with head := x, rest := xs }) := by
  have hpush : (s.putBucket it.fk { b with head := x, rest := xs }).pushBatch b.head [] =
      .capacity (s.putBucket it.fk { b with head := x, rest := xs }) := pushBatch_full hoq
  rw [insertItem_evicted hb hfull hx, hpush]
  rfl

theorem insertItem_new_armed {it : Item} (hwf : Table.wf s.pool = true)
    (hnone : Table.find it.fk s.pool = none) (hroom : s.pool.length ≠ s.params.poolFlowsMax) :
    s.insertItem it = .goOn { s with
      pool := Table.put it.fk (s.armedBucket it []) s.pool, tseq := s.tseq + 1 } := by
  rw [insertItem_new hnone hroom, armPool_putBucket hwf]

end

/-- POOL_INSERT with the pool on. -/
theorem exec_poolInsert_on {s : State} {native : Bool} {a : PoolInsertArgs}
    (hs : s.Running (.poolInsert native (.ok a))) (hlen : a.payload.length ≤ s.params.payloadMax)
    (hon : s.mbs ≠ 0) : exec (.poolInsert native (.ok a)) s = .next (Ending.finish
      (((s.insertItem (s.itemOf native a)).andThen
        fun s' => s'.search (s.itemOf native a).fk).respondOk [])) := by
  rw [exec_poolInsert hs hlen, if_neg hon]

/-- Settles O28: the outcomes of `insertItem`; with one bucket in the pool the search ends at once. -/
theorem insertIntoOneBucket : Obligations.InsertIntoOneBucket := by
  intro s native a hs
  refine ⟨fun hlong => ?_, fun hlen hon => ?_⟩
  · rw [hs.exec_eq rfl, rule, Args.ending_ok, poolInsertBody, if_pos hlong]
    rfl
  rw [exec_poolInsert_on hs hlen hon]
  generalize hfk : flowKey s.params a.src a.dst a.sport a.dport = fk
  have hit : (s.itemOf native a).fk = fk := hfk
  have hwf1 : ∀ b : Bucket, Table.wf [(fk, b)] = true := fun b => by simp [Table.wf]
  have hfind1 : ∀ {b : Bucket}, s.pool = [(fk, b)] → Table.find (s.itemOf native a).fk s.pool = some b :=
    fun hp => by rw [hp, hit, Table.find_cons, if_pos rfl]
  have hput1 : ∀ b b' : Bucket, Table.put fk b [(fk, b')] = [(fk, b)] := fun b b' => by
    simp [Table.put]
  refine ⟨fun hp hroom => ?_, fun b hp hroom => ?_, fun b x xs hp hfull hx hoq => ?_,
    fun hnone hfull => ?_, fun b x xs hb hfull hx hoq => ?_⟩
  · have hnone : Table.find (s.itemOf native a).fk s.pool = none := by rw [hp]; rfl
    rw [insertItem_new_armed (by rw [hp]; rfl) hnone (by rw [hp]; exact hroom.symm), hp, hit]
    show Host.Outcome.next (Ending.finish (Proc.respondOk (State.search _ fk) [])) = _
    rw [search_alone (by exact Nat.le_refl 1)]
    simp only [State.armedBucket, deadlineAfter_eq]
    rfl
  · rw [insertItem_appended (hfind1 hp) hroom, hit, State.putBucket, hp, hput1]
    show Host.Outcome.next (Ending.finish (Proc.respondOk (State.search _ fk) [])) = _
    rw [search_alone (by exact Nat.le_refl 1)]
    rfl
  · rw [insertItem_evicted_room (by rw [hp]; exact hwf1 b) (hfind1 hp) hfull hx hoq, hit, State.evicted, hp,
      hput1]
    show Host.Outcome.next (Ending.finish (Proc.respondOk (State.search _ fk) [])) = _
    rw [search_alone (by exact Nat.le_refl 1)]
    simp only [State.armedBucket, deadlineAfter_eq]
    rfl
  · rw [insertItem_noRoom (by rwa [hit]) hfull]
    rfl
  · rw [insertItem_evicted_full (by rwa [hit]) hfull hx hoq, hit]
    rfl

/-- What the search ends in: its batch pushed, or the fault of a full queue. -/
theorem searchTaken_finish {u : State} {fk : U16} {own : Bucket} {others : Table Bucket} :
    (u.oq.length ≠ u.params.oqMax → Ending.finish (Proc.respondOk
      ((u.searchTaken fk own others).pushBatch own.head
        ((others.take (u.mcp.toNat - 1)).map fun e => e.2.head)) []) =
        State.respond (u.searched fk own others) .ok []) ∧
    (u.oq.length = u.params.oqMax → Ending.finish (Proc.respondOk
      ((u.searchTaken fk own others).pushBatch own.head
        ((others.take (u.mcp.toNat - 1)).map fun e => e.2.head)) []) =
        (u.searchTaken fk own others).capacityFault) := by
  have hoq : (u.searchTaken fk own others).oq = u.oq := rfl
  have hpar : (u.searchTaken fk own others).params = u.params := rfl
  refine ⟨fun h => ?_, fun h => ?_⟩
  · rw [pushBatch_room (by rwa [hoq, hpar])]
    rfl
  · rw [pushBatch_full (by rwa [hoq, hpar])]
    rfl

section
variable {s u : State} {native : Bool} {a : PoolInsertArgs} {fk : U16} {own b : Bucket}

/-- POOL_INSERT whose insertion leaves the state `u` with the bucket `w` put, and other buckets besides. -/
theorem exec_poolInsert_search {w : Bucket} (hs : s.Running (.poolInsert native (.ok a)))
    (hlen : a.payload.length ≤ s.params.payloadMax) (hon : s.mbs ≠ 0) (hwf : Table.wf u.pool = true)
    (hfk : (s.itemOf native a).fk = fk) (hmcp : u.mcp ≠ 0)
    (hins : s.insertItem (s.itemOf native a) = .goOn { u with pool := Table.put fk w u.pool })
    (hmany : 2 ≤ (Table.put fk w u.pool).length) (hitems : w.items = own.items) :
    (u.oq.length ≠ u.params.oqMax → exec (.poolInsert native (.ok a)) s =
      .next (State.respond (u.searched fk own (Table.erase fk u.pool)) .ok [])) ∧
    (u.oq.length = u.params.oqMax → exec (.poolInsert native (.ok a)) s =
      .next (u.searchTaken fk own (Table.erase fk u.pool)).capacityFault) := by
  obtain ⟨hroom, hfull⟩ := searchTaken_finish (u := u) (fk := fk) (own := own)
    (others := Table.erase fk u.pool)
  rw [exec_poolInsert_on hs hlen hon, hins, hfk]
  show (_ → Host.Outcome.next (Ending.finish (Proc.respondOk (State.search _ fk) [])) = _) ∧
    (_ → Host.Outcome.next (Ending.finish (Proc.respondOk (State.search _ fk) [])) = _)
  rw [search_put hwf hmcp hmany hitems]
  exact ⟨fun h => congrArg _ (hroom h), fun h => congrArg _ (hfull h)⟩

/-- An item of a flow that is new to a pool with other buckets. -/
theorem exec_poolInsert_new (hs : s.Running (.poolInsert native (.ok a)))
    (hlen : a.payload.length ≤ s.params.payloadMax) (hon : s.mbs ≠ 0) (hmcp : s.mcp ≠ 0)
    (hwf : Table.wf s.pool = true) (hfk : fk = flowKey s.params a.src a.dst a.sport a.dport)
    (hnone : Table.find fk s.pool = none) (hne : s.pool ≠ []) (hpar : s.pool.length ≠ s.params.poolFlowsMax)
    (hu : u = { s with tseq := s.tseq + 1 }) (hown : own.items = [s.itemOf native a]) :
    (s.oq.length ≠ s.params.oqMax → exec (.poolInsert native (.ok a)) s =
      .next (State.respond (u.searched fk own s.pool) .ok [])) ∧
    (s.oq.length = s.params.oqMax → exec (.poolInsert native (.ok a)) s =
      .next (u.searchTaken fk own s.pool).capacityFault) := by
  subst hu
  have hit : (s.itemOf native a).fk = fk := hfk.symm
  have hmany : 2 ≤ (Table.put fk (s.armedBucket (s.itemOf native a) []) s.pool).length := by
    rw [Table.length_put _ _ hwf, hnone]
    have := List.length_pos_of_ne_nil hne
    simp only [Option.isSome_none, Bool.false_eq_true, if_false]
    omega
  have hrun := exec_poolInsert_search (u := { s with tseq := s.tseq + 1 }) (own := own) hs hlen hon hwf hit hmcp
    (w := s.armedBucket (s.itemOf native a) [])
    (by rw [insertItem_new_armed hwf (by rwa [hit]) hpar, hit]) hmany hown.symm
  simpa only [Table.erase_of_find_none hnone] using hrun

end

/-- Settles O29: the three ways an insertion can leave the pool, each followed by `search_put`. -/
theorem searchCodesTwoFlows : Obligations.SearchCodesTwoFlows := by
  refine ⟨fun s native a g x tm hs hlen hon hpool hfk hmax hoq => ?_,
    fun s native a hs hlen hon hmcp hwf fk hfk => ⟨?_, ?_, ?_⟩⟩
  · have hwf : Table.wf s.pool = true := by rw [hpool]; simp [Table.wf]
    have hnone : Table.find (flowKey s.params a.src a.dst a.sport a.dport) s.pool = none := by
      rw [hpool, Table.find_cons, if_neg (Ne.symm hfk)]
      rfl
    have hrun : s.mcp ≠ 0 → exec (.poolInsert native (.ok a)) s = .next (State.respond
        (State.searched { s with tseq := s.tseq + 1 } (flowKey s.params a.src a.dst a.sport a.dport)
          (s.armedBucket (s.itemOf native a) []) s.pool) .ok []) := fun hmcp =>
      (exec_poolInsert_new hs hlen hon hmcp hwf rfl hnone (by rw [hpool]; simp)
        (by rw [hpool]; exact hmax.symm) rfl rfl).1 hoq
    refine ⟨fun h2 => ?_, fun h1 => ?_⟩
    · obtain ⟨m, hm⟩ : ∃ m, s.mcp.toNat - 1 = m + 1 := ⟨s.mcp.toNat - 2, by omega⟩
      rw [hrun fun h0 => by rw [h0] at h2; exact absurd h2 (by decide)]
      simp only [State.searched, State.searchTaken, hpool, hm, List.take_succ_cons, List.drop_succ_cons,
        List.take_nil, List.drop_nil]
      rfl
    · rw [hrun (by rw [h1]; decide)]
      simp only [State.searched, State.searchTaken, hpool, h1]
      rfl
  · intro u own hnone hne hpar hu hown
    obtain ⟨h1, h2⟩ := exec_poolInsert_new hs hlen hon hmcp hwf hfk hnone hne hpar hu hown
    exact ⟨fun h => h1 (Nat.ne_of_lt h), h2⟩
  · intro b own hb hmany hroom hown
    have hit : (s.itemOf native a).fk = fk := hfk.symm
    obtain ⟨h1, h2⟩ := exec_poolInsert_search (u := s) (own := own) hs hlen hon hwf hit hmcp
      (w := { b with rest := b.rest ++ [s.itemOf native a] })
      (by rw [insertItem_appended (by rwa [hit]) hroom, hit]; rfl)
      (by rwa [Table.length_put _ _ hwf, hb]) hown.symm
    exact ⟨fun h => h1 (Nat.ne_of_lt h), h2⟩
  · intro b own u hb hmany hfull hown hu
    subst hu
    have hit : (s.itemOf native a).fk = fk := hfk.symm
    have hx : b.rest ++ [s.itemOf native a] = own.head :: own.rest := (List.cons.inj hown).2
    have hrun := fun hoq : s.oq.length ≠ s.params.oqMax =>
      exec_poolInsert_search (own := own) (u := State.emit { s with
          tseq := s.tseq + 1
          oq := s.oq ++ [{ first := b.head, others := [], oldest := b.head.ts }] } .send)
        (w := s.armedBucket own.head own.rest) hs hlen hon hwf hit hmcp
        (by rw [insertItem_evicted_room hwf (by rwa [hit]) hfull hx hoq, hit]; rfl)
        (by show 2 ≤ (Table.put fk _ s.pool).length; rwa [Table.length_put _ _ hwf, hb]) rfl
    have hoq : ∀ n, (s.oq ++ [({ first := b.head, others := [], oldest := b.head.ts } : Batch)]).length = n ↔
        s.oq.length + 1 = n := fun n => by simp
    refine ⟨fun h => (hrun (by omega)).1 fun h' => ?_, fun h => (hrun (by omega)).2 ((hoq _).2 h)⟩
    have : s.oq.length + 1 = s.params.oqMax := (hoq _).1 h'
    omega

end Sys2Proof.Machine
end

section
/-!
PROOFS. The flow table's invariant (10_state R40 to R43, R46). Each procedure writes a record that is `FlowOk`
again (`FlowRun.put`); the insertion of a packet is the one that needs the rank, which never exceeds k.
-/

namespace Sys2Proof.Machine

/-! ## Records -/

section
variable {s t : State} {g : U16} {f : FlowRec}

/-- A record's bounds read the parameters, the caps and the field order alone. -/
theorem State.FlowOk.of_eq (h : s.FlowOk f) (hpar : t.params = s.params) (henc : t.encCap = s.encCap)
    (hrec : t.recCap = s.recCap) (hq : t.q = s.q) : t.FlowOk f := by
  have hqn : t.qn = s.qn := congrArg BitVec.toNat hq
  have hgf : t.gf = s.gf := by rw [State.gf, State.gf, hqn, hpar]
  have helems : t.elems = s.elems := by
    funext v
    rw [State.elems, State.elems, hqn]
  exact ⟨h.k_pos, hpar ▸ h.k_le, henc ▸ hrec ▸ h.counter, hpar ▸ h.txSize, h.rxSize, h.matSize, h.matWidth,
    helems ▸ h.txElems, helems ▸ h.rxElems, helems ▸ h.matElems, h.collecting, hgf ▸ h.independent⟩

theorem matRank_nil (F : Gf) (n : Nat) : matRank F n [] = 0 := by
  have hcols : ∀ cols, rankCols F cols [] = 0 := fun cols => by
    induction cols with
    | nil => rfl
    | cons col cols ih => exact ih
  exact hcols _

/-- A record without received packets (RESET_MATRIX, a new fragment): the coefficient matrix says nothing. -/
theorem State.FlowOk.of_reset {k : Byte} {frag : U16} {txCounter : U32} {fwd : Bool} {tx : List (List Byte)}
    {sport dport : U16} {ft : Option Timer} (hk : k ≠ 0) (hkm : k.toNat ≤ s.params.kMax)
    (hcount : txCounter.toNat ≤ max s.encCap.toNat s.recCap.toNat + 1) (hsize : tx.length ≤ s.params.txbufMax)
    (htx : ∀ p ∈ tx, s.elems p = true) :
    s.FlowOk { k, rank := 0, frag, txCounter, fwd, mat := [], tx, rx := [], sport, dport, ft } :=
  { k_pos := hk
    k_le := hkm
    counter := hcount
    txSize := hsize
    rxSize := rfl
    matSize := (Nat.zero_min _).symm
    matWidth := List.forall_mem_nil _
    txElems := htx
    rxElems := List.forall_mem_nil _
    matElems := List.forall_mem_nil _
    collecting := fun _ => (BitVec.pos_iff_ne_zero _).2 hk
    independent := fun _ => matRank_nil _ _ }

/-- The counter, the timer and the fragment number may move. -/
theorem State.FlowOk.set (h : s.FlowOk f) (frag : U16) {txCounter : U32} (ft : Option Timer)
    (hcount : txCounter.toNat ≤ max s.encCap.toNat s.recCap.toNat + 1) :
    s.FlowOk { f with frag, txCounter, ft } :=
  ⟨h.k_pos, h.k_le, hcount, h.txSize, h.rxSize, h.matSize, h.matWidth, h.txElems, h.rxElems, h.matElems,
    h.collecting, h.independent⟩

/-- With a filled txBuffer, 10_state R46 claims nothing (log 9). -/
theorem State.FlowOk.setTx (h : s.FlowOk f) {tx : List (List Byte)} (ft : Option Timer) (hne : tx ≠ [])
    (hsize : tx.length ≤ s.params.txbufMax) (htx : ∀ p ∈ tx, s.elems p = true) :
    s.FlowOk { f with tx, ft } :=
  ⟨h.k_pos, h.k_le, h.counter, hsize, h.rxSize, h.matSize, h.matWidth, htx, h.rxElems, h.matElems,
    fun h0 => absurd h0 hne, fun h0 => absurd h0 hne⟩

/-- At rank 0 there are no rows: another k will do. -/
theorem State.FlowOk.mat_of_rank_zero (h : s.FlowOk f) (h0 : f.rank = 0) : f.mat = [] ∧ f.rx = [] := by
  have hm := h.matSize
  have hr := h.rxSize
  rw [h0] at hm hr
  exact ⟨List.eq_nil_of_length_eq_zero (hm.trans (Nat.zero_min _)), List.eq_nil_of_length_eq_zero hr⟩

/-- INDEP holds below rank k only: the rows would be k + 1 independent ones otherwise. -/
theorem lt_of_indep {F : Gf} {n : Nat} {rows : List (List Byte)} {v : List Byte}
    (h : indep F n rows v = true) : rows.length < n := by
  have hrank := rankCols_le F (List.range n) (rows ++ [v])
  rw [indep, beq_iff_eq, matRank] at h
  rw [h, List.length_range] at hrank
  exact hrank

/-- The record with an independent packet inserted below full rank. -/
theorem State.FlowOk.inserted (h : s.FlowOk f) {v p : List Byte} (hv : v.length = f.k.toNat)
    (hvElems : s.elems v = true) (hp : s.elems p = true) (hne : f.rank + 1 ≠ f.k)
    (hind : indep s.gf f.k.toNat (f.rows f.k.toNat f.rank.toNat) v = true) :
    s.FlowOk (f.inserted v p) := by
  have hlt : f.rank.toNat < f.k.toNat := by
    have := lt_of_indep hind
    rwa [FlowRec.length_rows] at this
  have hrank : (f.rank + 1).toNat = f.rank.toNat + 1 := by
    have := f.k.isLt
    rw [BitVec.toNat_add]
    exact Nat.mod_eq_of_lt (by simp; omega)
  have hmat : f.mat.length = f.rank.toNat := by rw [h.matSize]; omega
  have hset : (f.inserted v p).mat = f.mat ++ [v] := by
    rw [FlowRec.inserted, ← hmat, setRow_length]
  have hlast : ∀ {P : List Byte → Prop} {l : List (List Byte)} {x : List Byte}, (∀ r ∈ l, P r) → P x →
      ∀ r ∈ l ++ [x], P r := fun hl hx r hr => (List.mem_append.1 hr).elim (hl r) fun hr =>
    List.mem_singleton.1 hr ▸ hx
  refine
    { k_pos := h.k_pos
      k_le := h.k_le
      counter := h.counter
      txSize := h.txSize
      rxSize := ?_
      matSize := ?_
      matWidth := hset ▸ hlast h.matWidth hv
      txElems := h.txElems
      rxElems := hlast h.rxElems hp
      matElems := hset ▸ hlast h.matElems hvElems
      collecting := fun _ => ?_
      independent := fun _ => ?_ }
  · show (f.rx ++ [p]).length = (f.rank + 1).toNat
    rw [hrank, List.length_append, h.rxSize, List.length_singleton]
  · show _ = min (f.rank + 1).toNat f.k.toNat
    rw [hset, hrank, List.length_append, hmat, List.length_singleton]
    omega
  · show f.rank + 1 < f.k
    have hne' : (f.rank + 1).toNat ≠ f.k.toNat := fun heq => hne (BitVec.eq_of_toNat_eq heq)
    rw [BitVec.lt_def]
    omega
  · show matRank s.gf f.k.toNat ((f.inserted v p).rows f.k.toNat (f.rank + 1).toNat) = (f.rank + 1).toNat
    rw [hrank, rows_setRow f (f.inserted v p) _ _ v hv rfl]
    rw [indep, beq_iff_eq, FlowRec.length_rows] at hind
    exact hind

/-- The effective k of a flow timer (46_rlnc R296): the short batch waits in the txBuffer. -/
theorem State.FlowOk.shrink (h : s.FlowOk f) (hpos : 0 < f.tx.length) (hlt : f.tx.length < f.k.toNat) :
    s.FlowOk { f with
      ft := none
      k := BitVec.ofNat 8 f.tx.length
      mat := (f.mat.take f.tx.length).map (List.take f.tx.length) } := by
  have hne : f.tx ≠ [] := List.ne_nil_of_length_pos hpos
  have hk : (BitVec.ofNat 8 f.tx.length).toNat = f.tx.length := by
    have := f.k.isLt
    rw [BitVec.toNat_ofNat]
    exact Nat.mod_eq_of_lt (by omega)
  have hrow : ∀ {P : List Byte → Prop}, (∀ r ∈ f.mat, P (r.take f.tx.length)) →
      ∀ r ∈ (f.mat.take f.tx.length).map (List.take f.tx.length), P r := by
    intro P hP r hr
    obtain ⟨w, hw, rfl⟩ := List.mem_map.1 hr
    exact hP w (List.mem_of_mem_take hw)
  refine
    { k_pos := fun h0 => ?_
      k_le := ?_
      counter := h.counter
      txSize := h.txSize
      rxSize := h.rxSize
      matSize := ?_
      matWidth := hrow fun r hr => ?_
      txElems := h.txElems
      rxElems := h.rxElems
      matElems := hrow fun r hr => ?_
      collecting := fun h0 => absurd h0 hne
      independent := fun h0 => absurd h0 hne }
  · have := congrArg BitVec.toNat h0
    rw [hk] at this
    exact absurd this (Nat.ne_of_gt hpos)
  · rw [hk]
    exact hlt.le.trans h.k_le
  · show _ = min f.rank.toNat _
    rw [hk, List.length_map, List.length_take, h.matSize]
    omega
  · rw [hk, List.length_take, h.matWidth r hr]
    omega
  · exact List.all_eq_true.2 fun x hx =>
      List.all_eq_true.1 (h.matElems r hr) x (List.mem_of_mem_take hx)

/-! ## The table -/

/-- The flow table's invariant in RUN. -/
def State.FlowRun (s : State) : Prop := s.FlowInv ∧ s.phase = .run

theorem State.FlowRun.of_eq (h : s.FlowRun) (hflows : t.flows = s.flows) (hpar : t.params = s.params)
    (henc : t.encCap = s.encCap) (hrec : t.recCap = s.recCap) (hq : t.q = s.q) (hk : t.kcfg = s.kcfg)
    (hphase : t.phase = s.phase) : t.FlowRun := by
  obtain ⟨⟨h1, h2, h3, h4, h5, h6, h7⟩, hrun⟩ := h
  exact ⟨⟨hflows ▸ h1, hflows ▸ hpar ▸ h2, fun e he => (h3 e (hflows ▸ he)).of_eq hpar henc hrec hq,
    henc ▸ hrec ▸ h4, hphase ▸ hk ▸ h5, hk ▸ hpar ▸ h6, hphase ▸ hflows ▸ h7⟩, hphase.trans hrun⟩

theorem State.FlowRun.flowOk (h : s.FlowRun) (hf : Table.find g s.flows = some f) : s.FlowOk f :=
  h.1.flow _ (Table.mem_of_find hf)

/-- Room for the record of flow g. -/
def State.RoomFor (s : State) (g : U16) : Prop :=
  (Table.find g s.flows).isSome = true ∨ s.flows.length < s.params.flowsMax

theorem State.RoomFor.of_find (hf : Table.find g s.flows = some f) : s.RoomFor g := .inl (by rw [hf]; rfl)

theorem State.FlowRun.roomFor_of_new (h : s.FlowRun) (hroom : s.flows.length ≠ s.params.flowsMax) :
    s.RoomFor g := .inr (Nat.lt_of_le_of_ne h.1.records hroom)

theorem State.FlowRun.put (h : s.FlowRun) (hf : s.FlowOk f) (hroom : s.RoomFor g) :
    (s.putFlow g f).FlowRun := by
  obtain ⟨⟨h1, h2, h3, h4, h5, h6, -⟩, hrun⟩ := h
  refine ⟨⟨Table.put_wf h1, ?_, fun e he => ?_, h4, h5, h6,
    fun hc => absurd (hrun.symm.trans hc) (by decide)⟩, hrun⟩
  · show (Table.put g f s.flows).length ≤ _
    rw [Table.length_put g f h1]
    split
    · exact h2
    · next hnone => exact hroom.resolve_left hnone
  · refine State.FlowOk.of_eq (s := s) ?_ rfl rfl rfl rfl
    rcases Table.mem_put he with rfl | he
    · exact hf
    · exact h3 e he

/-! ## The procedures -/

theorem State.FlowRun.counter_succ (h : s.FlowRun) {c cap : U32} (hc : c ≤ cap)
    (hcap : cap = s.encCap ∨ cap = s.recCap) :
    (c + 1).toNat ≤ max s.encCap.toNat s.recCap.toNat + 1 := by
  obtain ⟨henc, hrec⟩ := h.1.caps
  rw [BitVec.le_def] at hc
  have hle : (c + 1).toNat ≤ c.toNat + 1 := by
    rw [BitVec.toNat_add]
    exact Nat.mod_le ..
  rcases hcap with rfl | rfl <;> omega

theorem State.FlowRun.encodeOrKeep (h : s.FlowRun) (hf : s.FlowOk f) (hroom : s.RoomFor g) :
    (s.encodeOrKeep g f).FlowRun := by
  cases hok : s.encOk f with
  | false =>
    rw [encodeOrKeep_notFired g f hok]
    exact h.put hf hroom
  | true =>
    rw [encodeOrKeep_fired g f hok]
    have hcount := h.counter_succ (encOk_iff.1 hok).2.2 (.inl rfl)
    exact (h.put (hf.set f.frag f.ft hcount) hroom).of_eq rfl rfl rfl rfl rfl rfl rfl

theorem State.FlowRun.encodeCore (h : s.FlowRun) (hf : Table.find g s.flows = some f)
    (ht : s.encodeCore g f = some t) : t.FlowRun := by
  have hkeep : s.encodeOrKeep g f = t := by rw [State.encodeOrKeep, ht, Option.getD_some]
  exact hkeep ▸ h.encodeOrKeep (h.flowOk hf) (.of_find hf)

theorem State.FlowRun.decodeCore (h : s.FlowRun) (hf : s.FlowOk { f with rank := 0, mat := [], rx := [] })
    (hroom : s.RoomFor g) : (s.decodeCore g f).FlowRun := by
  rw [decodeCore_eq]
  exact (h.put (hf.set (f.frag + 1) (txCounter := 0) f.ft (Nat.zero_le _)) hroom).of_eq
    rfl rfl rfl rfl rfl rfl rfl

theorem State.FlowOk.reset (h : s.FlowOk f) : s.FlowOk { f with rank := 0, mat := [], rx := [] } :=
  .of_reset h.k_pos h.k_le h.counter h.txSize h.txElems

theorem State.FlowRun.changeFragmentCore (h : s.FlowRun) {nfrag : U16} (hf : Table.find g s.flows = some f)
    (ht : s.changeFragmentCore g f nfrag = some t) : t.FlowRun := by
  have hok := h.flowOk hf
  have hroom := State.RoomFor.of_find hf
  have hkcfg := h.1.configured h.2
  have hdrop : (f.tx.drop (min f.k.toNat f.tx.length)).length ≤ s.params.txbufMax :=
    (List.drop_sublist ..).length_le.trans hok.txSize
  have helems : ∀ p ∈ f.tx.drop (min f.k.toNat f.tx.length), s.elems p = true :=
    fun p hp => hok.txElems p (List.mem_of_mem_drop hp)
  rw [changeFragmentCore_eq] at ht
  split at ht
  · cases ht
    exact (h.put (.of_reset hok.k_pos hok.k_le (Nat.zero_le _) (Nat.zero_le _) (List.forall_mem_nil _))
      hroom).of_eq rfl rfl rfl rfl rfl rfl rfl
  · split at ht
    · cases ht
    · split at ht
      · cases ht
        exact h.encodeOrKeep (.of_reset hkcfg h.1.kcfg_le (Nat.zero_le _) hdrop helems) hroom
      · cases ht
        exact (h.put (.of_reset hkcfg h.1.kcfg_le (Nat.zero_le _) hdrop helems) hroom).of_eq
          rfl rfl rfl rfl rfl rfl rfl

theorem State.FlowRun.changeFragmentEnding (h : s.FlowRun) (g nfrag : U16) :
    (s.changeFragmentEnding g nfrag).left.FlowRun := by
  unfold State.changeFragmentEnding
  split
  · exact h
  · next hf =>
    split
    · exact h
    · next ht => exact h.changeFragmentCore hf ht

theorem State.FlowRun.flowExpire (h : s.FlowRun) (g : U16) : (s.flowExpire g).FlowRun := by
  rw [flowExpire_eq]
  split
  · exact h
  · next f hf =>
    have hok := h.flowOk hf
    split
    · next hshort => exact h.encodeOrKeep (hok.shrink hshort.1 hshort.2) (.of_find hf)
    · exact h.put (hok.set f.frag none hok.counter) (.of_find hf)

theorem State.FlowRun.insertRow (h : s.FlowRun) (hf : s.FlowOk f) (hroom : s.RoomFor g) {v p : List Byte}
    (hv : v.length = f.k.toNat) (hvElems : s.elems v = true) (hp : s.elems p = true) :
    (s.insertRow g f v p).left.FlowRun := by
  rw [insertRow_outcomes]
  split_ifs with hdep hfull
  · exact h.put hf hroom
  · exact h.decodeCore hf.reset hroom
  · have hind : indep s.gf f.k.toNat (f.rows f.k.toNat f.rank.toNat) v = true := by
      rw [← Bool.not_eq_false]
      exact fun h0 => hdep (.inr h0)
    exact h.put (hf.inserted hv hvElems hp hfull hind) hroom

theorem State.FlowRun.receiveData (h : s.FlowRun) (hf : s.FlowOk f) (hroom : s.RoomFor g) {r : IntraHeader}
    {p : List Byte} (hk : r.k ≠ 0) (hkm : r.k.toNat ≤ s.params.kMax) (hv : r.coeff.length = r.k.toNat)
    (hvElems : s.elems r.coeff = true) (hp : s.elems p = true) :
    (s.receiveData g f r p).left.FlowRun := by
  unfold State.receiveData
  split_ifs with hbehind hahead hzero hother
  · exact h.of_eq rfl rfl rfl rfl rfl rfl rfl
  · exact h.insertRow (.of_reset hk hkm (Nat.zero_le _) hf.txSize hf.txElems) hroom hv hvElems hp
  · obtain ⟨hmat, hrx⟩ := hf.mat_of_rank_zero hzero
    refine h.insertRow ?_ hroom hv hvElems hp
    rw [hmat, hrx, hzero]
    exact .of_reset hk hkm hf.counter hf.txSize hf.txElems
  · exact h
  · rw [not_ne_iff] at hother
    exact h.insertRow hf hroom (hother ▸ hv) hvElems hp

theorem State.FlowRun.pushTx (h : s.FlowRun) (hf : s.FlowOk f) (hroom : s.RoomFor g) {p : List Byte}
    (hp : s.elems p = true) : (s.pushTx g f p).left.FlowRun := by
  have hsize : f.tx.length ≠ s.params.txbufMax → (f.tx ++ [p]).length ≤ s.params.txbufMax := fun hne => by
    have := hf.txSize
    rw [List.length_append, List.length_singleton]
    omega
  have helems : ∀ x ∈ f.tx ++ [p], s.elems x = true := fun x hx =>
    (List.mem_append.1 hx).elim (hf.txElems x) fun hx => List.mem_singleton.1 hx ▸ hp
  unfold State.pushTx
  split_ifs with hfull harm
  · exact h.put hf hroom
  · exact (h.put (hf.setTx _ (by simp) (hsize hfull) helems) hroom).of_eq rfl rfl rfl rfl rfl rfl rfl
  · exact h.put (hf.setTx f.ft (by simp) (hsize hfull) helems) hroom

theorem State.FlowOk.newFlow {k : Byte} {fwd : Bool} {frag sport dport : U16} (hk : k ≠ 0)
    (hkm : k.toNat ≤ s.params.kMax) : s.FlowOk (newFlow k frag fwd sport dport) :=
  .of_reset hk hkm (Nat.zero_le _) (Nat.zero_le _) (List.forall_mem_nil _)

/-! ## The commands -/

theorem elems_of_payloadOk {p : List Byte} (h : s.payloadOk p = true) : s.elems p = true :=
  (Bool.and_eq_true_iff.1 h).2

theorem bitsValue_lt (l : List Bool) : bitsValue l < 2 ^ l.length := by
  induction l with
  | nil => exact Nat.one_pos
  | cons b l ih =>
    rw [bitsValue, List.length_cons, Nat.pow_succ]
    have := Bool.toNat_le b
    omega

/-- What is unpacked from q bits each is below 2^q. -/
theorem isElem_unpack {q k : Nat} {b : List Byte} {x : Byte} (hx : x ∈ unpack q k b) : isElem q x = true := by
  have hchunk : ∀ (k : Nat) (l : List Bool), x ∈ chunkBits q k l → isElem q x = true := by
    intro k
    induction k with
    | zero => exact fun l h => absurd h List.not_mem_nil
    | succ k ih =>
      intro l h
      rcases List.mem_cons.1 h with rfl | h
      · rw [isElem_iff, BitVec.toNat_ofNat]
        calc _ ≤ bitsValue (l.take q) := Nat.mod_le ..
          _ < 2 ^ (l.take q).length := bitsValue_lt _
          _ ≤ 2 ^ q := Nat.pow_le_pow_right (by omega) (by simp)
      · exact ih _ h
  exact hchunk k _ hx

theorem State.FlowRun.txPush (h : s.FlowRun) (a : TxPushArgs) : (txPushBody a s).left.FlowRun := by
  cases hok : s.payloadOk a.payload with
  | false => rwa [txPushBody_refused hok]
  | true =>
    cases hf : Table.find a.flow s.flows with
    | some f =>
      rw [txPushBody_known hok hf]
      exact h.pushTx (h.flowOk hf) (.of_find hf) (elems_of_payloadOk hok)
    | none =>
      by_cases hroom : s.flows.length = s.params.flowsMax
      · rwa [txPushBody_full hok hf hroom]
      · rw [txPushBody_new hok hf hroom]
        exact h.pushTx (.newFlow (h.1.configured h.2) h.1.kcfg_le) (h.roomFor_of_new hroom)
          (elems_of_payloadOk hok)

theorem State.FlowRun.rxPacket (h : s.FlowRun) (fwd : Bool) (a : RxPacketArgs) :
    (rxPacketBody fwd a s).left.FlowRun := by
  unfold rxPacketBody
  split
  · exact h
  · next r hr =>
    split
    · exact h.changeFragmentEnding ..
    · have hlen := intraParse_length hr
      obtain ⟨-, field, -, -, -, hcoeff, -⟩ := intraParse_eq_some_iff.1 hr
      unfold rxDataBody
      split
      · exact h
      next hq =>
      split
      · exact h
      next hk =>
      split
      · exact h
      · next hp =>
        rw [not_ne_iff] at hq
        obtain ⟨hk0, hkm⟩ := not_or.1 hk
        have hvElems : s.elems r.coeff = true := List.all_eq_true.2 fun x hx => by
          rw [hcoeff, hq] at hx
          exact isElem_unpack hx
        have hpElems := elems_of_payloadOk (Bool.not_eq_false _ ▸ hp)
        split
        · next f hf =>
          exact h.receiveData (h.flowOk hf) (.of_find hf) hk0 (Nat.not_lt.1 hkm) hlen hvElems hpElems
        · split
          · exact h
          · next hroom =>
            exact h.receiveData (.newFlow hk0 (Nat.not_lt.1 hkm)) (h.roomFor_of_new hroom) hk0
              (Nat.not_lt.1 hkm) hlen hvElems hpElems

theorem State.FlowRun.encode (h : s.FlowRun) (g : U16) : (encodeBody g s).left.FlowRun := by
  unfold encodeBody
  split
  · exact h
  · next hf =>
    split
    · exact h
    · next ht => exact h.encodeCore hf ht

theorem State.FlowRun.decode (h : s.FlowRun) (g : U16) : (decodeBody g s).left.FlowRun := by
  unfold decodeBody
  split
  · exact h
  · next hf =>
    split
    · exact h
    · exact h.decodeCore (h.flowOk hf).reset (.of_find hf)

theorem State.FlowRun.recode (h : s.FlowRun) (g : U16) : (recodeBody g s).left.FlowRun := by
  unfold recodeBody
  split
  · exact h
  · next f hf =>
    split
    · next hok =>
      obtain ⟨-, -, -, hcap⟩ := recodeOk_iff.1 hok
      have hok := h.flowOk hf
      exact (h.put (hok.set f.frag f.ft (h.counter_succ hcap (.inr rfl))) (.of_find hf)).of_eq
        rfl rfl rfl rfl rfl rfl rfl
    · exact h

theorem State.FlowRun.poolStep (h : s.FlowRun) (ht : s.PoolStep t) : t.FlowRun := by
  obtain ⟨p, o, n, r, rfl⟩ := ht
  exact h.of_eq rfl rfl rfl rfl rfl rfl rfl

theorem State.FlowRun.fireDue (h : s.FlowRun) (n : Nat) (u : U64) : (State.fireDue n u s).left.FlowRun := by
  induction n generalizing s with
  | zero => exact h
  | succ n ih =>
    rw [State.fireDue]
    split
    · exact h
    · next e _ =>
      refine Proc.andThen_left (R := fun s t => s.FlowRun → t.FlowRun) (fun h1 h2 h => h2 (h1 h)) ?_
        (fun s' h' => ih h') (s := s) h
      intro _
      have hnow : State.FlowRun { s with now := e.1.deadline.setWidth 64 } :=
        h.of_eq rfl rfl rfl rfl rfl rfl rfl
      obtain ⟨tm, who⟩ := e
      cases who with
      | pool fk => exact hnow.poolStep (poolExpire_step ..)
      | flow f => exact hnow.flowExpire f

/-- The commands that write a flow's record. -/
theorem State.FlowRun.writesFlow (h : s.FlowRun) {i : Instr} (hi : writesFlow i = some g) :
    (rule i s).left.FlowRun := by
  cases i with
  | txPush o =>
    cases o with
    | ok a => exact h.txPush a
    | bad bs => cases hi
  | encode o =>
    cases o with
    | ok a => exact h.encode a
    | bad bs => cases hi
  | rxPacket fwd o =>
    cases o with
    | ok a => exact h.rxPacket fwd a
    | bad bs => cases hi
  | decode o =>
    cases o with
    | ok a => exact h.decode a
    | bad bs => cases hi
  | recode o =>
    cases o with
    | ok a => exact h.recode a
    | bad bs => cases hi
  | changeFragment o =>
    cases o with
    | ok a => exact h.changeFragmentEnding ..
    | bad bs => cases hi
  | _ => cases hi

theorem State.FlowRun.rule (h : s.FlowRun) {i : Instr} (hn : phaseNeed i = .run) :
    (rule i s).left.FlowRun := by
  rcases rule_run_cases s hn with ⟨d, c, heq⟩ | ⟨g, hg⟩ | ⟨native, a, rfl⟩ | ⟨b, oq, -, heq⟩ | ⟨u, rfl⟩
  · rw [heq]
    exact h.of_eq rfl rfl rfl rfl rfl rfl rfl
  · exact h.writesFlow hg
  · exact h.poolStep (poolInsertBody_step ..)
  · rw [heq]
    exact h.of_eq rfl rfl rfl rfl rfl rfl rfl
  · rw [Machine.rule, Args.ending_ok, timeAdvanceBody]
    split
    · exact h
    · rw [Proc.left_respondOk]
      exact Proc.andThen_left (R := fun s t => s.FlowRun → t.FlowRun) (fun h1 h2 h => h2 (h1 h))
        (fun h => h.fireDue _ u) (fun s' h' => h'.of_eq rfl rfl rfl rfl rfl rfl rfl) (s := s) h

/-- An empty flow table, with the caps and KCFG in range. -/
theorem State.FlowInv.of_empty (hflows : s.flows = []) (henc : s.encCap.toNat < 2 ^ 31)
    (hrec : s.recCap.toNat < 2 ^ 31) (hrun : s.phase = .run → s.kcfg ≠ 0)
    (hk : s.kcfg.toNat ≤ s.params.kMax) : s.FlowInv :=
  ⟨by rw [hflows]; rfl, by rw [hflows]; exact Nat.zero_le _, by rw [hflows]; exact List.forall_mem_nil _,
    ⟨henc, hrec⟩, hrun, hk, fun _ => hflows⟩

theorem State.FlowInv.applyReset (s : State) : s.applyReset.FlowInv :=
  .of_empty rfl (show (5 : U32).toNat < 2 ^ 31 by decide) (show (1 : U32).toNat < 2 ^ 31 by decide)
    (fun h => nomatch h) (Nat.zero_le _)

/-- CFG_WRITE keeps KCFG and the caps in range; in CONFIG there is no flow. -/
theorem State.FlowInv.writeReg {r : Reg} {v : U32} (h : s.FlowInv) (hc : s.phase = .config)
    (hr : r.inRange s.params v.toNat = true) : (s.writeReg r v).FlowInv := by
  have hflows := h.fresh hc
  obtain ⟨henc, hrec⟩ := h.caps
  have hnot : ∀ {p : Prop}, (s.writeReg r v).phase = .run → p := fun hrun => by
    rw [writeReg_phase, hc] at hrun
    cases hrun
  have hk := h.kcfg_le
  cases r with
  | kcfg =>
    refine .of_empty hflows henc hrec hnot ?_
    have hv : v.toNat ≤ s.params.kMax := of_decide_eq_true (Bool.and_eq_true_iff.1 hr).2
    show (v.setWidth 8).toNat ≤ _
    rw [BitVec.toNat_setWidth]
    exact (Nat.mod_le ..).trans hv
  | encCap => exact .of_empty hflows (of_decide_eq_true hr) hrec hnot hk
  | recCap => exact .of_empty hflows henc (of_decide_eq_true hr) hnot hk
  | _ => exact .of_empty hflows henc hrec hnot hk

end

/-- Settles O58, by the kinds of step (`step_invariant`). -/
theorem stepKeepsFlowInv : Obligations.StepKeepsFlowInv := by
  refine fun s t hs h => step_invariant hs h (fun s cmdIn outputs hs => ?_) (.applyReset s)
    (fun s r v hs hc _ hr => hs.writeReg hc hr) (fun s hs hc _ _ hk => ?_) fun s i hs hrun _ hn => ?_
  · exact ⟨hs.keys, hs.records, fun e he => (hs.flow e he).of_eq rfl rfl rfl rfl, hs.caps, hs.configured,
      hs.kcfg_le, hs.fresh⟩
  · exact .of_empty (hs.fresh hc) hs.caps.1 hs.caps.2 (fun _ => hk) hs.kcfg_le
  · obtain ⟨faulted, fcode, outputs, hfin⟩ := (rule i s).finish_frame
    have h1 : (rule i s).left.FlowRun := State.FlowRun.rule ⟨hs, hrun⟩ hn
    rw [hfin]
    exact (State.FlowRun.of_eq (t := { (rule i s).left with faulted, fcode, outputs }) h1
      rfl rfl rfl rfl rfl rfl rfl).1

end Sys2Proof.Machine
end

section
/-!
PROOFS. The timers (10_state R32, R35, R48). With the tables in canonical form a timer is what its owner holds
(`State.timerOf`), so that the clocks are statements about `find` (`timed_iff`). A procedure keeps them when
every timer it leaves is an old one or one armed with TSEQ (`Timed.update`).
-/

namespace Sys2Proof.Machine

section
variable {s t : State} {g : U16}

/-! ## Timers by their owner -/

/-- The timer armed for an owner. -/
def State.timerOf (s : State) : Owner → Option Timer
  | .pool fk => (Table.find fk s.pool).map Bucket.timer
  | .flow g => (Table.find g s.flows).bind FlowRec.ft

/-- Both tables are in canonical form. -/
structure State.Keyed (s : State) : Prop where
  pool : Table.wf s.pool = true
  flows : Table.wf s.flows = true

theorem mem_armedTimers (hk : s.Keyed) {tm : Timer} {o : Owner} :
    (tm, o) ∈ s.armedTimers ↔ s.timerOf o = some tm := by
  simp only [State.armedTimers, List.mem_append, List.mem_map, List.mem_filterMap, Option.map_eq_some_iff,
    Prod.mk.injEq, Prod.exists]
  cases o with
  | pool fk =>
    simp only [State.timerOf, Option.map_eq_some_iff, Table.find_eq_some_iff hk.pool]
    constructor
    · rintro (⟨k, b, hmem, rfl, hk⟩ | ⟨k, f, -, tm', -, -, hk⟩)
      · cases hk
        exact ⟨b, hmem, rfl⟩
      · cases hk
    · rintro ⟨b, hmem, rfl⟩
      exact .inl ⟨fk, b, hmem, rfl, rfl⟩
  | flow g =>
    simp only [State.timerOf, Option.bind_eq_some_iff, Table.find_eq_some_iff hk.flows]
    constructor
    · rintro (⟨k, b, -, -, hk⟩ | ⟨k, f, hmem, tm', hft, rfl, hk⟩)
      · cases hk
      · cases hk
        exact ⟨f, hmem, hft⟩
    · rintro ⟨f, hmem, hft⟩
      exact .inr ⟨g, f, hmem, tm, hft, rfl, rfl⟩

/-- Every owner has one timer at most. -/
theorem nodup_owners (hk : s.Keyed) : (s.armedTimers.map Prod.snd).Nodup := by
  have hne : ∀ {a b : U16}, a < b → a ≠ b := fun hlt heq => BitVec.lt_irrefl _ (heq ▸ hlt)
  rw [State.armedTimers, List.map_append, List.map_map, List.map_filterMap]
  refine List.nodup_append.2 ⟨?_, ?_, ?_⟩
  · refine List.pairwise_map.2 ((Table.wf_iff_pairwise.1 hk.pool).imp fun hlt heq => ?_)
    exact hne hlt (Owner.pool.inj heq)
  · refine List.pairwise_filterMap.2 ((Table.wf_iff_pairwise.1 hk.flows).imp fun hlt o ho o' ho' heq => ?_)
    simp only [Option.map_map, Option.map_eq_some_iff, Function.comp_apply] at ho ho'
    obtain ⟨-, -, rfl⟩ := ho
    obtain ⟨-, -, rfl⟩ := ho'
    exact hne hlt (Owner.flow.inj heq)
  · intro a ha b hb hab
    obtain ⟨e, -, rfl⟩ := List.mem_map.1 ha
    obtain ⟨e', -, he'⟩ := List.mem_filterMap.1 hb
    simp only [Option.map_map, Option.map_eq_some_iff, Function.comp_apply] at he'
    obtain ⟨-, -, rfl⟩ := he'
    cases hab

/-- What 10_state R32, R35 and R48 say of a bucket. -/
structure State.BucketTimed (s : State) (b : Bucket) : Prop where
  bound : b.timer.deadline = deadlineAfter b.head.ts s.btoInter
  ordered : b.items.Pairwise fun a b => a.ts ≤ b.ts
  recorded : ∀ it ∈ b.items, it.ts ≤ s.now

/-- The tables in canonical form and the clocks, by what the tables find. -/
structure State.Timed (s : State) : Prop where
  keyed : s.Keyed
  bucket : ∀ {g b}, Table.find g s.pool = some b → s.BucketTimed b
  armed : ∀ {o tm}, s.timerOf o = some tm → s.now.setWidth 65 ≤ tm.deadline ∧ tm.seq < s.tseq
  distinct : ∀ {o o' tm tm'}, s.timerOf o = some tm → s.timerOf o' = some tm' → tm.seq = tm'.seq → o = o'

theorem timed_iff (hk : s.Keyed) : s.Timed ↔ s.Clocks := by
  have hnodup : s.armedTimers.Nodup := (nodup_owners hk).of_map _
  constructor
  · intro h
    refine ⟨fun e he => ?_, fun e he => ?_, fun e he => ?_, fun e he => ?_, fun e he => ?_, ?_⟩
    · exact (h.bucket ((Table.find_eq_some_iff hk.pool).2 he)).bound
    · exact (h.bucket ((Table.find_eq_some_iff hk.pool).2 he)).ordered
    · exact (h.bucket ((Table.find_eq_some_iff hk.pool).2 he)).recorded
    · exact (h.armed ((mem_armedTimers hk).1 he)).1
    · exact (h.armed ((mem_armedTimers hk).1 he)).2
    · refine (List.nodup_map_iff_inj_on hnodup).2 fun e he e' he' heq => ?_
      have h1 := (mem_armedTimers hk).1 he
      have h2 := (mem_armedTimers hk).1 he'
      have ho := h.distinct h1 h2 heq
      rw [ho, h2] at h1
      exact Prod.ext (Option.some.inj h1).symm ho
  · rintro ⟨h1, h2, h3, h4, h5, h6⟩
    refine ⟨hk, fun hb => ?_, fun ho => ?_, fun ho ho' heq => ?_⟩
    · have hmem := Table.mem_of_find hb
      exact ⟨h1 _ hmem, h2 _ hmem, h3 _ hmem⟩
    · have hmem := (mem_armedTimers hk).2 ho
      exact ⟨h4 _ hmem, h5 _ hmem⟩
    · have hinj := (List.nodup_map_iff_inj_on hnodup).1 h6 _ ((mem_armedTimers hk).2 ho) _
        ((mem_armedTimers hk).2 ho') heq
      exact congrArg Prod.snd hinj

/-! ## What an operation does to the timers -/

theorem State.Keyed.putBucket (hk : s.Keyed) (g : U16) (b : Bucket) : (s.putBucket g b).Keyed :=
  ⟨Table.put_wf hk.pool, hk.flows⟩

theorem State.Keyed.putFlow (hk : s.Keyed) (g : U16) (f : FlowRec) : (s.putFlow g f).Keyed :=
  ⟨hk.pool, Table.put_wf hk.flows⟩

theorem timerOf_putBucket (s : State) (g : U16) (b : Bucket) (o : Owner) :
    (s.putBucket g b).timerOf o = if o = .pool g then some b.timer else s.timerOf o := by
  cases o with
  | pool fk =>
    show (Table.find fk (Table.put g b s.pool)).map _ = _
    rw [Table.find_put]
    by_cases h : fk = g
    · rw [if_pos h, if_pos (by rw [h])]
      rfl
    · rw [if_neg h, if_neg fun h' => h (Owner.pool.inj h')]
      rfl
  | flow g' =>
    rw [if_neg (by simp)]
    rfl

theorem timerOf_putFlow (s : State) (g : U16) (f : FlowRec) (o : Owner) :
    (s.putFlow g f).timerOf o = if o = .flow g then f.ft else s.timerOf o := by
  cases o with
  | pool fk =>
    rw [if_neg (by simp)]
    rfl
  | flow g' =>
    show (Table.find g' (Table.put g f s.flows)).bind _ = _
    rw [Table.find_put]
    by_cases h : g' = g
    · rw [if_pos h, if_pos (by rw [h])]
      rfl
    · rw [if_neg h, if_neg fun h' => h (Owner.flow.inj h')]
      rfl

theorem timerOf_erase (hk : s.Keyed) (g : U16) (o : Owner) :
    State.timerOf { s with pool := Table.erase g s.pool } o = if o = .pool g then none else s.timerOf o := by
  cases o with
  | pool fk =>
    show (Table.find fk (Table.erase g s.pool)).map _ = _
    rw [Table.find_erase hk.pool]
    by_cases h : fk = g
    · rw [if_pos h, if_pos (by rw [h])]
      rfl
    · rw [if_neg h, if_neg fun h' => h (Owner.pool.inj h')]
      rfl
  | flow g' =>
    rw [if_neg (by simp)]
    rfl

/-- The timers of `t` are those of `s`, but for one of `o0` that was armed with TSEQ. -/
def State.ArmsAtMost (s t : State) (o0 : Owner) : Prop :=
  ∀ o tm, t.timerOf o = some tm → s.timerOf o = some tm ∨
    (o = o0 ∧ tm.seq = s.tseq ∧ s.tseq < t.tseq ∧ s.now.setWidth 65 ≤ tm.deadline)

/-- Old timers and one new one are right timers. -/
theorem State.Timed.update (h : s.Timed) (hk : t.Keyed) (hnow : t.now = s.now) (htseq : s.tseq ≤ t.tseq)
    (hbucket : ∀ {g b}, Table.find g t.pool = some b → t.BucketTimed b) {o0 : Owner}
    (harm : s.ArmsAtMost t o0) : t.Timed := by
  refine ⟨hk, hbucket, fun ho => ?_, fun {o o' tm tm'} ho ho' heq => ?_⟩
  · rw [hnow]
    rcases harm _ _ ho with hold | ⟨-, hseq, hlt, hdl⟩
    · obtain ⟨hdl, hseq⟩ := h.armed hold
      exact ⟨hdl, hseq.trans_le htseq⟩
    · exact ⟨hdl, hseq ▸ hlt⟩
  · rcases harm _ _ ho with hold | ⟨rfl, hseq, -, -⟩ <;> rcases harm _ _ ho' with hold' | ⟨rfl, hseq', -, -⟩
    · exact h.distinct hold hold' heq
    · have := (h.armed hold).2
      omega
    · have := (h.armed hold').2
      omega
    · rfl

/-- The tables and the clock alone decide. -/
theorem State.Timed.of_eq (h : s.Timed) (hpool : t.pool = s.pool) (hflows : t.flows = s.flows)
    (hnow : t.now = s.now) (htseq : t.tseq = s.tseq) (hbto : t.btoInter = s.btoInter) : t.Timed := by
  have htimer : t.timerOf = s.timerOf := by
    funext o
    cases o with
    | pool fk => exact congrArg (fun p => (Table.find fk p).map Bucket.timer) hpool
    | flow g => exact congrArg (fun p => (Table.find g p).bind FlowRec.ft) hflows
  refine h.update ⟨hpool ▸ h.keyed.pool, hflows ▸ h.keyed.flows⟩ hnow htseq.ge (fun hb => ?_)
    (o0 := .pool 0) fun o tm ho => .inl (htimer ▸ ho)
  obtain ⟨h1, h2, h3⟩ := h.bucket (hpool ▸ hb)
  exact ⟨hbto ▸ h1, h2, hnow ▸ h3⟩

/-! ## The pool's procedures -/

theorem State.BucketTimed.of_eq {b : Bucket} (h : s.BucketTimed b) (hbto : t.btoInter = s.btoInter)
    (hnow : t.now = s.now) : t.BucketTimed b := by
  obtain ⟨h1, h2, h3⟩ := h
  exact ⟨hbto ▸ h1, h2, hnow ▸ h3⟩

theorem deadlineAfter_mono {a b : U64} (h : a ≤ b) (d : U32) : deadlineAfter a d ≤ deadlineAfter b d := by
  rw [BitVec.le_def, deadlineAfter_toNat, deadlineAfter_toNat]
  exact Nat.add_le_add_right (BitVec.le_def.1 h) _

theorem now_le_deadlineAfter (now : U64) (d : U32) : now.setWidth 65 ≤ deadlineAfter now d := by
  rw [BitVec.le_def, deadlineAfter_toNat, BitVec.toNat_setWidth]
  exact (Nat.mod_le ..).trans (Nat.le_add_right ..)

/-- A bucket of right items put and armed for its head, when no item of it is older than NOW allows. -/
theorem State.Timed.putArmed (h : s.Timed) {x : Item} {xs : List Item}
    (hord : (x :: xs).Pairwise fun a b => a.ts ≤ b.ts) (hrec : ∀ it ∈ x :: xs, it.ts ≤ s.now)
    (hdl : s.now.setWidth 65 ≤ deadlineAfter x.ts s.btoInter) :
    State.Timed { s with pool := Table.put g (s.armedBucket x xs) s.pool, tseq := s.tseq + 1 } := by
  refine h.update (o0 := .pool g) ⟨Table.put_wf h.keyed.pool, h.keyed.flows⟩ rfl (Nat.le_succ _)
    (fun {g' b} hb => ?_) fun o tm ho => ?_
  · have hb : Table.find g' (Table.put g (s.armedBucket x xs) s.pool) = some b := hb
    rw [Table.find_put] at hb
    split at hb
    · cases hb
      exact ⟨rfl, hord, hrec⟩
    · exact (h.bucket hb).of_eq rfl rfl
  · have ho : (s.putBucket g (s.armedBucket x xs)).timerOf o = some tm := ho
    rw [timerOf_putBucket] at ho
    split at ho
    · next heq =>
      cases ho
      exact .inr ⟨heq, rfl, Nat.lt_succ_self _, hdl⟩
    · exact .inl ho

/-- The items behind a bucket's head are not older, so that the timer bound to one of them is not past. -/
theorem State.Timed.le_deadlineAfter (h : s.Timed) {b : Bucket} (hb : Table.find g s.pool = some b) {it : Item}
    (hit : b.head.ts ≤ it.ts) : s.now.setWidth 65 ≤ deadlineAfter it.ts s.btoInter := by
  have hold : s.timerOf (.pool g) = some b.timer := by rw [State.timerOf, hb]; rfl
  have hdl := (h.armed hold).1
  rw [(h.bucket hb).bound] at hdl
  exact BitVec.le_trans hdl (deadlineAfter_mono hit _)

theorem State.Timed.takeHead (h : s.Timed) {it : Item} (ht : s.takeHead g = some (it, t)) : t.Timed := by
  cases hb : Table.find g s.pool with
  | none =>
    rw [takeHead_eq_none.2 hb] at ht
    cases ht
  | some b =>
    obtain ⟨-, hord, hrec⟩ := h.bucket hb
    rw [takeHead_eq h.keyed.pool hb] at ht
    cases ht
    cases hr : b.rest with
    | nil =>
      have heq : s.withoutHeads [(g, b)] (Table.erase g s.pool) = { s with pool := Table.erase g s.pool } := by
        rw [State.withoutHeads, beheaded_cons_single hr]
        rfl
      rw [heq]
      refine h.update (o0 := .pool g) ⟨Table.erase_wf h.keyed.pool, h.keyed.flows⟩ rfl (Nat.le_refl _)
        (fun {g' b'} hb' => ?_) fun o tm ho => .inl ?_
      · have hb' : Table.find g' (Table.erase g s.pool) = some b' := hb'
        rw [Table.find_erase h.keyed.pool] at hb'
        split at hb'
        · cases hb'
        · exact (h.bucket hb').of_eq rfl rfl
      · rw [timerOf_erase h.keyed] at ho
        split at ho
        · cases ho
        · exact ho
    | cons x xs =>
      have hitems : b.items = b.head :: x :: xs := by rw [Bucket.items, hr]
      rw [hitems] at hord hrec
      obtain ⟨hhead, hord'⟩ := List.pairwise_cons.1 hord
      have heq : s.withoutHeads [(g, b)] (Table.erase g s.pool) =
          { s with pool := Table.put g (s.armedBucket x xs) s.pool, tseq := s.tseq + 1 } := by
        rw [State.withoutHeads, beheaded_cons_more hr]
        simp only [State.beheaded, List.foldr_cons, List.foldr_nil, Table.put_erase h.keyed.pool,
          List.length_singleton]
        rfl
      rw [heq]
      exact h.putArmed hord' (fun it hit => hrec it (List.mem_cons_of_mem _ hit))
        (h.le_deadlineAfter hb (hhead x List.mem_cons_self))

theorem State.Timed.gather (h : s.Timed) (n : Nat) (gs : List U16) : (s.gather n gs).2.Timed := by
  induction gs generalizing n s with
  | nil => exact h
  | cons g gs ih =>
    rw [State.gather]
    split
    · exact h
    · split
      · exact ih h n
      · next ht => exact ih (h.takeHead ht) (n + 1)

theorem State.Timed.pushBatch (h : s.Timed) (first : Item) (others : List Item) :
    (s.pushBatch first others).left.Timed := by
  rw [pushBatch_eq]
  split
  · exact h
  · exact h.of_eq rfl rfl rfl rfl rfl

theorem State.Timed.search (h : s.Timed) (fk : U16) : (s.search fk).left.Timed := by
  rw [search_eq]
  split
  · exact h
  · split
    · exact h
    · next ht => exact ((h.takeHead ht).gather 1 _).pushBatch ..

theorem State.Timed.poolExpire (h : s.Timed) (fk : U16) : (s.poolExpire fk).left.Timed := by
  rw [poolExpire_eq]
  split
  · exact h
  · next ht => exact (h.takeHead ht).pushBatch ..

/-- An item of NOW goes into the pool with the timers kept right; when its insertion faults, the tables keep
their form. -/
theorem State.Timed.insertItem (h : s.Timed) {it : Item} (hts : it.ts = s.now) :
    (s.insertItem it).left.Timed ∨ ∃ u, s.insertItem it = .capacity u ∧ u.Keyed := by
  have hself : ∀ x ∈ [it], x.ts ≤ s.now := fun x hx => by
    rw [List.mem_singleton.1 hx, hts]
    exact BitVec.le_refl _
  cases hf : Table.find it.fk s.pool with
  | none =>
    by_cases hroom : s.pool.length = s.params.poolFlowsMax
    · exact .inr ⟨s, insertItem_noRoom hf hroom, h.keyed⟩
    · rw [insertItem_new_armed h.keyed.pool hf hroom]
      exact .inl (h.putArmed (List.pairwise_singleton ..) hself (hts ▸ now_le_deadlineAfter ..))
  | some b =>
    obtain ⟨hbound, hord, hrec⟩ := h.bucket hf
    have hord' : (b.items ++ [it]).Pairwise fun a b => a.ts ≤ b.ts := List.pairwise_append.2
      ⟨hord, List.pairwise_singleton .., fun a ha x hx => by
        rw [List.mem_singleton.1 hx, hts]
        exact hrec a ha⟩
    have hrec' : ∀ x ∈ b.items ++ [it], x.ts ≤ s.now := fun x hx =>
      (List.mem_append.1 hx).elim (hrec x) (hself x)
    rcases Nat.lt_or_ge b.items.length s.mbs.toNat with hlt | hge
    · rw [insertItem_appended hf hlt]
      refine .inl (h.update (o0 := .pool it.fk) (h.keyed.putBucket ..) rfl (Nat.le_refl _)
        (fun {g' b'} hb' => ?_) fun o tm ho => .inl ?_)
      · have hb' : Table.find g' (Table.put it.fk _ s.pool) = some b' := hb'
        rw [Table.find_put] at hb'
        split at hb'
        · cases hb'
          exact ⟨hbound, hord', hrec'⟩
        · exact (h.bucket hb').of_eq rfl rfl
      · rw [Proc.left_goOn, timerOf_putBucket] at ho
        split at ho
        · next heq =>
          rw [heq, State.timerOf, hf]
          exact ho
        · exact ho
    · obtain ⟨x, xs, hx⟩ := List.exists_cons_of_ne_nil (List.append_ne_nil_of_right_ne_nil b.rest
        (List.cons_ne_nil it []))
      by_cases hoq : s.oq.length = s.params.oqMax
      · exact .inr ⟨_, insertItem_evicted_full hf hge hx hoq, h.keyed.putBucket ..⟩
      · rw [insertItem_evicted_room h.keyed.pool hf hge hx hoq]
        have hitems : b.items ++ [it] = b.head :: x :: xs := congrArg (List.cons b.head) hx
        rw [hitems] at hord' hrec'
        obtain ⟨hhead, hord''⟩ := List.pairwise_cons.1 hord'
        have harmed := h.putArmed (g := it.fk) hord'' (fun y hy => hrec' y (List.mem_cons_of_mem _ hy))
          (h.le_deadlineAfter hf (hhead x List.mem_cons_self))
        exact .inl (harmed.of_eq rfl rfl rfl rfl rfl)

/-! ## The flows' procedures -/

/-- The record's timer, if one is armed, is the one of its flow. -/
def State.KeepsTimer (s : State) (g : U16) (f : FlowRec) : Prop :=
  ∀ tm, f.ft = some tm → s.timerOf (.flow g) = some tm

theorem State.KeepsTimer.of_find {f : FlowRec} (hf : Table.find g s.flows = some f) : s.KeepsTimer g f :=
  fun tm hft => by rw [State.timerOf, hf]; exact hft

theorem State.KeepsTimer.disarmed {f : FlowRec} (h : f.ft = none) : s.KeepsTimer g f :=
  fun tm hft => by rw [h] at hft; cases hft

theorem State.Timed.putFlow (h : s.Timed) {f : FlowRec} (hf : s.KeepsTimer g f) : (s.putFlow g f).Timed := by
  refine h.update (o0 := .flow g) (h.keyed.putFlow ..) rfl (Nat.le_refl _)
    (fun hb => (h.bucket hb).of_eq rfl rfl) fun o tm ho => .inl ?_
  rw [timerOf_putFlow] at ho
  split at ho
  · next heq => exact heq ▸ hf tm ho
  · exact ho

/-- A record put with its timer armed at NOW + BTO_INTRA. -/
theorem State.Timed.armFlow (h : s.Timed) (f : FlowRec) : ((s.putFlow g (s.armFlow f)).countArm).Timed := by
  refine h.update (o0 := .flow g) ⟨h.keyed.pool, Table.put_wf h.keyed.flows⟩ rfl (Nat.le_succ _)
    (fun hb => (h.bucket hb).of_eq rfl rfl) fun o tm ho => ?_
  have ho : (s.putFlow g (s.armFlow f)).timerOf o = some tm := ho
  rw [timerOf_putFlow] at ho
  split at ho
  · next heq =>
    cases ho
    exact .inr ⟨heq, rfl, Nat.lt_succ_self _, now_le_deadlineAfter ..⟩
  · exact .inl ho

theorem State.Timed.encodeOrKeep (h : s.Timed) {f : FlowRec} (hf : s.KeepsTimer g f) :
    (s.encodeOrKeep g f).Timed := by
  cases hok : s.encOk f with
  | false =>
    rw [encodeOrKeep_notFired g f hok]
    exact h.putFlow hf
  | true =>
    rw [encodeOrKeep_fired g f hok]
    exact (h.putFlow (f := { f with txCounter := f.txCounter + 1 }) hf).of_eq rfl rfl rfl rfl rfl

theorem State.Timed.encodeCore (h : s.Timed) {f : FlowRec} (hf : s.KeepsTimer g f)
    (ht : s.encodeCore g f = some t) : t.Timed := by
  have hkeep : s.encodeOrKeep g f = t := by rw [State.encodeOrKeep, ht, Option.getD_some]
  exact hkeep ▸ h.encodeOrKeep hf

theorem State.Timed.decodeCore (h : s.Timed) {f : FlowRec} (hf : s.KeepsTimer g f) :
    (s.decodeCore g f).Timed := by
  rw [decodeCore_eq]
  exact (h.putFlow (f := { f with frag := f.frag + 1, rank := 0, mat := [], rx := [], txCounter := 0 })
    hf).of_eq rfl rfl rfl rfl rfl

theorem State.Timed.changeFragmentEnding (h : s.Timed) (g nfrag : U16) :
    (s.changeFragmentEnding g nfrag).left.Timed := by
  unfold State.changeFragmentEnding
  split
  · exact h
  · next f hf =>
    have hkeep := State.KeepsTimer.of_find hf
    split
    · exact h
    · next ht =>
      unfold State.changeFragmentCore State.changeFragmentForwarder State.changeFragmentSource at ht
      split at ht
      · cases ht
        exact h.putFlow (f := { f.resetMatrix with tx := [], frag := nfrag, txCounter := 0 }) hkeep
      · split at ht
        · cases ht
        · simp only at ht
          split at ht
          · cases ht
            exact h.encodeOrKeep hkeep
          · cases ht
            exact h.armFlow _

theorem State.Timed.flowExpire (h : s.Timed) (g : U16) : (s.flowExpire g).Timed := by
  rw [flowExpire_eq]
  split
  · exact h
  · split
    · exact h.encodeOrKeep (.disarmed rfl)
    · exact h.putFlow (.disarmed rfl)

theorem State.Timed.insertRow (h : s.Timed) {f : FlowRec} (hf : s.KeepsTimer g f) (v p : List Byte) :
    (s.insertRow g f v p).left.Timed := by
  rw [insertRow_outcomes]
  split_ifs
  · exact h.putFlow hf
  · exact h.decodeCore (f := f.inserted v p) hf
  · exact h.putFlow (f := f.inserted v p) hf

theorem State.Timed.receiveData (h : s.Timed) {f : FlowRec} (hf : s.KeepsTimer g f) (r : IntraHeader)
    (p : List Byte) : (s.receiveData g f r p).left.Timed := by
  unfold State.receiveData
  split_ifs
  · exact h.of_eq rfl rfl rfl rfl rfl
  · exact h.insertRow (f := f.ahead r) hf ..
  · exact h.insertRow (f := { f with k := r.k }) hf ..
  · exact h
  · exact h.insertRow hf ..

theorem State.Timed.pushTx (h : s.Timed) {f : FlowRec} (hf : s.KeepsTimer g f) (p : List Byte) :
    (s.pushTx g f p).left.Timed := by
  unfold State.pushTx
  split
  · exact h.putFlow hf
  · simp only
    split
    · exact h.armFlow _
    · exact h.putFlow (f := { f with tx := f.tx ++ [p] }) hf

theorem State.Timed.rxPacket (h : s.Timed) (fwd : Bool) (a : RxPacketArgs) :
    (rxPacketBody fwd a s).left.Timed := by
  unfold rxPacketBody
  split
  · exact h
  · split
    · exact h.changeFragmentEnding ..
    · unfold rxDataBody
      cases hf : Table.find a.flow s.flows with
      | some f =>
        simp only
        split_ifs
        · exact h
        · exact h
        · exact h
        · exact h.receiveData (.of_find hf) ..
      | none =>
        simp only
        split_ifs
        · exact h
        · exact h
        · exact h
        · exact h
        · exact h.receiveData (.disarmed rfl) ..

theorem State.Timed.txPush (h : s.Timed) (a : TxPushArgs) : (txPushBody a s).left.Timed := by
  unfold txPushBody
  split
  · exact h
  · split
    · next hf => exact h.pushTx (.of_find hf) _
    · split
      · exact h
      · exact h.pushTx (.disarmed rfl) _

theorem State.Timed.encode (h : s.Timed) (g : U16) : (encodeBody g s).left.Timed := by
  unfold encodeBody
  split
  · exact h
  · next hf =>
    split
    · exact h
    · next ht => exact h.encodeCore (.of_find hf) ht

theorem State.Timed.decode (h : s.Timed) (g : U16) : (decodeBody g s).left.Timed := by
  unfold decodeBody
  split
  · exact h
  · next hf =>
    split
    · exact h
    · exact h.decodeCore (.of_find hf)

theorem State.Timed.recode (h : s.Timed) (g : U16) : (recodeBody g s).left.Timed := by
  unfold recodeBody
  split
  · exact h
  · next f hf =>
    split
    · have hkeep := State.KeepsTimer.of_find hf
      exact (h.putFlow (f := { f with txCounter := f.txCounter + 1 }) hkeep).of_eq rfl rfl rfl rfl rfl
    · exact h

/-- The commands that write a flow's record. -/
theorem State.Timed.writesFlow (h : s.Timed) {i : Instr} (hi : writesFlow i = some g) :
    (rule i s).left.Timed := by
  cases i with
  | txPush o =>
    cases o with
    | ok a => exact h.txPush a
    | bad bs => cases hi
  | encode o =>
    cases o with
    | ok a => exact h.encode a
    | bad bs => cases hi
  | rxPacket fwd o =>
    cases o with
    | ok a => exact h.rxPacket fwd a
    | bad bs => cases hi
  | decode o =>
    cases o with
    | ok a => exact h.decode a
    | bad bs => cases hi
  | recode o =>
    cases o with
    | ok a => exact h.recode a
    | bad bs => cases hi
  | changeFragment o =>
    cases o with
    | ok a => exact h.changeFragmentEnding ..
    | bad bs => cases hi
  | _ => cases hi

end

end Sys2Proof.Machine
end

section
/-!
PROOFS. The timer loop of TIME_ADVANCE (40_control R134). Each firing takes one item from the pool or disarms
one flow timer, so that `timerWork` goes down by exactly one (`fire_cases`): the loop ends with nothing due,
and after a firing it is the loop of the state left.
-/

namespace Sys2Proof.Machine

/-! ## Sums over a table -/

section
variable {α : Type} {t : Table α} {key : U16} {a b : α}

/-- The sum of a weight over a table's entries. -/
def Table.sum (w : α → Nat) (t : Table α) : Nat := (t.map fun e => w e.2).sum

theorem Table.sum_put (w : α → Nat) (b : α) (hwf : Table.wf t = true) (h : Table.find key t = some a) :
    Table.sum w (Table.put key b t) + w a = Table.sum w t + w b := by
  induction t with
  | nil => cases h
  | cons e t ih =>
    obtain ⟨k, c⟩ := e
    obtain ⟨hlt, hwf'⟩ := Table.wf_cons.1 hwf
    rw [Table.find_cons] at h
    rw [Table.put]
    by_cases hk : k = key
    · subst hk
      rw [if_pos rfl] at h
      cases h
      rw [if_neg (BitVec.lt_irrefl k), if_pos rfl]
      simp only [Table.sum, List.map_cons, List.sum_cons]
      omega
    · rw [if_neg hk] at h
      have hk' : k < key := hlt _ (Table.mem_of_find h)
      rw [if_neg (BitVec.lt_asymm hk'), if_neg hk]
      have hrec := ih hwf' h
      simp only [Table.sum, List.map_cons, List.sum_cons] at hrec ⊢
      omega

theorem Table.sum_erase (w : α → Nat) (h : Table.find key t = some a) :
    Table.sum w (Table.erase key t) + w a = Table.sum w t := by
  induction t with
  | nil => cases h
  | cons e t ih =>
    obtain ⟨k, c⟩ := e
    rw [Table.find_cons] at h
    rw [Table.erase]
    by_cases hk : k = key
    · rw [if_pos hk] at h
      cases h
      rw [if_pos hk]
      simp only [Table.sum, List.map_cons, List.sum_cons]
      omega
    · rw [if_neg hk] at h
      rw [if_neg hk]
      have hrec := ih h
      simp only [Table.sum, List.map_cons, List.sum_cons] at hrec ⊢
      omega

theorem Table.length_filter_eq_sum (p : α → Bool) (t : Table α) :
    (t.filter fun e => p e.2).length = Table.sum (fun a => if p a then 1 else 0) t := by
  induction t with
  | nil => rfl
  | cons e t ih =>
    rw [List.filter_cons]
    simp only [Table.sum, List.map_cons, List.sum_cons] at ih ⊢
    split
    · rw [List.length_cons, ih, Nat.add_comm]
    · rw [ih, Nat.zero_add]

end

section
variable {s t : State} {u : U64} {g : U16}

/-! ## What is due -/

theorem nextDue_eq_none_iff : s.nextDue u = none ↔ ∀ e ∈ s.armedTimers, ¬ e.1.deadline ≤ u.setWidth 65 := by
  rw [State.nextDue, leastTimer_eq_none, List.filter_eq_nil_iff]
  simp only [decide_eq_true_eq]

/-- What fires next is due, and no armed timer that is due is before it. -/
theorem nextDue_least {e : Timer × Owner} (h : s.nextDue u = some e) : e ∈ s.armedTimers ∧
    e.1.deadline ≤ u.setWidth 65 ∧ ∀ e' ∈ s.armedTimers, e'.1.deadline ≤ u.setWidth 65 →
      e.1.deadline < e'.1.deadline ∨ (e.1.deadline = e'.1.deadline ∧ e.1.seq ≤ e'.1.seq) := by
  obtain ⟨hmem, hdue⟩ := nextDue_mem h
  refine ⟨hmem, hdue, fun e' he' hdue' => ?_⟩
  have hnot := (leastTimer_spec h).2 e' (List.mem_filter.2 ⟨he', decide_eq_true hdue'⟩)
  rw [← Bool.not_eq_true, Timer.before_iff] at hnot
  by_cases hlt : e.1.deadline < e'.1.deadline
  · exact .inl hlt
  · have hnlt : ¬ e'.1.deadline < e.1.deadline := fun hlt' => hnot (.inl hlt')
    have heq : e.1.deadline = e'.1.deadline := by bv_omega
    exact .inr ⟨heq, Nat.not_lt.1 fun hseq => hnot (.inr ⟨heq.symm, hseq⟩)⟩

/-- A due deadline fits NOW. -/
theorem setWidth_deadline {d : BitVec 65} (h : d ≤ u.setWidth 65) : (d.setWidth 64).setWidth 65 = d := by
  have hu := u.isLt
  rw [BitVec.le_def, BitVec.toNat_setWidth] at h
  refine BitVec.eq_of_toNat_eq ?_
  rw [BitVec.toNat_setWidth, BitVec.toNat_setWidth]
  omega

theorem setWidth_deadline_le {d : BitVec 65} (h : d ≤ u.setWidth 65) : d.setWidth 64 ≤ u := by
  have hu := u.isLt
  rw [BitVec.le_def, BitVec.toNat_setWidth] at h ⊢
  omega

/-! ## One firing -/

theorem timerWork_eq (s : State) : s.timerWork =
    s.poolItems + Table.sum (fun f => if f.ft.isSome then 1 else 0) s.flows := by
  rw [State.timerWork, Table.length_filter_eq_sum fun f : FlowRec => f.ft.isSome]
  rfl

theorem poolItems_eq (s : State) : s.poolItems = Table.sum (fun b => b.items.length) s.pool := rfl

/-- A head taken is one item less. -/
theorem poolItems_withoutHeads {b : Bucket} (hwf : Table.wf s.pool = true)
    (hb : Table.find g s.pool = some b) :
    (s.withoutHeads [(g, b)] (Table.erase g s.pool)).poolItems + 1 = s.poolItems := by
  rw [poolItems_eq, poolItems_eq, State.withoutHeads]
  have hb' : b.items.length = b.rest.length + 1 := rfl
  cases hr : b.rest with
  | nil =>
    rw [beheaded_cons_single hr]
    have := Table.sum_erase (fun b : Bucket => b.items.length) hb
    rw [hr] at hb'
    simp only [hb'] at this
    exact this
  | cons x xs =>
    rw [beheaded_cons_more hr]
    simp only [State.beheaded, List.foldr_cons, List.foldr_nil, Table.put_erase hwf]
    have := Table.sum_put (fun b : Bucket => b.items.length) (s.armedBucket x xs) hwf hb
    rw [hr] at hb'
    simp only [hb', List.length_cons, show (s.armedBucket x xs).items.length = xs.length + 1 from rfl] at this
    show Table.sum _ (Table.put g (s.armedBucket x xs) s.pool) + 1 = _
    omega

/-- FLOW_EXPIRE leaves the pool and the queue, disarms its flow and leaves the others. -/
theorem flowExpire_frame {f : FlowRec} (hf : Table.find g s.flows = some f) : ∃ f' draws freeCount outputs,
    f'.ft = none ∧ s.flowExpire g = { s with
      flows := Table.put g f' s.flows, draws, freeCount, outputs } := by
  rw [flowExpire_eq, hf]
  simp only
  split
  · generalize hf' : ({ f with
      ft := none
      k := BitVec.ofNat 8 f.tx.length
      mat := (f.mat.take f.tx.length).map (List.take f.tx.length) } : FlowRec) = f'
    have hft : f'.ft = none := by rw [← hf']
    cases hok : s.encOk f' with
    | true => exact ⟨{ f' with txCounter := f'.txCounter + 1 }, _, _, _, hft, encodeOrKeep_fired g f' hok⟩
    | false => exact ⟨f', s.draws, s.freeCount, s.outputs, hft, encodeOrKeep_notFired g f' hok⟩
  · exact ⟨{ f with ft := none }, s.draws, s.freeCount, s.outputs, rfl, rfl⟩

/-- The state with NOW at the firing timer's deadline. -/
def State.atDeadline (s : State) (tm : Timer) : State := { s with now := tm.deadline.setWidth 64 }

/-- A firing pool timer takes its bucket's head and sends it, or meets a full queue. -/
theorem fire_pool {b : Bucket} (hwf : Table.wf s.pool = true) (hb : Table.find g s.pool = some b) (tm : Timer) :
    s.fire (tm, .pool g) =
      ((s.atDeadline tm).withoutHeads [(g, b)] (Table.erase g s.pool)).pushBatch b.head [] := by
  show (s.atDeadline tm).poolExpire g = _
  rw [poolExpire_eq, takeHead_eq (s := s.atDeadline tm) hwf hb]
  rfl

theorem fire_flow (s : State) (tm : Timer) (g : U16) :
    s.fire (tm, .flow g) = .goOn ((s.atDeadline tm).flowExpire g) := rfl

/-- What a firing that goes on leaves: the tables in form, one unit of work less, NOW at the deadline, and all
of the setup. -/
structure State.Fired (s t : State) (tm : Timer) : Prop where
  keyed : t.Keyed
  work : t.timerWork + 1 = s.timerWork
  room : t.oq.length + t.poolItems = s.oq.length + s.poolItems
  now : t.now = tm.deadline.setWidth 64
  setup : t.setup = s.setup

/-- The owner of an armed timer, in a table. -/
theorem timerOf_cases (hk : s.Keyed) {tm : Timer} {o : Owner} (h : (tm, o) ∈ s.armedTimers) :
    (∃ g b, o = .pool g ∧ Table.find g s.pool = some b ∧ b.timer = tm) ∨
      ∃ g f, o = .flow g ∧ Table.find g s.flows = some f ∧ f.ft = some tm := by
  have ho := (mem_armedTimers hk).1 h
  cases o with
  | pool g =>
    obtain ⟨b, hb, htm⟩ := Option.map_eq_some_iff.1 ho
    exact .inl ⟨g, b, rfl, hb, htm⟩
  | flow g =>
    obtain ⟨f, hf, htm⟩ := Option.bind_eq_some_iff.1 ho
    exact .inr ⟨g, f, rfl, hf, htm⟩

theorem fired_flow (hk : s.Keyed) {f : FlowRec} {tm : Timer} (hf : Table.find g s.flows = some f)
    (hft : f.ft = some tm) : s.Fired ((s.atDeadline tm).flowExpire g) tm := by
  obtain ⟨f', draws, freeCount, outputs, hft', heq⟩ := flowExpire_frame (s := s.atDeadline tm) hf
  rw [heq]
  refine ⟨⟨hk.pool, Table.put_wf hk.flows⟩, ?_, rfl, rfl, rfl⟩
  have hsum := Table.sum_put (fun f : FlowRec => if f.ft.isSome then 1 else 0) f' hk.flows hf
  simp only [hft, hft', Option.isSome_some, Option.isSome_none, if_true, Bool.false_eq_true, if_false] at hsum
  rw [timerWork_eq, timerWork_eq]
  show s.poolItems + Table.sum _ (Table.put g f' s.flows) + 1 = _
  omega

theorem fired_pool (hk : s.Keyed) {b : Bucket} {tm : Timer} (hb : Table.find g s.pool = some b)
    (hroom : s.oq.length ≠ s.params.oqMax) : ∃ t, s.fire (tm, .pool g) = .goOn t ∧ s.Fired t tm := by
  have hitems : State.poolItems ((s.atDeadline tm).withoutHeads [(g, b)] (Table.erase g s.pool)) + 1 =
      s.poolItems := poolItems_withoutHeads (s := s.atDeadline tm) hk.pool hb
  rw [fire_pool hk.pool hb, pushBatch_room (by exact hroom)]
  refine ⟨_, rfl, ⟨withoutHeads_wf (Table.erase_wf hk.pool), hk.flows⟩, ?_, ?_, rfl, rfl⟩
  · rw [timerWork_eq, timerWork_eq]
    show State.poolItems ((s.atDeadline tm).withoutHeads [(g, b)] (Table.erase g s.pool)) +
      Table.sum _ s.flows + 1 = s.poolItems + _
    omega
  · show (s.oq ++ [_]).length + State.poolItems
      ((s.atDeadline tm).withoutHeads [(g, b)] (Table.erase g s.pool)) = s.oq.length + s.poolItems
    rw [List.length_append, List.length_singleton]
    omega

/-- A firing goes on, with one unit of work less, or meets a full queue. -/
theorem fire_cases (hk : s.Keyed) {e : Timer × Owner} (he : e ∈ s.armedTimers) :
    (∃ t, s.fire e = .goOn t ∧ s.Fired t e.1) ∨
      (s.oq.length = s.params.oqMax ∧ 1 ≤ s.poolItems ∧ ∃ t, s.fire e = .capacity t ∧ t.oq = s.oq) := by
  obtain ⟨tm, o⟩ := e
  rcases timerOf_cases hk he with ⟨g, b, rfl, hb, rfl⟩ | ⟨g, f, rfl, hf, hft⟩
  · by_cases hroom : s.oq.length = s.params.oqMax
    · refine .inr ⟨hroom, ?_, (s.atDeadline b.timer).withoutHeads [(g, b)] (Table.erase g s.pool),
        by rw [fire_pool hk.pool hb, pushBatch_full (by exact hroom)], rfl⟩
      rw [← poolItems_withoutHeads hk.pool hb]
      omega
    · exact .inl (fired_pool hk hb hroom)
  · exact .inl ⟨_, fire_flow .., fired_flow hk hf hft⟩

/-! ## The loop -/

/-- With a turn for each unit of work the loop ends with nothing due, or met a full queue; with room for every
item of the pool it meets none. -/
theorem fireDue_spec (n : Nat) (hk : s.Keyed) (hn : s.timerWork ≤ n) :
    (∃ t, State.fireDue n u s = .goOn t ∧ t.Keyed ∧ t.nextDue u = none ∧ t.setup = s.setup) ∨
      (s.params.oqMax < s.oq.length + s.poolItems ∧
        ∃ t, State.fireDue n u s = .capacity t ∧ t.oq.length = s.params.oqMax) := by
  induction n generalizing s with
  | zero =>
    refine .inl ⟨s, rfl, hk, nextDue_eq_none_iff.2 fun e he => ?_, rfl⟩
    rcases fire_cases hk he with ⟨t, -, hfired⟩ | ⟨-, hpos, -⟩
    · have := hfired.work
      omega
    · rw [timerWork_eq] at hn
      omega
  | succ n ih =>
    rw [State.fireDue]
    cases hdue : s.nextDue u with
    | none => exact .inl ⟨s, rfl, hk, hdue, rfl⟩
    | some e =>
      have hmem := (nextDue_mem hdue).1
      simp only
      rcases fire_cases hk hmem with ⟨t, hfire, hfired⟩ | ⟨hfull, hpos, t, hfire, hoq⟩
      · rw [hfire]
        have hpar : t.params = s.params := (congrArg State.params hfired.setup :)
        have hwork := hfired.work
        have hsum := hfired.room
        rcases ih (s := t) hfired.keyed (by omega) with ⟨v, hv, hkv, hnone, hsetup⟩ | ⟨hlt, v, hv, hoq⟩
        · exact .inl ⟨v, hv, hkv, hnone, hsetup.trans hfired.setup⟩
        · rw [hpar] at hlt hoq
          exact .inr ⟨hsum ▸ hlt, v, hv, hoq⟩
      · rw [hfire]
        exact .inr ⟨by omega, t, rfl, hoq ▸ hfull⟩

/-! ## TIME_ADVANCE -/

/-- TIME_ADVANCE to a time not before NOW. -/
theorem exec_timeAdvance (hs : s.Running (.timeAdvance (.ok u))) (hnow : s.now ≤ u) :
    exec (.timeAdvance (.ok u)) s = .next (Ending.finish
      (((State.fireDue s.timerWork u s).andThen fun s' => .goOn { s' with now := u }).respondOk [])) := by
  rw [hs.exec_eq rfl, rule, Args.ending_ok, timeAdvanceBody, if_neg (BitVec.not_lt.2 hnow)]

/-- Settles O23, by `fireDue_spec`. -/
theorem timeAdvanceLeavesNothingDue : Obligations.TimeAdvanceLeavesNothingDue := by
  intro s t hs hpool hflows
  refine ⟨fun hlt => ?_, fun hnow => ?_⟩
  · rw [hs.exec_eq rfl, rule, Args.ending_ok, timeAdvanceBody, if_pos hlt]
    rfl
  rw [exec_timeAdvance hs hnow]
  rcases fireDue_spec (u := t) s.timerWork ⟨hpool, hflows⟩ (Nat.le_refl _) with
    ⟨v, hv, -, hnone, hsetup⟩ | ⟨hlt, v, hv, hoq⟩
  · rw [hv]
    have hf : v.faulted = false := (congrArg State.faulted hsetup :).trans hs.healthy
    have hend : ∀ e ∈ v.armedTimers, t.setWidth 65 < e.1.deadline := fun e he =>
      BitVec.not_le.1 (nextDue_eq_none_iff.1 hnone e he)
    have hgood : State.faulted (State.respond { v with now := t } .ok []) = false ∧
        State.Answered (State.respond { v with now := t } .ok []) .ok ∧
        State.now (State.respond { v with now := t } .ok []) = t ∧
        ∀ e ∈ State.armedTimers (State.respond { v with now := t } .ok []),
          t.setWidth 65 < e.1.deadline := ⟨hf, State.respond_answered .., rfl, hend⟩
    exact ⟨_, rfl, .inr hgood, fun _ => hgood⟩
  · rw [hv]
    exact ⟨_, rfl, .inl ⟨rfl, State.respond_answered .., hoq⟩, fun h => absurd h (Nat.not_le.2 hlt)⟩

/-- After a firing that goes on, TIME_ADVANCE is that of the state left. -/
theorem exec_timeAdvance_fired (hs : s.Running (.timeAdvance (.ok u))) (hnow : s.now ≤ u)
    {e : Timer × Owner} (hdue : s.nextDue u = some e) (hfire : s.fire e = .goOn t) (hfired : s.Fired t e.1) :
    exec (.timeAdvance (.ok u)) s = exec (.timeAdvance (.ok u)) t := by
  have hle := (nextDue_mem hdue).2
  have hsetup := hfired.setup
  have ht : t.Running (.timeAdvance (.ok u)) :=
    { healthy := (congrArg State.faulted hsetup :).trans hs.healthy
      inRun := (congrArg State.phase hsetup :).trans hs.inRun
      fits := (congrArg State.params hsetup :) ▸ hs.fits }
  have hnow' : t.now ≤ u := by
    rw [hfired.now]
    exact setWidth_deadline_le hle
  rw [exec_timeAdvance hs hnow, exec_timeAdvance ht hnow', ← hfired.work, State.fireDue, hdue]
  simp only [hfire]
  rfl

end

/-- Settles O24: `nextDue_least` orders the firings; each is `fire_pool` or `flowExpire_frame`, and
`exec_timeAdvance_fired` goes on from it. -/
theorem timersFireInOrder : Obligations.TimersFireInOrder := by
  intro s t
  refine ⟨fun e he => nextDue_least he, nextDue_eq_none_iff, fun hs hpool hflows hnow => ⟨fun hnone => ?_,
    fun tm who hdue => ?_⟩⟩
  · rw [exec_timeAdvance hs hnow]
    cases s.timerWork with
    | zero => rfl
    | succ n =>
      rw [State.fireDue, hnone]
      rfl
  have hk : s.Keyed := ⟨hpool, hflows⟩
  obtain ⟨hmem, hle⟩ := nextDue_mem hdue
  refine ⟨tm.deadline.setWidth 64, setWidth_deadline hle, ?_, ?_⟩
  · rintro fk rfl
    obtain ⟨b, hb, -⟩ := Option.map_eq_some_iff.1 ((mem_armedTimers hk).1 hmem)
    refine ⟨b, hb, fun hroom => ?_, fun hfull => ?_⟩
    · obtain ⟨s', hfire, hfired⟩ := fired_pool (tm := tm) hk hb hroom
      refine ⟨s', ?_, hfire, exec_timeAdvance_fired hs hnow hdue hfire hfired⟩
      rw [fire_pool hk.pool hb, pushBatch_room (by exact hroom)] at hfire
      exact (Proc.goOn.inj hfire).symm
    · have hwork : s.timerWork = s.timerWork - 1 + 1 := by
        have := poolItems_withoutHeads hk.pool hb
        rw [timerWork_eq]
        omega
      rw [exec_timeAdvance hs hnow, hwork, State.fireDue, hdue]
      simp only
      rw [fire_pool hk.pool hb, pushBatch_full (by exact hfull)]
      rfl
  · rintro g rfl
    obtain ⟨f, hf, hft⟩ := Option.bind_eq_some_iff.1 ((mem_armedTimers hk).1 hmem)
    have hrun := exec_timeAdvance_fired hs hnow hdue (fire_flow s tm g) (fired_flow hk hf hft)
    obtain ⟨f', draws, freeCount, outputs, hft', heq⟩ := flowExpire_frame (s := s.atDeadline tm) hf
    refine ⟨_, f', fire_flow s tm g, hrun, ?_, ?_, hft', fun g' hg' => ?_⟩
    · rw [heq]
      rfl
    · rw [heq]
      exact Table.find_put_self ..
    · rw [heq]
      exact Table.find_put_ne hg' ..

end Sys2Proof.Machine
end

section
/-!
PROOFS. The timers between commands (10_state R23, R31, R32, R35, R48), the life of an item that waits alone
(45_pool R247), and the invariants at reset. A firing keeps the timers right because the least due timer fires
first: every other one is bound to NOW's new value or a later time.
-/

namespace Sys2Proof.Machine

section
variable {s t : State} {u : U64} {g : U16}

/-! ## The clock -/

/-- NOW may move up to the least deadline. -/
theorem State.Timed.setNow (h : s.Timed) {now : U64} (hle : s.now ≤ now)
    (harm : ∀ {o tm}, s.timerOf o = some tm → now.setWidth 65 ≤ tm.deadline) :
    State.Timed { s with now } := by
  refine ⟨⟨h.keyed.pool, h.keyed.flows⟩, fun hb => ?_, fun ho => ⟨harm ho, (h.armed ho).2⟩, h.distinct⟩
  obtain ⟨hbound, hord, hrec⟩ := h.bucket hb
  exact ⟨hbound, hord, fun it hit => BitVec.le_trans (hrec it hit) hle⟩

/-- NOW at the deadline of the timer that fires next: no armed timer lies before it, and NOW not after it. -/
theorem State.Timed.atDeadline (h : s.Timed) {e : Timer × Owner} (hdue : s.nextDue u = some e) :
    (s.atDeadline e.1).Timed ∧ s.now ≤ (s.atDeadline e.1).now ∧ (s.atDeadline e.1).now ≤ u := by
  obtain ⟨hmem, hle, hleast⟩ := nextDue_least hdue
  have hwidth := setWidth_deadline hle
  have hnow : s.now ≤ e.1.deadline.setWidth 64 := by
    have hpast := (h.armed ((mem_armedTimers h.keyed).1 hmem)).1
    rw [← hwidth] at hpast
    have h1 := s.now.isLt
    have h2 := (e.1.deadline.setWidth 64).isLt
    rw [BitVec.le_def, BitVec.toNat_setWidth, BitVec.toNat_setWidth] at hpast
    rw [BitVec.le_def]
    omega
  refine ⟨h.setNow hnow fun {o tm} ho => ?_, hnow, setWidth_deadline_le hle⟩
  rw [hwidth]
  by_cases hd : tm.deadline ≤ u.setWidth 65
  · rcases hleast (tm, o) ((mem_armedTimers h.keyed).2 ho) hd with hlt | ⟨heq, -⟩
    · exact BitVec.le_of_lt hlt
    · exact heq ▸ BitVec.le_refl _
  · exact BitVec.le_trans hle (BitVec.le_of_lt (BitVec.not_le.1 hd))

theorem State.PoolStep.now_eq (h : s.PoolStep t) : t.now = s.now := by
  obtain ⟨_, _, _, _, rfl⟩ := h
  rfl

theorem State.FlowStep.now_eq (h : s.FlowStep g t) : t.now = s.now := by
  obtain ⟨_, _, _, _, _, -, rfl⟩ := h
  rfl

theorem fire_now (s : State) (e : Timer × Owner) : (s.fire e).left.now = (s.atDeadline e.1).now := by
  obtain ⟨tm, o⟩ := e
  cases o with
  | pool fk => exact (poolExpire_step (s.atDeadline tm) fk).now_eq
  | flow g => exact (flowExpire_step (s.atDeadline tm) g).now_eq

theorem State.Timed.fire (h : s.Timed) {e : Timer × Owner} (hdue : s.nextDue u = some e) :
    (s.fire e).left.Timed := by
  have hat := (h.atDeadline hdue).1
  obtain ⟨tm, o⟩ := e
  cases o with
  | pool fk => exact hat.poolExpire fk
  | flow g => exact hat.flowExpire g

/-- The loop keeps the timers right, and moves NOW forward, up to the time given. -/
theorem State.Timed.fireDue (h : s.Timed) (n : Nat) (hnow : s.now ≤ u) :
    (State.fireDue n u s).left.Timed ∧ s.now ≤ (State.fireDue n u s).left.now ∧
      (State.fireDue n u s).left.now ≤ u := by
  induction n generalizing s with
  | zero => exact ⟨h, BitVec.le_refl _, hnow⟩
  | succ n ih =>
    rw [State.fireDue]
    cases hdue : s.nextDue u with
    | none => exact ⟨h, BitVec.le_refl _, hnow⟩
    | some e =>
      have hfire := h.fire hdue
      have heq := fire_now s e
      obtain ⟨-, hforward, hupto⟩ := h.atDeadline hdue
      rw [← heq] at hforward hupto
      simp only
      cases hf : s.fire e with
      | capacity v =>
        rw [hf] at hfire hforward hupto
        exact ⟨hfire, hforward, hupto⟩
      | goOn v =>
        rw [hf] at hfire hforward hupto
        obtain ⟨h1, h2, h3⟩ := ih hfire hupto
        exact ⟨h1, BitVec.le_trans hforward h2, h3⟩

/-- TIME_ADVANCE keeps the timers right, and NOW does not go back. -/
theorem State.Timed.timeAdvance (h : s.Timed) (u : U64) :
    (timeAdvanceBody u s).left.Timed ∧ s.now ≤ (timeAdvanceBody u s).left.now := by
  unfold timeAdvanceBody
  split
  · exact ⟨h, BitVec.le_refl _⟩
  · next hlt =>
    have hnow := BitVec.not_lt.1 hlt
    obtain ⟨h1, h2, h3⟩ := h.fireDue s.timerWork hnow
    rw [Proc.left_respondOk]
    rcases fireDue_spec (u := u) s.timerWork h.keyed (Nat.le_refl _) with
      ⟨v, hv, hkv, hnone, -⟩ | ⟨-, v, hv, -⟩ <;> rw [hv] at h1 h2 h3 ⊢
    · refine ⟨h1.setNow h3 fun ho => ?_, hnow⟩
      exact BitVec.le_of_lt (BitVec.not_le.1
        (nextDue_eq_none_iff.1 hnone _ ((mem_armedTimers hkv).2 ho)))
    · exact ⟨h1, h2⟩

/-! ## Every command -/

theorem State.Timed.poolInsert (h : s.Timed) (native : Bool) (a : PoolInsertArgs) :
    (poolInsertBody native a s).left.Timed ∨ ∃ v, poolInsertBody native a s = .capacity v ∧ v.Keyed := by
  unfold poolInsertBody
  split
  · exact .inl h
  · simp only
    split
    · rw [Proc.left_respondOk]
      exact .inl (h.pushBatch ..)
    · rcases h.insertItem (s.itemOf_ts native a) with hins | ⟨v, hcap, hkv⟩
      · rw [Proc.left_respondOk]
        exact .inl (Proc.andThen_left (R := fun s t => s.Timed → t.Timed) (fun h1 h2 h => h2 (h1 h))
          (fun _ => hins) (fun s' h' => h'.search _) (s := s) h)
      · rw [hcap]
        exact .inr ⟨v, rfl, hkv⟩

/-- A RUN command keeps the timers right, but for a capacity fault of POOL_INSERT, which keeps the tables'
form. -/
theorem State.Timed.rule (h : s.Timed) {i : Instr} (hn : phaseNeed i = .run) :
    (rule i s).left.Timed ∨ ∃ v, rule i s = .capacity v ∧ v.Keyed := by
  rcases rule_run_cases s hn with ⟨d, c, heq⟩ | ⟨g, hg⟩ | ⟨native, a, rfl⟩ | ⟨b, oq, -, heq⟩ | ⟨u, rfl⟩
  · rw [heq]
    exact .inl (h.of_eq rfl rfl rfl rfl rfl)
  · exact .inl (h.writesFlow hg)
  · exact h.poolInsert native a
  · rw [heq]
    exact .inl (h.of_eq rfl rfl rfl rfl rfl)
  · exact .inl (h.timeAdvance u).1

theorem State.TimeInv.keyed (h : s.TimeInv) : s.Keyed := ⟨h.poolKeys, h.flowKeys⟩

theorem State.TimeInv.timed (h : s.TimeInv) (hf : s.faulted = false) : s.Timed :=
  (timed_iff h.keyed).2 (h.clocks hf)

/-- Without buckets and flows no timer is armed. -/
theorem State.TimeInv.of_empty (hpool : s.pool = []) (hflows : s.flows = []) : s.TimeInv := by
  have hk : s.Keyed := ⟨by rw [hpool]; rfl, by rw [hflows]; rfl⟩
  have hnone : ∀ o, s.timerOf o = none := fun o => by
    cases o with
    | pool fk => rw [State.timerOf, hpool]; rfl
    | flow g => rw [State.timerOf, hflows]; rfl
  refine ⟨hk.pool, hk.flows, fun _ => (timed_iff hk).1 ⟨hk, fun hb => ?_, fun ho => ?_, fun ho => ?_⟩,
    fun _ => ⟨hpool, hflows⟩⟩
  · rw [hpool] at hb
    cases hb
  · rw [hnone] at ho
    cases ho
  · rw [hnone] at ho
    cases ho

theorem State.TimeInv.applyReset (s : State) : s.applyReset.TimeInv := .of_empty rfl rfl

/-- In RUN the timers' invariant is that of the tables and, when healthy, the clocks. -/
theorem State.TimeInv.of_run (hk : s.Keyed) (hrun : s.phase = .run) (h : s.faulted = false → s.Timed) :
    s.TimeInv :=
  ⟨hk.pool, hk.flows, fun hf => (timed_iff hk).1 (h hf), fun hc => absurd (hrun.symm.trans hc) (by decide)⟩

end

/-- Settles O22, by the kinds of step (`step_invariant`); in CONFIG no timer is armed. -/
theorem stepKeepsTimeInv : Obligations.StepKeepsTimeInv := by
  refine fun s t hs h => step_invariant hs h (fun s cmdIn outputs hs => ?_) (.applyReset s)
    (fun s r v hs hc _ _ => ?_) (fun s hs hc _ _ _ => ?_) fun s i hs hrun hf hn => ?_
  · exact ⟨hs.poolKeys, hs.flowKeys,
      fun hf => (timed_iff (s := { s with cmdIn, outputs }) ⟨hs.poolKeys, hs.flowKeys⟩).1
        ((hs.timed hf).of_eq rfl rfl rfl rfl rfl), hs.fresh⟩
  · obtain ⟨hpool, hflows⟩ := hs.fresh hc
    exact .of_empty (by cases r <;> exact hpool) (by cases r <;> exact hflows)
  · obtain ⟨hpool, hflows⟩ := hs.fresh hc
    exact .of_empty hpool hflows
  · have hphase : (rule i s).finish.phase = .run := by
      obtain ⟨_, _, _, _, _, _, _, _, hleft⟩ := rule_step (i := i) s (by simp [hn])
      rw [Ending.finish_phase, hleft]
      exact hrun
    obtain ⟨faulted, fcode, outputs, hfin⟩ := (rule i s).finish_frame
    rcases (hs.timed hf).rule hn with htimed | ⟨v, hcap, hkv⟩
    · have ht : (rule i s).finish.Timed := by
        rw [hfin]
        exact State.Timed.of_eq (t := { (rule i s).left with faulted, fcode, outputs }) htimed
          rfl rfl rfl rfl rfl
      exact .of_run ht.keyed hphase fun _ => ht
    · rw [hcap] at hphase ⊢
      refine .of_run ⟨hkv.pool, hkv.flows⟩ hphase fun hf' => ?_
      cases hf'

/-! ## NOW -/

/-- A command that is no TIME_ADVANCE leaves NOW. -/
theorem exec_now {i : Instr} {s t : State} (h : exec i s = .next t) :
    t.now = s.now ∨ ∃ u, i = .timeAdvance (.ok u) ∧ s.faulted = false ∧ t = (rule i s).finish := by
  rcases exec_kinds h with ⟨st, b, rfl⟩ | ⟨-, r, v, -, -, rfl⟩ | ⟨-, -, -, -, rfl⟩ | ⟨-, hf, hn, rfl⟩
  · exact .inl rfl
  · exact .inl (by cases r <;> rfl)
  · exact .inl rfl
  · obtain ⟨_, _, _, hfin⟩ := (rule i s).finish_frame
    have hnow : (rule i s).finish.now = (rule i s).left.now := by rw [hfin]
    rcases rule_run_cases s hn with ⟨d, c, heq⟩ | ⟨g, hg⟩ | ⟨native, a, rfl⟩ | ⟨b, oq, -, heq⟩ | ⟨u, rfl⟩
    · exact .inl (by rw [hnow, heq])
    · exact .inl (hnow.trans (rule_flowStep s hg).now_eq)
    · exact .inl (hnow.trans (poolInsertBody_step ..).now_eq)
    · exact .inl (by rw [hnow, heq])
    · exact .inr ⟨u, rfl, hf, rfl⟩

/-- Settles O21, by the kinds of step; TIME_ADVANCE moves NOW forward (`Timed.timeAdvance`). -/
theorem nowMovesOnlyForward : Obligations.NowMovesOnlyForward := by
  intro s t hs hreset h
  have same : ∀ {P : Prop} {t : State}, t.now = s.now → s.now ≤ t.now ∧ (t.now ≠ s.now → P) :=
    fun heq => ⟨heq ▸ BitVec.le_refl _, fun hne => absurd heq hne⟩
  rcases step_cases h with ⟨hpin, -⟩ | ⟨-, -, rfl⟩ | ⟨-, opc, why, rest, -, rfl⟩ | ⟨-, i, rest, hfetch, he⟩
  · rw [hpin] at hreset
    cases hreset
  · exact same rfl
  · obtain ⟨st, hst⟩ := rejectIllegal_cases { s with cmdIn := rest } opc
    rw [hst]
    exact same rfl
  · rcases exec_now he with heq | ⟨u, rfl, hf, rfl⟩
    · exact same heq
    · refine ⟨?_, fun _ => ⟨_, rest, hfetch⟩⟩
      obtain ⟨_, _, _, hfin⟩ := (rule (.timeAdvance (.ok u)) { s with cmdIn := rest }).finish_frame
      have htimed : State.Timed { s with cmdIn := rest } := (hs.timed hf).of_eq rfl rfl rfl rfl rfl
      rw [hfin]
      exact (htimed.timeAdvance u).2

/-! ## An item alone -/

section
variable {s : State} {u : U64} {g : U16}

/-- A firing flow timer leaves the pool and the queue. -/
theorem fire_flow_tables {f : FlowRec} {tm : Timer} (hf : Table.find g s.flows = some f) :
    ((s.atDeadline tm).flowExpire g).pool = s.pool ∧ ((s.atDeadline tm).flowExpire g).oq = s.oq := by
  obtain ⟨_, _, _, _, -, heq⟩ := flowExpire_frame (s := s.atDeadline tm) hf
  rw [heq]
  exact ⟨rfl, rfl⟩

/-- With one bucket in the pool its timer fires, or a flow timer. -/
theorem fire_alone (hk : s.Keyed) {b : Bucket} (hpool : s.pool = [(g, b)]) {e : Timer × Owner}
    (hdue : s.nextDue u = some e) : e = (b.timer, .pool g) ∨
      ∃ t, s.fire e = .goOn t ∧ s.Fired t e.1 ∧ t.pool = s.pool ∧ t.oq = s.oq := by
  obtain ⟨tm, o⟩ := e
  rcases timerOf_cases hk (nextDue_mem hdue).1 with ⟨g', b', rfl, hb, rfl⟩ | ⟨g', f, rfl, hf, hft⟩
  · rw [hpool, Table.find_cons] at hb
    split at hb
    · next hg =>
      cases hb
      exact .inl (by rw [hg])
    · cases hb
  · exact .inr ⟨_, fire_flow .., fired_flow hk hf hft, fire_flow_tables hf⟩

/-- The loop over an empty pool leaves it and the queue. -/
theorem fireDue_empty (n : Nat) (hk : s.Keyed) (hpool : s.pool = []) :
    ∃ t, State.fireDue n u s = .goOn t ∧ t.oq = s.oq ∧ t.pool = [] := by
  induction n generalizing s with
  | zero => exact ⟨s, rfl, rfl, hpool⟩
  | succ n ih =>
    rw [State.fireDue]
    cases hdue : s.nextDue u with
    | none => exact ⟨s, rfl, rfl, hpool⟩
    | some e =>
      obtain ⟨tm, o⟩ := e
      rcases timerOf_cases hk (nextDue_mem hdue).1 with ⟨g, b, -, hb, -⟩ | ⟨g, f, rfl, hf, hft⟩
      · rw [hpool] at hb
        cases hb
      · obtain ⟨hp, ho⟩ := fire_flow_tables (tm := tm) hf
        obtain ⟨v, hv, hvo, hvp⟩ := ih (fired_flow hk hf hft).keyed (hp.trans hpool)
        exact ⟨v, hv, hvo.trans ho, hvp⟩

/-- The loop over a pool of one item: the item is sent exactly when its timer is due. -/
theorem fireDue_alone (n : Nat) (hk : s.Keyed) {b : Bucket} (hpool : s.pool = [(g, b)]) (hb : b.rest = [])
    (hroom : s.oq.length ≠ s.params.oqMax) (hn : s.timerWork ≤ n) :
    ∃ t, State.fireDue n u s = .goOn t ∧
      (¬ b.timer.deadline ≤ u.setWidth 65 → t.oq = s.oq ∧ t.pool = [(g, b)]) ∧
      (b.timer.deadline ≤ u.setWidth 65 →
        t.oq = s.oq ++ [{ first := b.head, others := [], oldest := b.head.ts }] ∧ t.pool = []) := by
  have hfind : Table.find g s.pool = some b := by rw [hpool, Table.find_cons, if_pos rfl]
  have harmed : (b.timer, Owner.pool g) ∈ s.armedTimers :=
    (mem_armedTimers hk).2 (by rw [State.timerOf, hfind]; rfl)
  induction n generalizing s with
  | zero =>
    have := poolItems_withoutHeads hk.pool hfind
    rw [timerWork_eq] at hn
    omega
  | succ n ih =>
    rw [State.fireDue]
    cases hdue : s.nextDue u with
    | none => exact ⟨s, rfl, fun _ => ⟨rfl, hpool⟩, fun h => absurd h (nextDue_eq_none_iff.1 hdue _ harmed)⟩
    | some e =>
      simp only
      rcases fire_alone hk hpool hdue with rfl | ⟨t, hfire, hfired, hp, ho⟩
      · have hle := (nextDue_mem hdue).2
        have hfire : s.fire (b.timer, .pool g) = .goOn (State.emit { s.atDeadline b.timer with
            pool := []
            oq := s.oq ++ [{ first := b.head, others := [], oldest := b.head.ts }] } .send) := by
          rw [fire_pool hk.pool hfind, pushBatch_room (by exact hroom), State.withoutHeads,
            beheaded_cons_single hb, hpool, Table.erase, if_pos rfl]
          rfl
        rw [hfire]
        obtain ⟨v, hv, hvo, hvp⟩ := fireDue_empty (u := u) n (s := State.emit { s.atDeadline b.timer with
            pool := []
            oq := s.oq ++ [{ first := b.head, others := [], oldest := b.head.ts }] } .send)
          ⟨rfl, hk.flows⟩ rfl
        exact ⟨v, hv, fun h => absurd hle h, fun _ => ⟨hvo, hvp⟩⟩
      · rw [hfire]
        have hpar : t.params = s.params := (congrArg State.params hfired.setup :)
        have hwork := hfired.work
        have hp' := hp.trans hpool
        have hfind' : Table.find g t.pool = some b := hp ▸ hfind
        obtain ⟨v, hv, h1, h2⟩ := ih hfired.keyed hp' (by rwa [ho, hpar]) (by omega) hfind'
          ((mem_armedTimers hfired.keyed).2 (by rw [State.timerOf, hfind']; rfl))
        rw [ho] at h1 h2
        exact ⟨v, hv, h1, h2⟩

end

/-- Settles O25: the insertion arms the item's timer at T + D (`insertIntoOneBucket`), and the loop sends it
exactly when that is due (`fireDue_alone`). -/
theorem evictionTimeLaw : Obligations.EvictionTimeLaw := by
  intro s native a t hins hadv hpool hflows hmbs hmax hoq hlen hnow
  have h1 := ((insertIntoOneBucket s native a hins).2 hlen hmbs).1 hpool hmax
  have hd : (BitVec.ofNat 65 (s.now.toNat + s.btoInter.toNat)) ≤ t.setWidth 65 ↔
      s.now.toNat + s.btoInter.toNat ≤ t.toNat := by
    have h2 := s.now.isLt
    have h3 := s.btoInter.isLt
    have h4 := t.isLt
    rw [BitVec.le_def, BitVec.toNat_setWidth, BitVec.toNat_ofNat, Nat.mod_eq_of_lt (by omega),
      Nat.mod_eq_of_lt (by omega)]
  generalize hs1 : State.respond _ Status.ok [] = s1 at h1
  have hnow1 : s1.now = s.now := by rw [← hs1]; rfl
  have hoq1 : s1.oq = s.oq := by rw [← hs1]; rfl
  have hpar1 : s1.params = s.params := by rw [← hs1]; rfl
  have hrun : s1.Running (.timeAdvance (.ok t)) := by
    rw [← hs1]
    exact ⟨hadv.healthy, hadv.inRun, hadv.fits⟩
  have hpool1 : s1.pool = [(flowKey s.params a.src a.dst a.sport a.dport,
      { head := s.itemOf native a
        rest := []
        timer := { deadline := BitVec.ofNat 65 (s.now.toNat + s.btoInter.toNat), seq := s.tseq } })] := by
    rw [← hs1]
    rfl
  have hkeyed : s1.Keyed := ⟨by rw [hpool1]; simp [Table.wf], by rw [← hs1]; exact hflows⟩
  obtain ⟨v, hv, hbefore, hafter⟩ := fireDue_alone (u := t) s1.timerWork hkeyed hpool1 rfl
    (by rwa [hoq1, hpar1]) (Nat.le_refl _)
  rw [hoq1] at hbefore hafter
  refine ⟨s1, State.respond { v with now := t } .ok [], h1,
    by rw [exec_timeAdvance hrun (hnow1 ▸ hnow), hv]; rfl, hoq1, rfl, fun hlt => ?_,
    fun hge => hafter (hd.2 hge)⟩
  rw [hpool1]
  exact hbefore fun hle => absurd (hd.1 hle) (Nat.not_le.2 hlt)

/-- Settles O60: at reset the registers are 0 or their reset values and the tables empty. -/
theorem invariantsHoldAtReset : Obligations.InvariantsHoldAtReset :=
  ⟨.applyReset State.reset, .applyReset State.reset, .applyReset State.reset, .applyReset State.reset⟩

end Sys2Proof.Machine
end
